-- ==== Sys2Proof/Word.lean ====
section
/-! DEFINITION. The machine's data widths (00_scope.md R6, R8). -/

namespace Sys2Proof

/-- A 64-bit register or memory word: `XLEN = 64` (R6). -/
abbrev Word := BitVec 64

/-- One byte of a stream, and one 8-bit field of STATUS or CMD. -/
abbrev Byte := BitVec 8

/-- `LMAX = 2^63 - 1`, the largest `s64` value (R8). -/
abbrev lmax : Nat := 9223372036854775807

end Sys2Proof
end

