-- ==== Sys2Proof/Syntax.lean ====
section
/-! DEFINITION. The command set: one constructor per row of 30_encoding.md R123. -/

namespace Sys2Proof

/-- A command with the fields of its command word it reads: `n` is the count field N, `slot` the slot index
SLOT (30_encoding.md R121). The operands in `A`, `B`, `C` are registers, not part of the word (R122). -/
inductive Instr where
  | sreset
  | wBit
  | wBits (n : Nat)
  | wByte
  | wAlign
  | wClose
  | wSync
  | rBit
  | rBits (n : Nat)
  | rByte
  | rAlign
  | rSync
  | bndE
  | bndD
  | uvbE (n : Nat)
  | uvbD (n : Nat)
  | svbE (n : Nat)
  | svbD (n : Nat)
  | vbyE
  | vbyD
  | usaE
  | usaD
  | usanE
  | usanD
  | aeReset (n : Nat)
  | aeEnc
  | aeFin
  | adReset (n : Nat)
  | adDec
  | ceInit (slot : Nat)
  | ceEnc (slot : Nat)
  | ceFin (slot : Nat)
  | cdInit (slot : Nat)
  | cdDec (slot : Nat)
  | heInit (n slot : Nat)
  | heEnc (slot : Nat)
  | heFin (slot : Nat)
  | hdInit (n slot : Nat)
  | hdDec (slot : Nat)
deriving DecidableEq, Repr

/-- The opcode of a command (30_encoding.md R123). -/
def Instr.opcode : Instr → Nat
  | .sreset => 0x01
  | .wBit => 0x10
  | .wBits _ => 0x11
  | .wByte => 0x12
  | .wAlign => 0x13
  | .wClose => 0x14
  | .wSync => 0x15
  | .rBit => 0x20
  | .rBits _ => 0x21
  | .rByte => 0x22
  | .rAlign => 0x23
  | .rSync => 0x24
  | .bndE => 0x30
  | .bndD => 0x31
  | .uvbE _ => 0x32
  | .uvbD _ => 0x33
  | .svbE _ => 0x34
  | .svbD _ => 0x35
  | .vbyE => 0x36
  | .vbyD => 0x37
  | .usaE => 0x40
  | .usaD => 0x41
  | .usanE => 0x42
  | .usanD => 0x43
  | .aeReset _ => 0x50
  | .aeEnc => 0x51
  | .aeFin => 0x52
  | .adReset _ => 0x58
  | .adDec => 0x59
  | .ceInit _ => 0x60
  | .ceEnc _ => 0x61
  | .ceFin _ => 0x62
  | .cdInit _ => 0x68
  | .cdDec _ => 0x69
  | .heInit _ _ => 0x70
  | .heEnc _ => 0x71
  | .heFin _ => 0x72
  | .hdInit _ _ => 0x78
  | .hdDec _ => 0x79

/-- The value of the field N: what the command reads, else 0 (R123, R124). -/
def Instr.nField : Instr → Nat
  | .wBits n | .rBits n | .uvbE n | .uvbD n | .svbE n | .svbD n | .aeReset n | .adReset n => n
  | .heInit n _ | .hdInit n _ => n
  | .sreset | .wBit | .wByte | .wAlign | .wClose | .wSync | .rBit | .rByte | .rAlign | .rSync => 0
  | .bndE | .bndD | .vbyE | .vbyD | .usaE | .usaD | .usanE | .usanD | .aeEnc | .aeFin | .adDec => 0
  | .ceInit _ | .ceEnc _ | .ceFin _ | .cdInit _ | .cdDec _ | .heEnc _ | .heFin _ | .hdDec _ => 0

/-- The value of the field SLOT: what the command reads, else 0 (R123, R124). -/
def Instr.slotField : Instr → Nat
  | .ceInit s | .ceEnc s | .ceFin s | .cdInit s | .cdDec s | .heEnc s | .heFin s | .hdDec s => s
  | .heInit _ s | .hdInit _ s => s
  | .sreset | .wBit | .wByte | .wAlign | .wClose | .wSync | .rBit | .rByte | .rAlign | .rSync => 0
  | .wBits _ | .rBits _ | .uvbE _ | .uvbD _ | .svbE _ | .svbD _ | .aeReset _ | .adReset _ => 0
  | .bndE | .bndD | .vbyE | .vbyD | .usaE | .usaD | .usanE | .usanD | .aeEnc | .aeFin | .adDec => 0

end Sys2Proof
end

