-- ==== Sys2Proof/WellFormed.lean ====
section
/-! DEFINITION. Which commands a command word can hold: the 8-bit fields of 30_encoding.md R121. -/

namespace Sys2Proof

/-- Both fields fit in their 8 bits (30_encoding.md R121). Range limits inside the 8 bits are the command's own
checks, not encoding limits (R125). -/
def Instr.wellFormed (i : Instr) : Bool :=
  decide (i.nField < 256) && decide (i.slotField < 256)

end Sys2Proof
end

