-- ==== Sys2Proof/Decode.lean ====
section
/-! DEFINITION. Decoding a command word (30_encoding.md R121, R123, R124, R126) and, after it, the encoder. -/

namespace Sys2Proof

/-- Why a command word is illegal (30_encoding.md R124). Every one raises `ILLEGAL_COMMAND`. -/
inductive DecodeError where
  | reservedBits
  | unknownOpcode
  | nNotRead
  | slotNotRead
deriving DecidableEq, Repr

/-- The field OP, bits 7:0 (R121). -/
def opField (w : Word) : Nat := w.toNat % 256

/-- The field N, bits 15:8, as an unsigned value (R121). -/
def nFieldOf (w : Word) : Nat := w.toNat / 256 % 256

/-- The field SLOT, bits 23:16, as an unsigned value (R121). -/
def slotFieldOf (w : Word) : Nat := w.toNat / 65536 % 256

/-- The reserved bits 63:24 (R121). -/
def reservedField (w : Word) : Nat := w.toNat / 16777216

/-- A command that reads neither field: both must be 0 (R124). -/
def readsNone (n slot : Nat) (i : Instr) : Except DecodeError Instr :=
  if n ≠ 0 then .error .nNotRead else if slot ≠ 0 then .error .slotNotRead else .ok i

/-- A command that reads N only: SLOT must be 0 (R124). -/
def readsN (slot : Nat) (i : Instr) : Except DecodeError Instr :=
  if slot ≠ 0 then .error .slotNotRead else .ok i

/-- A command that reads SLOT only: N must be 0 (R124). -/
def readsSlot (n : Nat) (i : Instr) : Except DecodeError Instr :=
  if n ≠ 0 then .error .nNotRead else .ok i

/-- The opcode map of R123 with the zero checks of R124. -/
def decodeOp (op n slot : Nat) : Except DecodeError Instr :=
  match op with
  | 0x01 => readsNone n slot .sreset
  | 0x10 => readsNone n slot .wBit
  | 0x11 => readsN slot (.wBits n)
  | 0x12 => readsNone n slot .wByte
  | 0x13 => readsNone n slot .wAlign
  | 0x14 => readsNone n slot .wClose
  | 0x15 => readsNone n slot .wSync
  | 0x20 => readsNone n slot .rBit
  | 0x21 => readsN slot (.rBits n)
  | 0x22 => readsNone n slot .rByte
  | 0x23 => readsNone n slot .rAlign
  | 0x24 => readsNone n slot .rSync
  | 0x30 => readsNone n slot .bndE
  | 0x31 => readsNone n slot .bndD
  | 0x32 => readsN slot (.uvbE n)
  | 0x33 => readsN slot (.uvbD n)
  | 0x34 => readsN slot (.svbE n)
  | 0x35 => readsN slot (.svbD n)
  | 0x36 => readsNone n slot .vbyE
  | 0x37 => readsNone n slot .vbyD
  | 0x40 => readsNone n slot .usaE
  | 0x41 => readsNone n slot .usaD
  | 0x42 => readsNone n slot .usanE
  | 0x43 => readsNone n slot .usanD
  | 0x50 => readsN slot (.aeReset n)
  | 0x51 => readsNone n slot .aeEnc
  | 0x52 => readsNone n slot .aeFin
  | 0x58 => readsN slot (.adReset n)
  | 0x59 => readsNone n slot .adDec
  | 0x60 => readsSlot n (.ceInit slot)
  | 0x61 => readsSlot n (.ceEnc slot)
  | 0x62 => readsSlot n (.ceFin slot)
  | 0x68 => readsSlot n (.cdInit slot)
  | 0x69 => readsSlot n (.cdDec slot)
  | 0x70 => .ok (.heInit n slot)
  | 0x71 => readsSlot n (.heEnc slot)
  | 0x72 => readsSlot n (.heFin slot)
  | 0x78 => .ok (.hdInit n slot)
  | 0x79 => readsSlot n (.hdDec slot)
  | _ => .error .unknownOpcode

/-- Decodes a command word: total, an illegal word is rejected by the reason (R124, R126). -/
def decode (w : Word) : Except DecodeError Instr :=
  if reservedField w ≠ 0 then .error .reservedBits
  else decodeOp (opField w) (nFieldOf w) (slotFieldOf w)

/-- The instruction the decoder reads from `nbits` bits `w`; every bit of CMD above them is 0. The block has no
instruction memory (10_state.md R59): the word is the 64-bit value the host writes to CMD. -/
def decodeTableWord (nbits w : Nat) : Option Instr :=
  match decode (BitVec.ofNat 64 (w % 2 ^ nbits)) with
  | .ok i => some i
  | .error _ => none

/-- The command word of a command: `CMD = (SLOT << 16) | (N << 8) | OP` (R127), bits 63:24 zero (R121). -/
def encode (i : Instr) : Word :=
  BitVec.ofNat 64 (i.slotField * 65536 + i.nField * 256 + i.opcode)

end Sys2Proof
end

