-- ==== Sys2Proof/Machine/Types.lean ====
section
/-! DEFINITION. The plain data types State is made of: error codes, STATUS, the coder units, the slots and the host's moves. -/

namespace Sys2Proof.Machine

/-- The error names of 60_exceptions.md R400; their codes are `ErrCode.code`. -/
inductive ErrCode where
  | illegalCommand
  | invalidArgument
  | invalidState
  | symbolNotSeen
  | endOfStream
  | realignment
  | truncation
  | syncMismatch
  | uniquenessViolation
  | precisionBudget
  | overflow
  | resource
  | capacity
deriving DecidableEq, Repr

/-- The fields of STATUS (10_state.md R43). The reserved bits are not stored: `Status.word` reads them as 0. -/
structure Status where
  busy : Bool
  fault : Bool
  err : Byte
  errOp : Byte
deriving DecidableEq, Repr, Inhabited

/-- The engine's state (10_state.md R58), a view of STATUS. -/
inductive EngineState where
  | ready
  | busy
  | fault
deriving DecidableEq, Repr

/-- `AE_STATE` (10_state.md R51). -/
inductive AeMode where
  | idle
  | active
  | finished
deriving DecidableEq, Repr, Inhabited

/-- The arithmetic encoder `AE` (10_state.md R51). -/
structure ArithEnc where
  mode : AeMode
  w : Nat
  low : Nat
  high : Nat
  uf : Nat
  coded : Bool
deriving DecidableEq, Repr, Inhabited

/-- `AD_STATE` (10_state.md R52). -/
inductive AdMode where
  | idle
  | active
deriving DecidableEq, Repr, Inhabited

/-- The arithmetic decoder `AD` (10_state.md R52). -/
structure ArithDec where
  mode : AdMode
  w : Nat
  low : Nat
  high : Nat
  code : Nat
  filled : Bool
deriving DecidableEq, Repr, Inhabited

/-- The pass of a two-pass encoder slot (10_state.md R53, R55). -/
inductive Pass where
  | idle
  | pass1
  | pass2
  | done
deriving DecidableEq, Repr, Inhabited

/-- A context encoder slot `CE[k]` (10_state.md R53). `freq` lists (symbol, count) with symbols strictly rising. -/
structure CeSlot where
  pass : Pass
  freq : List (Nat × Nat)
  syms : List Nat
  cum : List Nat
deriving DecidableEq, Repr, Inhabited

/-- A context decoder slot `CD[k]` (10_state.md R54). -/
inductive CdSlot where
  | idle
  | ready (syms cum : List Nat)
deriving DecidableEq, Repr, Inhabited

/-- A Huffman tree: an internal node has two children, a leaf holds a symbol (10_state.md R56). -/
inductive HTree where
  | leaf (sym : Int)
  | node (child0 child1 : HTree)
deriving DecidableEq, Repr, Inhabited

/-- A Huffman encoder slot `HE[k]` (10_state.md R55). `freq` lists (symbol, count) in first-seen order,
so `ORDER` is its first components (log 21). -/
structure HeSlot where
  pass : Pass
  freq : List (Int × Nat)
  codes : List (Int × List Bool)
deriving DecidableEq, Repr, Inhabited

/-- A Huffman decoder slot `HD[k]` (10_state.md R56). -/
inductive HdSlot where
  | idle
  | empty
  | ready (tree : HTree)
deriving DecidableEq, Repr, Inhabited

/-- What the host may do to the block (20_memory.md R81, 70_reset_and_hazards.md R440, R442). A port is bound
together with the index of its access that will fail, if any (20_memory.md R96, log 6). -/
inductive HostMove where
  | write (offset : Nat) (value : Word)
  | read (offset : Nat)
  | bindSource (bytes : List Byte) (failAt : Option Nat)
  | bindSink (failAt : Option Nat)
  | reset
deriving DecidableEq, Repr

/-- One listed word of the array memory ARR: its index and its value (20_memory.md R83). -/
abbrev ArrCell := Nat × Word

end Sys2Proof.Machine
end

