-- ==== Sys2Proof/Config.lean ====
section
/-! DEFINITION. What the spec leaves open: the OPEN parameters (00_scope.md R6) and the free values
(93_implementation_defined.md). A free value is a constant with no body, applied to State's counter `draws`. -/

namespace Sys2Proof.Config

open Sys2Proof Sys2Proof.Machine

/-- The OPEN parameters of 00_scope.md R6. -/
structure Params where
  graceBytes : Nat
  arrWords : Nat
  nSlots : Nat
  slotSyms : Nat
  ufMax : Nat
deriving DecidableEq, Repr

/-- The legal ranges of the parameters (00_scope.md R6). -/
def Params.legal (p : Params) : Bool :=
  decide (1 ≤ p.arrWords) && decide (1 ≤ p.nSlots) && decide (p.nSlots ≤ 256) &&
    decide (2 ≤ p.slotSyms) && decide (1 ≤ p.ufMax)

/-- DESIGN CHOICE (log 1): the parameter values 95_test_vectors.md uses. -/
def vectorParams : Params :=
  { graceBytes := 0, arrWords := 256, nSlots := 4, slotSyms := 64, ufMax := 4294967295 }

/-- I1: the value of ARR word `i` when it is read and nothing has written it since reset. -/
opaque arrUnwritten (i n : Nat) : Word

/-- I2: where in its range the commit count K lands at the end of a command. -/
opaque commitDraw (n : Nat) : Nat

/-- I3: where in its range PULLED lands at the end of a command. -/
opaque pullDraw (n : Nat) : Nat

/-- I8: the stream position at which a port failure is met (log 7). -/
opaque resourceInfo (n : Nat) : Nat

/-- I10: whether a STATUS read of the host lands before the executing command ends. -/
opaque pollLandsFirst (n : Nat) : Bool

/-- I11: how much of what the abandoned command would have committed is in the sink. -/
opaque abandonSink (n : Nat) : Nat

/-- I11: how much of what the abandoned command would have pulled is gone from the source. -/
opaque abandonSource (n : Nat) : Nat

/-! I7: the elements a failing command could write, after a late error (60_exceptions.md R405). -/

/-- The bits found appended to WBITS. -/
opaque lateBits (n : Nat) : List Bool
/-- Where in its range K lands. -/
opaque lateCommit (n : Nat) : Nat
/-- RPOS. -/
opaque lateRpos (n : Nat) : Nat
/-- Where in its range PULLED lands. -/
opaque latePulled (n : Nat) : Nat
/-- R. -/
opaque lateR (n : Nat) : Word
/-- W_CLOSED. -/
opaque lateClosed (n : Nat) : Bool
/-- The arithmetic encoder. -/
opaque lateAe (n : Nat) : ArithEnc
/-- The arithmetic decoder. -/
opaque lateAd (n : Nat) : ArithDec
/-- The command's context encoder slot. -/
opaque lateCe (n : Nat) : CeSlot
/-- The command's context decoder slot. -/
opaque lateCd (n : Nat) : CdSlot
/-- The command's Huffman encoder slot. -/
opaque lateHe (n : Nat) : HeSlot
/-- The command's Huffman decoder slot. -/
opaque lateHd (n : Nat) : HdSlot
/-- ARR word `i` of the command's window. -/
opaque lateArr (i n : Nat) : Word

end Sys2Proof.Config
end

