-- ==== Sys2Proof/Machine/State.lean ====
section
/-! DEFINITION. The whole state of the block (10_state.md), why a step can stop, and the state right after reset (R61). -/

namespace Sys2Proof.Machine

open Sys2Proof Sys2Proof.Config

/-- Everything the spec gives the machine (10_state.md R41 to R58), its OPEN parameters (00_scope.md R6), the host
and port inputs, and the model's own `readData` and `draws`. Plain data. -/
structure State where
  /-- The OPEN parameters (00_scope.md R6, log 1); no step changes them. -/
  params : Params
  /-- Operand registers A, B, C (R41). -/
  a : Word
  b : Word
  c : Word
  /-- Result register R (R42). -/
  r : Word
  /-- STATUS (R43). -/
  status : Status
  /-- ERR_INFO (R44). -/
  errInfo : Word
  /-- The command word last accepted through CMD (30_encoding.md R120, log 20). -/
  cmd : Word
  /-- WBITS (R47); WPOS is its length (R45, log 13). -/
  wbits : List Bool
  /-- W_CLOSED (R47). -/
  wclosed : Bool
  /-- The bytes the bound sink has received (20_memory.md R85, R440). -/
  sink : List Byte
  /-- K, the bytes the sink has received since reset (20_memory.md R85). -/
  committed : Nat
  /-- The byte of the output stream the bound sink will refuse, if any (20_memory.md R96, log 6). -/
  sinkFail : Option Nat
  /-- SRC (R49). -/
  src : List Byte
  /-- RPOS, the bits consumed since reset (R46, R49, log 13). -/
  rpos : Nat
  /-- PULLED (R50). -/
  pulled : Nat
  /-- The access of the source port that will fail, if any (20_memory.md R96, log 6). -/
  srcFail : Option Nat
  /-- The arithmetic encoder (R51). -/
  ae : ArithEnc
  /-- The arithmetic decoder (R52). -/
  ad : ArithDec
  /-- The coder slots (R53 to R56), N_SLOTS of each kind. -/
  ce : List CeSlot
  cd : List CdSlot
  he : List HeSlot
  hd : List HdSlot
  /-- The words of ARR written since reset, indices strictly rising (R57, log 12). -/
  arr : List ArrCell
  /-- The host's pending moves, the next one first (log 2). -/
  moves : List HostMove
  /-- The value the host's last read returned (log 19). -/
  readData : Word
  /-- The counter the free values of Config are applied to (log 18). -/
  draws : Nat
deriving DecidableEq, Repr

/-- Why the machine could stop with a fault: it has no constructor, because every error the spec names is taken as a
next state in FAULT (60_exceptions.md R402). Safe: nothing is hidden in a stop. -/
inductive Fault where
deriving DecidableEq, Repr

/-- Why a step is refused. Every refusal is safe: the model says nothing of what the block does there. -/
inductive Refusal where
  /-- Raised by no arm of `exec`: every command has its meaning. Kept for the host's interface. Safe. -/
  | notModelled (mnemonic : String)
  /-- Raised by a host move: an access at an offset that is no multiple of 8 is no move the spec gives the host
  (20_memory.md R82, 93_implementation_defined.md I6). Safe. -/
  | misalignedHostAccess
  /-- Raised by a host move: binding the sink while it lacks a bit of WBITS breaks 20_memory.md R95
  (93_implementation_defined.md I12). Safe. -/
  | sinkHandedOverMidStream
  /-- Raised by a host move: binding the source while the reader holds unconsumed bytes or has read past it breaks
  20_memory.md R95 (93_implementation_defined.md I12). Safe. -/
  | sourceHandedOverMidStream
deriving DecidableEq, Repr

/-- The reset values of 10_state.md R61 for a block with parameters `p`. R61 names every register; the host's inputs
and the model's own fields are those of logs 2, 5, 18, 19 and 20. -/
def State.initial (p : Params) : State where
  params := p
  a := 0
  b := 0
  c := 0
  r := 0
  status := { busy := false, fault := false, err := 0, errOp := 0 }
  errInfo := 0
  cmd := 0
  wbits := []
  wclosed := false
  sink := []
  committed := 0
  sinkFail := none
  src := []
  rpos := 0
  pulled := 0
  srcFail := none
  ae := { mode := .idle, w := 0, low := 0, high := 0, uf := 0, coded := false }
  ad := { mode := .idle, w := 0, low := 0, high := 0, code := 0, filled := false }
  ce := List.replicate p.nSlots { pass := .idle, freq := [], syms := [], cum := [] }
  cd := List.replicate p.nSlots .idle
  he := List.replicate p.nSlots { pass := .idle, freq := [], codes := [] }
  hd := List.replicate p.nSlots .idle
  arr := []
  moves := []
  readData := 0
  draws := 0

/-- The machine right after reset (70_reset_and_hazards.md R440), with the parameters of 95_test_vectors.md
(DESIGN CHOICE, log 1). -/
def State.reset : State := State.initial vectorParams

end Sys2Proof.Machine
end

