-- ==== Sys2Proof/Machine/Flags.lean ====
section
/-! DEFINITION. The status computations: error codes and classes (60_exceptions.md R400, R401), the STATUS word and the
engine state (10_state.md R43, R58). -/

namespace Sys2Proof.Machine

open Sys2Proof

/-- The code of an error (60_exceptions.md R400). -/
def ErrCode.code : ErrCode → Byte
  | .illegalCommand => 0x01
  | .invalidArgument => 0x02
  | .invalidState => 0x03
  | .symbolNotSeen => 0x04
  | .endOfStream => 0x10
  | .realignment => 0x11
  | .truncation => 0x12
  | .syncMismatch => 0x13
  | .uniquenessViolation => 0x14
  | .precisionBudget => 0x15
  | .overflow => 0x16
  | .resource => 0x20
  | .capacity => 0x21

/-- The class of an error, bits 7:4 of its code (60_exceptions.md R401). -/
def ErrCode.errClass (e : ErrCode) : Nat := e.code.toNat / 16

/-- The 64-bit STATUS register (10_state.md R43): bit 0 BUSY, bit 1 FAULT, 15:8 ERR, 23:16 ERR_OP, the others 0. -/
def Status.word (st : Status) : Word :=
  BitVec.ofNat 64 (st.errOp.toNat * 65536 + st.err.toNat * 256 + st.fault.toNat * 2 + st.busy.toNat)

/-- The engine state of 10_state.md R58: BUSY while a command executes, else FAULT or READY by STATUS.FAULT. -/
def engineState (s : State) : EngineState :=
  if s.status.busy then .busy else if s.status.fault then .fault else .ready

end Sys2Proof.Machine
end

