-- ==== Sys2Proof/Machine/Ops.lean ====
section
/-! DEFINITION. The shared operations: field updates, the bits of an integer, the array memory, the bit streams, the two
ports, raising an error (60_exceptions.md R402 to R406), ending a command, and the reset that leaves FAULT (R409, R440). -/

namespace Sys2Proof.Machine

open Sys2Proof Sys2Proof.Config

/-! ### Field updates -/

/-- `EmitBit` for each bit of `bits` in turn (40_bitio.md R160). -/
def State.emit (s : State) (bits : List Bool) : State := { s with wbits := s.wbits ++ bits }
/-- `R <- v` (10_state.md R42). -/
def State.setR (s : State) (v : Word) : State := { s with r := v }
/-- `RPOS <- p`. -/
def State.setRpos (s : State) (p : Nat) : State := { s with rpos := p }
/-- `W_CLOSED <- v`. -/
def State.setClosed (s : State) (v : Bool) : State := { s with wclosed := v }
/-- The arithmetic encoder's new value. -/
def State.setAe (s : State) (v : ArithEnc) : State := { s with ae := v }
/-- The arithmetic decoder's new value. -/
def State.setAd (s : State) (v : ArithDec) : State := { s with ad := v }
/-- `CE[k] <- v`. -/
def State.setCe (s : State) (k : Nat) (v : CeSlot) : State := { s with ce := s.ce.set k v }
/-- `CD[k] <- v`. -/
def State.setCd (s : State) (k : Nat) (v : CdSlot) : State := { s with cd := s.cd.set k v }
/-- `HE[k] <- v`. -/
def State.setHe (s : State) (k : Nat) (v : HeSlot) : State := { s with he := s.he.set k v }
/-- `HD[k] <- v`. -/
def State.setHd (s : State) (k : Nat) (v : HdSlot) : State := { s with hd := s.hd.set k v }
/-- ARR's new cells. -/
def State.setArr (s : State) (cells : List ArrCell) : State := { s with arr := cells }
/-- The next free value is a fresh one (log 18). -/
def State.drawn (s : State) : State := { s with draws := s.draws + 1 }

/-! ### Slots (10_state.md R53 to R56) -/

/-- `CE[k]`. -/
def State.ceAt (s : State) (k : Nat) : CeSlot := s.ce.getD k { pass := .idle, freq := [], syms := [], cum := [] }
/-- `CD[k]`. -/
def State.cdAt (s : State) (k : Nat) : CdSlot := s.cd.getD k .idle
/-- `HE[k]`. -/
def State.heAt (s : State) (k : Nat) : HeSlot := s.he.getD k { pass := .idle, freq := [], codes := [] }
/-- `HD[k]`. -/
def State.hdAt (s : State) (k : Nat) : HdSlot := s.hd.getD k .idle

/-! ### Integers and bit strings (00_scope.md R8, R9) -/

/-- `bitlen(x)`: the least `k` with `x < 2^k` (00_scope.md R8). -/
def bitlen (x : Nat) : Nat := if x = 0 then 0 else Nat.log2 x + 1

/-- The bits of `EmitBits(n, v)`: `v[0]` first, `n` of them (40_bitio.md R161). -/
def natBits (n v : Nat) : List Bool := (List.range n).map v.testBit

/-- The integer whose bit 0 is the first bit of the string. -/
def bitsNat : List Bool → Nat
  | [] => 0
  | b :: bs => b.toNat + 2 * bitsNat bs

/-- The number of bytes that hold `bits` bits: `ceil(bits / 8)`. -/
def ceil8 (bits : Nat) : Nat := (bits + 7) / 8

/-- The free value's place in `[lo, hi]`; `lo` where the range holds nothing else. -/
def drawIn (lo hi d : Nat) : Nat := if hi ≤ lo then lo else lo + d % (hi - lo + 1)

/-! ### Array memory (20_memory.md R83) -/

/-- The word listed at index `i`, if one has been written since reset. -/
def arrLookup (i : Nat) : List ArrCell → Option Word
  | [] => none
  | (j, v) :: rest => if j = i then some v else arrLookup i rest

/-- Writes word `i`, keeping the indices strictly rising. -/
def arrInsert (i : Nat) (v : Word) : List ArrCell → List ArrCell
  | [] => [(i, v)]
  | (j, u) :: rest =>
    if i < j then (i, v) :: (j, u) :: rest
    else if i = j then (i, v) :: rest
    else (j, u) :: arrInsert i v rest

/-- The canonical form of ARR: indices strictly rising and below `bound`. An unlisted word holds no fixed value, so no
entry equals what an unlisted word reads as (log 12). -/
def arrWf (bound : Nat) : List ArrCell → Bool
  | [] => true
  | (i, _) :: rest => decide (i < bound) && rest.all (fun c => decide (i < c.1)) && arrWf bound rest

/-- `Memory.wf`: the form of the array memory of a state. -/
def State.memWf (s : State) : Bool := arrWf s.params.arrWords s.arr

/-- `MemRead(i, 8)` as a bit pattern (R83); a word never written reads as a free value (70_reset_and_hazards.md R442). -/
def State.memRead (s : State) (i : Nat) : Word := (arrLookup i s.arr).getD (arrUnwritten i s.draws)

/-- `MemWrite(i, 8, v)` (R83). -/
def State.memWrite (s : State) (i : Nat) (v : Word) : State := s.setArr (arrInsert i v s.arr)

/-- Writes `vs` to the words from index `i` on. -/
def State.memWriteList (s : State) (i : Nat) : List Word → State
  | [] => s
  | v :: vs => (s.memWrite i v).memWriteList (i + 1) vs

/-! ### Errors in flight -/

/-- What `raise E(info)` carries (60_exceptions.md R402): the error and the stream position. `late` marks an error
raised after a state write that is no stream bit; `still` marks a command that takes no bit of the input stream; `result`
is an R value R405 keeps exact; `window` is the ARR window (first index, words) the command could write. -/
structure Raise where
  code : ErrCode
  info : Nat
  late : Bool := false
  still : Bool := false
  result : Option Word := none
  window : Nat × Nat := (0, 0)
deriving DecidableEq, Repr

/-- Goes on where the check holds, else raises. -/
def require (ok : Bool) (e : Raise) : Except Raise Unit := if ok then .ok () else .error e

/-- The errors of steps that write state before they take a bit: a port failure is then a late error even at the first
bit, and only END_OF_STREAM at that bit is not (60_exceptions.md R405, log 11). -/
def resourceLate {α : Type} (x : Except Raise α) : Except Raise α :=
  match x with
  | .ok v => .ok v
  | .error e => .error { e with late := e.late || e.code == .resource }

/-! ### Output stream (40_bitio.md R160 to R162, 20_memory.md R85) -/

/-- `|WBITS|`, the position WPOS counts (10_state.md R45). -/
def State.wpos (s : State) : Nat := s.wbits.length
/-- The register WPOS: held modulo 2^64 (10_state.md R45). -/
def State.wposWord (s : State) : Word := BitVec.ofNat 64 s.wbits.length
/-- The register RPOS: held modulo 2^64 (10_state.md R46). -/
def State.rposWord (s : State) : Word := BitVec.ofNat 64 s.rpos

/-- `WCheckOpen()` (R160). -/
def checkOpen (s : State) : Except Raise Unit :=
  require (!s.wclosed) { code := .invalidState, info := s.wpos }

/-- The zero bits `WAlign()` emits at position `p` (R162). -/
def alignBits (p : Nat) : List Bool := List.replicate ((8 - p % 8) % 8) false

/-- Byte `j` of the output stream: its bit `i` is `WBITS[8j+i]` (R85, R87). -/
def outByte (bits : List Bool) (j : Nat) : Byte := BitVec.ofNat 8 (bitsNat ((bits.drop (8 * j)).take 8))

/-- Bytes `lo .. hi-1` of the output stream. -/
def outBytes (bits : List Bool) (lo hi : Nat) : List Byte :=
  (List.range (hi - lo)).map (fun i => outByte bits (lo + i))

/-! ### Input stream (40_bitio.md R170 to R173, 20_memory.md R86) -/

/-- What the reader procedures read: SRC, GRACE_BYTES and the failing access, if any. -/
structure Source where
  bytes : List Byte
  grace : Nat
  failAt : Option Nat
deriving DecidableEq, Repr

/-- The input stream of a state. -/
def State.source (s : State) : Source :=
  { bytes := s.src, grace := s.params.graceBytes, failAt := s.srcFail }

/-- The access of byte `j` fails (R96). Accesses past the one that reports the end are never made. -/
def Source.fails (src : Source) (j : Nat) : Bool :=
  match src.failAt with
  | some k => decide (k ≤ src.bytes.length) && decide (k ≤ j)
  | none => false

/-- `TakeBit()` at position `k` (R170): the bit and the new position. -/
def takeBit (src : Source) (k : Nat) : Except Raise (Bool × Nat) :=
  if src.fails (k / 8) then .error { code := .resource, info := k }
  else if k < 8 * src.bytes.length then .ok ((src.bytes.getD (k / 8) 0).getLsbD (k % 8), k + 1)
  else if k < 8 * (src.bytes.length + src.grace) then .ok (false, k + 1)
  else .error { code := .endOfStream, info := k }

/-- `TakeBits(n)` (R171): the first bit taken is bit 0 of the result. -/
def takeBits (src : Source) : Nat → Nat → Except Raise (Nat × Nat)
  | 0, k => .ok (0, k)
  | n + 1, k => do
    let (b, k1) ← takeBit src k
    let (v, k2) ← takeBits src n k1
    .ok (b.toNat + 2 * v, k2)

/-- The loop of `RAlign()` (R172); 8 passes reach the boundary. -/
def rAlignLoop (src : Source) : Nat → Nat → Except Raise Nat
  | 0, k => .ok k
  | fuel + 1, k =>
    if k % 8 = 0 then .ok k
    else do
      let (b, k1) ← takeBit src k
      if b then .error { code := .realignment, info := k1 } else rAlignLoop src fuel k1

/-- `RAlign()` (R172). -/
def rAlign (src : Source) (k : Nat) : Except Raise Nat := rAlignLoop src 8 k

/-- `TakeByte(E)` (R173). -/
def takeByte (src : Source) (e : ErrCode) (k : Nat) : Except Raise (Byte × Nat) := do
  let k1 ← rAlign src k
  if src.fails (k1 / 8) then .error { code := .resource, info := k1 }
  else if src.bytes.length ≤ k1 / 8 then .error { code := e, info := k1 }
  else .ok (src.bytes.getD (k1 / 8) 0, k1 + 8)

/-! ### Commands -/

/-- The stream whose position a command's errors report (60_exceptions.md R406). -/
inductive Side where
  | writer
  | reader
deriving DecidableEq, Repr

/-- How a command pulls source bytes (20_memory.md R86): not at all, bit by bit with prefetch, or byte by byte, which
never refills the accumulator (R90 names the byte-level commands). -/
inductive Pull where
  | none
  | bits
  | bytes
deriving DecidableEq, Repr

/-- The elements of AE (10_state.md R51) that a command could write; `interval` is AE_LOW and AE_HIGH. -/
structure AeWrites where
  mode : Bool := false
  w : Bool := false
  interval : Bool := false
  uf : Bool := false
  coded : Bool := false
deriving DecidableEq, Repr

/-- The elements of AD (10_state.md R52) that a command could write; `interval` is AD_LOW and AD_HIGH. -/
structure AdWrites where
  mode : Bool := false
  w : Bool := false
  interval : Bool := false
  code : Bool := false
  filled : Bool := false
deriving DecidableEq, Repr

/-- The elements of a context encoder slot (10_state.md R53) that a command could write; `tables` is SYMS and CUM. -/
structure CeWrites where
  pass : Bool := false
  freq : Bool := false
  tables : Bool := false
deriving DecidableEq, Repr

/-- The elements of a Huffman encoder slot (10_state.md R55) that a command could write; `freq` is ORDER and FREQ. -/
structure HeWrites where
  pass : Bool := false
  freq : Bool := false
  codes : Bool := false
deriving DecidableEq, Repr

/-- The elements, beside the streams, the ARR window and the ports, that a command could write (60_exceptions.md R405). -/
structure Writes where
  r : Bool := false
  closed : Bool := false
  ae : AeWrites := {}
  ad : AdWrites := {}
  ce : Option (Nat × CeWrites) := none
  cd : Option Nat := none
  he : Option (Nat × HeWrites) := none
  hd : Option Nat := none
deriving DecidableEq, Repr

/-- One command: its opcode, its stream, whether it drains the writer (20_memory.md R94), how it pulls, what it could
write in the state it is issued in, the ARR window it wrote as the state its steps leave shows it, and these steps, which answer the state they leave
or the error they raise. -/
structure Command where
  op : Nat
  side : Side
  drain : Bool := false
  pull : Pull := .none
  writes : State → Writes := fun _ => {}
  window : State → Nat × Nat := fun _ => (0, 0)
  body : State → Except Raise State

/-- The position of the command's stream (60_exceptions.md R406). -/
def Side.pos (side : Side) (s : State) : Nat :=
  match side with
  | .writer => s.wpos
  | .reader => s.rpos

/-- K when a command leaves `w` bits emitted: exact at a drain point, else free in the range of 20_memory.md R85
(I2), never below the K before. -/
def commitTarget (c : Command) (s : State) (w : Nat) : Nat :=
  if c.drain then w / 8 else drawIn (max s.committed (w / 8 - 7)) (w / 8) (commitDraw s.draws)

/-- How many accesses of the source a command that leaves `p` bits consumed has made: none of its own if it does not
read, else free in the bounds of 10_state.md R50 (I3); a byte-level read takes the bytes the accumulator holds and then
only those it consumes (20_memory.md R86). -/
def pullTarget (c : Command) (s : State) (p : Nat) : Nat :=
  match c.pull with
  | .none => s.pulled
  | .bits => drawIn (max s.pulled (ceil8 p)) ((p + 63) / 8) (pullDraw s.draws)
  | .bytes => max s.pulled (ceil8 p)

/-- PULLED after a command that leaves `p` bits consumed: only a command that reads the stream moves it (log 9). -/
def pulledAfter (c : Command) (s : State) (p : Nat) : Nat :=
  match c.pull with
  | .none => s.pulled
  | .bits | .bytes => min (pullTarget c s p) s.src.length

/-- The position at which the sink refuses a byte the command hands over, if it does (20_memory.md R96, log 7). -/
def sinkFailure (c : Command) (s : State) (w p : Nat) : Option Nat :=
  match s.sinkFail with
  | none => none
  | some j =>
    if s.committed ≤ j ∧ j < commitTarget c s w then
      some (match c.side with
        | .writer => drawIn (max s.wpos (8 * j + 8)) w (resourceInfo s.draws)
        | .reader => drawIn s.rpos p (resourceInfo s.draws))
    else none

/-- The position at which an access of the source fails, if one does: the access of byte `j` is made no earlier than a
63-bit accumulator allows (10_state.md R50) and no later than its first bit is consumed (20_memory.md R96, log 7). A
byte-level read accesses a byte only to take it (R86), so its failures are those `takeByte` raises. -/
def sourceFailure (c : Command) (s : State) (p : Nat) : Option Nat :=
  match s.srcFail with
  | none => none
  | some j =>
    if j ≤ s.src.length ∧ s.pulled ≤ j ∧ j < pullTarget c s p then
      some (drawIn (max s.rpos (8 * j - 55)) (min p (8 * j)) (resourceInfo s.draws))
    else none

/-- A port failure met by a command that leaves `w` bits emitted and `p` bits consumed. -/
def portFailure (c : Command) (s : State) (w p : Nat) : Option Nat :=
  match sinkFailure c s w p with
  | some info => some info
  | none => sourceFailure c s p

/-- The ports after a command: the sink has received bytes up to `k`, the reader has pulled `q` bytes. -/
def State.settle (s : State) (k q : Nat) : State :=
  { s with sink := s.sink ++ outBytes s.wbits s.committed k, committed := k, pulled := q }

/-- The command ends without error: `STATUS.BUSY = 0` (30_encoding.md R120, 10_state.md R58). -/
def State.endBusy (s : State) : State := { s with status := { s.status with busy := false } }

/-- `raise E(info)` (60_exceptions.md R402): FAULT, ERR, ERR_OP and ERR_INFO are set and BUSY cleared. This is the
whole of the block's exception entry (R408). -/
def State.takeError (s : State) (op : Nat) (e : ErrCode) (info : Nat) : State :=
  { s with
    status := { busy := false, fault := true, err := e.code, errOp := BitVec.ofNat 8 op }
    errInfo := BitVec.ofNat 64 info }

/-- The words of a window with a free value each (60_exceptions.md R405). -/
def State.scrambleWindow (s : State) (n i : Nat) : Nat → State
  | 0 => s
  | m + 1 => (s.memWrite i (lateArr i n)).scrambleWindow n (i + 1) m

/-- AE after a late error: the elements of `w` are those of the free value `d`. -/
def freedAe (w : AeWrites) (v d : ArithEnc) : ArithEnc :=
  { mode := if w.mode then d.mode else v.mode
    w := if w.w then d.w else v.w
    low := if w.interval then d.low else v.low
    high := if w.interval then d.high else v.high
    uf := if w.uf then d.uf else v.uf
    coded := if w.coded then d.coded else v.coded }

/-- AD after a late error. -/
def freedAd (w : AdWrites) (v d : ArithDec) : ArithDec :=
  { mode := if w.mode then d.mode else v.mode
    w := if w.w then d.w else v.w
    low := if w.interval then d.low else v.low
    high := if w.interval then d.high else v.high
    code := if w.code then d.code else v.code
    filled := if w.filled then d.filled else v.filled }

/-- A context encoder slot after a late error. -/
def freedCe (w : CeWrites) (v d : CeSlot) : CeSlot :=
  { pass := if w.pass then d.pass else v.pass
    freq := if w.freq then d.freq else v.freq
    syms := if w.tables then d.syms else v.syms
    cum := if w.tables then d.cum else v.cum }

/-- A Huffman encoder slot after a late error. -/
def freedHe (w : HeWrites) (v d : HeSlot) : HeSlot :=
  { pass := if w.pass then d.pass else v.pass
    freq := if w.freq then d.freq else v.freq
    codes := if w.codes then d.codes else v.codes }

/-- The elements of `w` hold free values (60_exceptions.md R405, I7). -/
def State.scramble (s : State) (n : Nat) (w : Writes) : State :=
  { s with
    r := if w.r then lateR n else s.r
    wclosed := if w.closed then lateClosed n else s.wclosed
    ae := freedAe w.ae s.ae (lateAe n)
    ad := freedAd w.ad s.ad (lateAd n)
    ce := match w.ce with | some (k, p) => s.ce.set k (freedCe p (s.ceAt k) (lateCe n)) | none => s.ce
    cd := match w.cd with | some k => s.cd.set k (lateCd n) | none => s.cd
    he := match w.he with | some (k, p) => s.he.set k (freedHe p (s.heAt k) (lateHe n)) | none => s.he
    hd := match w.hd with | some k => s.hd.set k (lateHd n) | none => s.hd }

/-- A late error leaves its command's stream free (60_exceptions.md R405): on the writer's side if bits were appended, as
the position tells (R406, vector A15 of 95_test_vectors.md), on the reader's if the command takes any. -/
def Raise.moved (e : Raise) (side : Side) (s : State) : Bool :=
  match side with
  | .writer => e.info != s.wpos
  | .reader => !e.still

/-- What the command could have written before the error. AE_CODED is written after the interval update, which is what
raises `CAPACITY` (43_arithmetic.md R294, vector A15 of 95_test_vectors.md). -/
def lateWrites (c : Command) (s : State) (e : Raise) : Writes :=
  if e.code = .capacity then { c.writes s with ae := { (c.writes s).ae with coded := false } } else c.writes s

/-- The stream of a command after a late error (60_exceptions.md R405): where it is free, any bits stand after the old ones
of WBITS, or RPOS is any. -/
def State.scrambleStream (s : State) (n : Nat) (side : Side) (moved : Bool) : State :=
  match moved, side with
  | false, _ => s
  | true, .writer => s.emit (lateBits n)
  | true, .reader => s.setRpos (lateRpos n)

/-- A count is at most the index of the failing access, if there is one. -/
def capAt (limit : Nat) (failAt : Option Nat) : Nat :=
  match failAt with
  | some j => min limit j
  | none => limit

/-- A late error (60_exceptions.md R405): every element the command could have written holds a free value, the sink has any
further part of the complete bytes, and `R` is exact where the error says so (90_conflicts.md C8). -/
def State.takeLate (s : State) (c : Command) (e : Raise) : State :=
  let s1 := (s.scrambleStream s.draws c.side (e.moved c.side s)).scramble s.draws (lateWrites c s e)
  let s2 := s1.scrambleWindow s.draws e.window.1 e.window.2
  let s3 := match e.result with | some v => s2.setR v | none => s2
  let k := drawIn s.committed (capAt (s3.wbits.length / 8) s.sinkFail) (lateCommit s.draws)
  let q := if c.pull = .none then s.pulled
    else drawIn s.pulled (capAt s.src.length s.srcFail) (latePulled s.draws)
  (s3.settle k q).takeError c.op e.code e.info

/-- The error ends the command (60_exceptions.md R402, R405): an error raised before any state change leaves every
other element as it was; a later one is a late error, unless a port failed before it was reached (log 7). -/
def fail (c : Command) (s : State) (e : Raise) : State :=
  if e.late || e.info != c.side.pos s then
    match c.side with
    | .writer =>
      match portFailure c s e.info s.rpos with
      | some info => s.takeLate c { code := .resource, info := info, window := e.window }
      | none => s.takeLate c e
    | .reader =>
      match portFailure c s s.wpos e.info with
      | some info => s.takeLate c { code := .resource, info := info, window := e.window }
      | none => s.takeLate c e
  else s.takeError c.op e.code e.info

/-- The command's steps left `s1`: the ports settle, or one of them fails (20_memory.md R85, R86, R96). -/
def finish (c : Command) (s s1 : State) : State :=
  match portFailure c s s1.wpos s1.rpos with
  | some info =>
    s.takeLate c { code := .resource, info := info, still := s1.rpos == s.rpos, window := c.window s1 }
  | none => (s1.settle (commitTarget c s s1.wpos) (pulledAfter c s s1.rpos)).endBusy

/-- Executes a command to completion (10_state.md R40, 30_encoding.md R120): one next state, the command's effect or
the error it raised. -/
def runCommand (c : Command) (s : State) : Host.Outcome State Fault Refusal :=
  .next (match c.body s with
    | .ok s1 => (finish c s s1).drawn
    | .error e => (fail c s e).drawn)

/-! ### Reset (60_exceptions.md R409, 70_reset_and_hazards.md R440) -/

/-- Every state element at its reset value (10_state.md R61), with the ARR words given. What belongs to the host stays:
the sink keeps its bytes, the source goes on at the first byte not pulled (log 14). -/
def State.resetBlock (s : State) (cells : List ArrCell) : State :=
  { State.initial s.params with
    arr := cells
    sink := s.sink
    sinkFail := s.sinkFail.map (· - s.committed)
    src := s.src.drop s.pulled
    srcFail := s.srcFail.map (· - s.pulled)
    moves := s.moves
    readData := s.readData
    draws := s.draws }

/-- The reset of SRESET: ARR keeps its words (R409). It is the only return from FAULT beside the reset input. -/
def State.softReset (s : State) : State := s.resetBlock s.arr

/-- The reset input: ARR is unspecified again (R440). -/
def State.hardReset (s : State) : State := s.resetBlock []

end Sys2Proof.Machine
end

