-- ==== Sys2Proof/Machine/Operands.lean ====
section
/-! DEFINITION. The operand forms (30_encoding.md R122): signed operands, ARR windows, slots and leaf configurations. -/

namespace Sys2Proof.Machine

open Sys2Proof

/-- `A` as `s64`. -/
def State.opA (s : State) : Int := s.a.toInt
/-- `B` as `s64`. -/
def State.opB (s : State) : Int := s.b.toInt
/-- `C` as `s64`. -/
def State.opC (s : State) : Int := s.c.toInt

/-- The window of `n` words from `off` lies inside ARR (42_sorted_array.md R263, 43_arithmetic.md R294). -/
def windowOk (s : State) (off n : Int) : Bool :=
  decide (0 ≤ off) && decide (0 ≤ n) && decide (off + n ≤ s.params.arrWords)

/-- `[s64(ARR[off + i]) for i in 0..n-1]`. -/
def readWindow (s : State) (off n : Nat) : List Int :=
  (List.range n).map (fun i => (s.memRead (off + i)).toInt)

/-- `SLOT >= N_SLOTS` raises `INVALID_ARGUMENT` before any other check of the command (30_encoding.md R125,
60_exceptions.md R403). -/
def checkSlot (s : State) (side : Side) (slot : Nat) : Except Raise Unit :=
  require (decide (slot < s.params.nSlots)) { code := .invalidArgument, info := side.pos s }

/-- A leaf configuration `cfg = (mode, noisy, max)` (44_huffman.md R350). -/
structure LeafCfg where
  mode : Int
  noisy : Nat
  max : Int
deriving DecidableEq, Repr

/-- The leaf configuration of an init command: mode `A`, noisy `N`, max `B` (44_huffman.md R350). -/
def State.leafCfg (s : State) (n : Nat) : LeafCfg := { mode := s.opA, noisy := n, max := s.opB }

/-- `CheckCfg(cfg)` (44_huffman.md R350). -/
def LeafCfg.valid (cfg : LeafCfg) : Bool :=
  decide (0 ≤ cfg.mode) && decide (cfg.mode ≤ 2) && decide (cfg.noisy ≤ 63) &&
    (decide (cfg.mode ≠ 2) || (decide (cfg.noisy = 0) && decide (0 ≤ cfg.max)))

end Sys2Proof.Machine
end

