-- ==== Sys2Proof/Machine/Arithmetic.lean ====
section
/-! DEFINITION. The arithmetic (range) coder and the raw commands over it (43_arithmetic.md R290 to R298). -/

namespace Sys2Proof.Machine

open Sys2Proof

/-! ### Geometry and tables -/

/-- `FULL = 2^W` (R290). -/
def fullOf (w : Nat) : Nat := 2 ^ w
/-- `HALF = 2^(W-1)` (R290). -/
def halfOf (w : Nat) : Nat := 2 ^ (w - 1)
/-- `QUARTER = 2^(W-2)` (R290). -/
def quarterOf (w : Nat) : Nat := 2 ^ (w - 2)
/-- `MASK = FULL - 1` (R290). -/
def maskOf (w : Nat) : Nat := 2 ^ w - 1
/-- `MAX_TOTAL(W) = min(LMAX // FULL, QUARTER + 2)` (R290). -/
def maxTotal (w : Nat) : Nat := min (lmax / fullOf w) (quarterOf w + 2)

/-- `total = tab[n-1]` (R291). -/
def tabTotal (tab : List Int) : Int := tab.getD (tab.length - 1) 0
/-- `cumHigh(s) = tab[s]` (R291). -/
def cumHigh (tab : List Int) (s : Nat) : Int := tab.getD s 0
/-- `cumLow(s) = (s = 0) ? 0 : tab[s-1]` (R291). -/
def cumLow (tab : List Int) (s : Nat) : Int := if s = 0 then 0 else tab.getD (s - 1) 0

/-- `tab[i] <= tab[i+1]` throughout (R291). -/
def neverFalling : List Int → Bool
  | [] => true
  | [_] => true
  | x :: y :: rest => decide (x ≤ y) && neverFalling (y :: rest)

/-- `CheckTable(W, tab)` (R291). -/
def checkTable (w : Nat) (tab : List Int) : Bool :=
  decide (1 ≤ tab.length) && decide (0 ≤ tab.getD 0 0) && neverFalling tab &&
    decide (1 ≤ tabTotal tab) && decide (tabTotal tab ≤ (maxTotal w : Int))

/-- `CheckSym(tab, s)` (R291). -/
def checkSym (tab : List Int) (s : Int) : Bool :=
  decide (0 ≤ s) && decide (s < tab.length) && decide (cumLow tab s.toNat < cumHigh tab s.toNat)

/-! ### Interval update (R292) -/

/-- `newLow` (R292). -/
def narrowLow (low high clo total : Nat) : Nat := low + clo * (high - low + 1) / total
/-- `newHigh` (R292). -/
def narrowHigh (low high chi total : Nat) : Nat := low + chi * (high - low + 1) / total - 1

/-- The top bits agree: `((LOW ^ HIGH) & HALF) = 0` (R292). -/
def topsAgree (w low high : Nat) : Bool := (low ^^^ high) &&& halfOf w == 0
/-- Near-convergence: `(LOW & ~HIGH & QUARTER) != 0` (R292), on bit `W-2`. -/
def nearHalf (w low high : Nat) : Bool := low.testBit (w - 2) && !high.testBit (w - 2)

/-- `LOW` after a shift. -/
def shiftLow (w low : Nat) : Nat := (low <<< 1) &&& maskOf w
/-- `HIGH` after a shift. -/
def shiftHigh (w high : Nat) : Nat := ((high <<< 1) &&& maskOf w) ||| 1
/-- `LOW` after an underflow step. -/
def underLow (w low : Nat) : Nat := (low <<< 1) ^^^ halfOf w
/-- `HIGH` after an underflow step. -/
def underHigh (w high : Nat) : Nat := ((high ^^^ halfOf w) <<< 1) ||| halfOf w ||| 1

/-- The shift loop, encoder side: the bits emitted, then LOW, HIGH, UF. After `W` shifts LOW is 0 and HIGH is MASK,
so `W` passes always suffice. -/
def encShifts (w : Nat) : Nat → Nat → Nat → Nat → List Bool × Nat × Nat × Nat
  | 0, low, high, uf => ([], low, high, uf)
  | fuel + 1, low, high, uf =>
    if topsAgree w low high then
      let bit := (low >>> (w - 1)).testBit 0
      let (bits, r) := encShifts w fuel (shiftLow w low) (shiftHigh w high) 0
      (bit :: (List.replicate uf (!bit) ++ bits), r)
    else ([], low, high, uf)

/-- The underflow loop, encoder side: LOW, HIGH, UF, or none where UF is at `UF_MAX` (R292). -/
def encUnders (w ufMax : Nat) : Nat → Nat → Nat → Nat → Option (Nat × Nat × Nat)
  | 0, low, high, uf => some (low, high, uf)
  | fuel + 1, low, high, uf =>
    if nearHalf w low high then
      if ufMax ≤ uf then none else encUnders w ufMax fuel (underLow w low) (underHigh w high) (uf + 1)
    else some (low, high, uf)

/-- The shift loop, decoder side: LOW, HIGH, CODE and the position. -/
def decShifts (src : Source) (w : Nat) : Nat → Nat → Nat → Nat → Nat → Except Raise (Nat × Nat × Nat × Nat)
  | 0, low, high, code, k => .ok (low, high, code, k)
  | fuel + 1, low, high, code, k =>
    if topsAgree w low high then do
      let (b, k1) ← takeBit src k
      decShifts src w fuel (shiftLow w low) (shiftHigh w high) (((code <<< 1) &&& maskOf w) ||| b.toNat) k1
    else .ok (low, high, code, k)

/-- The underflow loop, decoder side: LOW, HIGH, CODE and the position. -/
def decUnders (src : Source) (w : Nat) : Nat → Nat → Nat → Nat → Nat → Except Raise (Nat × Nat × Nat × Nat)
  | 0, low, high, code, k => .ok (low, high, code, k)
  | fuel + 1, low, high, code, k =>
    if nearHalf w low high then do
      let (b, k1) ← takeBit src k
      decUnders src w fuel (underLow w low) (underHigh w high)
        ((code &&& halfOf w) ||| ((code <<< 1) &&& (maskOf w >>> 1)) ||| b.toNat) k1
    else .ok (low, high, code, k)

/-- `AEUpdate(encoder, clo, chi, total)` (R292): the bits emitted and the new encoder, or the number of bits emitted
before `CAPACITY`. -/
def encUpdate (ufMax : Nat) (ae : ArithEnc) (clo chi total : Nat) : Except Nat (List Bool × ArithEnc) :=
  let (bits, low1, high1, uf1) :=
    encShifts ae.w ae.w (narrowLow ae.low ae.high clo total) (narrowHigh ae.low ae.high chi total) ae.uf
  match encUnders ae.w ufMax ae.w low1 high1 uf1 with
  | none => .error bits.length
  | some (low2, high2, uf2) => .ok (bits, { ae with low := low2, high := high2, uf := uf2 })

/-- `AEUpdate(decoder, clo, chi, total)` (R292). -/
def decUpdate (src : Source) (ad : ArithDec) (clo chi total k : Nat) : Except Raise (ArithDec × Nat) := do
  let (low1, high1, code1, k1) ←
    decShifts src ad.w ad.w (narrowLow ad.low ad.high clo total) (narrowHigh ad.low ad.high chi total) ad.code k
  let (low2, high2, code2, k2) ← decUnders src ad.w ad.w low1 high1 code1 k1
  .ok ({ ad with low := low2, high := high2, code := code2 }, k2)

/-! ### Coding one symbol -/

/-- `AEEncode(tab, s)` (R294). -/
def aeEncode (s : State) (tab : List Int) (sym : Int) : Except Raise State := do
  require (s.ae.mode == .active) { code := .invalidState, info := s.wpos }
  checkOpen s
  require (checkTable s.ae.w tab) { code := .invalidArgument, info := s.wpos }
  require (checkSym tab sym) { code := .invalidArgument, info := s.wpos }
  match encUpdate s.params.ufMax s.ae (cumLow tab sym.toNat).toNat (cumHigh tab sym.toNat).toNat
      (tabTotal tab).toNat with
  | .error n => .error { code := .capacity, info := s.wpos + n, late := true }
  | .ok (bits, ae) => .ok ((s.emit bits).setAe { ae with coded := true })

/-- The bits of `ADFill()`, the first one most significant (R297). -/
def fillLoop (src : Source) : Nat → Nat → Nat → Except Raise (Nat × Nat)
  | 0, code, k => .ok (code, k)
  | n + 1, code, k => do
    let (b, k1) ← takeBit src k
    fillLoop src n (2 * code + b.toNat) k1

/-- `ADFill()` (R297). -/
def adFill (src : Source) (ad : ArithDec) (k : Nat) : Except Raise (ArithDec × Nat) :=
  if ad.filled then .ok (ad, k)
  else do
    let (code, k1) ← fillLoop src ad.w 0 k
    .ok ({ ad with code := code, filled := true }, k1)

/-- `value` of `ADDecode` (R298). -/
def adValue (ad : ArithDec) (total : Nat) : Nat :=
  ((ad.code - ad.low + 1) * total - 1) / (ad.high - ad.low + 1)

/-- The largest index `s` with `cumLow(s) <= value` (R298). -/
def symbolAt (tab : List Int) (value : Nat) : Nat :=
  (((List.range tab.length).filter (fun i => decide (cumLow tab i ≤ (value : Int)))).getLast?).getD 0

/-- `ADDecode(tab)` after its checks (R298): the symbol index and the state after it. -/
def adStep (s : State) (tab : List Int) : Except Raise (Nat × State) := do
  let (ad1, k1) ← adFill s.source s.ad s.rpos
  let sym := symbolAt tab (adValue ad1 (tabTotal tab).toNat)
  let (ad2, k2) ← decUpdate s.source ad1 (cumLow tab sym).toNat (cumHigh tab sym).toNat (tabTotal tab).toNat k1
  .ok (sym, (s.setAd ad2).setRpos k2)

/-- `ADDecode(tab)` (R298): AD_CODE (R297), or AD_LOW and AD_HIGH (R292), are written before its first `TakeBit`. -/
def adDecode (s : State) (tab : List Int) : Except Raise (Nat × State) := do
  require (s.ad.mode == .active) { code := .invalidState, info := s.rpos }
  require (checkTable s.ad.w tab) { code := .invalidArgument, info := s.rpos }
  resourceLate (adStep s tab)

/-! ### Commands -/

/-- `AE.RESET` (R293). -/
def bodyAeReset (n : Nat) (s : State) : Except Raise State := do
  require (decide (2 ≤ n) && decide (n ≤ 62)) { code := .invalidArgument, info := s.wpos }
  .ok (s.setAe { mode := .active, w := n, low := 0, high := maskOf n, uf := 0, coded := false })

/-- `AE.ENC` (R294). -/
def bodyAeEnc (s : State) : Except Raise State := do
  require (s.ae.mode == .active) { code := .invalidState, info := s.wpos }
  checkOpen s
  require (windowOk s s.opA s.opB) { code := .invalidArgument, info := s.wpos }
  aeEncode s (readWindow s s.opA.toNat s.opB.toNat) s.opC

/-- `AE.FIN` (R295). -/
def bodyAeFin (s : State) : Except Raise State := do
  require (s.ae.mode == .active) { code := .invalidState, info := s.wpos }
  if s.ae.coded then do
    checkOpen s
    .ok ((s.emit (true :: (List.replicate s.ae.uf false ++ List.replicate (s.ae.w - 1) false))).setAe
      { s.ae with uf := 0, mode := .finished })
  else .ok (s.setAe { s.ae with uf := 0, mode := .finished })

/-- `AD.RESET` (R296). -/
def bodyAdReset (n : Nat) (s : State) : Except Raise State := do
  require (decide (2 ≤ n) && decide (n ≤ 62)) { code := .invalidArgument, info := s.rpos }
  .ok (s.setAd { mode := .active, w := n, low := 0, high := maskOf n, code := 0, filled := false })

/-- `AD.DEC` (R298). -/
def bodyAdDec (s : State) : Except Raise State := do
  require (s.ad.mode == .active) { code := .invalidState, info := s.rpos }
  require (windowOk s s.opA s.opB) { code := .invalidArgument, info := s.rpos }
  let (sym, s1) ← adDecode s (readWindow s s.opA.toNat s.opB.toNat)
  .ok (s1.setR (BitVec.ofNat 64 sym))

/-- What `AEEncode` writes of AE (R292, R294). -/
def aeStepWrites : AeWrites := { interval := true, uf := true, coded := true }

/-- What `ADDecode` writes of AD (R292, R297); AD_FILLED only where it was 0. -/
def adStepWrites (s : State) : AdWrites := { interval := true, code := true, filled := !s.ad.filled }

/-- AE.RESET (43_arithmetic.md R293). -/
def execAeReset (n : Nat) (s : State) : Host.Outcome State Fault Refusal :=
  runCommand
    { op := 0x50
      side := .writer
      writes := fun _ => { ae := { mode := true, w := true, interval := true, uf := true, coded := true } }
      body := bodyAeReset n }
    s

/-- AE.ENC (43_arithmetic.md R294). -/
def execAeEnc (s : State) : Host.Outcome State Fault Refusal :=
  runCommand { op := 0x51, side := .writer, writes := fun _ => { ae := aeStepWrites }, body := bodyAeEnc } s

/-- AE.FIN (43_arithmetic.md R295). -/
def execAeFin (s : State) : Host.Outcome State Fault Refusal :=
  runCommand { op := 0x52, side := .writer, writes := fun _ => { ae := { mode := true, uf := true } }, body := bodyAeFin } s

/-- AD.RESET (43_arithmetic.md R296): a reader-side command (60_exceptions.md R406) that consumes no bit. -/
def execAdReset (n : Nat) (s : State) : Host.Outcome State Fault Refusal :=
  runCommand
    { op := 0x58
      side := .reader
      writes := fun _ => { ad := { mode := true, w := true, interval := true, code := true, filled := true } }
      body := bodyAdReset n }
    s

/-- AD.DEC (43_arithmetic.md R298). -/
def execAdDec (s : State) : Host.Outcome State Fault Refusal :=
  runCommand
    { op := 0x59
      side := .reader
      pull := .bits
      writes := fun s => { r := true, ad := adStepWrites s }
      body := bodyAdDec }
    s

end Sys2Proof.Machine
end

