-- ==== Sys2Proof/Machine/BitIO.lean ====
section
/-! DEFINITION. The bit-stream commands (40_bitio.md R163 to R168, R174 to R178). -/

namespace Sys2Proof.Machine

open Sys2Proof

/-! ### Writer -/

/-- The 8 bytes of a sync block, most significant byte first, as stream bits (R168). -/
def syncBits (u : Nat) : List Bool :=
  [7, 6, 5, 4, 3, 2, 1, 0].flatMap (fun i => natBits 8 (u / 256 ^ i % 256))

/-- `W.BIT` (R163). -/
def bodyWBit (s : State) : Except Raise State := do
  checkOpen s
  .ok (s.emit [s.a.getLsbD 0])

/-- `W.BITS` (R164). -/
def bodyWBits (n : Nat) (s : State) : Except Raise State := do
  checkOpen s
  require (decide (n ≤ 64)) { code := .invalidArgument, info := s.wpos }
  .ok (s.emit (natBits n s.a.toNat))

/-- `W.BYTE` (R165). -/
def bodyWByte (s : State) : Except Raise State := do
  checkOpen s
  .ok (s.emit (alignBits s.wpos ++ natBits 8 s.a.toNat))

/-- `W.ALIGN` (R166). -/
def bodyWAlign (s : State) : Except Raise State := do
  checkOpen s
  .ok (s.emit (alignBits s.wpos))

/-- `W.CLOSE` (R167). -/
def bodyWClose (s : State) : Except Raise State := do
  checkOpen s
  .ok ((s.emit (alignBits s.wpos)).setClosed true)

/-- `W.SYNC` (R168). -/
def bodyWSync (s : State) : Except Raise State := do
  checkOpen s
  .ok (s.emit (alignBits s.wpos ++ syncBits s.a.toNat))

/-- W.BIT (40_bitio.md R163). -/
def execWBit (s : State) : Host.Outcome State Fault Refusal :=
  runCommand { op := 0x10, side := .writer, body := bodyWBit } s

/-- W.BITS (40_bitio.md R164). -/
def execWBits (n : Nat) (s : State) : Host.Outcome State Fault Refusal :=
  runCommand { op := 0x11, side := .writer, body := bodyWBits n } s

/-- W.BYTE (40_bitio.md R165); a drain point (20_memory.md R94). -/
def execWByte (s : State) : Host.Outcome State Fault Refusal :=
  runCommand { op := 0x12, side := .writer, drain := true, body := bodyWByte } s

/-- W.ALIGN (40_bitio.md R166); a drain point. -/
def execWAlign (s : State) : Host.Outcome State Fault Refusal :=
  runCommand { op := 0x13, side := .writer, drain := true, body := bodyWAlign } s

/-- W.CLOSE (40_bitio.md R167); a drain point. -/
def execWClose (s : State) : Host.Outcome State Fault Refusal :=
  runCommand { op := 0x14, side := .writer, drain := true, writes := fun _ => { closed := true }, body := bodyWClose } s

/-- W.SYNC (40_bitio.md R168); a drain point. -/
def execWSync (s : State) : Host.Outcome State Fault Refusal :=
  runCommand { op := 0x15, side := .writer, drain := true, body := bodyWSync } s

/-! ### Reader -/

/-- `R.BIT` (R174). -/
def bodyRBit (s : State) : Except Raise State := do
  let (b, p) ← takeBit s.source s.rpos
  .ok ((s.setRpos p).setR (BitVec.ofNat 64 b.toNat))

/-- `R.BITS` (R175). -/
def bodyRBits (n : Nat) (s : State) : Except Raise State := do
  require (decide (n ≤ 64)) { code := .invalidArgument, info := s.rpos }
  let (v, p) ← takeBits s.source n s.rpos
  .ok ((s.setRpos p).setR (BitVec.ofNat 64 v))

/-- `R.BYTE` (R176). -/
def bodyRByte (s : State) : Except Raise State := do
  let (b, p) ← takeByte s.source .endOfStream s.rpos
  .ok ((s.setRpos p).setR (BitVec.ofNat 64 b.toNat))

/-- `R.ALIGN` (R177). -/
def bodyRAlign (s : State) : Except Raise State := do
  let p ← rAlign s.source s.rpos
  .ok (s.setRpos p)

/-- The loop of `R.SYNC` (R178): `v <- (v << 8) | TakeByte(END_OF_STREAM)`, `n` times. -/
def syncLoop (src : Source) : Nat → Nat → Nat → Except Raise (Nat × Nat)
  | 0, v, k => .ok (v, k)
  | n + 1, v, k => do
    let (b, k1) ← takeByte src .endOfStream k
    syncLoop src n (v * 256 + b.toNat) k1

/-- `R.SYNC` (R178): a mismatch raises `SYNC_MISMATCH` with `R` holding the marker read (90_conflicts.md C8). -/
def bodyRSync (s : State) : Except Raise State := do
  let (v, p) ← syncLoop s.source 8 0 s.rpos
  require (BitVec.ofNat 64 v == s.a)
    { code := .syncMismatch, info := p, result := some (BitVec.ofNat 64 v) }
  .ok ((s.setRpos p).setR (BitVec.ofNat 64 v))

/-- R.BIT (40_bitio.md R174). -/
def execRBit (s : State) : Host.Outcome State Fault Refusal :=
  runCommand { op := 0x20, side := .reader, pull := .bits, writes := fun _ => { r := true }, body := bodyRBit } s

/-- R.BITS (40_bitio.md R175). -/
def execRBits (n : Nat) (s : State) : Host.Outcome State Fault Refusal :=
  runCommand { op := 0x21, side := .reader, pull := .bits, writes := fun _ => { r := true }, body := bodyRBits n } s

/-- R.BYTE (40_bitio.md R176). -/
def execRByte (s : State) : Host.Outcome State Fault Refusal :=
  runCommand { op := 0x22, side := .reader, pull := .bytes, writes := fun _ => { r := true }, body := bodyRByte } s

/-- R.ALIGN (40_bitio.md R177). -/
def execRAlign (s : State) : Host.Outcome State Fault Refusal :=
  runCommand { op := 0x23, side := .reader, pull := .bits, body := bodyRAlign } s

/-- R.SYNC (40_bitio.md R178). -/
def execRSync (s : State) : Host.Outcome State Fault Refusal :=
  runCommand { op := 0x24, side := .reader, pull := .bytes, writes := fun _ => { r := true }, body := bodyRSync } s

end Sys2Proof.Machine
end

