-- ==== Sys2Proof/Machine/Scalar.lean ====
section
/-! DEFINITION. The scalar codecs and their commands (41_scalar_codecs.md R220 to R235). -/

namespace Sys2Proof.Machine

open Sys2Proof

/-! ### Bounded code -/

/-- The loop of `EncBounded` (R220) from bit `i` on: `m` is the part of max still reachable. -/
def boundedLoop : Nat → Nat → Nat → Nat → List Bool
  | 0, _, _, _ => []
  | fuel + 1, m, v, i =>
    if 2 ^ i ≤ m then
      if v.testBit i then true :: boundedLoop fuel (m - 2 ^ i) v (i + 1)
      else false :: boundedLoop fuel m v (i + 1)
    else []

/-- The bits `EncBounded(max, v)` emits for `0 <= v <= max` (R220); it makes at most `bitlen(max)` passes (R222). -/
def boundedBits (max v : Nat) : List Bool := boundedLoop (bitlen max) max v 0

/-- `EncBounded(max, v)` at position `w` (R220). -/
def encBounded (max v : Int) (w : Nat) : Except Raise (List Bool) := do
  require (decide (0 ≤ max) && decide (0 ≤ v) && decide (v ≤ max)) { code := .invalidArgument, info := w }
  .ok (boundedBits max.toNat v.toNat)

/-- The loop of `DecBounded` (R221) from bit `i` on. -/
def decBoundedLoop (src : Source) (max : Nat) : Nat → Nat → Nat → Nat → Except Raise (Nat × Nat)
  | 0, v, _, k => .ok (v, k)
  | fuel + 1, v, i, k =>
    if v ||| 2 ^ i ≤ max then do
      let (b, k1) ← takeBit src k
      decBoundedLoop src max fuel (if b then v ||| 2 ^ i else v) (i + 1) k1
    else .ok (v, k)

/-- `DecBounded(max)` for `max >= 0` (R221); it makes at most `bitlen(max)` passes (R222). -/
def decBoundedNat (src : Source) (max k : Nat) : Except Raise (Nat × Nat) :=
  decBoundedLoop src max (bitlen max) 0 0 k

/-- `DecBounded(max)` (R221). -/
def decBounded (src : Source) (max : Int) (k : Nat) : Except Raise (Nat × Nat) := do
  require (decide (0 ≤ max)) { code := .invalidArgument, info := k }
  decBoundedNat src max.toNat k

/-! ### Unsigned and signed var-bits -/

/-- The range loop of `EncUVarBits` (R225) and the code that ends it. -/
def rangeLoop : Nat → Nat → Nat → List Bool
  | 0, h, range => true :: boundedBits range h
  | fuel + 1, h, range =>
    if range < h then false :: rangeLoop fuel (h - (range + 1)) (2 * range + 1)
    else true :: boundedBits range h

/-- The bits `EncUVarBits(v, noisy)` emits for `v >= 0` (R225); it doubles the range `bitlen(h + 1) - 1` times, and its
`EncBounded(range, h)` never raises (log 22). -/
def uvarBits (v noisy : Nat) : List Bool :=
  natBits noisy v ++ rangeLoop (bitlen (v / 2 ^ noisy + 1)) (v / 2 ^ noisy) 0

/-- `EncUVarBits(v, noisy)` at position `w` (R225). -/
def encUVarBits (v : Int) (noisy w : Nat) : Except Raise (List Bool) := do
  require (decide (noisy ≤ 63) && decide (0 ≤ v)) { code := .invalidArgument, info := w }
  .ok (uvarBits v.toNat noisy)

/-- The prefix loop of `DecUVarBits` (R226): the range and base at the terminating 1. The 64th zero raises. -/
def prefixLoop (src : Source) : Nat → Nat → Nat → Nat → Except Raise (Nat × Nat × Nat)
  | 0, _, _, k => .error { code := .overflow, info := k }
  | fuel + 1, range, base, k => do
    let (b, k1) ← takeBit src k
    if b then .ok (range, base, k1)
    else if range = lmax then .error { code := .overflow, info := k1 }
    else prefixLoop src fuel (2 * range + 1) (base + range + 1) k1

/-- `DecUVarBits(noisy)` (R226): it inverts `uvarBits` (R236 (b)). -/
def decUVarBits (src : Source) (noisy k : Nat) : Except Raise (Nat × Nat) := do
  require (decide (noisy ≤ 63)) { code := .invalidArgument, info := k }
  let (low, k1) ← takeBits src noisy k
  let (range, base, k2) ← prefixLoop src 64 0 0 k1
  let (d, k3) ← decBoundedNat src range k2
  require (decide (base + d ≤ lmax / 2 ^ noisy)) { code := .overflow, info := k3 }
  .ok ((base + d) * 2 ^ noisy + low, k3)

/-- The folded magnitude of the signed codes: `v` or `-v - 1` (R229, R233). -/
def foldMag (v : Int) : Nat := if v < 0 then (-v - 1).toNat else v.toNat

/-- The value with the given sign and folded magnitude (R230); it inverts `foldMag`. -/
def unfoldMag (neg : Bool) (m : Nat) : Int := if neg then -(m : Int) - 1 else m

/-- The bits `EncSVarBits(v, noisy)` emits (R229): the sign bit, then the code of the folded magnitude. -/
def svarBits (v : Int) (noisy : Nat) : List Bool := decide (v < 0) :: uvarBits (foldMag v) noisy

/-- `EncSVarBits(v, noisy)` at position `w` (R229); the inner call never raises (R229, log 22). -/
def encSVarBits (v : Int) (noisy w : Nat) : Except Raise (List Bool) := do
  require (decide (noisy ≤ 63)) { code := .invalidArgument, info := w }
  .ok (svarBits v noisy)

/-- `DecSVarBits(noisy)` (R230): it inverts `svarBits` (R236 (a), (d)). -/
def decSVarBits (src : Source) (noisy k : Nat) : Except Raise (Int × Nat) := do
  require (decide (noisy ≤ 63)) { code := .invalidArgument, info := k }
  let (sg, k1) ← takeBit src k
  let (m, k2) ← decUVarBits src noisy k1
  .ok (unfoldMag sg m, k2)

/-! ### Var-bytes -/

/-- `ZigZag(v)` (R233). -/
def zigZag (v : Int) : Nat := if v < 0 then 2 * foldMag v + 1 else 2 * foldMag v

/-- `UnZigZag(u)` (R233): it inverts `zigZag` (R236 (c)). -/
def unZigZag (u : Nat) : Int := unfoldMag (u % 2 == 1) (u / 2)

/-- The bytes of the var-bytes code of `u` (R234): 7 bits a byte, low group first, bit 7 set while more follow. -/
def vbyGroups : Nat → Nat → List Nat
  | 0, _ => []
  | fuel + 1, u => if u / 128 = 0 then [u % 128] else (u % 128 + 128) :: vbyGroups fuel (u / 128)

/-- The bits `VBY.E` emits after its re-alignment (R234); a 64-bit `u` has at most 10 groups. -/
def vbyBits (u : Nat) : List Bool := (vbyGroups 10 u).flatMap (natBits 8)

/-- The loop of `VBY.D` (R235): `shift` grows by 7 a byte, so an 11th pass raises. It inverts `vbyBits` (R236 (c)). -/
def vbyLoop (src : Source) : Nat → Nat → Nat → Nat → Except Raise (Nat × Nat)
  | 0, _, _, k => .error { code := .truncation, info := k }
  | fuel + 1, u, shift, k =>
    if 64 ≤ shift then .error { code := .truncation, info := k }
    else do
      let (b, k1) ← takeByte src .truncation k
      let u1 := (u ||| (b.toNat % 128) <<< shift) % 2 ^ 64
      if b.toNat < 128 then .ok (u1, k1) else vbyLoop src fuel u1 (shift + 7) k1

/-! ### Commands -/

/-- `BND.E` (R223). -/
def bodyBndE (s : State) : Except Raise State := do
  checkOpen s
  let bits ← encBounded s.opA s.opB s.wpos
  .ok (s.emit bits)

/-- `BND.D` (R224). -/
def bodyBndD (s : State) : Except Raise State := do
  let (v, p) ← decBounded s.source s.opA s.rpos
  .ok ((s.setRpos p).setR (BitVec.ofNat 64 v))

/-- `UVB.E` (R227). -/
def bodyUvbE (n : Nat) (s : State) : Except Raise State := do
  checkOpen s
  let bits ← encUVarBits s.opA n s.wpos
  .ok (s.emit bits)

/-- `UVB.D` (R228, R236 (b)). -/
def bodyUvbD (n : Nat) (s : State) : Except Raise State := do
  let (v, p) ← decUVarBits s.source n s.rpos
  .ok ((s.setRpos p).setR (BitVec.ofNat 64 v))

/-- `SVB.E` (R231). -/
def bodySvbE (n : Nat) (s : State) : Except Raise State := do
  checkOpen s
  let bits ← encSVarBits s.opA n s.wpos
  .ok (s.emit bits)

/-- `SVB.D` (R232, R236 (a), (d)). -/
def bodySvbD (n : Nat) (s : State) : Except Raise State := do
  let (v, p) ← decSVarBits s.source n s.rpos
  .ok ((s.setRpos p).setR (BitVec.ofInt 64 v))

/-- `VBY.E` (R234). -/
def bodyVbyE (s : State) : Except Raise State := do
  checkOpen s
  .ok (s.emit (alignBits s.wpos ++ vbyBits (zigZag s.opA)))

/-- `VBY.D` (R235, R236 (c)). -/
def bodyVbyD (s : State) : Except Raise State := do
  let k ← rAlign s.source s.rpos
  let (u, p) ← vbyLoop s.source 11 0 0 k
  .ok ((s.setRpos p).setR (BitVec.ofInt 64 (unZigZag u)))

/-- BND.E (41_scalar_codecs.md R223). -/
def execBndE (s : State) : Host.Outcome State Fault Refusal :=
  runCommand { op := 0x30, side := .writer, body := bodyBndE } s

/-- BND.D (41_scalar_codecs.md R224). -/
def execBndD (s : State) : Host.Outcome State Fault Refusal :=
  runCommand { op := 0x31, side := .reader, pull := .bits, writes := fun _ => { r := true }, body := bodyBndD } s

/-- UVB.E (41_scalar_codecs.md R227). -/
def execUvbE (n : Nat) (s : State) : Host.Outcome State Fault Refusal :=
  runCommand { op := 0x32, side := .writer, body := bodyUvbE n } s

/-- UVB.D (41_scalar_codecs.md R228). -/
def execUvbD (n : Nat) (s : State) : Host.Outcome State Fault Refusal :=
  runCommand { op := 0x33, side := .reader, pull := .bits, writes := fun _ => { r := true }, body := bodyUvbD n } s

/-- SVB.E (41_scalar_codecs.md R231). -/
def execSvbE (n : Nat) (s : State) : Host.Outcome State Fault Refusal :=
  runCommand { op := 0x34, side := .writer, body := bodySvbE n } s

/-- SVB.D (41_scalar_codecs.md R232). -/
def execSvbD (n : Nat) (s : State) : Host.Outcome State Fault Refusal :=
  runCommand { op := 0x35, side := .reader, pull := .bits, writes := fun _ => { r := true }, body := bodySvbD n } s

/-- VBY.E (41_scalar_codecs.md R234); a drain point (20_memory.md R94). -/
def execVbyE (s : State) : Host.Outcome State Fault Refusal :=
  runCommand { op := 0x36, side := .writer, drain := true, body := bodyVbyE } s

/-- VBY.D (41_scalar_codecs.md R235). -/
def execVbyD (s : State) : Host.Outcome State Fault Refusal :=
  runCommand { op := 0x37, side := .reader, pull := .bytes, writes := fun _ => { r := true }, body := bodyVbyD } s

end Sys2Proof.Machine
end

