-- ==== Sys2Proof/Machine/SortedArray.lean ====
section
/-! DEFINITION. The unique sorted array codec and its commands (42_sorted_array.md R260 to R266). -/

namespace Sys2Proof.Machine

open Sys2Proof

/-- `a[i] < a[i+1]` throughout (R260). -/
def strictlyRising : List Int → Bool
  | [] => true
  | [_] => true
  | x :: y :: rest => decide (x < y) && strictlyRising (y :: rest)

/-- A valid sorted array (R260): every element in `[0, LMAX]`, strictly rising. -/
def validSorted (xs : List Int) : Bool :=
  xs.all (fun x => decide (0 ≤ x) && decide (x ≤ (lmax : Int))) && strictlyRising xs

/-- `EncNode(s, p)` with `d = p + 1` (R261); a valid array has no node of two elements at `d = 0`, and its
`EncBounded(hi - lo, c0 - lo)` never raises (R261, log 22). -/
def nodeBits : Nat → List Nat → List Bool
  | _, [] => []
  | d, [x] => natBits d x
  | 0, _ => []
  | p + 1, xs =>
    let m := xs.length
    let half := 2 ^ p
    let c0 := (xs.filter (fun x => !x.testBit p)).length
    let lo := m - half
    let hi := min m half
    boundedBits (hi - lo) (c0 - lo) ++ nodeBits p (xs.take c0) ++ nodeBits p (xs.drop c0)

/-- The bits `EncUSABody(a)` emits for a valid sorted array (R261). -/
def usaBody (xs : List Nat) : List Bool :=
  match xs.getLast? with
  | none => []
  | some mx => uvarBits (bitlen mx) 0 ++ nodeBits (bitlen mx) xs

/-- `DecNode(m, p, prefix)` with `d = p + 1` (R262). -/
def decNode (src : Source) : Nat → Nat → Nat → Nat → Except Raise (List Nat × Nat)
  | 0, m, pre, k =>
    if m = 0 then .ok ([], k)
    else if 1 < m then .error { code := .uniquenessViolation, info := k }
    else .ok ([pre], k)
  | p + 1, m, pre, k =>
    if m = 0 then .ok ([], k)
    else if 2 ^ (p + 1) < m then .error { code := .uniquenessViolation, info := k }
    else if m = 1 then do
      let (v, k1) ← takeBits src (p + 1) k
      .ok ([pre ||| v], k1)
    else do
      let half := 2 ^ p
      let lo := m - half
      let hi := min m half
      let (d, k1) ← decBoundedNat src (hi - lo) k
      let (xs, k2) ← decNode src p (lo + d) pre k1
      let (ys, k3) ← decNode src p (m - (lo + d)) (pre ||| half) k2
      .ok (xs ++ ys, k3)

/-- `DecUSABody(n)` (R262). -/
def decUsaBody (src : Source) (n k : Nat) : Except Raise (List Nat × Nat) :=
  if n = 0 then .ok ([], k)
  else do
    let (w, k1) ← decUVarBits src 0 k
    require (decide (w ≤ 63)) { code := .overflow, info := k1 }
    decNode src w n 0 k1

/-- The checks of `USA.E` and `USAN.E` before their first bit (R263, R265): the array, as integers. -/
def sortedOperand (s : State) : Except Raise (List Nat) := do
  checkOpen s
  require (windowOk s s.opA s.opB) { code := .invalidArgument, info := s.wpos }
  let xs := readWindow s s.opA.toNat s.opB.toNat
  require (validSorted xs) { code := .invalidArgument, info := s.wpos }
  .ok (xs.map Int.toNat)

/-- The same error, with the ARR window the command could write (60_exceptions.md R405). -/
def inWindow {α : Type} (win : Nat × Nat) (x : Except Raise α) : Except Raise α :=
  match x with
  | .ok v => .ok v
  | .error e => .error { e with window := win }

/-- `USA.E` (R263). -/
def bodyUsaE (s : State) : Except Raise State := do
  let xs ← sortedOperand s
  .ok (s.emit (uvarBits xs.length 0 ++ usaBody xs))

/-- `USAN.E` (R265). -/
def bodyUsanE (s : State) : Except Raise State := do
  let xs ← sortedOperand s
  .ok (s.emit (usaBody xs))

/-- `USA.D` (R264). -/
def bodyUsaD (s : State) : Except Raise State := do
  require (decide (0 ≤ s.opA) && decide (s.opA ≤ s.params.arrWords)) { code := .invalidArgument, info := s.rpos }
  let (n, k) ← decUVarBits s.source 0 s.rpos
  require (decide (s.opA.toNat + n ≤ s.params.arrWords)) { code := .capacity, info := k }
  let (xs, p) ← inWindow (s.opA.toNat, n) (decUsaBody s.source n k)
  .ok (((s.memWriteList s.opA.toNat (xs.map (BitVec.ofNat 64))).setRpos p).setR (BitVec.ofNat 64 n))

/-- `USAN.D` (R266). -/
def bodyUsanD (s : State) : Except Raise State := do
  require (windowOk s s.opA s.opB) { code := .invalidArgument, info := s.rpos }
  let (xs, p) ← inWindow (s.opA.toNat, s.opB.toNat) (decUsaBody s.source s.opB.toNat s.rpos)
  .ok (((s.memWriteList s.opA.toNat (xs.map (BitVec.ofNat 64))).setRpos p).setR s.b)

/-- USA.E (42_sorted_array.md R263). -/
def execUsaE (s : State) : Host.Outcome State Fault Refusal :=
  runCommand { op := 0x40, side := .writer, body := bodyUsaE } s

/-- USA.D (42_sorted_array.md R264). -/
def execUsaD (s : State) : Host.Outcome State Fault Refusal :=
  runCommand
    { op := 0x41
      side := .reader
      pull := .bits
      writes := fun _ => { r := true }
      window := fun s1 => (s1.opA.toNat, s1.r.toNat)
      body := bodyUsaD }
    s

/-- USAN.E (42_sorted_array.md R265). -/
def execUsanE (s : State) : Host.Outcome State Fault Refusal :=
  runCommand { op := 0x42, side := .writer, body := bodyUsanE } s

/-- USAN.D (42_sorted_array.md R266). -/
def execUsanD (s : State) : Host.Outcome State Fault Refusal :=
  runCommand
    { op := 0x43
      side := .reader
      pull := .bits
      writes := fun _ => { r := true }
      window := fun s1 => (s1.opA.toNat, s1.opB.toNat)
      body := bodyUsanD }
    s

end Sys2Proof.Machine
end

