-- ==== Sys2Proof/Machine/Context.lean ====
section
/-! DEFINITION. The context coder's commands (43_arithmetic.md R300 to R305). -/

namespace Sys2Proof.Machine

open Sys2Proof

/-- `FREQ[x] <- FREQ[x] + 1`, 0 if absent (R302); the symbols stay strictly rising. -/
def freqAdd (x : Nat) : List (Nat × Nat) → List (Nat × Nat)
  | [] => [(x, 1)]
  | (y, c) :: rest =>
    if x < y then (x, 1) :: (y, c) :: rest
    else if x = y then (y, c + 1) :: rest
    else (y, c) :: freqAdd x rest

/-- The running sums of the counts from `acc` on: `cum[i]` is the sum of the first `i + 1` (R301). -/
def runningSums (acc : Nat) : List Nat → List Nat
  | [] => []
  | c :: cs => (acc + c) :: runningSums (acc + c) cs

/-- The keys of FREQ in increasing order (R301). -/
def CeSlot.keys (st : CeSlot) : List Nat := st.freq.map Prod.fst
/-- The cumulative counts of FREQ (R301). -/
def CeSlot.sums (st : CeSlot) : List Nat := runningSums 0 (st.freq.map Prod.snd)

/-- The bits of a context table (R301): the size, the cumulative counts for two or more symbols, the symbols. -/
def contextTable (syms cum : List Nat) : List Bool :=
  uvarBits syms.length 0 ++ (if 2 ≤ syms.length then usaBody cum else []) ++ usaBody syms

/-- `CE.INIT` (R301). -/
def bodyCeInit (slot : Nat) (s : State) : Except Raise State := do
  checkSlot s .writer slot
  let st := s.ceAt slot
  match st.pass with
  | .idle | .done => .ok (s.setCe slot { pass := .pass1, freq := [], syms := [], cum := [] })
  | .pass1 => do
    require (s.ae.mode != .idle) { code := .invalidState, info := s.wpos }
    checkOpen s
    require (decide (st.keys.length < 2) || decide (st.sums.getLastD 0 ≤ maxTotal s.ae.w))
      { code := .invalidArgument, info := s.wpos }
    .ok ((s.emit (contextTable st.keys st.sums)).setCe slot
      { st with syms := st.keys, cum := st.sums, pass := .pass2 })
  | .pass2 => .error { code := .invalidState, info := s.wpos }

/-- `CE.ENC` (R302). -/
def bodyCeEnc (slot : Nat) (s : State) : Except Raise State := do
  checkSlot s .writer slot
  let st := s.ceAt slot
  match st.pass with
  | .pass1 => do
    require (decide (0 ≤ s.opA)) { code := .invalidArgument, info := s.wpos }
    require (st.keys.contains s.opA.toNat || st.freq.length != s.params.slotSyms)
      { code := .capacity, info := s.wpos }
    .ok (s.setCe slot { st with freq := freqAdd s.opA.toNat st.freq })
  | .pass2 => do
    require (decide (0 ≤ s.opA) && st.syms.contains s.opA.toNat) { code := .symbolNotSeen, info := s.wpos }
    if 2 ≤ st.syms.length then aeEncode s (st.cum.map Int.ofNat) (st.syms.idxOf s.opA.toNat)
    else .ok s
  | .idle | .done => .error { code := .invalidState, info := s.wpos }

/-- `CE.FIN` (R303). -/
def bodyCeFin (slot : Nat) (s : State) : Except Raise State := do
  checkSlot s .writer slot
  require ((s.ceAt slot).pass == .pass2) { code := .invalidState, info := s.wpos }
  .ok (s.setCe slot { s.ceAt slot with pass := .done })

/-- `CD.INIT` (R304). -/
def bodyCdInit (slot : Nat) (s : State) : Except Raise State := do
  checkSlot s .reader slot
  require (s.ad.mode != .idle) { code := .invalidState, info := s.rpos }
  let (n, k) ← decUVarBits s.source 0 s.rpos
  require (decide (n ≤ s.params.slotSyms)) { code := .capacity, info := k }
  let (cum, k1) ← if 2 ≤ n then decUsaBody s.source n k else .ok ([], k)
  require (decide (n < 2) || decide (cum.getLastD 0 ≤ maxTotal s.ad.w)) { code := .precisionBudget, info := k1 }
  let (syms, k2) ← decUsaBody s.source n k1
  .ok ((s.setRpos k2).setCd slot (.ready syms cum))

/-- `CD.DEC` (R305). -/
def bodyCdDec (slot : Nat) (s : State) : Except Raise State := do
  checkSlot s .reader slot
  match s.cdAt slot with
  | .ready (x :: rest) cum =>
    if rest = [] then .ok (s.setR (BitVec.ofNat 64 x))
    else do
      let (i, s1) ← adDecode s (cum.map Int.ofNat)
      .ok (s1.setR (BitVec.ofNat 64 ((x :: rest).getD i 0)))
  | .ready [] _ | .idle => .error { code := .invalidState, info := s.rpos }

/-- What `CE.INIT` could write (R301): the pass-2 init leaves FREQ. -/
def ceInitWrites (slot : Nat) (s : State) : Writes :=
  { ce := some (slot, { pass := true, freq := (s.ceAt slot).pass != .pass1, tables := true }) }

/-- What `CE.ENC` could write (R302): FREQ in pass 1; in pass 2, for two symbols or more, what `AEEncode` does. -/
def ceEncWrites (slot : Nat) (s : State) : Writes :=
  match (s.ceAt slot).pass with
  | .pass1 => { ce := some (slot, { freq := true }) }
  | .pass2 => { ae := if 2 ≤ (s.ceAt slot).syms.length then aeStepWrites else {} }
  | .idle | .done => {}

/-- What `CD.DEC` could write (R305): for two symbols or more AD too. -/
def cdDecWrites (slot : Nat) (s : State) : Writes :=
  match s.cdAt slot with
  | .ready (_ :: _ :: _) _ => { r := true, ad := adStepWrites s }
  | .ready _ _ | .idle => { r := true }

/-- CE.INIT (43_arithmetic.md R301). -/
def execCeInit (slot : Nat) (s : State) : Host.Outcome State Fault Refusal :=
  runCommand { op := 0x60, side := .writer, writes := ceInitWrites slot, body := bodyCeInit slot } s

/-- CE.ENC (43_arithmetic.md R302). -/
def execCeEnc (slot : Nat) (s : State) : Host.Outcome State Fault Refusal :=
  runCommand { op := 0x61, side := .writer, writes := ceEncWrites slot, body := bodyCeEnc slot } s

/-- CE.FIN (43_arithmetic.md R303). -/
def execCeFin (slot : Nat) (s : State) : Host.Outcome State Fault Refusal :=
  runCommand
    { op := 0x62
      side := .writer
      writes := fun _ => { ce := some (slot, { pass := true }) }
      body := bodyCeFin slot }
    s

/-- CD.INIT (43_arithmetic.md R304). -/
def execCdInit (slot : Nat) (s : State) : Host.Outcome State Fault Refusal :=
  runCommand
    { op := 0x68
      side := .reader
      pull := .bits
      writes := fun _ => { cd := some slot }
      body := bodyCdInit slot }
    s

/-- CD.DEC (43_arithmetic.md R305). -/
def execCdDec (slot : Nat) (s : State) : Host.Outcome State Fault Refusal :=
  runCommand
    { op := 0x69
      side := .reader
      pull := .bits
      writes := cdDecWrites slot
      body := bodyCdDec slot }
    s

end Sys2Proof.Machine
end

