-- ==== Sys2Proof/Machine/Huffman.lean ====
section
/-! DEFINITION. The Huffman coder and its commands (44_huffman.md R350 to R361). -/

namespace Sys2Proof.Machine

open Sys2Proof

/-! ### Leaves (R351) -/

/-- `LeafCheck(cfg, s)`: the configuration represents the symbol. -/
def leafOk (cfg : LeafCfg) (x : Int) : Bool :=
  (decide (cfg.mode = 0) || decide (0 ≤ x)) && (decide (cfg.mode ≠ 2) || decide (x ≤ cfg.max))

/-- The bits `LeafEnc(cfg, s)` emits for a symbol `LeafCheck` let pass. -/
def leafBits (cfg : LeafCfg) (x : Int) : List Bool :=
  if cfg.mode = 0 then svarBits x cfg.noisy
  else if cfg.mode = 1 then uvarBits x.toNat cfg.noisy
  else boundedBits cfg.max.toNat x.toNat

/-- `LeafDec(cfg)`. -/
def leafDec (src : Source) (cfg : LeafCfg) (k : Nat) : Except Raise (Int × Nat) :=
  if cfg.mode = 0 then decSVarBits src cfg.noisy k
  else if cfg.mode = 1 then do
    let (v, k1) ← decUVarBits src cfg.noisy k
    .ok ((v : Int), k1)
  else do
    let (v, k1) ← decBounded src cfg.max k
    .ok ((v : Int), k1)

/-! ### Tree and codes (R353 to R355) -/

/-- An entry of the queue Q: weight, sequence number, node (R353). -/
abbrev QEntry := Nat × Nat × HTree

/-- `(weight, seq)` order (R353). -/
def qBefore (x y : QEntry) : Bool := decide (x.1 < y.1) || (decide (x.1 = y.1) && decide (x.2.1 < y.2.1))

/-- Q is kept in rising (weight, seq) order, so the least entry is its head. -/
def qInsert (x : QEntry) : List QEntry → List QEntry
  | [] => [x]
  | y :: rest => if qBefore y x then y :: qInsert x rest else x :: y :: rest

/-- The queue of the leaves, numbered from `i` on in first-seen order (R353). -/
def qLeaves (i : Nat) : List (Int × Nat) → List QEntry
  | [] => []
  | (x, c) :: rest => qInsert (c, i, .leaf x) (qLeaves (i + 1) rest)

/-- The merging loop of `BuildTree` (R353); each pass takes one entry away. -/
def qMerge : Nat → Nat → List QEntry → List QEntry
  | fuel + 1, next, x :: y :: rest =>
    qMerge fuel (next + 1) (qInsert (x.1 + y.1, next, .node x.2.2 y.2.2) rest)
  | _, _, q => q

/-- `BuildTree(ORDER, FREQ)` for at least one symbol (R353). -/
def buildTree (freq : List (Int × Nat)) : HTree :=
  match qMerge freq.length freq.length (qLeaves 0 freq) with
  | x :: _ => x.2.2
  | [] => .leaf 0

/-- `AssignCodes(T)` (R354): 0 for child 0, 1 for child 1, the root's branch first. -/
def assignCodes : HTree → List (Int × List Bool)
  | .leaf x => [(x, [])]
  | .node t0 t1 =>
    (assignCodes t0).map (fun c => (c.1, false :: c.2)) ++ (assignCodes t1).map (fun c => (c.1, true :: c.2))

/-- `SerTree(node)` (R355). -/
def serTree (cfg : LeafCfg) : HTree → List Bool
  | .leaf x => false :: leafBits cfg x
  | .node t0 t1 => true :: (serTree cfg t0 ++ serTree cfg t1)

/-- The code of a symbol, if it has one. -/
def codeOf (x : Int) : List (Int × List Bool) → Option (List Bool)
  | [] => none
  | (y, code) :: rest => if y = x then some code else codeOf x rest

/-- A symbol counted once more; a new one goes to the end of ORDER (R357). -/
def huffAdd (x : Int) : List (Int × Nat) → List (Int × Nat)
  | [] => [(x, 1)]
  | (y, c) :: rest => if y = x then (y, c + 1) :: rest else (y, c) :: huffAdd x rest

/-! ### Reading and descending a tree (R359, R361) -/

/-- `ReadTree(cfg)` (R359): the tree, the counts of internal nodes and leaves so far, and the position. A node at depth
`d` has `d` internal nodes above it, so `SLOT_SYMS` levels suffice. -/
def readTree (src : Source) (cfg : LeafCfg) (slotSyms : Nat) :
    Nat → Nat → Nat → Nat → Except Raise (HTree × Nat × Nat × Nat)
  | 0, _, _, k => .error { code := .capacity, info := k }
  | fuel + 1, nodes, leaves, k => do
    let (b, k1) ← takeBit src k
    if b then do
      require (decide (nodes + 1 ≤ slotSyms - 1)) { code := .capacity, info := k1 }
      let (t0, nodes0, leaves0, k2) ← readTree src cfg slotSyms fuel (nodes + 1) leaves k1
      let (t1, nodes1, leaves1, k3) ← readTree src cfg slotSyms fuel nodes0 leaves0 k2
      .ok (.node t0 t1, nodes1, leaves1, k3)
    else do
      require (decide (leaves + 1 ≤ slotSyms)) { code := .capacity, info := k1 }
      let (x, k2) ← leafDec src cfg k1
      .ok (.leaf x, nodes, leaves + 1, k2)

/-- The descent of `HD.DEC` (R361): the symbol of the leaf reached and the position. -/
def descend (src : Source) : HTree → Nat → Except Raise (Int × Nat)
  | .leaf x, k => .ok (x, k)
  | .node t0 t1, k => do
    let (b, k1) ← takeBit src k
    if b then descend src t1 k1 else descend src t0 k1

/-! ### Commands -/

/-- The bits a pass-2 `HE.INIT` emits (R355, R356): the flag, then the tree if there is a symbol. -/
def treeBits (cfg : LeafCfg) (freq : List (Int × Nat)) : List Bool :=
  if freq = [] then [false] else true :: serTree cfg (buildTree freq)

/-- The codes a pass-2 `HE.INIT` assigns (R354, R356). -/
def treeCodes (freq : List (Int × Nat)) : List (Int × List Bool) :=
  if freq = [] then [] else assignCodes (buildTree freq)

/-- `HE.INIT` (R356). -/
def bodyHeInit (n slot : Nat) (s : State) : Except Raise State := do
  checkSlot s .writer slot
  let st := s.heAt slot
  let cfg := s.leafCfg n
  require (st.pass != .pass2) { code := .invalidState, info := s.wpos }
  require cfg.valid { code := .invalidArgument, info := s.wpos }
  if st.pass = .pass1 then do
    checkOpen s
    require (st.freq.all (fun p => leafOk cfg p.1)) { code := .invalidArgument, info := s.wpos }
    .ok ((s.emit (treeBits cfg st.freq)).setHe slot { st with codes := treeCodes st.freq, pass := .pass2 })
  else .ok (s.setHe slot { pass := .pass1, freq := [], codes := [] })

/-- `HE.ENC` (R357). -/
def bodyHeEnc (slot : Nat) (s : State) : Except Raise State := do
  checkSlot s .writer slot
  let st := s.heAt slot
  match st.pass with
  | .pass1 => do
    require ((st.freq.map Prod.fst).contains s.opA || st.freq.length != s.params.slotSyms)
      { code := .capacity, info := s.wpos }
    .ok (s.setHe slot { st with freq := huffAdd s.opA st.freq })
  | .pass2 =>
    match codeOf s.opA st.codes with
    | none => .error { code := .symbolNotSeen, info := s.wpos }
    | some code => do
      checkOpen s
      .ok (s.emit code)
  | .idle | .done => .error { code := .invalidState, info := s.wpos }

/-- `HE.FIN` (R358). -/
def bodyHeFin (slot : Nat) (s : State) : Except Raise State := do
  checkSlot s .writer slot
  require ((s.heAt slot).pass == .pass2) { code := .invalidState, info := s.wpos }
  .ok (s.setHe slot { s.heAt slot with pass := .done })

/-- `HD.INIT` (R360). -/
def bodyHdInit (n slot : Nat) (s : State) : Except Raise State := do
  checkSlot s .reader slot
  require (s.leafCfg n).valid { code := .invalidArgument, info := s.rpos }
  let (f, k) ← takeBit s.source s.rpos
  if f then do
    let (t, _, _, k1) ← readTree s.source (s.leafCfg n) s.params.slotSyms s.params.slotSyms 0 0 k
    .ok ((s.setRpos k1).setHd slot (.ready t))
  else .ok ((s.setRpos k).setHd slot .empty)

/-- `HD.DEC` (R361). -/
def bodyHdDec (slot : Nat) (s : State) : Except Raise State := do
  checkSlot s .reader slot
  match s.hdAt slot with
  | .ready t => do
    let (x, k) ← descend s.source t s.rpos
    .ok ((s.setRpos k).setR (BitVec.ofInt 64 x))
  | .idle | .empty => .error { code := .invalidState, info := s.rpos }

/-- What `HE.INIT` could write (R356): the pass-2 init leaves ORDER and FREQ. -/
def heInitWrites (slot : Nat) (s : State) : Writes :=
  { he := some (slot, { pass := true, freq := (s.heAt slot).pass != .pass1, codes := true }) }

/-- What `HE.ENC` could write (R357): ORDER and FREQ in pass 1, nothing but the stream in pass 2. -/
def heEncWrites (slot : Nat) (s : State) : Writes :=
  match (s.heAt slot).pass with
  | .pass1 => { he := some (slot, { freq := true }) }
  | .pass2 | .idle | .done => {}

/-- HE.INIT (44_huffman.md R356). -/
def execHeInit (n slot : Nat) (s : State) : Host.Outcome State Fault Refusal :=
  runCommand { op := 0x70, side := .writer, writes := heInitWrites slot, body := bodyHeInit n slot } s

/-- HE.ENC (44_huffman.md R357). -/
def execHeEnc (slot : Nat) (s : State) : Host.Outcome State Fault Refusal :=
  runCommand { op := 0x71, side := .writer, writes := heEncWrites slot, body := bodyHeEnc slot } s

/-- HE.FIN (44_huffman.md R358). -/
def execHeFin (slot : Nat) (s : State) : Host.Outcome State Fault Refusal :=
  runCommand
    { op := 0x72
      side := .writer
      writes := fun _ => { he := some (slot, { pass := true }) }
      body := bodyHeFin slot }
    s

/-- HD.INIT (44_huffman.md R360). -/
def execHdInit (n slot : Nat) (s : State) : Host.Outcome State Fault Refusal :=
  runCommand
    { op := 0x78
      side := .reader
      pull := .bits
      writes := fun _ => { hd := some slot }
      body := bodyHdInit n slot }
    s

/-- HD.DEC (44_huffman.md R361). -/
def execHdDec (slot : Nat) (s : State) : Host.Outcome State Fault Refusal :=
  runCommand { op := 0x79, side := .reader, pull := .bits, writes := fun _ => { r := true }, body := bodyHdDec slot } s

end Sys2Proof.Machine
end

