-- ==== Sys2Proof/Machine/System.lean ====
section
/-! DEFINITION. SRESET, and the error of a command word that is none (60_exceptions.md R409, 30_encoding.md R124). -/

namespace Sys2Proof.Machine

open Sys2Proof

/-- SRESET (60_exceptions.md R409): every element but ARR takes its reset value, `R` and STATUS are 0. It has no error
and is the one command the engine executes in FAULT (R404). -/
def execSreset (s : State) : Host.Outcome State Fault Refusal := .next s.softReset

/-- An illegal command word raises `ILLEGAL_COMMAND` and has no other effect (30_encoding.md R124): ERR_OP is `CMD[7:0]`
(60_exceptions.md R402), ERR_INFO is WPOS for any word (R406). -/
def illegalCommand (s : State) : State := s.takeError (s.cmd.toNat % 256) .illegalCommand s.wpos

end Sys2Proof.Machine
end

