-- ==== Sys2Proof/Machine/Dispatch.lean ====
section
/-! DEFINITION. The dispatch from a command to its meaning (30_encoding.md R123). -/

namespace Sys2Proof.Machine

open Sys2Proof

def exec (i : Instr) (s : State) : Host.Outcome State Fault Refusal :=
  match i with
  | .sreset => Sys2Proof.Machine.execSreset s
  | .wBit => Sys2Proof.Machine.execWBit s
  | .wBits n => Sys2Proof.Machine.execWBits n s
  | .wByte => Sys2Proof.Machine.execWByte s
  | .wAlign => Sys2Proof.Machine.execWAlign s
  | .wClose => Sys2Proof.Machine.execWClose s
  | .wSync => Sys2Proof.Machine.execWSync s
  | .rBit => Sys2Proof.Machine.execRBit s
  | .rBits n => Sys2Proof.Machine.execRBits n s
  | .rByte => Sys2Proof.Machine.execRByte s
  | .rAlign => Sys2Proof.Machine.execRAlign s
  | .rSync => Sys2Proof.Machine.execRSync s
  | .bndE => Sys2Proof.Machine.execBndE s
  | .bndD => Sys2Proof.Machine.execBndD s
  | .uvbE n => Sys2Proof.Machine.execUvbE n s
  | .uvbD n => Sys2Proof.Machine.execUvbD n s
  | .svbE n => Sys2Proof.Machine.execSvbE n s
  | .svbD n => Sys2Proof.Machine.execSvbD n s
  | .vbyE => Sys2Proof.Machine.execVbyE s
  | .vbyD => Sys2Proof.Machine.execVbyD s
  | .usaE => Sys2Proof.Machine.execUsaE s
  | .usaD => Sys2Proof.Machine.execUsaD s
  | .usanE => Sys2Proof.Machine.execUsanE s
  | .usanD => Sys2Proof.Machine.execUsanD s
  | .aeReset n => Sys2Proof.Machine.execAeReset n s
  | .aeEnc => Sys2Proof.Machine.execAeEnc s
  | .aeFin => Sys2Proof.Machine.execAeFin s
  | .adReset n => Sys2Proof.Machine.execAdReset n s
  | .adDec => Sys2Proof.Machine.execAdDec s
  | .ceInit slot => Sys2Proof.Machine.execCeInit slot s
  | .ceEnc slot => Sys2Proof.Machine.execCeEnc slot s
  | .ceFin slot => Sys2Proof.Machine.execCeFin slot s
  | .cdInit slot => Sys2Proof.Machine.execCdInit slot s
  | .cdDec slot => Sys2Proof.Machine.execCdDec slot s
  | .heInit n slot => Sys2Proof.Machine.execHeInit n slot s
  | .heEnc slot => Sys2Proof.Machine.execHeEnc slot s
  | .heFin slot => Sys2Proof.Machine.execHeFin slot s
  | .hdInit n slot => Sys2Proof.Machine.execHdInit n slot s
  | .hdDec slot => Sys2Proof.Machine.execHdDec slot s

end Sys2Proof.Machine
end

