-- ==== Sys2Proof/Machine/HostPort.lean ====
section
/-! DEFINITION. The host's side: the register map (20_memory.md R81), the host's moves, and the two kinds of step, the
engine's and the host's (10_state.md R58). -/

namespace Sys2Proof.Machine

open Sys2Proof Sys2Proof.Config

/-! ### Register map -/

/-- The index of the ARR word at a register offset, if the offset lies in the window (20_memory.md R81). -/
def arrIndex (s : State) (off : Nat) : Option Nat :=
  if 0x1000 ≤ off ∧ off < 0x1000 + 8 * s.params.arrWords then some ((off - 0x1000) / 8) else none

/-- What a host read of an offset returns (20_memory.md R81): CMD and every reserved offset read 0. -/
def regRead (s : State) (off : Nat) : Word :=
  match off with
  | 0x000 => 0
  | 0x008 => s.a
  | 0x010 => s.b
  | 0x018 => s.c
  | 0x020 => s.r
  | 0x028 => s.status.word
  | 0x030 => s.errInfo
  | 0x038 => s.wposWord
  | 0x040 => s.rposWord
  | _ =>
    match arrIndex s off with
    | some i => s.memRead i
    | none => 0

/-- A write of CMD (30_encoding.md R120): the command starts, BUSY is 1. In FAULT every value but exactly 0x01 is
ignored (60_exceptions.md R404). -/
def cmdWrite (s : State) (v : Word) : State :=
  if s.status.fault && v != 1 then s
  else { s with cmd := v, status := { s.status with busy := true } }

/-- A host write (20_memory.md R81): read-only registers and reserved offsets ignore it. -/
def regWrite (s : State) (off : Nat) (v : Word) : State :=
  match off with
  | 0x000 => cmdWrite s v
  | 0x008 => { s with a := v }
  | 0x010 => { s with b := v }
  | 0x018 => { s with c := v }
  | _ =>
    match arrIndex s off with
    | some i => s.memWrite i v
    | none => s

/-- A host read: the value goes to the host, the block does not change (20_memory.md R92). -/
def hostRead (s : State) (off : Nat) : State := { s with readData := regRead s off, draws := s.draws + 1 }

/-! ### Binding the ports (70_reset_and_hazards.md R442, 20_memory.md R95) -/

/-- The sink holds every bit of WBITS: a writer drain point (20_memory.md R94). -/
def sinkDrained (s : State) : Bool := s.wpos == 8 * s.committed

/-- The reader holds no unconsumed byte and has not read past the source: the state after reset or R.SYNC
(20_memory.md R86, R94). -/
def sourceDrained (s : State) : Bool := s.rpos == 8 * s.pulled

/-- A new sink: it has received nothing; `failAt` counts its own bytes. -/
def bindSink (s : State) (failAt : Option Nat) : State :=
  { s with sink := [], sinkFail := failAt.map (· + s.committed) }

/-- A new source: its bytes come after those pulled before, so that RPOS goes on (40_bitio.md R180). -/
def bindSource (s : State) (bytes : List Byte) (failAt : Option Nat) : State :=
  { s with src := s.src.take s.pulled ++ bytes, srcFail := failAt.map (· + s.pulled) }

/-! ### Steps -/

/-- A move of the host on a block that is not BUSY. -/
def hostStep (s : State) (m : HostMove) : Host.Outcome State Fault Refusal :=
  match m with
  | .write off v => if off % 8 = 0 then .next (regWrite s off v) else .refused .misalignedHostAccess
  | .read off => if off % 8 = 0 then .next (hostRead s off) else .refused .misalignedHostAccess
  | .bindSource bytes failAt =>
    if sourceDrained s then .next (bindSource s bytes failAt) else .refused .sourceHandedOverMidStream
  | .bindSink failAt =>
    if sinkDrained s then .next (bindSink s failAt) else .refused .sinkHandedOverMidStream
  | .reset => .next s.hardReset

/-- The engine executes the command word in CMD (30_encoding.md R120, R124). -/
def engineStep (s : State) : Host.Outcome State Fault Refusal :=
  match decode s.cmd with
  | .ok i => exec i s
  | .error _ => .next (illegalCommand s)

/-- The reset input during a command that would have left `t` (70_reset_and_hazards.md R440, I11): reset values, and
any prefix of what the command would have moved through the ports. -/
def abandon (s t : State) : State :=
  let new := t.sink.drop s.sink.length
  let n := drawIn 0 new.length (abandonSink s.draws)
  let s1 : State :=
    { s with
      sink := s.sink ++ new.take n
      committed := s.committed + n
      pulled := drawIn s.pulled t.pulled (abandonSource s.draws)
      draws := s.draws + 1 }
  s1.hardReset

/-- The reset input while BUSY. -/
def resetWhileBusy (s : State) : Host.Outcome State Fault Refusal :=
  match engineStep s with
  | .next t => .next (abandon s t)
  | .fault f => .fault f
  | .refused r => .refused r

/-- A step while BUSY: the reset input acts at once; a pending STATUS read may land before the command ends
(20_memory.md R82, R91); every other move of the host waits for BUSY to be 0 (70_reset_and_hazards.md R443), so the
engine executes the command. -/
def busyStep (s : State) : Host.Outcome State Fault Refusal :=
  match s.moves with
  | .reset :: rest => resetWhileBusy { s with moves := rest }
  | .read off :: rest =>
    if off = 0x028 ∧ pollLandsFirst s.draws = true then .next (hostRead { s with moves := rest } off)
    else engineStep s
  | _ => engineStep s

/-- A step while not BUSY: the host's next move, or nothing while it makes none (log 2). -/
def idleStep (s : State) : Host.Outcome State Fault Refusal :=
  match s.moves with
  | [] => .next s
  | m :: rest => hostStep { s with moves := rest } m

/-- One step of the block and its host. -/
def blockStep (s : State) : Host.Outcome State Fault Refusal :=
  if s.status.busy then busyStep s else idleStep s

/-- The command word `w` accepted through CMD, BUSY, no host move before its execution. -/
def acceptWord (s : State) (w : Word) : State :=
  { s with cmd := w, status := { s.status with busy := true }, moves := [] }

end Sys2Proof.Machine
end

