-- ==== Sys2Proof/Machine/Step.lean ====
section
/-! DEFINITION. The machine's step. The block fetches no instruction (10_state.md R59): the command it runs is the one
the host wrote to CMD. -/

namespace Sys2Proof.Machine

open Sys2Proof

/-- One step: the engine ends the executing command, or the host makes its next move (10_state.md R58). -/
def step (s : State) : Host.Outcome State Fault Refusal := blockStep s

/-- The command word `w` (its low `nbits` bits) as the one the engine executes next: the host has written it to CMD and
has no further move pending (30_encoding.md R120, log 2). -/
def State.withFetchWord (s : State) (nbits w : Nat) : State := acceptWord s (BitVec.ofNat 64 (w % 2 ^ nbits))

end Sys2Proof.Machine
end

