-- ==== Sys2Proof/Safety.lean ====
section
/-! DEFINITION. The terms the statements use: how a command ends, the codes of the stream as relations written from the
rules of spec/, and the invariants of the machine. The machine does not use this file. -/

namespace Sys2Proof

open Sys2Proof.Machine

/-! ### How a command ends -/

/-- Neither port fails (20_memory.md R96). -/
def PortsSound (s : State) : Prop := s.sinkFail = none ∧ s.srcFail = none

/-- The sink has at most the complete bytes and lacks at most 7 of them (20_memory.md R85); the reader has pulled what
it consumed and holds at most 63 bits more (10_state.md R50). -/
structure StreamSound (s : State) : Prop where
  sinkComplete : 8 * s.committed ≤ s.wbits.length
  sinkClose : s.wbits.length / 8 ≤ s.committed + 7
  pulledConsumed : min (ceil8 s.rpos) s.src.length ≤ s.pulled
  pulledSource : s.pulled ≤ s.src.length
  pulledAhead : s.pulled ≤ (s.rpos + 63) / 8

/-- A command issued in `s` whose steps left `u` has ended without error, the sink then holding `k` bytes of the output
stream and the reader having pulled `q` bytes. All else is as in `u`. -/
def ended (s u : State) (k q : Nat) : State :=
  { u with
    sink := s.sink ++ outBytes u.wbits s.committed k
    committed := k
    pulled := q
    status := { s.status with busy := false }
    draws := s.draws + 1 }

/-- The allowed commit counts (20_memory.md R85): never fewer bytes than before. -/
def CommitAllowed (s u : State) (k : Nat) : Prop :=
  s.committed ≤ k ∧ u.wbits.length / 8 ≤ k + 7 ∧ 8 * k ≤ u.wbits.length

/-- The allowed pull counts (10_state.md R50): never fewer bytes than before. -/
def PullAllowed (s u : State) (q : Nat) : Prop :=
  s.pulled ≤ q ∧ min (ceil8 u.rpos) s.src.length ≤ q ∧ q ≤ s.src.length ∧ q ≤ (u.rpos + 63) / 8

/-- The command ended without error, having read nothing from the source. -/
def EndsUnread (s u t : State) : Prop := ∃ k, CommitAllowed s u k ∧ t = ended s u k s.pulled

/-- The command ended without error at a writer drain point (20_memory.md R94): the sink holds every bit of WBITS. -/
def EndsDrained (s u t : State) : Prop :=
  ∃ k, s.committed ≤ k ∧ 8 * k = u.wbits.length ∧ t = ended s u k s.pulled

/-- The command ended without error, having read the source. -/
def EndsRead (s u t : State) : Prop :=
  ∃ k q, CommitAllowed s u k ∧ PullAllowed s u q ∧ t = ended s u k q

/-- STATUS after an error of the command with opcode `op` (60_exceptions.md R402). -/
def errorStatus (op : Nat) (e : ErrCode) : Status :=
  { busy := false, fault := true, err := e.code, errOp := BitVec.ofNat 8 op }

/-- The command raised `e` at position `info` before it changed anything (60_exceptions.md R402, R405). -/
def Raises (s t : State) (op : Nat) (e : ErrCode) (info : Nat) : Prop :=
  t = { s with status := errorStatus op e, errInfo := BitVec.ofNat 64 info, draws := s.draws + 1 }

/-- The command raised `e` at position `info`, perhaps after it changed something (60_exceptions.md R402). -/
def RaisesLate (t : State) (op : Nat) (e : ErrCode) (info : Nat) : Prop :=
  t.status = errorStatus op e ∧ t.errInfo = BitVec.ofNat 64 info

/-- Every state element of 10_state.md R61 but ARR holds its reset value. -/
structure AtResetValues (t : State) : Prop where
  a : t.a = 0
  b : t.b = 0
  c : t.c = 0
  r : t.r = 0
  status : t.status.word = 0
  errInfo : t.errInfo = 0
  wpos : t.wposWord = 0
  rpos : t.rposWord = 0
  rposCount : t.rpos = 0
  wbits : t.wbits = []
  wclosed : t.wclosed = false
  committed : t.committed = 0
  pulled : t.pulled = 0
  ae : t.ae = { mode := .idle, w := 0, low := 0, high := 0, uf := 0, coded := false }
  ad : t.ad = { mode := .idle, w := 0, low := 0, high := 0, code := 0, filled := false }
  ce : t.ce = List.replicate t.params.nSlots { pass := .idle, freq := [], syms := [], cum := [] }
  cd : t.cd = List.replicate t.params.nSlots .idle
  he : t.he = List.replicate t.params.nSlots { pass := .idle, freq := [], codes := [] }
  hd : t.hd = List.replicate t.params.nSlots .idle
  engine : engineState t = .ready

/-! ### Command words (30_encoding.md R121, R123, R124) -/

/-- The opcodes of the table of R123. -/
def tableOps : List Nat :=
  [0x01, 0x10, 0x11, 0x12, 0x13, 0x14, 0x15, 0x20, 0x21, 0x22, 0x23, 0x24] ++
    [0x30, 0x31, 0x32, 0x33, 0x34, 0x35, 0x36, 0x37, 0x40, 0x41, 0x42, 0x43] ++
    [0x50, 0x51, 0x52, 0x58, 0x59, 0x60, 0x61, 0x62, 0x68, 0x69, 0x70, 0x71, 0x72, 0x78, 0x79]
/-- The opcodes whose `N` column is not `-` (R123). -/
def countOps : List Nat := [0x11, 0x21, 0x32, 0x33, 0x34, 0x35, 0x50, 0x58, 0x70, 0x78]
/-- The opcodes whose `SLOT` column is not `-` (R123). -/
def slotOps : List Nat := [0x60, 0x61, 0x62, 0x68, 0x69, 0x70, 0x71, 0x72, 0x78, 0x79]

/-- A command word that is none of the illegal ones of R124. -/
def LegalWord (w : Word) : Prop :=
  w.extractLsb' 24 40 = 0 ∧ (w.extractLsb' 0 8).toNat ∈ tableOps ∧
    ((w.extractLsb' 0 8).toNat ∉ countOps → w.extractLsb' 8 8 = 0) ∧
    ((w.extractLsb' 0 8).toNat ∉ slotOps → w.extractLsb' 16 8 = 0)

/-! ### The input stream -/

/-- Bit `k` of the logical input stream (40_bitio.md R170), none past its end. -/
def inputBit (s : State) (k : Nat) : Option Bool :=
  if k < 8 * s.src.length then some ((s.src.getD (k / 8) 0).getLsbD (k % 8))
  else if k < 8 * (s.src.length + s.params.graceBytes) then some false
  else none

/-- The next bits of the input stream are `bits`. -/
def InputHolds (s : State) (bits : List Bool) : Prop :=
  ∀ i (h : i < bits.length), inputBit s (s.rpos + i) = some bits[i]

/-- The bits up to the next byte boundary are in the stream and 0 (40_bitio.md R172). -/
def PadClear (s : State) : Prop := InputHolds s (List.replicate (8 * ceil8 s.rpos - s.rpos) false)

/-- The zero bits that bring the writer to a byte boundary (40_bitio.md R162). -/
def padBits (s : State) : List Bool := List.replicate (8 * ceil8 s.wbits.length - s.wbits.length) false

/-- The source holds `bytes` from the next byte boundary on. -/
def SourceHolds (s : State) (bytes : List Byte) : Prop :=
  ∀ i (h : i < bytes.length), s.src[ceil8 s.rpos + i]? = some bytes[i]

/-- ARR holds the words of `xs` from index `off` on (20_memory.md R83). -/
def WindowHolds (s : State) (off : Nat) (xs : List Nat) : Prop :=
  off + xs.length ≤ s.params.arrWords ∧ ∀ i (h : i < xs.length), s.memRead (off + i) = BitVec.ofNat 64 xs[i]

/-- The window of `B` words from word `A` lies inside ARR (42_sorted_array.md R263, 43_arithmetic.md R294). -/
def WindowInside (s : State) : Prop :=
  0 ≤ s.a.toInt ∧ 0 ≤ s.b.toInt ∧ s.a.toInt + s.b.toInt ≤ s.params.arrWords

/-- The words of that window as `s64` (20_memory.md R83). -/
def windowWords (s : State) : List Int :=
  (List.range s.b.toInt.toNat).map (fun i => (s.memRead (s.a.toInt.toNat + i)).toInt)

/-! ### The codes as relations -/

/-- The code of `v` with maximum `max` (41_scalar_codecs.md R220): the low bits of `v`, each while both values of the bit
are still possible. -/
def BoundedCode (max v : Nat) (bits : List Bool) : Prop :=
  ∃ n, bits = natBits n v ∧ (∀ j < n, v % 2 ^ j + 2 ^ j ≤ max) ∧ max < v % 2 ^ n + 2 ^ n

/-- The unsigned var-bits code (41_scalar_codecs.md R225): the noisy bits, `k` zeros, a 1, `k` bits. -/
def UVarCode (v noisy : Nat) (bits : List Bool) : Prop :=
  ∃ k, 2 ^ k ≤ v / 2 ^ noisy + 1 ∧ v / 2 ^ noisy + 1 < 2 ^ (k + 1) ∧
    bits = natBits noisy v ++ (List.replicate k false ++ true :: natBits k (v / 2 ^ noisy + 1 - 2 ^ k))

/-- The signed var-bits code (41_scalar_codecs.md R229): the sign, then the unsigned code of `v` or `-v - 1`. -/
def SVarCode (v : Int) (noisy : Nat) (bits : List Bool) : Prop :=
  ∃ rest, bits = decide (v < 0) :: rest ∧ UVarCode (if v < 0 then (-v - 1).toNat else v.toNat) noisy rest

/-- The var-bytes code (41_scalar_codecs.md R234): groups of 7 bits, the lowest first, all but the last with flag 1. -/
def VarBytes (u : Nat) (bytes : List Byte) : Prop :=
  bytes ≠ [] ∧ u < 128 ^ bytes.length ∧ (2 ≤ bytes.length → 128 ^ (bytes.length - 1) ≤ u) ∧
    ∀ i (h : i < bytes.length),
      bytes[i] = BitVec.ofNat 8 (u / 128 ^ i % 128 + if i + 1 < bytes.length then 128 else 0)

/-- `ZigZag` as the 64-bit pattern of 41_scalar_codecs.md R233. -/
def zigZagWord (v : Word) : Word := (v <<< 1) ^^^ v.sshiftRight 63

/-- The cumulative counts of a context slot (43_arithmetic.md R301). -/
def cumulative (freq : List (Nat × Nat)) : List Nat :=
  (List.range freq.length).map (fun i => ((freq.take (i + 1)).map Prod.snd).sum)

/-- A valid sorted array (42_sorted_array.md R260). -/
def SortedArray (xs : List Nat) : Prop := xs.Pairwise (· < ·) ∧ ∀ x ∈ xs, x ≤ lmax

/-- The same of s64 words, none of which is above LMAX (42_sorted_array.md R260). -/
def SortedWords (xs : List Int) : Prop := xs.Pairwise (· < ·) ∧ ∀ x ∈ xs, 0 ≤ x

/-- The code of a node with `d` bits left (42_sorted_array.md R261). -/
inductive NodeCode : Nat → List Nat → List Bool → Prop
  | empty (d : Nat) : NodeCode d [] []
  | single (d x : Nat) : NodeCode d [x] (natBits d x)
  | split (p : Nat) (zeros ones : List Nat) (count code0 code1 : List Bool)
      (many : 2 ≤ (zeros ++ ones).length)
      (hz : ∀ x ∈ zeros, x.testBit p = false) (ho : ∀ x ∈ ones, x.testBit p = true)
      (hc : BoundedCode (min (zeros ++ ones).length (2 ^ p) - ((zeros ++ ones).length - 2 ^ p))
        (zeros.length - ((zeros ++ ones).length - 2 ^ p)) count)
      (h0 : NodeCode p zeros code0) (h1 : NodeCode p ones code1) :
      NodeCode (p + 1) (zeros ++ ones) (count ++ (code0 ++ code1))

/-- The body code of a sorted array (42_sorted_array.md R261): nothing for the empty array, else the width of the last
element and the nodes. -/
def BodyCode (xs : List Nat) (bits : List Bool) : Prop :=
  if xs = [] then bits = []
  else ∃ wbits nodes, UVarCode (bitlen (xs.getLastD 0)) 0 wbits ∧
    NodeCode (bitlen (xs.getLastD 0)) xs nodes ∧ bits = wbits ++ nodes

/-- The code of a context table (43_arithmetic.md R301). -/
def ContextCode (syms cum : List Nat) (bits : List Bool) : Prop :=
  ∃ size table body, UVarCode syms.length 0 size ∧
    (if 2 ≤ syms.length then BodyCode cum table else table = []) ∧ BodyCode syms body ∧
    bits = size ++ (table ++ body)

/-- The code of a leaf (44_huffman.md R351), for the symbols the configuration represents. -/
def LeafCode (cfg : LeafCfg) (x : Int) (bits : List Bool) : Prop :=
  (cfg.mode = 0 ∧ cfg.noisy ≤ 63 ∧ -2 ^ 63 ≤ x ∧ x ≤ lmax ∧ SVarCode x cfg.noisy bits) ∨
    (cfg.mode = 1 ∧ cfg.noisy ≤ 63 ∧ 0 ≤ x ∧ x ≤ lmax ∧ UVarCode x.toNat cfg.noisy bits) ∨
    (cfg.mode = 2 ∧ 0 ≤ x ∧ x ≤ cfg.max ∧ BoundedCode cfg.max.toNat x.toNat bits)

/-- A legal leaf configuration (44_huffman.md R350). -/
def ConfigLegal (cfg : LeafCfg) : Prop :=
  0 ≤ cfg.mode ∧ cfg.mode ≤ 2 ∧ cfg.noisy ≤ 63 ∧ (cfg.mode = 2 → cfg.noisy = 0 ∧ 0 ≤ cfg.max)

/-- The configuration represents the symbol (44_huffman.md R351). -/
def Represents (cfg : LeafCfg) (x : Int) : Prop := (cfg.mode = 0 ∨ 0 ≤ x) ∧ (cfg.mode = 2 → x ≤ cfg.max)

/-- The serialized tree (44_huffman.md R355). -/
inductive TreeCode (cfg : LeafCfg) : HTree → List Bool → Prop
  | leaf (x : Int) (bits : List Bool) (h : LeafCode cfg x bits) : TreeCode cfg (.leaf x) (false :: bits)
  | node (t0 t1 : HTree) (bits0 bits1 : List Bool) (h0 : TreeCode cfg t0 bits0) (h1 : TreeCode cfg t1 bits1) :
      TreeCode cfg (.node t0 t1) (true :: (bits0 ++ bits1))

/-- The path from the root to a leaf (44_huffman.md R354): 0 to child 0, 1 to child 1. -/
inductive LeafPath : HTree → List Bool → Int → Prop
  | leaf (x : Int) : LeafPath (.leaf x) [] x
  | zero (t0 t1 : HTree) (code : List Bool) (x : Int) (h : LeafPath t0 code x) :
      LeafPath (.node t0 t1) (false :: code) x
  | one (t0 t1 : HTree) (code : List Bool) (x : Int) (h : LeafPath t1 code x) :
      LeafPath (.node t0 t1) (true :: code) x

/-- The leaves of a tree. -/
def leafCount : HTree → Nat
  | .leaf _ => 1
  | .node t0 t1 => leafCount t0 + leafCount t1

/-- One entry of the queue of 44_huffman.md R353: weight, sequence number, node. -/
abbrev Queued := Nat × Nat × HTree

/-- `(weight, seq)` order of 44_huffman.md R353. -/
def Sooner (x y : Queued) : Prop := x.1 < y.1 ∨ (x.1 = y.1 ∧ x.2.1 < y.2.1)

/-- `BuildTree` (44_huffman.md R353): from the queue `q`, the next sequence number being `next`, the tree results. -/
inductive Builds : Nat → List Queued → HTree → Prop
  | done (next w i : Nat) (t : HTree) : Builds next [(w, i, t)] t
  | merge (next : Nat) (q rest : List Queued) (x y : Queued) (t : HTree) (hq : q.Perm (x :: y :: rest))
      (hx : ∀ e ∈ y :: rest, Sooner x e) (hy : ∀ e ∈ rest, Sooner y e)
      (h : Builds (next + 1) ((x.1 + y.1, next, .node x.2.2 y.2.2) :: rest) t) : Builds next q t

/-- The queue `BuildTree` starts with: the leaves, numbered in first-seen order. -/
def leafQueue (freq : List (Int × Nat)) : List Queued :=
  freq.zipIdx.map (fun p => (p.1.2, p.2, .leaf p.1.1))

/-! ### The arithmetic coder (43_arithmetic.md R290 to R298) -/

/-- The shift loop of R292, encoder side: LOW, HIGH, UF before; the bits emitted; LOW, HIGH, UF after. -/
inductive ShiftRun (w : Nat) : Nat → Nat → Nat → List Bool → Nat → Nat → Nat → Prop
  | stop (low high uf : Nat) (h : low.testBit (w - 1) ≠ high.testBit (w - 1)) :
      ShiftRun w low high uf [] low high uf
  | shift (low high uf : Nat) (bits : List Bool) (l h u : Nat)
      (agree : low.testBit (w - 1) = high.testBit (w - 1))
      (rest : ShiftRun w ((low <<< 1) &&& (2 ^ w - 1)) (((high <<< 1) &&& (2 ^ w - 1)) ||| 1) 0 bits l h u) :
      ShiftRun w low high uf
        (low.testBit (w - 1) :: (List.replicate uf (!low.testBit (w - 1)) ++ bits)) l h u

/-- The underflow loop of R292, encoder side, without the limit on UF. -/
inductive UnderRun (w : Nat) : Nat → Nat → Nat → Nat → Nat → Nat → Prop
  | stop (low high uf : Nat) (h : ¬(low.testBit (w - 2) = true ∧ high.testBit (w - 2) = false)) :
      UnderRun w low high uf low high uf
  | under (low high uf l h u : Nat) (near : low.testBit (w - 2) = true ∧ high.testBit (w - 2) = false)
      (rest : UnderRun w ((low <<< 1) ^^^ 2 ^ (w - 1)) (((high ^^^ 2 ^ (w - 1)) <<< 1) ||| 2 ^ (w - 1) ||| 1) (uf + 1)
        l h u) :
      UnderRun w low high uf l h u

/-- The shift loop of R292, decoder side: LOW, HIGH, CODE before; the bits taken; LOW, HIGH, CODE after. -/
inductive DecShiftRun (w : Nat) : Nat → Nat → Nat → List Bool → Nat → Nat → Nat → Prop
  | stop (low high code : Nat) (h : low.testBit (w - 1) ≠ high.testBit (w - 1)) :
      DecShiftRun w low high code [] low high code
  | shift (low high code : Nat) (b : Bool) (bits : List Bool) (l h c : Nat)
      (agree : low.testBit (w - 1) = high.testBit (w - 1))
      (rest : DecShiftRun w ((low <<< 1) &&& (2 ^ w - 1)) (((high <<< 1) &&& (2 ^ w - 1)) ||| 1)
        (((code <<< 1) &&& (2 ^ w - 1)) ||| b.toNat) bits l h c) :
      DecShiftRun w low high code (b :: bits) l h c

/-- The underflow loop of R292, decoder side. -/
inductive DecUnderRun (w : Nat) : Nat → Nat → Nat → List Bool → Nat → Nat → Nat → Prop
  | stop (low high code : Nat) (h : ¬(low.testBit (w - 2) = true ∧ high.testBit (w - 2) = false)) :
      DecUnderRun w low high code [] low high code
  | under (low high code : Nat) (b : Bool) (bits : List Bool) (l h c : Nat)
      (near : low.testBit (w - 2) = true ∧ high.testBit (w - 2) = false)
      (rest : DecUnderRun w ((low <<< 1) ^^^ 2 ^ (w - 1)) (((high ^^^ 2 ^ (w - 1)) <<< 1) ||| 2 ^ (w - 1) ||| 1)
        ((code &&& 2 ^ (w - 1)) ||| ((code <<< 1) &&& ((2 ^ w - 1) >>> 1)) ||| b.toNat) bits l h c) :
      DecUnderRun w low high code (b :: bits) l h c

/-- The precision budget (R290). -/
def budget (w : Nat) : Nat := min (lmax / 2 ^ w) (2 ^ (w - 2) + 2)

/-- A valid frequency table (R291). -/
def TableValid (w : Nat) (tab : List Nat) : Prop :=
  tab ≠ [] ∧ tab.Pairwise (· ≤ ·) ∧ 1 ≤ tab.getLastD 0 ∧ tab.getLastD 0 ≤ budget w

/-- `CheckTable(w, tab)` lets the words pass (R291). -/
def TableChecked (w : Nat) (tab : List Int) : Prop :=
  tab ≠ [] ∧ 0 ≤ tab.headD 0 ∧ tab.Pairwise (· ≤ ·) ∧ 1 ≤ tab.getLastD 0 ∧ tab.getLastD 0 ≤ (budget w : Int)

/-- `CheckSym(tab, sym)` lets the symbol pass (R291). -/
def SymChecked (tab : List Int) (sym : Int) : Prop :=
  0 ≤ sym ∧ sym < tab.length ∧ (if sym = 0 then 0 else tab.getD (sym.toNat - 1) 0) < tab.getD sym.toNat 0

/-- The bounds of symbol `sym` (R291). -/
def symLow (tab : List Nat) (sym : Nat) : Nat := if sym = 0 then 0 else tab.getD (sym - 1) 0
/-- The bounds of symbol `sym` (R291). -/
def symHigh (tab : List Nat) (sym : Nat) : Nat := tab.getD sym 0

/-- `newLow` (R292). -/
def newLow (low high clo total : Nat) : Nat := low + clo * (high - low + 1) / total
/-- `newHigh` (R292). -/
def newHigh (low high chi total : Nat) : Nat := low + chi * (high - low + 1) / total - 1

/-- The two loops of R292 on the encoder's interval narrowed to `sym`. -/
def EncoderRun (ae : ArithEnc) (tab : List Nat) (sym : Nat) (bits : List Bool) (l h u : Nat) : Prop :=
  ∃ l1 h1 u1,
    ShiftRun ae.w (newLow ae.low ae.high (symLow tab sym) (tab.getLastD 0))
      (newHigh ae.low ae.high (symHigh tab sym) (tab.getLastD 0)) ae.uf bits l1 h1 u1 ∧
    UnderRun ae.w l1 h1 u1 l h u

/-- A symbol of a valid table with a frequency that is not 0 (R291). -/
def Codable (w : Nat) (tab : List Nat) (sym : Nat) : Prop :=
  TableValid w tab ∧ sym < tab.length ∧ symLow tab sym < symHigh tab sym

/-- The bits of the first decode step's fill, most significant first (R297). -/
def msbNat (bits : List Bool) : Nat := bits.foldl (fun c b => 2 * c + b.toNat) 0

/-- `ADDecode` (R297, R298): the bits taken, the symbol and the decoder after it. -/
def DecoderRun (ad : ArithDec) (tab : List Nat) (bits : List Bool) (sym : Nat) (ad' : ArithDec) : Prop :=
  ∃ fill bits1 bits2 code l1 h1 c1 l2 h2 c2,
    bits = fill ++ (bits1 ++ bits2) ∧
    (if ad.filled then fill = [] ∧ code = ad.code else fill.length = ad.w ∧ code = msbNat fill) ∧
    sym < tab.length ∧
    symLow tab sym ≤ ((code - ad.low + 1) * tab.getLastD 0 - 1) / (ad.high - ad.low + 1) ∧
    ((code - ad.low + 1) * tab.getLastD 0 - 1) / (ad.high - ad.low + 1) < symHigh tab sym ∧
    DecShiftRun ad.w (newLow ad.low ad.high (symLow tab sym) (tab.getLastD 0))
      (newHigh ad.low ad.high (symHigh tab sym) (tab.getLastD 0)) code bits1 l1 h1 c1 ∧
    DecUnderRun ad.w l1 h1 c1 bits2 l2 h2 c2 ∧
    ad' = { ad with low := l2, high := h2, code := c2, filled := true }

/-- The interval between commands (R299 (a)). -/
structure IntervalSound (w low high : Nat) : Prop where
  widthLow : 2 ≤ w
  widthHigh : w ≤ 62
  below : low < 2 ^ (w - 1)
  above : 2 ^ (w - 1) ≤ high
  top : high < 2 ^ w
  wide : low < 2 ^ (w - 2) ∨ 3 * 2 ^ (w - 2) ≤ high

/-- The coder invariants of an active pass (R299 (a), (b), 10_state.md R51, R52). -/
structure ArithSound (s : State) : Prop where
  enc : s.ae.mode = .active → IntervalSound s.ae.w s.ae.low s.ae.high ∧ s.ae.uf ≤ s.params.ufMax
  dec : s.ad.mode = .active → IntervalSound s.ad.w s.ad.low s.ad.high
  code : s.ad.mode = .active → s.ad.filled = true → s.ad.low ≤ s.ad.code ∧ s.ad.code ≤ s.ad.high
  fresh : s.ad.mode = .active → s.ad.filled = false → s.ad.low = 0 ∧ s.ad.high = 2 ^ s.ad.w - 1

/-! ### Slots -/

/-- A context encoder slot within its limits (10_state.md R53, 43_arithmetic.md R300). -/
def CeSound (slotSyms : Nat) (st : CeSlot) : Prop :=
  SortedArray (st.freq.map Prod.fst) ∧ st.freq.length ≤ slotSyms ∧ (∀ p ∈ st.freq, 1 ≤ p.2) ∧
    (st.pass = .pass2 → SortedArray st.syms ∧ st.cum.length = st.syms.length ∧ st.cum.Pairwise (· < ·))

/-- A context decoder slot within its limits (10_state.md R54, 43_arithmetic.md R304). -/
def CdSound (slotSyms : Nat) : CdSlot → Prop
  | .idle => True
  | .ready syms cum =>
    SortedArray syms ∧ syms.length ≤ slotSyms ∧ (2 ≤ syms.length → SortedArray cum ∧ cum.length = syms.length)

/-- A Huffman encoder slot within its limits (10_state.md R55), its symbols s64 values (44_huffman.md R350). -/
def HeSound (slotSyms : Nat) (st : HeSlot) : Prop :=
  (st.freq.map Prod.fst).Nodup ∧ st.freq.length ≤ slotSyms ∧ (∀ p ∈ st.freq, 1 ≤ p.2) ∧
    ∀ p ∈ st.freq, -2 ^ 63 ≤ p.1 ∧ p.1 ≤ (lmax : Int)

/-- A Huffman decoder slot within its limits (10_state.md R56, 44_huffman.md R359). -/
def HdSound (slotSyms : Nat) : HdSlot → Prop
  | .idle => True
  | .empty => True
  | .ready t => leafCount t ≤ slotSyms

/-- How often a map counts a key. -/
def countOf {α : Type} [DecidableEq α] (freq : List (α × Nat)) (x : α) : Nat :=
  ((freq.filter (fun p => p.1 = x)).map Prod.snd).sum

/-- Every slot is within its limits. -/
structure SlotsSound (s : State) : Prop where
  ce : ∀ st ∈ s.ce, CeSound s.params.slotSyms st
  cd : ∀ st ∈ s.cd, CdSound s.params.slotSyms st
  he : ∀ st ∈ s.he, HeSound s.params.slotSyms st
  hd : ∀ st ∈ s.hd, HdSound s.params.slotSyms st

/-! ### Invariants -/

/-- STATUS and the engine (10_state.md R43, 60_exceptions.md R400, R404): no error code without FAULT, with it a code of
R400, and only SRESET executes in FAULT. -/
structure EngineInv (s : State) : Prop where
  noError : s.status.fault = false → s.status.err = 0 ∧ s.status.errOp = 0
  errorCode : s.status.fault = true → ∃ e : ErrCode, s.status.err = e.code
  onlySreset : s.status.fault = true → s.status.busy = true → s.cmd = 1

/-- The stores: ARR in its canonical form, N_SLOTS slots of each kind (20_memory.md R83, 00_scope.md R6). -/
structure StoresInv (s : State) : Prop where
  arr : s.memWf = true
  ce : s.ce.length = s.params.nSlots
  cd : s.cd.length = s.params.nSlots
  he : s.he.length = s.params.nSlots
  hd : s.hd.length = s.params.nSlots

/-- The streams, while no error has left them unspecified (60_exceptions.md R405). -/
def StreamInv (s : State) : Prop := s.status.fault = false → StreamSound s

/-- The arithmetic coder, while no error has left it unspecified. -/
def ArithInv (s : State) : Prop := s.status.fault = false → ArithSound s

/-- The slots, while no error has left one unspecified. -/
def SlotsInv (s : State) : Prop := s.status.fault = false → SlotsSound s

/-! ### Two runs -/

/-- Two states that differ at most in what the accumulators hold: the bytes the sink has and the bytes pulled
(40_bitio.md R179). -/
def SameButHidden (s t : State) : Prop :=
  t = { s with sink := t.sink, committed := t.committed, pulled := t.pulled }

end Sys2Proof
end

