-- ==== Sys2Proof/Certificates/Slice0/Obligations.lean ====
section
/-! DEFINITION. The statements for the provers. A statement that a command ends or raises gives the whole next state, so
it says what changes and that nothing else does. -/

open Sys2Proof Sys2Proof.Machine Sys2Proof.Config

/-! ### Command words -/

/-- 30_encoding.md R121, R123, R127: decoding the word of a well-formed command gives the command. -/
def Obligations.DecodeOfEncode : Prop := ∀ i : Instr, i.wellFormed = true → decode (encode i) = .ok i

/-- 30_encoding.md R121, R124, R126: a word that decodes is the word of a well-formed command, and of no other. -/
def Obligations.EncodeOfDecode : Prop :=
  ∀ (w : Word) (i : Instr), decode w = .ok i → encode i = w ∧ i.wellFormed = true

/-- 30_encoding.md R124: exactly the words it calls illegal decode to no command, and executing one raises
`ILLEGAL_COMMAND` and has no other effect. -/
def Obligations.IllegalWords : Prop :=
  (∀ w : Word, LegalWord w ↔ ∃ i, decode w = .ok i) ∧
    ∀ s : State, ¬LegalWord s.cmd →
      engineStep s = .next
        { s with
          status := errorStatus (s.cmd.extractLsb' 0 8).toNat .illegalCommand
          errInfo := BitVec.ofNat 64 s.wbits.length }

/-- Words written out from 30_encoding.md R121 and R123, among them the two of R129. -/
def Obligations.SampleWords : Prop :=
  decode 0x01 = .ok .sreset ∧ decode 0x4011 = .ok (.wBits 64) ∧ decode 0x24 = .ok .rSync ∧
    decode 0x0332 = .ok (.uvbE 3) ∧ decode 0x43 = .ok .usanD ∧ decode 0x2150 = .ok (.aeReset 33) ∧
    decode 0x030061 = .ok (.ceEnc 3) ∧ decode 0x020070 = .ok (.heInit 0 2) ∧ decode 0xFF3F78 = .ok (.hdInit 63 255)

/-! ### Steps -/

/-- 30_encoding.md R120: a step of a BUSY block executes the command its CMD word decodes to, unless the host's next move
is the reset input or a STATUS read, which may land first (log 3). The second clause is `withFetchWord`'s. -/
def Obligations.StepRunsCommand : Prop :=
  (∀ (s : State) (i : Instr), s.status.busy = true → decode s.cmd = .ok i →
    (s.moves.head? ≠ some .reset → s.moves.head? ≠ some (.read 0x028) → step s = exec i s) ∧
      (∀ rest, s.moves = .read 0x028 :: rest →
        step s = exec i s ∨
          step s = .next { s with moves := rest, readData := s.status.word, draws := s.draws + 1 })) ∧
    ∀ (s : State) (i : Instr), i.wellFormed = true →
      step (s.withFetchWord 64 (encode i).toNat) =
        exec i { s with cmd := encode i, status := { s.status with busy := true }, moves := [] }

/-- 60_exceptions.md R404: in FAULT a CMD write of any value but exactly 0x01 changes nothing (the move is made); SRESET
starts and executes; the host reads STATUS. -/
def Obligations.FaultIgnoresCommands : Prop :=
  ∀ (s : State) (rest : List HostMove), s.status.fault = true → s.status.busy = false →
    (∀ w : Word, w ≠ 0x01 → s.moves = .write 0x000 w :: rest → step s = .next { s with moves := rest }) ∧
      (s.moves = .write 0x000 0x01 :: rest →
        ∃ t, step s = .next t ∧ t.status.busy = true ∧ engineStep t = exec .sreset t) ∧
      (s.moves = .read 0x028 :: rest →
        step s = .next { s with moves := rest, readData := s.status.word, draws := s.draws + 1 })

/-- 20_memory.md R81: what the host reads at every offset, and which writes the block takes. -/
def Obligations.RegisterMap : Prop :=
  ∀ (s : State) (rest : List HostMove), s.status.busy = false →
    (∀ off, off % 8 = 0 → s.moves = .read off :: rest →
      ∃ v, step s = .next { s with moves := rest, readData := v, draws := s.draws + 1 } ∧
        (off = 0x000 → v = 0) ∧ (off = 0x008 → v = s.a) ∧ (off = 0x010 → v = s.b) ∧ (off = 0x018 → v = s.c) ∧
        (off = 0x020 → v = s.r) ∧ (off = 0x028 → v = s.status.word) ∧ (off = 0x030 → v = s.errInfo) ∧
        (off = 0x038 → v = BitVec.ofNat 64 s.wbits.length) ∧ (off = 0x040 → v = BitVec.ofNat 64 s.rpos) ∧
        (0x048 ≤ off → off < 0x1000 → v = 0) ∧
        (∀ i < s.params.arrWords, off = 0x1000 + 8 * i → v = s.memRead i) ∧
        (0x1000 + 8 * s.params.arrWords ≤ off → v = 0)) ∧
      ∀ off w, off % 8 = 0 → s.moves = .write off w :: rest →
        (off = 0x000 → s.status.fault = false →
          step s = .next { s with moves := rest, cmd := w, status := { s.status with busy := true } }) ∧
        (off = 0x008 → step s = .next { s with moves := rest, a := w }) ∧
        (off = 0x010 → step s = .next { s with moves := rest, b := w }) ∧
        (off = 0x018 → step s = .next { s with moves := rest, c := w }) ∧
        (∀ i < s.params.arrWords, off = 0x1000 + 8 * i →
          step s = .next { s with moves := rest, arr := arrInsert i w s.arr }) ∧
        ((0x020 ≤ off ∧ off < 0x1000 ∨ 0x1000 + 8 * s.params.arrWords ≤ off) →
          step s = .next { s with moves := rest })

/-- 20_memory.md R83, R84: a word of ARR the host writes reads back as written, every other word stays, and ARR keeps its
canonical form. -/
def Obligations.ArrWriteRead : Prop :=
  ∀ (s : State) (rest : List HostMove) (i : Nat) (v : Word), s.status.busy = false → i < s.params.arrWords →
    s.moves = .write (0x1000 + 8 * i) v :: rest →
    ∃ t, step s = .next t ∧ t = { s with moves := rest, arr := t.arr } ∧ t.memRead i = v ∧
      (∀ j, j ≠ i → arrLookup j t.arr = arrLookup j s.arr) ∧ (s.memWf = true → t.memWf = true)

/-! ### Reset -/

/-- 10_state.md R61: the reset values, for every choice of the OPEN parameters; ARR lists no word. -/
def Obligations.ResetValues : Prop :=
  ∀ p : Params, AtResetValues (State.initial p) ∧ (State.initial p).params = p ∧ (State.initial p).arr = []

/-- 60_exceptions.md R409: SRESET gives every element but ARR its reset value, in every state, without an error. -/
def Obligations.SresetResets : Prop :=
  encode .sreset = 0x01 ∧
    ∀ s : State, ∃ t, exec .sreset s = .next t ∧ AtResetValues t ∧ t.arr = s.arr ∧ t.params = s.params

/-- What belongs to the host stays at SRESET: the model's choice (log 14), which 60_exceptions.md R409 leaves to the
host's next binding. -/
def Obligations.SresetKeepsHostSide : Prop :=
  ∀ s t : State, exec .sreset s = .next t →
    t.sink = s.sink ∧ t.src = s.src.drop s.pulled ∧ t.moves = s.moves ∧ t.readData = s.readData ∧ t.draws = s.draws

/-- 70_reset_and_hazards.md R440: the reset input acts at any time; the bytes in the sink stay there. -/
def Obligations.ResetInput : Prop :=
  (∀ (s : State) (rest : List HostMove), s.moves = .reset :: rest →
    ∃ t, step s = .next t ∧ AtResetValues t ∧ t.arr = [] ∧ t.params = s.params ∧ t.moves = rest ∧
      ∃ more, t.sink = s.sink ++ more ∧ (s.status.busy = false → more = [])) ∧
    ∀ s t : State, exec .sreset s = .next t → AtResetValues t ∧ t.arr = s.arr

/-! ### Invariants every step keeps -/

/-- 10_state.md R43, R58, 60_exceptions.md R400, R404. -/
def Obligations.EngineInvKept : Prop := ∀ s t : State, EngineInv s → step s = .next t → EngineInv t

/-- 20_memory.md R83 (canonical form), 00_scope.md R6 (N_SLOTS). -/
def Obligations.StoresInvKept : Prop := ∀ s t : State, StoresInv s → step s = .next t → StoresInv t

/-- 20_memory.md R85, 10_state.md R50. -/
def Obligations.StreamInvKept : Prop := ∀ s t : State, StreamInv s → step s = .next t → StreamInv t

/-- 43_arithmetic.md R299 (a), (b), 10_state.md R51. -/
def Obligations.ArithInvKept : Prop := ∀ s t : State, ArithInv s → step s = .next t → ArithInv t

/-- 10_state.md R53 to R56, 42_sorted_array.md R262: a decoded list is a valid sorted array. -/
def Obligations.SlotsInvKept : Prop := ∀ s t : State, SlotsInv s → step s = .next t → SlotsInv t

/-- The five invariants hold at reset, for every choice of the OPEN parameters and at `State.reset`. -/
def Obligations.InvariantsAtReset : Prop :=
  (∀ p : Params, EngineInv (State.initial p) ∧ StoresInv (State.initial p) ∧ StreamInv (State.initial p) ∧
    ArithInv (State.initial p) ∧ SlotsInv (State.initial p)) ∧ State.reset = State.initial vectorParams

/-! ### Every command -/

/-- 60_exceptions.md R402, 10_state.md R58: every command ends with BUSY clear; it leaves STATUS and ERR_INFO otherwise as
they were, or it raised an error of R400 that names it. -/
def Obligations.EveryCommandEnds : Prop :=
  ∀ (i : Instr) (s : State), i ≠ .sreset → ∃ t, exec i s = .next t ∧
    ((t.status = { s.status with busy := false } ∧ t.errInfo = s.errInfo) ∨
      ∃ e : ErrCode, t.status = errorStatus i.opcode e ∧ engineState t = .fault)

/-- 10_state.md R41: no command but SRESET writes an operand register; none changes a parameter, the source, the pending
moves or what the ports will do. -/
def Obligations.OperandsKept : Prop :=
  ∀ (i : Instr) (s t : State), i ≠ .sreset → exec i s = .next t →
    t.a = s.a ∧ t.b = s.b ∧ t.c = s.c ∧ t.params = s.params ∧ t.src = s.src ∧ t.moves = s.moves ∧ t.cmd = s.cmd ∧
      t.readData = s.readData ∧ t.sinkFail = s.sinkFail ∧ t.srcFail = s.srcFail

/-- 20_memory.md R85, R92: on every outcome the output stream only grows, and the sink receives its next bytes in
order, each once. -/
def Obligations.SinkInOrder : Prop :=
  ∀ (i : Instr) (s t : State), i ≠ .sreset → StreamSound s → exec i s = .next t →
    (∃ more, t.wbits = s.wbits ++ more) ∧ s.committed ≤ t.committed ∧
      t.sink = s.sink ++ outBytes t.wbits s.committed t.committed

/-- 30_encoding.md R123, 60_exceptions.md R405: what a command of one side cannot write, on every outcome. Writer-side
commands leave R, the reader, the decoders and ARR; reader-side commands leave the writer's bits and flag and the
encoders; only USA.D and USAN.D write ARR, none of them below word `A`, USAN.D none from word `A + B` on. -/
def Obligations.SidesSeparate : Prop :=
  ∀ (i : Instr) (s t : State), exec i s = .next t →
    (i.opcode ∈ [0x10, 0x11, 0x12, 0x13, 0x14, 0x15, 0x30, 0x32, 0x34, 0x36, 0x40, 0x42, 0x50, 0x51, 0x52, 0x60, 0x61,
        0x62, 0x70, 0x71, 0x72] →
      t.r = s.r ∧ t.rpos = s.rpos ∧ t.pulled = s.pulled ∧ t.ad = s.ad ∧ t.cd = s.cd ∧ t.hd = s.hd ∧ t.arr = s.arr) ∧
    (i.opcode ∈ [0x20, 0x21, 0x22, 0x23, 0x24, 0x31, 0x33, 0x35, 0x37, 0x41, 0x43, 0x58, 0x59, 0x68, 0x69, 0x78,
        0x79] →
      t.wbits = s.wbits ∧ t.wclosed = s.wclosed ∧ t.ae = s.ae ∧ t.ce = s.ce ∧ t.he = s.he) ∧
    (i ≠ .usaD → i ≠ .usanD → t.arr = s.arr) ∧
    (i = .usaD → ∀ j : Nat, (j : Int) < s.a.toInt → arrLookup j t.arr = arrLookup j s.arr) ∧
    (i = .usanD → ∀ j : Nat, ((j : Int) < s.a.toInt ∨ s.a.toInt + s.b.toInt ≤ j) →
      arrLookup j t.arr = arrLookup j s.arr)

/-- 40_bitio.md R179: what the accumulators hold changes no value a command returns, no error and no stream bit. SRESET,
which drops the pulled bytes (60_exceptions.md R409), is no part of it. -/
def Obligations.AccumulatorsTransparent : Prop :=
  ∀ (i : Instr) (s s' t t' : State), i ≠ .sreset → PortsSound s → SameButHidden s s' →
    exec i s = .next t → exec i s' = .next t' → SameButHidden t t'

/-! ### Writer commands -/

/-- 40_bitio.md R163. -/
def Obligations.WriteBit : Prop :=
  encode .wBit = 0x10 ∧
    ∀ s : State,
      (s.wclosed = false → StreamSound s → PortsSound s →
        ∃ t, exec .wBit s = .next t ∧ EndsUnread s { s with wbits := s.wbits ++ [s.a.getLsbD 0] } t) ∧
      (s.wclosed = true → ∃ t, exec .wBit s = .next t ∧ Raises s t 0x10 .invalidState s.wbits.length)

/-- 40_bitio.md R164: bit 0 of `A` first, `n` bits of it. -/
def Obligations.WriteBits : Prop :=
  ∀ (s : State) (n : Nat),
    (n < 256 → (encode (.wBits n)).toNat = n * 256 + 0x11) ∧
    (s.wclosed = false → n ≤ 64 → StreamSound s → PortsSound s →
      ∃ t, exec (.wBits n) s = .next t ∧
        EndsUnread s { s with wbits := s.wbits ++ (List.range n).map (fun i => s.a.getLsbD i) } t) ∧
    (s.wclosed = true → ∃ t, exec (.wBits n) s = .next t ∧ Raises s t 0x11 .invalidState s.wbits.length) ∧
    (s.wclosed = false → 64 < n →
      ∃ t, exec (.wBits n) s = .next t ∧ Raises s t 0x11 .invalidArgument s.wbits.length)

/-- 40_bitio.md R165 to R168, 20_memory.md R85: each emits the pad zeros; W.BYTE then the low byte of `A`, W.SYNC its 8
bytes, the most significant first, bit 0 of each byte first; W.CLOSE closes the writer. The sink then holds every bit. -/
def Obligations.AlignedWrites : Prop :=
  ∀ s : State, s.wclosed = false → StreamSound s → PortsSound s →
    (∃ t, exec .wByte s = .next t ∧
      EndsDrained s { s with wbits := s.wbits ++ (padBits s ++ (List.range 8).map (fun i => s.a.getLsbD i)) } t) ∧
    (∃ t, exec .wAlign s = .next t ∧ EndsDrained s { s with wbits := s.wbits ++ padBits s } t) ∧
    (∃ t, exec .wClose s = .next t ∧ EndsDrained s { s with wbits := s.wbits ++ padBits s, wclosed := true } t) ∧
    ∃ t, exec .wSync s = .next t ∧
      EndsDrained s
        { s with
          wbits := s.wbits ++ (padBits s ++ (List.range 64).map (fun i => s.a.getLsbD (8 * (7 - i / 8) + i % 8))) } t

/-- 40_bitio.md R160: every command whose pseudocode opens with `WCheckOpen()` raises `INVALID_STATE` on a closed writer
and changes nothing else. -/
def Obligations.ClosedWriterRefuses : Prop :=
  ∀ (s : State) (i : Instr), s.wclosed = true →
    i.opcode ∈ [0x10, 0x11, 0x12, 0x13, 0x14, 0x15, 0x30, 0x32, 0x34, 0x36, 0x40, 0x42] →
    ∃ t, exec i s = .next t ∧ Raises s t i.opcode .invalidState s.wbits.length

/-- 20_memory.md R96: a sink that refuses byte `j`, which W.ALIGN hands over, makes it raise `RESOURCE`, and the sink has
none of the bytes from `j` on; a source that fails at the byte of the next bit makes R.BIT raise it. The model's readings
that 60_exceptions.md R405 and R96 leave open: the failure is the index of one access (log 6, DESIGN CHOICE), its position
lies in the range the accumulator allows (log 7, DEDUCED), and at R.BIT's first bit it changes nothing else (log 11,
DEDUCED). -/
def Obligations.PortFailureRaises : Prop :=
  (∀ (s : State) (j : Nat), s.wclosed = false → StreamSound s → s.sinkFail = some j → s.committed ≤ j →
    j < ceil8 s.wbits.length →
    ∃ t info, exec .wAlign s = .next t ∧ RaisesLate t 0x13 .resource info ∧ s.wbits.length ≤ info ∧
      info ≤ 8 * ceil8 s.wbits.length ∧ t.committed ≤ j) ∧
    ∀ (s : State) (j : Nat), s.srcFail = some j → j ≤ s.src.length → j ≤ s.rpos / 8 →
      ∃ t, exec .rBit s = .next t ∧ Raises s t 0x20 .resource s.rpos

/-! ### Reader commands -/

/-- 40_bitio.md R174, R175: the next bits, the first one bit 0 of R. -/
def Obligations.ReadBits : Prop :=
  (∀ (s : State) (b : Bool), StreamSound s → PortsSound s → InputHolds s [b] →
    ∃ t, exec .rBit s = .next t ∧ EndsRead s { s with r := BitVec.ofNat 64 b.toNat, rpos := s.rpos + 1 } t) ∧
    ∀ (s : State) (n : Nat) (bits : List Bool), n ≤ 64 → bits.length = n → StreamSound s → PortsSound s →
      InputHolds s bits →
      ∃ t v, exec (.rBits n) s = .next t ∧ EndsRead s { s with r := v, rpos := s.rpos + n } t ∧
        ∀ i, v.getLsbD i = bits.getD i false

/-- 40_bitio.md R176, R177, 20_memory.md R86: pad bits that are 0 are skipped; R.BYTE then returns the next byte and pulls no
further byte. -/
def Obligations.ReadByteAndAlign : Prop :=
  ∀ s : State, StreamSound s → PortsSound s → PadClear s →
    (∃ t, exec .rAlign s = .next t ∧ EndsRead s { s with rpos := 8 * ceil8 s.rpos } t) ∧
      ∀ b : Byte, SourceHolds s [b] →
        ∃ t, exec .rByte s = .next t ∧ EndsRead s { s with r := b.setWidth 64, rpos := 8 * ceil8 s.rpos + 8 } t ∧
          t.pulled = max s.pulled (ceil8 s.rpos + 1)

/-- 40_bitio.md R178, 20_memory.md R86: the marker is returned, the accumulator then empty; a marker other than `A` raises
`SYNC_MISMATCH` with R holding it. -/
def Obligations.ReadSync : Prop :=
  ∀ (s : State) (m : Word), StreamSound s → PortsSound s → PadClear s →
    SourceHolds s ((List.range 8).map (fun i => m.extractLsb' (8 * (7 - i)) 8)) →
    (m = s.a → ∃ t k, exec .rSync s = .next t ∧
      CommitAllowed s s k ∧
      t = ended s { s with r := m, rpos := 8 * ceil8 s.rpos + 64 } k (ceil8 s.rpos + 8)) ∧
    (m ≠ s.a → ∃ t, exec .rSync s = .next t ∧ RaisesLate t 0x24 .syncMismatch (8 * ceil8 s.rpos + 64) ∧ t.r = m)

/-- 40_bitio.md R170, R172, R173, 41_scalar_codecs.md R235, 60_exceptions.md R405, R406: a pad bit that is 1 raises
`REALIGNMENT` at the position after it; with no bit left, a command whose first act is `TakeBit` raises `END_OF_STREAM`
and changes nothing else, and so does a byte-level read at a byte boundary with no byte left (VBY.D: `TRUNCATION`). -/
def Obligations.ReaderErrors : Prop :=
  ∀ s : State, PortsSound s →
    (∀ n : Nat, s.rpos + n < 8 * ceil8 s.rpos → InputHolds s (List.replicate n false ++ [true]) →
      (∃ t, exec .rAlign s = .next t ∧ RaisesLate t 0x23 .realignment (s.rpos + n + 1)) ∧
      (∃ t, exec .rByte s = .next t ∧ RaisesLate t 0x22 .realignment (s.rpos + n + 1)) ∧
      (∃ t, exec .rSync s = .next t ∧ RaisesLate t 0x24 .realignment (s.rpos + n + 1)) ∧
      ∃ t, exec .vbyD s = .next t ∧ RaisesLate t 0x37 .realignment (s.rpos + n + 1)) ∧
    (inputBit s s.rpos = none →
      (∃ t, exec .rBit s = .next t ∧ Raises s t 0x20 .endOfStream s.rpos) ∧
      (∀ n, 1 ≤ n → n ≤ 64 → ∃ t, exec (.rBits n) s = .next t ∧ Raises s t 0x21 .endOfStream s.rpos) ∧
      (∀ n, n ≤ 63 → ∃ t, exec (.uvbD n) s = .next t ∧ Raises s t 0x33 .endOfStream s.rpos) ∧
      ∀ n, n ≤ 63 → ∃ t, exec (.svbD n) s = .next t ∧ Raises s t 0x35 .endOfStream s.rpos) ∧
    (s.rpos % 8 = 0 → 8 * s.src.length ≤ s.rpos →
      (∃ t, exec .rByte s = .next t ∧ Raises s t 0x22 .endOfStream s.rpos) ∧
      (∃ t, exec .rSync s = .next t ∧ Raises s t 0x24 .endOfStream s.rpos) ∧
      ∃ t, exec .vbyD s = .next t ∧ Raises s t 0x37 .truncation s.rpos)

/-! ### Argument checks -/

/-- 30_encoding.md R125, 60_exceptions.md R403, 40_bitio.md R175, 41_scalar_codecs.md R225 to R230, 43_arithmetic.md R293,
R296: `SLOT >= N_SLOTS` before any other check, and a count out of the command's range, raise `INVALID_ARGUMENT` and
change nothing else. -/
def Obligations.FieldOutOfRange : Prop :=
  (∀ (s : State) (i : Instr), i.opcode ∈ slotOps → s.params.nSlots ≤ i.slotField →
    ∃ t, exec i s = .next t ∧
      Raises s t i.opcode .invalidArgument
        (if i.opcode ∈ [0x68, 0x69, 0x78, 0x79] then s.rpos else s.wbits.length)) ∧
    ∀ (s : State) (n : Nat),
      (64 < n → ∃ t, exec (.rBits n) s = .next t ∧ Raises s t 0x21 .invalidArgument s.rpos) ∧
      (63 < n → s.wclosed = false →
        (∃ t, exec (.uvbE n) s = .next t ∧ Raises s t 0x32 .invalidArgument s.wbits.length) ∧
          ∃ t, exec (.svbE n) s = .next t ∧ Raises s t 0x34 .invalidArgument s.wbits.length) ∧
      (63 < n →
        (∃ t, exec (.uvbD n) s = .next t ∧ Raises s t 0x33 .invalidArgument s.rpos) ∧
          ∃ t, exec (.svbD n) s = .next t ∧ Raises s t 0x35 .invalidArgument s.rpos) ∧
      (n < 2 ∨ 62 < n →
        (∃ t, exec (.aeReset n) s = .next t ∧ Raises s t 0x50 .invalidArgument s.wbits.length) ∧
          ∃ t, exec (.adReset n) s = .next t ∧ Raises s t 0x58 .invalidArgument s.rpos)

/-! ### Scalar codecs -/

/-- 41_scalar_codecs.md R222: decoding a bounded code takes exactly the bits of it; its length, 0 for max 0, is at most
`bitlen(max)`, and `n` for `max = 2^n - 1`; the codes for max 4. -/
def Obligations.BoundedLengthLaw : Prop :=
  (∀ max v : Nat, v ≤ max → BoundedCode max v (boundedBits max v) ∧ (boundedBits max v).length ≤ bitlen max) ∧
    (∀ (s : State) (max v : Nat), v ≤ max → PortsSound s → InputHolds s (boundedBits max v) →
      decBoundedNat s.source max s.rpos = .ok (v, s.rpos + (boundedBits max v).length)) ∧
    (∀ n v : Nat, v ≤ 2 ^ n - 1 → (boundedBits (2 ^ n - 1) v).length = n) ∧ boundedBits 0 0 = [] ∧
    boundedBits 4 0 = [false, false, false] ∧ boundedBits 4 1 = [true, false] ∧ boundedBits 4 2 = [false, true] ∧
    boundedBits 4 3 = [true, true] ∧ boundedBits 4 4 = [false, false, true]

/-- 41_scalar_codecs.md R223. -/
def Obligations.BoundedEncode : Prop :=
  ∀ s : State, s.wclosed = false →
    (∀ max v : Nat, s.a.toInt = max → s.b.toInt = v → v ≤ max → StreamSound s → PortsSound s →
      ∃ t bits, exec .bndE s = .next t ∧ BoundedCode max v bits ∧
        EndsUnread s { s with wbits := s.wbits ++ bits } t) ∧
    (s.a.toInt < 0 ∨ s.b.toInt < 0 ∨ s.a.toInt < s.b.toInt →
      ∃ t, exec .bndE s = .next t ∧ Raises s t 0x30 .invalidArgument s.wbits.length)

/-- 41_scalar_codecs.md R221, R224: the value coded comes back; any bits give some value in `[0, max]`. -/
def Obligations.BoundedDecode : Prop :=
  ∀ s : State,
    (∀ (max v : Nat) (bits : List Bool), s.a.toInt = max → v ≤ max → BoundedCode max v bits → StreamSound s →
      PortsSound s → InputHolds s bits →
      ∃ t, exec .bndD s = .next t ∧
        EndsRead s { s with r := BitVec.ofNat 64 v, rpos := s.rpos + bits.length } t) ∧
    (∀ (max : Nat) (bits : List Bool), s.a.toInt = max → bits.length = bitlen max → StreamSound s → PortsSound s →
      InputHolds s bits →
      ∃ t v n, v ≤ max ∧ n ≤ bits.length ∧ exec .bndD s = .next t ∧
        EndsRead s { s with r := BitVec.ofNat 64 v, rpos := s.rpos + n } t) ∧
    (s.a.toInt < 0 → ∃ t, exec .bndD s = .next t ∧ Raises s t 0x31 .invalidArgument s.rpos)

/-- 41_scalar_codecs.md R225, R227, R229, R231. -/
def Obligations.VarBitsEncode : Prop :=
  ∀ (s : State) (n : Nat), s.wclosed = false → n ≤ 63 →
    (0 ≤ s.a.toInt → StreamSound s → PortsSound s →
      ∃ t bits, exec (.uvbE n) s = .next t ∧ UVarCode s.a.toNat n bits ∧
        EndsUnread s { s with wbits := s.wbits ++ bits } t) ∧
    (s.a.toInt < 0 → ∃ t, exec (.uvbE n) s = .next t ∧ Raises s t 0x32 .invalidArgument s.wbits.length) ∧
    (StreamSound s → PortsSound s →
      ∃ t bits, exec (.svbE n) s = .next t ∧ SVarCode s.a.toInt n bits ∧
        EndsUnread s { s with wbits := s.wbits ++ bits } t)

/-- 41_scalar_codecs.md R226, R228, R230, R232, R236 (a), (b): the value coded comes back and exactly its bits are taken,
also over the bits UVB.E or SVB.E emitted; a 64th prefix zero, or a high part above `LMAX >> n`, raises `OVERFLOW` at the
position after it. -/
def Obligations.VarBitsDecode : Prop :=
  (∀ (s : State) (n : Nat) (v : Word) (bits : List Bool), n ≤ 63 → StreamSound s → PortsSound s → InputHolds s bits →
    (0 ≤ v.toInt → UVarCode v.toNat n bits →
      ∃ t, exec (.uvbD n) s = .next t ∧ EndsRead s { s with r := v, rpos := s.rpos + bits.length } t) ∧
    (SVarCode v.toInt n bits →
      ∃ t, exec (.svbD n) s = .next t ∧ EndsRead s { s with r := v, rpos := s.rpos + bits.length } t)) ∧
    (∀ (e e' s : State) (n : Nat), n ≤ 63 → e.wclosed = false → StreamSound e → PortsSound e → StreamSound s →
      PortsSound s → InputHolds s (e'.wbits.drop e.wbits.length) →
      (0 ≤ e.a.toInt → exec (.uvbE n) e = .next e' →
        ∃ t, exec (.uvbD n) s = .next t ∧
          EndsRead s { s with r := e.a, rpos := s.rpos + (e'.wbits.length - e.wbits.length) } t) ∧
      (exec (.svbE n) e = .next e' →
        ∃ t, exec (.svbD n) s = .next t ∧
          EndsRead s { s with r := e.a, rpos := s.rpos + (e'.wbits.length - e.wbits.length) } t)) ∧
    (∀ (s : State) (n : Nat) (low : List Bool), n ≤ 63 → low.length = n → PortsSound s →
      (InputHolds s (low ++ List.replicate 64 false) →
        ∃ t, exec (.uvbD n) s = .next t ∧ RaisesLate t 0x33 .overflow (s.rpos + (n + 64))) ∧
      ∀ neg : Bool, InputHolds s (neg :: (low ++ List.replicate 64 false)) →
        ∃ t, exec (.svbD n) s = .next t ∧ RaisesLate t 0x35 .overflow (s.rpos + (n + 65))) ∧
    ∀ (s : State) (n high : Nat) (low code : List Bool), n ≤ 63 → low.length = n → PortsSound s → high + 1 < 2 ^ 64 →
      lmax / 2 ^ n < high → UVarCode high 0 code →
      (InputHolds s (low ++ code) →
        ∃ t, exec (.uvbD n) s = .next t ∧ RaisesLate t 0x33 .overflow (s.rpos + (n + code.length))) ∧
      ∀ neg : Bool, InputHolds s (neg :: (low ++ code)) →
        ∃ t, exec (.svbD n) s = .next t ∧ RaisesLate t 0x35 .overflow (s.rpos + (n + code.length + 1))

/-- 41_scalar_codecs.md R233: the fold of the var-bytes code is the 64-bit pattern, one to one and onto, and
`UnZigZag` undoes it. -/
def Obligations.ZigZagBijection : Prop :=
  (∀ v : Word, zigZag v.toInt = (zigZagWord v).toNat) ∧
    (∀ v : Int, -2 ^ 63 ≤ v → v ≤ lmax →
      zigZag v = (if 0 ≤ v then 2 * v else 2 * (-v - 1) + 1) ∧ zigZag v < 2 ^ 64 ∧ unZigZag (zigZag v) = v) ∧
    ∀ u : Nat, u < 2 ^ 64 → -2 ^ 63 ≤ unZigZag u ∧ unZigZag u ≤ lmax ∧ zigZag (unZigZag u) = u ∧
      unZigZag u = if u % 2 = 1 then -((u / 2 : Nat) : Int) - 1 else ((u / 2 : Nat) : Int)

/-- 41_scalar_codecs.md R234: the pad zeros, then the var-bytes code of `ZigZag(A)`. -/
def Obligations.VarBytesEncode : Prop :=
  ∀ s : State, s.wclosed = false → StreamSound s → PortsSound s →
    ∃ t bytes, exec .vbyE s = .next t ∧ VarBytes (zigZagWord s.a).toNat bytes ∧
      EndsDrained s
        { s with
          wbits := s.wbits ++ (padBits s ++ bytes.flatMap (fun b => (List.range 8).map (fun i => b.getLsbD i))) } t

/-- 41_scalar_codecs.md R235, R236 (c), 20_memory.md R86: the value coded comes back, exactly its bytes are taken and no
further byte is pulled; the same over the bytes VBY.E emitted; a source that ends inside the code, or a tenth byte with its flag set, raises `TRUNCATION`. -/
def Obligations.VarBytesDecode : Prop :=
  (∀ (s : State) (v : Word) (bytes : List Byte), StreamSound s → PortsSound s → PadClear s → SourceHolds s bytes →
    VarBytes (zigZagWord v).toNat bytes →
    ∃ t, exec .vbyD s = .next t ∧
      EndsRead s { s with r := v, rpos := 8 * ceil8 s.rpos + 8 * bytes.length } t ∧
      t.pulled = max s.pulled (ceil8 s.rpos + bytes.length)) ∧
    (∀ (e e' s : State) (bytes : List Byte), e.wclosed = false → StreamSound e → PortsSound e →
      exec .vbyE e = .next e' →
      e'.wbits = e.wbits ++ (padBits e ++ bytes.flatMap (fun b => (List.range 8).map (fun i => b.getLsbD i))) →
      StreamSound s → PortsSound s → PadClear s → SourceHolds s bytes →
      ∃ t, exec .vbyD s = .next t ∧
        EndsRead s { s with r := e.a, rpos := 8 * ceil8 s.rpos + 8 * bytes.length } t) ∧
    ∀ (s : State) (bytes : List Byte), PortsSound s → PadClear s → SourceHolds s bytes →
      (∀ b ∈ bytes, b.getLsbD 7 = true) →
      (bytes.length ≤ 9 → s.src.length = ceil8 s.rpos + bytes.length →
        ∃ t, exec .vbyD s = .next t ∧ RaisesLate t 0x37 .truncation (8 * ceil8 s.rpos + 8 * bytes.length)) ∧
      (bytes.length = 10 →
        ∃ t, exec .vbyD s = .next t ∧ RaisesLate t 0x37 .truncation (8 * ceil8 s.rpos + 80))

/-! ### Sorted arrays -/

/-- 42_sorted_array.md R261, R263, R265: USA.E emits the size and the body, USAN.E the body alone; a window outside ARR or
an array that is not valid (R260) raises `INVALID_ARGUMENT` and changes nothing else. -/
def Obligations.SortedArrayEncode : Prop :=
  (∀ (s : State) (off : Nat) (xs : List Nat), s.wclosed = false → StreamSound s → PortsSound s → s.a.toInt = off →
    s.b.toInt = xs.length → WindowHolds s off xs → SortedArray xs →
    (∃ t size body, exec .usaE s = .next t ∧ UVarCode xs.length 0 size ∧ BodyCode xs body ∧
      EndsUnread s { s with wbits := s.wbits ++ (size ++ body) } t) ∧
      ∃ t body, exec .usanE s = .next t ∧ BodyCode xs body ∧
        EndsUnread s { s with wbits := s.wbits ++ body } t) ∧
    ∀ s : State, s.wclosed = false → ¬WindowInside s ∨ ¬SortedWords (windowWords s) →
      (∃ t, exec .usaE s = .next t ∧ Raises s t 0x40 .invalidArgument s.wbits.length) ∧
        ∃ t, exec .usanE s = .next t ∧ Raises s t 0x42 .invalidArgument s.wbits.length

/-- 42_sorted_array.md R262, R264, R266, R267 (a): the array coded comes back in ARR and its size in R, exactly its bits
are taken, and no other word of ARR changes. An offset or window outside ARR raises `INVALID_ARGUMENT`; a size that does
not fit raises `CAPACITY`; a width above 63 raises `OVERFLOW` and one too small for the size `UNIQUENESS_VIOLATION`, at the
position after the code read last, no word outside the window changing. -/
def Obligations.SortedArrayDecode : Prop :=
  (∀ (s : State) (off : Nat) (xs : List Nat) (size body : List Bool), StreamSound s → PortsSound s →
    s.a.toInt = off → off + xs.length ≤ s.params.arrWords → xs.length ≤ lmax → SortedArray xs →
    UVarCode xs.length 0 size → BodyCode xs body →
    (InputHolds s (size ++ body) →
      ∃ t cells, exec .usaD s = .next t ∧
        (∀ j, arrLookup j cells =
          if off ≤ j ∧ j < off + xs.length then some (BitVec.ofNat 64 (xs.getD (j - off) 0)) else arrLookup j s.arr) ∧
        EndsRead s
          { s with
            arr := cells
            r := BitVec.ofNat 64 xs.length
            rpos := s.rpos + (size ++ body).length } t) ∧
    (InputHolds s body → s.b.toInt = xs.length →
      ∃ t cells, exec .usanD s = .next t ∧
        (∀ j, arrLookup j cells =
          if off ≤ j ∧ j < off + xs.length then some (BitVec.ofNat 64 (xs.getD (j - off) 0)) else arrLookup j s.arr) ∧
        EndsRead s { s with arr := cells, r := s.b, rpos := s.rpos + body.length } t)) ∧
    (∀ s : State,
      (s.a.toInt < 0 ∨ (s.params.arrWords : Int) < s.a.toInt →
        ∃ t, exec .usaD s = .next t ∧ Raises s t 0x41 .invalidArgument s.rpos) ∧
      (¬WindowInside s → ∃ t, exec .usanD s = .next t ∧ Raises s t 0x43 .invalidArgument s.rpos)) ∧
    (∀ (s : State) (off n : Nat) (size : List Bool), PortsSound s → s.a.toInt = off → off ≤ s.params.arrWords →
      n ≤ lmax → s.params.arrWords < off + n → UVarCode n 0 size → InputHolds s size →
      ∃ t, exec .usaD s = .next t ∧ RaisesLate t 0x41 .capacity (s.rpos + size.length) ∧ t.arr = s.arr) ∧
    ∀ (s : State) (off n w : Nat) (e : ErrCode) (size width : List Bool), PortsSound s → s.a.toInt = off →
      off + n ≤ s.params.arrWords → n ≤ lmax → UVarCode n 0 size → UVarCode w 0 width → w + 1 < 2 ^ 64 →
      (e = .overflow ∧ 1 ≤ n ∧ 63 < w) ∨ (e = .uniquenessViolation ∧ w ≤ 63 ∧ 2 ^ w < n) →
      (InputHolds s (size ++ width) →
        ∃ t, exec .usaD s = .next t ∧ RaisesLate t 0x41 e (s.rpos + (size ++ width).length) ∧
          ∀ j, j < off ∨ off + n ≤ j → arrLookup j t.arr = arrLookup j s.arr) ∧
      (InputHolds s width → s.b.toInt = n →
        ∃ t, exec .usanD s = .next t ∧ RaisesLate t 0x43 e (s.rpos + width.length) ∧
          ∀ j, j < off ∨ off + n ≤ j → arrLookup j t.arr = arrLookup j s.arr)

/-! ### Arithmetic coder -/

/-- 43_arithmetic.md R293, R296: the pass values; no stream is touched. -/
def Obligations.ArithmeticReset : Prop :=
  ∀ (s : State) (n : Nat), 2 ≤ n → n ≤ 62 → StreamSound s → PortsSound s →
    (∃ t, exec (.aeReset n) s = .next t ∧
      EndsUnread s
        { s with ae := { mode := .active, w := n, low := 0, high := 2 ^ n - 1, uf := 0, coded := false } } t) ∧
      ∃ t, exec (.adReset n) s = .next t ∧
        EndsUnread s
          { s with ad := { mode := .active, w := n, low := 0, high := 2 ^ n - 1, code := 0, filled := false } } t

/-- 43_arithmetic.md R292, R299 (a): from a sound interval the encoder's interval update runs, for every symbol of a valid
table, the loops of R292 to their end: it answers the bits and the interval of the run, which is sound again, or, where UF
would pass its limit, the number of bits emitted before `CAPACITY`. -/
def Obligations.IntervalUpdateEnds : Prop :=
  ∀ (ae : ArithEnc) (tab : List Nat) (sym ufMax : Nat), IntervalSound ae.w ae.low ae.high → ae.uf ≤ ufMax →
    Codable ae.w tab sym →
    ∃ bits l h u, EncoderRun ae tab sym bits l h u ∧ IntervalSound ae.w l h ∧
      (u ≤ ufMax →
        encUpdate ufMax ae (symLow tab sym) (symHigh tab sym) (tab.getLastD 0) =
          .ok (bits, { ae with low := l, high := h, uf := u })) ∧
      (ufMax < u →
        encUpdate ufMax ae (symLow tab sym) (symHigh tab sym) (tab.getLastD 0) = .error bits.length)

/-- 43_arithmetic.md R291, R292, R294, 60_exceptions.md R405: AE.ENC codes the symbol by the loops of R292; with UF at its
limit it raises `CAPACITY`, which leaves AE_STATE, AE_W and AE_CODED, and WBITS where no bit was emitted (vector A15 of
95_test_vectors.md, log 10, DEDUCED); without an active pass or an open writer it raises `INVALID_STATE`, then, for a window outside ARR, a table or
a symbol R291 rejects, `INVALID_ARGUMENT`, and changes nothing else. -/
def Obligations.ArithmeticEncode : Prop :=
  (∀ (s : State) (off : Nat) (tab : List Nat) (sym : Nat) (bits : List Bool) (l h u : Nat), s.wclosed = false →
    s.ae.mode = .active → ArithSound s → StreamSound s → PortsSound s → s.a.toInt = off → s.b.toInt = tab.length →
    s.c.toInt = sym → WindowHolds s off tab → Codable s.ae.w tab sym → EncoderRun s.ae tab sym bits l h u →
    (u ≤ s.params.ufMax →
      ∃ t, exec .aeEnc s = .next t ∧
        EndsUnread s
          { s with
            wbits := s.wbits ++ bits
            ae := { s.ae with low := l, high := h, uf := u, coded := true } } t) ∧
    (s.params.ufMax < u →
      ∃ t, exec .aeEnc s = .next t ∧ RaisesLate t 0x51 .capacity (s.wbits.length + bits.length) ∧
        t.ae = { s.ae with low := t.ae.low, high := t.ae.high, uf := t.ae.uf } ∧ (bits = [] → t.wbits = s.wbits))) ∧
    ∀ s : State,
      (s.ae.mode ≠ .active ∨ s.wclosed = true →
        ∃ t, exec .aeEnc s = .next t ∧ Raises s t 0x51 .invalidState s.wbits.length) ∧
      (s.ae.mode = .active → s.wclosed = false →
        ¬WindowInside s ∨ ¬TableChecked s.ae.w (windowWords s) ∨ ¬SymChecked (windowWords s) s.c.toInt →
        ∃ t, exec .aeEnc s = .next t ∧ Raises s t 0x51 .invalidArgument s.wbits.length)

/-- 43_arithmetic.md R295: AE.FIN. -/
def Obligations.ArithmeticFinish : Prop :=
  ∀ s : State,
    (s.ae.mode = .active → StreamSound s → PortsSound s →
      (s.ae.coded = true → s.wclosed = false →
        ∃ t, exec .aeFin s = .next t ∧
          EndsUnread s
            { s with
              wbits := s.wbits ++ true :: List.replicate (s.ae.uf + (s.ae.w - 1)) false
              ae := { s.ae with uf := 0, mode := .finished } } t) ∧
      (s.ae.coded = false →
        ∃ t, exec .aeFin s = .next t ∧
          EndsUnread s { s with ae := { s.ae with uf := 0, mode := .finished } } t)) ∧
    (s.ae.mode ≠ .active ∨ (s.ae.coded = true ∧ s.wclosed = true) →
      ∃ t, exec .aeFin s = .next t ∧ Raises s t 0x52 .invalidState s.wbits.length)

/-- 43_arithmetic.md R291, R292, R297, R298: AD.DEC decodes by the fill and the loops; without an active pass it raises
`INVALID_STATE`, then, for a window outside ARR or a table R291 rejects, `INVALID_ARGUMENT`, and changes nothing else. -/
def Obligations.ArithmeticDecode : Prop :=
  (∀ (s : State) (off : Nat) (tab : List Nat) (bits : List Bool) (sym : Nat) (ad : ArithDec), s.ad.mode = .active →
    ArithSound s → StreamSound s → PortsSound s → s.a.toInt = off → s.b.toInt = tab.length → WindowHolds s off tab →
    TableValid s.ad.w tab → DecoderRun s.ad tab bits sym ad → InputHolds s bits →
    ∃ t, exec .adDec s = .next t ∧
      EndsRead s { s with r := BitVec.ofNat 64 sym, ad := ad, rpos := s.rpos + bits.length } t) ∧
    ∀ s : State,
      (s.ad.mode ≠ .active → ∃ t, exec .adDec s = .next t ∧ Raises s t 0x59 .invalidState s.rpos) ∧
      (s.ad.mode = .active → ¬WindowInside s ∨ ¬TableChecked s.ad.w (windowWords s) →
        ∃ t, exec .adDec s = .next t ∧ Raises s t 0x59 .invalidArgument s.rpos)

/-- 43_arithmetic.md R299 (c): a decoder whose interval is the encoder's, and whose code lies in the part of it that the
coded symbol narrows to, returns the symbol and has the encoder's interval after it. -/
def Obligations.DecoderFollowsEncoder : Prop :=
  ∀ (s t u v : State) (off off' : Nat) (tab : List Nat) (sym : Nat), ArithSound s → ArithSound u → PortsSound s →
    PortsSound u → s.ae.mode = .active → u.ad.mode = .active → u.ad.filled = true → s.ae.w = u.ad.w →
    s.ae.low = u.ad.low → s.ae.high = u.ad.high → s.a.toInt = off → s.b.toInt = tab.length → WindowHolds s off tab →
    u.a.toInt = off' → u.b.toInt = tab.length → WindowHolds u off' tab → Codable s.ae.w tab sym → s.c.toInt = sym →
    newLow s.ae.low s.ae.high (symLow tab sym) (tab.getLastD 0) ≤ u.ad.code →
    u.ad.code ≤ newHigh s.ae.low s.ae.high (symHigh tab sym) (tab.getLastD 0) →
    s.status.fault = false → u.status.fault = false → exec .aeEnc s = .next t → exec .adDec u = .next v →
    t.status.fault = false → v.status.fault = false →
    v.r = BitVec.ofNat 64 sym ∧ v.ad.low = t.ae.low ∧ v.ad.high = t.ae.high

/-! ### Context coder -/

/-- 43_arithmetic.md R301: pass 1 starts empty; the pass-2 init writes the table and fixes it; a third init, no arithmetic
pass or a closed writer raises `INVALID_STATE`, a total above the budget `INVALID_ARGUMENT`. -/
def Obligations.ContextInit : Prop :=
  ∀ (s : State) (slot : Nat), slot < s.params.nSlots →
    (StreamSound s → PortsSound s → (s.ceAt slot).pass = .idle ∨ (s.ceAt slot).pass = .done →
      ∃ t, exec (.ceInit slot) s = .next t ∧
        EndsUnread s { s with ce := s.ce.set slot { pass := .pass1, freq := [], syms := [], cum := [] } } t) ∧
    (StreamSound s → PortsSound s → SlotsSound s → (s.ceAt slot).pass = .pass1 → s.ae.mode ≠ .idle →
      s.wclosed = false →
      ((s.ceAt slot).freq.length < 2 ∨ (cumulative (s.ceAt slot).freq).getLastD 0 ≤ budget s.ae.w) →
      ∃ t bits, exec (.ceInit slot) s = .next t ∧
        ContextCode ((s.ceAt slot).freq.map Prod.fst) (cumulative (s.ceAt slot).freq) bits ∧
        EndsUnread s
          { s with
            wbits := s.wbits ++ bits
            ce := s.ce.set slot
              { pass := .pass2
                freq := (s.ceAt slot).freq
                syms := (s.ceAt slot).freq.map Prod.fst
                cum := cumulative (s.ceAt slot).freq } } t) ∧
    ((s.ceAt slot).pass = .pass2 ∨ ((s.ceAt slot).pass = .pass1 ∧ (s.ae.mode = .idle ∨ s.wclosed = true)) →
      ∃ t, exec (.ceInit slot) s = .next t ∧ Raises s t 0x60 .invalidState s.wbits.length) ∧
    ((s.ceAt slot).pass = .pass1 → s.ae.mode ≠ .idle → s.wclosed = false → 2 ≤ (s.ceAt slot).freq.length →
      budget s.ae.w < (cumulative (s.ceAt slot).freq).getLastD 0 →
      ∃ t, exec (.ceInit slot) s = .next t ∧ Raises s t 0x60 .invalidArgument s.wbits.length)

/-- 43_arithmetic.md R302, pass 1: the symbol is counted once more; a negative symbol raises `INVALID_ARGUMENT`, a new one
in a full slot `CAPACITY`; outside a pass the command raises `INVALID_STATE`. -/
def Obligations.ContextCount : Prop :=
  (∀ (s : State) (slot x : Nat), slot < s.params.nSlots → StreamSound s → PortsSound s → SlotsSound s →
    (s.ceAt slot).pass = .pass1 → s.a.toInt = x →
    (x ∈ (s.ceAt slot).freq.map Prod.fst ∨ (s.ceAt slot).freq.length < s.params.slotSyms →
      ∃ t freq, exec (.ceEnc slot) s = .next t ∧ (freq.map Prod.fst).Pairwise (· < ·) ∧
        (∀ y, countOf freq y = countOf (s.ceAt slot).freq y + if y = x then 1 else 0) ∧
        EndsUnread s { s with ce := s.ce.set slot { s.ceAt slot with freq := freq } } t) ∧
    (x ∉ (s.ceAt slot).freq.map Prod.fst → (s.ceAt slot).freq.length = s.params.slotSyms →
      ∃ t, exec (.ceEnc slot) s = .next t ∧ Raises s t 0x61 .capacity s.wbits.length)) ∧
    ∀ (s : State) (slot : Nat), slot < s.params.nSlots →
      ((s.ceAt slot).pass = .pass1 → s.a.toInt < 0 →
        ∃ t, exec (.ceEnc slot) s = .next t ∧ Raises s t 0x61 .invalidArgument s.wbits.length) ∧
      ((s.ceAt slot).pass = .idle ∨ (s.ceAt slot).pass = .done →
        ∃ t, exec (.ceEnc slot) s = .next t ∧ Raises s t 0x61 .invalidState s.wbits.length)

/-- 43_arithmetic.md R302, pass 2, 60_exceptions.md R405: a symbol of a table of two or more is coded as R294 says, or raises
what R294 raises, a `CAPACITY` leaving what it leaves there and the slots (log 10, DEDUCED);
the one symbol of a table of one emits nothing; a symbol not in the table raises `SYMBOL_NOT_SEEN`. -/
def Obligations.ContextEncode : Prop :=
  ∀ (s : State) (slot : Nat), slot < s.params.nSlots → (s.ceAt slot).pass = .pass2 →
    (∀ (sym : Nat) (bits : List Bool) (l h u : Nat), s.wclosed = false → s.ae.mode = .active → ArithSound s →
      StreamSound s → PortsSound s → SlotsSound s → 2 ≤ (s.ceAt slot).syms.length → 0 ≤ s.a.toInt →
      (s.ceAt slot).syms[sym]? = some s.a.toNat → Codable s.ae.w (s.ceAt slot).cum sym →
      EncoderRun s.ae (s.ceAt slot).cum sym bits l h u → u ≤ s.params.ufMax →
      ∃ t, exec (.ceEnc slot) s = .next t ∧
        EndsUnread s
          { s with
            wbits := s.wbits ++ bits
            ae := { s.ae with low := l, high := h, uf := u, coded := true } } t) ∧
    (StreamSound s → PortsSound s → 0 ≤ s.a.toInt → (s.ceAt slot).syms = [s.a.toNat] →
      ∃ t, exec (.ceEnc slot) s = .next t ∧ EndsUnread s s t) ∧
    (s.a.toInt < 0 ∨ s.a.toNat ∉ (s.ceAt slot).syms →
      ∃ t, exec (.ceEnc slot) s = .next t ∧ Raises s t 0x61 .symbolNotSeen s.wbits.length) ∧
    (0 ≤ s.a.toInt → s.a.toNat ∈ (s.ceAt slot).syms → 2 ≤ (s.ceAt slot).syms.length →
      s.ae.mode ≠ .active ∨ s.wclosed = true →
      ∃ t, exec (.ceEnc slot) s = .next t ∧ Raises s t 0x61 .invalidState s.wbits.length) ∧
    ∀ sym : Nat, 0 ≤ s.a.toInt → (s.ceAt slot).syms[sym]? = some s.a.toNat → 2 ≤ (s.ceAt slot).syms.length →
      s.ae.mode = .active → s.wclosed = false → SlotsSound s →
      (¬Codable s.ae.w (s.ceAt slot).cum sym →
        ∃ t, exec (.ceEnc slot) s = .next t ∧ Raises s t 0x61 .invalidArgument s.wbits.length) ∧
      (∀ (bits : List Bool) (l h u : Nat), ArithSound s → PortsSound s → Codable s.ae.w (s.ceAt slot).cum sym →
        EncoderRun s.ae (s.ceAt slot).cum sym bits l h u → s.params.ufMax < u →
        ∃ t, exec (.ceEnc slot) s = .next t ∧ RaisesLate t 0x61 .capacity (s.wbits.length + bits.length) ∧
          t.ae = { s.ae with low := t.ae.low, high := t.ae.high, uf := t.ae.uf } ∧ t.ce = s.ce ∧
          (bits = [] → t.wbits = s.wbits))

/-- 43_arithmetic.md R303, 44_huffman.md R358: the finish commands end pass 2 and need it. -/
def Obligations.SlotFinish : Prop :=
  ∀ (s : State) (slot : Nat), slot < s.params.nSlots →
    (StreamSound s → PortsSound s → (s.ceAt slot).pass = .pass2 →
      ∃ t, exec (.ceFin slot) s = .next t ∧
        EndsUnread s { s with ce := s.ce.set slot { s.ceAt slot with pass := .done } } t) ∧
    ((s.ceAt slot).pass ≠ .pass2 →
      ∃ t, exec (.ceFin slot) s = .next t ∧ Raises s t 0x62 .invalidState s.wbits.length) ∧
    (StreamSound s → PortsSound s → (s.heAt slot).pass = .pass2 →
      ∃ t, exec (.heFin slot) s = .next t ∧
        EndsUnread s { s with he := s.he.set slot { s.heAt slot with pass := .done } } t) ∧
    ((s.heAt slot).pass ≠ .pass2 →
      ∃ t, exec (.heFin slot) s = .next t ∧ Raises s t 0x72 .invalidState s.wbits.length)

/-- 43_arithmetic.md R304: CD.INIT reads back the table CE.INIT wrote, whatever the slot held; without a decoder pass it
raises `INVALID_STATE`; more symbols than a slot holds raise `CAPACITY`, a table above the budget `PRECISION_BUDGET`, a
table of more values than its width allows `UNIQUENESS_VIOLATION`. -/
def Obligations.ContextRead : Prop :=
  ∀ (s : State) (slot : Nat), slot < s.params.nSlots →
    (∀ (syms cum : List Nat) (bits : List Bool), s.ad.mode ≠ .idle → StreamSound s → PortsSound s →
      SortedArray syms → syms.length ≤ s.params.slotSyms → syms.length ≤ lmax →
      (if 2 ≤ syms.length then SortedArray cum ∧ cum.length = syms.length ∧ cum.getLastD 0 ≤ budget s.ad.w
        else cum = []) →
      ContextCode syms cum bits → InputHolds s bits →
      ∃ t, exec (.cdInit slot) s = .next t ∧
        EndsRead s { s with cd := s.cd.set slot (.ready syms cum), rpos := s.rpos + bits.length } t) ∧
    (s.ad.mode = .idle → ∃ t, exec (.cdInit slot) s = .next t ∧ Raises s t 0x68 .invalidState s.rpos) ∧
    ∀ (n : Nat) (size : List Bool), s.ad.mode ≠ .idle → PortsSound s → n ≤ lmax → UVarCode n 0 size →
      (s.params.slotSyms < n → InputHolds s size →
        ∃ t, exec (.cdInit slot) s = .next t ∧ RaisesLate t 0x68 .capacity (s.rpos + size.length)) ∧
      (∀ (cum : List Nat) (table : List Bool), 2 ≤ n → n ≤ s.params.slotSyms → SortedArray cum → cum.length = n →
        budget s.ad.w < cum.getLastD 0 → BodyCode cum table → InputHolds s (size ++ table) →
        ∃ t, exec (.cdInit slot) s = .next t ∧
          RaisesLate t 0x68 .precisionBudget (s.rpos + (size ++ table).length)) ∧
      (∀ (w : Nat) (width : List Bool), 2 ≤ n → n ≤ s.params.slotSyms → w ≤ 63 → 2 ^ w < n → UVarCode w 0 width →
        InputHolds s (size ++ width) →
        ∃ t, exec (.cdInit slot) s = .next t ∧
          RaisesLate t 0x68 .uniquenessViolation (s.rpos + (size ++ width).length))

/-- 43_arithmetic.md R305: the one symbol of a table of one, else the symbol `ADDecode` finds, or what R298 raises; no
table, no decode. -/
def Obligations.ContextDecode : Prop :=
  ∀ (s : State) (slot : Nat), slot < s.params.nSlots →
    (∀ (x : Nat) (cum : List Nat), StreamSound s → PortsSound s → s.cdAt slot = .ready [x] cum →
      ∃ t, exec (.cdDec slot) s = .next t ∧ EndsRead s { s with r := BitVec.ofNat 64 x } t) ∧
    (∀ (syms cum : List Nat) (bits : List Bool) (sym x : Nat) (ad : ArithDec), s.cdAt slot = .ready syms cum →
      2 ≤ syms.length → s.ad.mode = .active → ArithSound s → StreamSound s → PortsSound s → TableValid s.ad.w cum →
      DecoderRun s.ad cum bits sym ad → InputHolds s bits → syms[sym]? = some x →
      ∃ t, exec (.cdDec slot) s = .next t ∧
        EndsRead s { s with r := BitVec.ofNat 64 x, ad := ad, rpos := s.rpos + bits.length } t) ∧
    (s.cdAt slot = .idle ∨ (∃ cum, s.cdAt slot = .ready [] cum) →
      ∃ t, exec (.cdDec slot) s = .next t ∧ Raises s t 0x69 .invalidState s.rpos) ∧
    ∀ syms cum : List Nat, s.cdAt slot = .ready syms cum → 2 ≤ syms.length →
      (s.ad.mode ≠ .active → ∃ t, exec (.cdDec slot) s = .next t ∧ Raises s t 0x69 .invalidState s.rpos) ∧
      (s.ad.mode = .active → ¬TableValid s.ad.w cum →
        ∃ t, exec (.cdDec slot) s = .next t ∧ Raises s t 0x69 .invalidArgument s.rpos)

/-! ### Huffman coder -/

/-- 44_huffman.md R352 to R356: pass 1 starts empty; the pass-2 init writes the flag and the tree `BuildTree` gives, and
assigns its codes. A third init raises `INVALID_STATE`; then an illegal leaf configuration raises `INVALID_ARGUMENT`, a
closed writer in the pass-2 init `INVALID_STATE`, a symbol the configuration cannot represent `INVALID_ARGUMENT`. -/
def Obligations.HuffmanInit : Prop :=
  (∀ (s : State) (n slot : Nat), slot < s.params.nSlots → StreamSound s → PortsSound s →
    ConfigLegal { mode := s.a.toInt, noisy := n, max := s.b.toInt } →
    ((s.heAt slot).pass = .idle ∨ (s.heAt slot).pass = .done →
      ∃ t, exec (.heInit n slot) s = .next t ∧
        EndsUnread s { s with he := s.he.set slot { pass := .pass1, freq := [], codes := [] } } t) ∧
    ((s.heAt slot).pass = .pass1 → s.wclosed = false → (s.heAt slot).freq = [] →
      ∃ t, exec (.heInit n slot) s = .next t ∧
        EndsUnread s
          { s with
            wbits := s.wbits ++ [false]
            he := s.he.set slot { pass := .pass2, freq := [], codes := [] } } t) ∧
    ((s.heAt slot).pass = .pass1 → s.wclosed = false → (s.heAt slot).freq ≠ [] → SlotsSound s →
      (∀ p ∈ (s.heAt slot).freq, Represents { mode := s.a.toInt, noisy := n, max := s.b.toInt } p.1) →
      ∃ t tree bits, exec (.heInit n slot) s = .next t ∧
        Builds (s.heAt slot).freq.length (leafQueue (s.heAt slot).freq) tree ∧
        TreeCode { mode := s.a.toInt, noisy := n, max := s.b.toInt } tree bits ∧
        EndsUnread s
          { s with
            wbits := s.wbits ++ true :: bits
            he := s.he.set slot
              { pass := .pass2, freq := (s.heAt slot).freq, codes := assignCodes tree } } t)) ∧
    ∀ (s : State) (n slot : Nat), slot < s.params.nSlots →
      ((s.heAt slot).pass = .pass2 →
        ∃ t, exec (.heInit n slot) s = .next t ∧ Raises s t 0x70 .invalidState s.wbits.length) ∧
      ((s.heAt slot).pass ≠ .pass2 → ¬ConfigLegal { mode := s.a.toInt, noisy := n, max := s.b.toInt } →
        ∃ t, exec (.heInit n slot) s = .next t ∧ Raises s t 0x70 .invalidArgument s.wbits.length) ∧
      ((s.heAt slot).pass = .pass1 → ConfigLegal { mode := s.a.toInt, noisy := n, max := s.b.toInt } →
        (s.wclosed = true →
          ∃ t, exec (.heInit n slot) s = .next t ∧ Raises s t 0x70 .invalidState s.wbits.length) ∧
        (s.wclosed = false →
          (∃ p ∈ (s.heAt slot).freq, ¬Represents { mode := s.a.toInt, noisy := n, max := s.b.toInt } p.1) →
          ∃ t, exec (.heInit n slot) s = .next t ∧ Raises s t 0x70 .invalidArgument s.wbits.length))

/-- 44_huffman.md R357: pass 1 counts the symbol in first-seen order, pass 2 emits its code; a new symbol in a full slot
raises `CAPACITY`, a symbol without a code `SYMBOL_NOT_SEEN`, a closed writer in pass 2 `INVALID_STATE`; outside a pass the
command is refused. -/
def Obligations.HuffmanEncode : Prop :=
  ∀ (s : State) (slot : Nat), slot < s.params.nSlots →
    ((s.heAt slot).pass = .pass1 → StreamSound s → PortsSound s → SlotsSound s →
      (∃ p ∈ (s.heAt slot).freq, p.1 = s.a.toInt) →
      ∃ t, exec (.heEnc slot) s = .next t ∧
        EndsUnread s
          { s with
            he := s.he.set slot
              { s.heAt slot with
                freq := (s.heAt slot).freq.map (fun p => if p.1 = s.a.toInt then (p.1, p.2 + 1) else p) } } t) ∧
    ((s.heAt slot).pass = .pass1 → StreamSound s → PortsSound s → (∀ p ∈ (s.heAt slot).freq, p.1 ≠ s.a.toInt) →
      (s.heAt slot).freq.length < s.params.slotSyms →
      ∃ t, exec (.heEnc slot) s = .next t ∧
        EndsUnread s
          { s with
            he := s.he.set slot { s.heAt slot with freq := (s.heAt slot).freq ++ [(s.a.toInt, 1)] } } t) ∧
    (∀ code, (s.heAt slot).pass = .pass2 → s.wclosed = false → StreamSound s → PortsSound s →
      (s.heAt slot).codes.find? (fun p => p.1 = s.a.toInt) = some (s.a.toInt, code) →
      ∃ t, exec (.heEnc slot) s = .next t ∧ EndsUnread s { s with wbits := s.wbits ++ code } t) ∧
    ((s.heAt slot).pass = .pass1 → (∀ p ∈ (s.heAt slot).freq, p.1 ≠ s.a.toInt) →
      (s.heAt slot).freq.length = s.params.slotSyms →
      ∃ t, exec (.heEnc slot) s = .next t ∧ Raises s t 0x71 .capacity s.wbits.length) ∧
    ((s.heAt slot).pass = .pass2 → s.wclosed = true → (∃ p ∈ (s.heAt slot).codes, p.1 = s.a.toInt) →
      ∃ t, exec (.heEnc slot) s = .next t ∧ Raises s t 0x71 .invalidState s.wbits.length) ∧
    ((s.heAt slot).pass = .pass2 → (∀ p ∈ (s.heAt slot).codes, p.1 ≠ s.a.toInt) →
      ∃ t, exec (.heEnc slot) s = .next t ∧ Raises s t 0x71 .symbolNotSeen s.wbits.length) ∧
    ((s.heAt slot).pass = .idle ∨ (s.heAt slot).pass = .done →
      ∃ t, exec (.heEnc slot) s = .next t ∧ Raises s t 0x71 .invalidState s.wbits.length)

/-- 44_huffman.md R350, R359, R360: HD.INIT reads back the tree HE.INIT wrote, or the flag of no tree; an illegal leaf
configuration raises `INVALID_ARGUMENT`, a tree larger than a slot holds `CAPACITY`, met while it is read. -/
def Obligations.HuffmanRead : Prop :=
  (∀ (s : State) (n slot : Nat), slot < s.params.nSlots → StreamSound s → PortsSound s →
    ConfigLegal { mode := s.a.toInt, noisy := n, max := s.b.toInt } →
    (InputHolds s [false] →
      ∃ t, exec (.hdInit n slot) s = .next t ∧
        EndsRead s { s with hd := s.hd.set slot .empty, rpos := s.rpos + 1 } t) ∧
    ∀ (tree : HTree) (bits : List Bool), TreeCode { mode := s.a.toInt, noisy := n, max := s.b.toInt } tree bits →
      leafCount tree ≤ s.params.slotSyms → InputHolds s (true :: bits) →
      ∃ t, exec (.hdInit n slot) s = .next t ∧
        EndsRead s { s with hd := s.hd.set slot (.ready tree), rpos := s.rpos + (bits.length + 1) } t) ∧
    (∀ (s : State) (n slot : Nat), slot < s.params.nSlots →
      ¬ConfigLegal { mode := s.a.toInt, noisy := n, max := s.b.toInt } →
      ∃ t, exec (.hdInit n slot) s = .next t ∧ Raises s t 0x78 .invalidArgument s.rpos) ∧
    ∀ (s : State) (n slot : Nat) (tree : HTree) (bits : List Bool), slot < s.params.nSlots → PortsSound s →
      ConfigLegal { mode := s.a.toInt, noisy := n, max := s.b.toInt } →
      TreeCode { mode := s.a.toInt, noisy := n, max := s.b.toInt } tree bits → s.params.slotSyms < leafCount tree →
      InputHolds s (true :: bits) →
      ∃ t info, exec (.hdInit n slot) s = .next t ∧ RaisesLate t 0x78 .capacity info ∧ s.rpos < info ∧
        info ≤ s.rpos + (bits.length + 1)

/-- 44_huffman.md R354, R361: the codes assigned are the paths from the root to the leaves, and the bits of the path to a
leaf give its symbol; without a tree the command is refused. -/
def Obligations.HuffmanDecode : Prop :=
  (∀ (t : HTree) (code : List Bool) (x : Int), (x, code) ∈ assignCodes t ↔ LeafPath t code x) ∧
  ∀ (s : State) (slot : Nat), slot < s.params.nSlots →
    (∀ (tree : HTree) (code : List Bool) (x : Int), s.hdAt slot = .ready tree → LeafPath tree code x →
      StreamSound s → PortsSound s → InputHolds s code →
      ∃ t, exec (.hdDec slot) s = .next t ∧
        EndsRead s { s with r := BitVec.ofInt 64 x, rpos := s.rpos + code.length } t) ∧
    (s.hdAt slot = .idle ∨ s.hdAt slot = .empty →
      ∃ t, exec (.hdDec slot) s = .next t ∧ Raises s t 0x79 .invalidState s.rpos)

/-! ### Binding the ports -/

/-- 20_memory.md R94, R95, 70_reset_and_hazards.md R442: the drain points leave the ports ready to be handed over. Binding
is the model's host move (log 15, DESIGN CHOICE): at a drain point the new sink has received nothing, and the new source's
bits are the next ones of the input stream; elsewhere the move is refused. -/
def Obligations.PortBinding : Prop :=
  (∀ (i : Instr) (s t : State), i ∈ [.wByte, .wAlign, .wClose, .wSync, .vbyE] → s.status.fault = false →
    StreamSound s → exec i s = .next t → t.status.fault = false → t.wbits.length = 8 * t.committed) ∧
    (∀ s t : State, s.status.fault = false → StreamSound s → exec .rSync s = .next t → t.status.fault = false →
      t.rpos = 8 * t.pulled) ∧
    ∀ (s : State) (rest : List HostMove) (failAt : Option Nat), s.status.busy = false →
      (∀ bytes : List Byte, s.moves = .bindSource bytes failAt :: rest →
        (s.rpos = 8 * s.pulled → s.pulled ≤ s.src.length →
          ∃ t, step s = .next t ∧ t = { s with moves := rest, src := t.src, srcFail := t.srcFail } ∧
            t.src.length = s.pulled + bytes.length ∧ t.srcFail = failAt.map (· + s.pulled) ∧
            InputHolds t (bytes.flatMap (fun b => (List.range 8).map (fun i => b.getLsbD i)))) ∧
        (s.rpos ≠ 8 * s.pulled → step s = .refused .sourceHandedOverMidStream)) ∧
      (s.moves = .bindSink failAt :: rest →
        (s.wbits.length = 8 * s.committed →
          step s = .next { s with moves := rest, sink := [], sinkFail := failAt.map (· + s.committed) }) ∧
        (s.wbits.length ≠ 8 * s.committed → step s = .refused .sinkHandedOverMidStream))
end

