-- ==== Sys2Proof/Laws/State.lean ====
section
/-! SUPPORT. One lemma per field per update of State, true by rfl: no proof unfolds a record update. -/

namespace Sys2Proof.Machine

open Sys2Proof

variable (s : State)

/-! ### emit -/

@[simp] theorem State.emit_params (bits : List Bool) : (s.emit bits).params = s.params := rfl
@[simp] theorem State.emit_a (bits : List Bool) : (s.emit bits).a = s.a := rfl
@[simp] theorem State.emit_b (bits : List Bool) : (s.emit bits).b = s.b := rfl
@[simp] theorem State.emit_c (bits : List Bool) : (s.emit bits).c = s.c := rfl
@[simp] theorem State.emit_r (bits : List Bool) : (s.emit bits).r = s.r := rfl
@[simp] theorem State.emit_status (bits : List Bool) : (s.emit bits).status = s.status := rfl
@[simp] theorem State.emit_errInfo (bits : List Bool) : (s.emit bits).errInfo = s.errInfo := rfl
@[simp] theorem State.emit_cmd (bits : List Bool) : (s.emit bits).cmd = s.cmd := rfl
@[simp] theorem State.emit_wbits (bits : List Bool) : (s.emit bits).wbits = s.wbits ++ bits := rfl
@[simp] theorem State.emit_wclosed (bits : List Bool) : (s.emit bits).wclosed = s.wclosed := rfl
@[simp] theorem State.emit_sink (bits : List Bool) : (s.emit bits).sink = s.sink := rfl
@[simp] theorem State.emit_committed (bits : List Bool) : (s.emit bits).committed = s.committed := rfl
@[simp] theorem State.emit_sinkFail (bits : List Bool) : (s.emit bits).sinkFail = s.sinkFail := rfl
@[simp] theorem State.emit_src (bits : List Bool) : (s.emit bits).src = s.src := rfl
@[simp] theorem State.emit_rpos (bits : List Bool) : (s.emit bits).rpos = s.rpos := rfl
@[simp] theorem State.emit_pulled (bits : List Bool) : (s.emit bits).pulled = s.pulled := rfl
@[simp] theorem State.emit_srcFail (bits : List Bool) : (s.emit bits).srcFail = s.srcFail := rfl
@[simp] theorem State.emit_ae (bits : List Bool) : (s.emit bits).ae = s.ae := rfl
@[simp] theorem State.emit_ad (bits : List Bool) : (s.emit bits).ad = s.ad := rfl
@[simp] theorem State.emit_ce (bits : List Bool) : (s.emit bits).ce = s.ce := rfl
@[simp] theorem State.emit_cd (bits : List Bool) : (s.emit bits).cd = s.cd := rfl
@[simp] theorem State.emit_he (bits : List Bool) : (s.emit bits).he = s.he := rfl
@[simp] theorem State.emit_hd (bits : List Bool) : (s.emit bits).hd = s.hd := rfl
@[simp] theorem State.emit_arr (bits : List Bool) : (s.emit bits).arr = s.arr := rfl
@[simp] theorem State.emit_moves (bits : List Bool) : (s.emit bits).moves = s.moves := rfl
@[simp] theorem State.emit_readData (bits : List Bool) : (s.emit bits).readData = s.readData := rfl
@[simp] theorem State.emit_draws (bits : List Bool) : (s.emit bits).draws = s.draws := rfl

/-! ### setR -/

@[simp] theorem State.setR_params (v : Word) : (s.setR v).params = s.params := rfl
@[simp] theorem State.setR_a (v : Word) : (s.setR v).a = s.a := rfl
@[simp] theorem State.setR_b (v : Word) : (s.setR v).b = s.b := rfl
@[simp] theorem State.setR_c (v : Word) : (s.setR v).c = s.c := rfl
@[simp] theorem State.setR_r (v : Word) : (s.setR v).r = v := rfl
@[simp] theorem State.setR_status (v : Word) : (s.setR v).status = s.status := rfl
@[simp] theorem State.setR_errInfo (v : Word) : (s.setR v).errInfo = s.errInfo := rfl
@[simp] theorem State.setR_cmd (v : Word) : (s.setR v).cmd = s.cmd := rfl
@[simp] theorem State.setR_wbits (v : Word) : (s.setR v).wbits = s.wbits := rfl
@[simp] theorem State.setR_wclosed (v : Word) : (s.setR v).wclosed = s.wclosed := rfl
@[simp] theorem State.setR_sink (v : Word) : (s.setR v).sink = s.sink := rfl
@[simp] theorem State.setR_committed (v : Word) : (s.setR v).committed = s.committed := rfl
@[simp] theorem State.setR_sinkFail (v : Word) : (s.setR v).sinkFail = s.sinkFail := rfl
@[simp] theorem State.setR_src (v : Word) : (s.setR v).src = s.src := rfl
@[simp] theorem State.setR_rpos (v : Word) : (s.setR v).rpos = s.rpos := rfl
@[simp] theorem State.setR_pulled (v : Word) : (s.setR v).pulled = s.pulled := rfl
@[simp] theorem State.setR_srcFail (v : Word) : (s.setR v).srcFail = s.srcFail := rfl
@[simp] theorem State.setR_ae (v : Word) : (s.setR v).ae = s.ae := rfl
@[simp] theorem State.setR_ad (v : Word) : (s.setR v).ad = s.ad := rfl
@[simp] theorem State.setR_ce (v : Word) : (s.setR v).ce = s.ce := rfl
@[simp] theorem State.setR_cd (v : Word) : (s.setR v).cd = s.cd := rfl
@[simp] theorem State.setR_he (v : Word) : (s.setR v).he = s.he := rfl
@[simp] theorem State.setR_hd (v : Word) : (s.setR v).hd = s.hd := rfl
@[simp] theorem State.setR_arr (v : Word) : (s.setR v).arr = s.arr := rfl
@[simp] theorem State.setR_moves (v : Word) : (s.setR v).moves = s.moves := rfl
@[simp] theorem State.setR_readData (v : Word) : (s.setR v).readData = s.readData := rfl
@[simp] theorem State.setR_draws (v : Word) : (s.setR v).draws = s.draws := rfl

/-! ### setRpos -/

@[simp] theorem State.setRpos_params (p : Nat) : (s.setRpos p).params = s.params := rfl
@[simp] theorem State.setRpos_a (p : Nat) : (s.setRpos p).a = s.a := rfl
@[simp] theorem State.setRpos_b (p : Nat) : (s.setRpos p).b = s.b := rfl
@[simp] theorem State.setRpos_c (p : Nat) : (s.setRpos p).c = s.c := rfl
@[simp] theorem State.setRpos_r (p : Nat) : (s.setRpos p).r = s.r := rfl
@[simp] theorem State.setRpos_status (p : Nat) : (s.setRpos p).status = s.status := rfl
@[simp] theorem State.setRpos_errInfo (p : Nat) : (s.setRpos p).errInfo = s.errInfo := rfl
@[simp] theorem State.setRpos_cmd (p : Nat) : (s.setRpos p).cmd = s.cmd := rfl
@[simp] theorem State.setRpos_wbits (p : Nat) : (s.setRpos p).wbits = s.wbits := rfl
@[simp] theorem State.setRpos_wclosed (p : Nat) : (s.setRpos p).wclosed = s.wclosed := rfl
@[simp] theorem State.setRpos_sink (p : Nat) : (s.setRpos p).sink = s.sink := rfl
@[simp] theorem State.setRpos_committed (p : Nat) : (s.setRpos p).committed = s.committed := rfl
@[simp] theorem State.setRpos_sinkFail (p : Nat) : (s.setRpos p).sinkFail = s.sinkFail := rfl
@[simp] theorem State.setRpos_src (p : Nat) : (s.setRpos p).src = s.src := rfl
@[simp] theorem State.setRpos_rpos (p : Nat) : (s.setRpos p).rpos = p := rfl
@[simp] theorem State.setRpos_pulled (p : Nat) : (s.setRpos p).pulled = s.pulled := rfl
@[simp] theorem State.setRpos_srcFail (p : Nat) : (s.setRpos p).srcFail = s.srcFail := rfl
@[simp] theorem State.setRpos_ae (p : Nat) : (s.setRpos p).ae = s.ae := rfl
@[simp] theorem State.setRpos_ad (p : Nat) : (s.setRpos p).ad = s.ad := rfl
@[simp] theorem State.setRpos_ce (p : Nat) : (s.setRpos p).ce = s.ce := rfl
@[simp] theorem State.setRpos_cd (p : Nat) : (s.setRpos p).cd = s.cd := rfl
@[simp] theorem State.setRpos_he (p : Nat) : (s.setRpos p).he = s.he := rfl
@[simp] theorem State.setRpos_hd (p : Nat) : (s.setRpos p).hd = s.hd := rfl
@[simp] theorem State.setRpos_arr (p : Nat) : (s.setRpos p).arr = s.arr := rfl
@[simp] theorem State.setRpos_moves (p : Nat) : (s.setRpos p).moves = s.moves := rfl
@[simp] theorem State.setRpos_readData (p : Nat) : (s.setRpos p).readData = s.readData := rfl
@[simp] theorem State.setRpos_draws (p : Nat) : (s.setRpos p).draws = s.draws := rfl

/-! ### setClosed -/

@[simp] theorem State.setClosed_params (v : Bool) : (s.setClosed v).params = s.params := rfl
@[simp] theorem State.setClosed_a (v : Bool) : (s.setClosed v).a = s.a := rfl
@[simp] theorem State.setClosed_b (v : Bool) : (s.setClosed v).b = s.b := rfl
@[simp] theorem State.setClosed_c (v : Bool) : (s.setClosed v).c = s.c := rfl
@[simp] theorem State.setClosed_r (v : Bool) : (s.setClosed v).r = s.r := rfl
@[simp] theorem State.setClosed_status (v : Bool) : (s.setClosed v).status = s.status := rfl
@[simp] theorem State.setClosed_errInfo (v : Bool) : (s.setClosed v).errInfo = s.errInfo := rfl
@[simp] theorem State.setClosed_cmd (v : Bool) : (s.setClosed v).cmd = s.cmd := rfl
@[simp] theorem State.setClosed_wbits (v : Bool) : (s.setClosed v).wbits = s.wbits := rfl
@[simp] theorem State.setClosed_wclosed (v : Bool) : (s.setClosed v).wclosed = v := rfl
@[simp] theorem State.setClosed_sink (v : Bool) : (s.setClosed v).sink = s.sink := rfl
@[simp] theorem State.setClosed_committed (v : Bool) : (s.setClosed v).committed = s.committed := rfl
@[simp] theorem State.setClosed_sinkFail (v : Bool) : (s.setClosed v).sinkFail = s.sinkFail := rfl
@[simp] theorem State.setClosed_src (v : Bool) : (s.setClosed v).src = s.src := rfl
@[simp] theorem State.setClosed_rpos (v : Bool) : (s.setClosed v).rpos = s.rpos := rfl
@[simp] theorem State.setClosed_pulled (v : Bool) : (s.setClosed v).pulled = s.pulled := rfl
@[simp] theorem State.setClosed_srcFail (v : Bool) : (s.setClosed v).srcFail = s.srcFail := rfl
@[simp] theorem State.setClosed_ae (v : Bool) : (s.setClosed v).ae = s.ae := rfl
@[simp] theorem State.setClosed_ad (v : Bool) : (s.setClosed v).ad = s.ad := rfl
@[simp] theorem State.setClosed_ce (v : Bool) : (s.setClosed v).ce = s.ce := rfl
@[simp] theorem State.setClosed_cd (v : Bool) : (s.setClosed v).cd = s.cd := rfl
@[simp] theorem State.setClosed_he (v : Bool) : (s.setClosed v).he = s.he := rfl
@[simp] theorem State.setClosed_hd (v : Bool) : (s.setClosed v).hd = s.hd := rfl
@[simp] theorem State.setClosed_arr (v : Bool) : (s.setClosed v).arr = s.arr := rfl
@[simp] theorem State.setClosed_moves (v : Bool) : (s.setClosed v).moves = s.moves := rfl
@[simp] theorem State.setClosed_readData (v : Bool) : (s.setClosed v).readData = s.readData := rfl
@[simp] theorem State.setClosed_draws (v : Bool) : (s.setClosed v).draws = s.draws := rfl

/-! ### setAe -/

@[simp] theorem State.setAe_params (v : ArithEnc) : (s.setAe v).params = s.params := rfl
@[simp] theorem State.setAe_a (v : ArithEnc) : (s.setAe v).a = s.a := rfl
@[simp] theorem State.setAe_b (v : ArithEnc) : (s.setAe v).b = s.b := rfl
@[simp] theorem State.setAe_c (v : ArithEnc) : (s.setAe v).c = s.c := rfl
@[simp] theorem State.setAe_r (v : ArithEnc) : (s.setAe v).r = s.r := rfl
@[simp] theorem State.setAe_status (v : ArithEnc) : (s.setAe v).status = s.status := rfl
@[simp] theorem State.setAe_errInfo (v : ArithEnc) : (s.setAe v).errInfo = s.errInfo := rfl
@[simp] theorem State.setAe_cmd (v : ArithEnc) : (s.setAe v).cmd = s.cmd := rfl
@[simp] theorem State.setAe_wbits (v : ArithEnc) : (s.setAe v).wbits = s.wbits := rfl
@[simp] theorem State.setAe_wclosed (v : ArithEnc) : (s.setAe v).wclosed = s.wclosed := rfl
@[simp] theorem State.setAe_sink (v : ArithEnc) : (s.setAe v).sink = s.sink := rfl
@[simp] theorem State.setAe_committed (v : ArithEnc) : (s.setAe v).committed = s.committed := rfl
@[simp] theorem State.setAe_sinkFail (v : ArithEnc) : (s.setAe v).sinkFail = s.sinkFail := rfl
@[simp] theorem State.setAe_src (v : ArithEnc) : (s.setAe v).src = s.src := rfl
@[simp] theorem State.setAe_rpos (v : ArithEnc) : (s.setAe v).rpos = s.rpos := rfl
@[simp] theorem State.setAe_pulled (v : ArithEnc) : (s.setAe v).pulled = s.pulled := rfl
@[simp] theorem State.setAe_srcFail (v : ArithEnc) : (s.setAe v).srcFail = s.srcFail := rfl
@[simp] theorem State.setAe_ae (v : ArithEnc) : (s.setAe v).ae = v := rfl
@[simp] theorem State.setAe_ad (v : ArithEnc) : (s.setAe v).ad = s.ad := rfl
@[simp] theorem State.setAe_ce (v : ArithEnc) : (s.setAe v).ce = s.ce := rfl
@[simp] theorem State.setAe_cd (v : ArithEnc) : (s.setAe v).cd = s.cd := rfl
@[simp] theorem State.setAe_he (v : ArithEnc) : (s.setAe v).he = s.he := rfl
@[simp] theorem State.setAe_hd (v : ArithEnc) : (s.setAe v).hd = s.hd := rfl
@[simp] theorem State.setAe_arr (v : ArithEnc) : (s.setAe v).arr = s.arr := rfl
@[simp] theorem State.setAe_moves (v : ArithEnc) : (s.setAe v).moves = s.moves := rfl
@[simp] theorem State.setAe_readData (v : ArithEnc) : (s.setAe v).readData = s.readData := rfl
@[simp] theorem State.setAe_draws (v : ArithEnc) : (s.setAe v).draws = s.draws := rfl

/-! ### setAd -/

@[simp] theorem State.setAd_params (v : ArithDec) : (s.setAd v).params = s.params := rfl
@[simp] theorem State.setAd_a (v : ArithDec) : (s.setAd v).a = s.a := rfl
@[simp] theorem State.setAd_b (v : ArithDec) : (s.setAd v).b = s.b := rfl
@[simp] theorem State.setAd_c (v : ArithDec) : (s.setAd v).c = s.c := rfl
@[simp] theorem State.setAd_r (v : ArithDec) : (s.setAd v).r = s.r := rfl
@[simp] theorem State.setAd_status (v : ArithDec) : (s.setAd v).status = s.status := rfl
@[simp] theorem State.setAd_errInfo (v : ArithDec) : (s.setAd v).errInfo = s.errInfo := rfl
@[simp] theorem State.setAd_cmd (v : ArithDec) : (s.setAd v).cmd = s.cmd := rfl
@[simp] theorem State.setAd_wbits (v : ArithDec) : (s.setAd v).wbits = s.wbits := rfl
@[simp] theorem State.setAd_wclosed (v : ArithDec) : (s.setAd v).wclosed = s.wclosed := rfl
@[simp] theorem State.setAd_sink (v : ArithDec) : (s.setAd v).sink = s.sink := rfl
@[simp] theorem State.setAd_committed (v : ArithDec) : (s.setAd v).committed = s.committed := rfl
@[simp] theorem State.setAd_sinkFail (v : ArithDec) : (s.setAd v).sinkFail = s.sinkFail := rfl
@[simp] theorem State.setAd_src (v : ArithDec) : (s.setAd v).src = s.src := rfl
@[simp] theorem State.setAd_rpos (v : ArithDec) : (s.setAd v).rpos = s.rpos := rfl
@[simp] theorem State.setAd_pulled (v : ArithDec) : (s.setAd v).pulled = s.pulled := rfl
@[simp] theorem State.setAd_srcFail (v : ArithDec) : (s.setAd v).srcFail = s.srcFail := rfl
@[simp] theorem State.setAd_ae (v : ArithDec) : (s.setAd v).ae = s.ae := rfl
@[simp] theorem State.setAd_ad (v : ArithDec) : (s.setAd v).ad = v := rfl
@[simp] theorem State.setAd_ce (v : ArithDec) : (s.setAd v).ce = s.ce := rfl
@[simp] theorem State.setAd_cd (v : ArithDec) : (s.setAd v).cd = s.cd := rfl
@[simp] theorem State.setAd_he (v : ArithDec) : (s.setAd v).he = s.he := rfl
@[simp] theorem State.setAd_hd (v : ArithDec) : (s.setAd v).hd = s.hd := rfl
@[simp] theorem State.setAd_arr (v : ArithDec) : (s.setAd v).arr = s.arr := rfl
@[simp] theorem State.setAd_moves (v : ArithDec) : (s.setAd v).moves = s.moves := rfl
@[simp] theorem State.setAd_readData (v : ArithDec) : (s.setAd v).readData = s.readData := rfl
@[simp] theorem State.setAd_draws (v : ArithDec) : (s.setAd v).draws = s.draws := rfl

/-! ### setCe -/

@[simp] theorem State.setCe_params (k : Nat) (v : CeSlot) : (s.setCe k v).params = s.params := rfl
@[simp] theorem State.setCe_a (k : Nat) (v : CeSlot) : (s.setCe k v).a = s.a := rfl
@[simp] theorem State.setCe_b (k : Nat) (v : CeSlot) : (s.setCe k v).b = s.b := rfl
@[simp] theorem State.setCe_c (k : Nat) (v : CeSlot) : (s.setCe k v).c = s.c := rfl
@[simp] theorem State.setCe_r (k : Nat) (v : CeSlot) : (s.setCe k v).r = s.r := rfl
@[simp] theorem State.setCe_status (k : Nat) (v : CeSlot) : (s.setCe k v).status = s.status := rfl
@[simp] theorem State.setCe_errInfo (k : Nat) (v : CeSlot) : (s.setCe k v).errInfo = s.errInfo := rfl
@[simp] theorem State.setCe_cmd (k : Nat) (v : CeSlot) : (s.setCe k v).cmd = s.cmd := rfl
@[simp] theorem State.setCe_wbits (k : Nat) (v : CeSlot) : (s.setCe k v).wbits = s.wbits := rfl
@[simp] theorem State.setCe_wclosed (k : Nat) (v : CeSlot) : (s.setCe k v).wclosed = s.wclosed := rfl
@[simp] theorem State.setCe_sink (k : Nat) (v : CeSlot) : (s.setCe k v).sink = s.sink := rfl
@[simp] theorem State.setCe_committed (k : Nat) (v : CeSlot) : (s.setCe k v).committed = s.committed := rfl
@[simp] theorem State.setCe_sinkFail (k : Nat) (v : CeSlot) : (s.setCe k v).sinkFail = s.sinkFail := rfl
@[simp] theorem State.setCe_src (k : Nat) (v : CeSlot) : (s.setCe k v).src = s.src := rfl
@[simp] theorem State.setCe_rpos (k : Nat) (v : CeSlot) : (s.setCe k v).rpos = s.rpos := rfl
@[simp] theorem State.setCe_pulled (k : Nat) (v : CeSlot) : (s.setCe k v).pulled = s.pulled := rfl
@[simp] theorem State.setCe_srcFail (k : Nat) (v : CeSlot) : (s.setCe k v).srcFail = s.srcFail := rfl
@[simp] theorem State.setCe_ae (k : Nat) (v : CeSlot) : (s.setCe k v).ae = s.ae := rfl
@[simp] theorem State.setCe_ad (k : Nat) (v : CeSlot) : (s.setCe k v).ad = s.ad := rfl
@[simp] theorem State.setCe_ce (k : Nat) (v : CeSlot) : (s.setCe k v).ce = s.ce.set k v := rfl
@[simp] theorem State.setCe_cd (k : Nat) (v : CeSlot) : (s.setCe k v).cd = s.cd := rfl
@[simp] theorem State.setCe_he (k : Nat) (v : CeSlot) : (s.setCe k v).he = s.he := rfl
@[simp] theorem State.setCe_hd (k : Nat) (v : CeSlot) : (s.setCe k v).hd = s.hd := rfl
@[simp] theorem State.setCe_arr (k : Nat) (v : CeSlot) : (s.setCe k v).arr = s.arr := rfl
@[simp] theorem State.setCe_moves (k : Nat) (v : CeSlot) : (s.setCe k v).moves = s.moves := rfl
@[simp] theorem State.setCe_readData (k : Nat) (v : CeSlot) : (s.setCe k v).readData = s.readData := rfl
@[simp] theorem State.setCe_draws (k : Nat) (v : CeSlot) : (s.setCe k v).draws = s.draws := rfl

/-! ### setCd -/

@[simp] theorem State.setCd_params (k : Nat) (v : CdSlot) : (s.setCd k v).params = s.params := rfl
@[simp] theorem State.setCd_a (k : Nat) (v : CdSlot) : (s.setCd k v).a = s.a := rfl
@[simp] theorem State.setCd_b (k : Nat) (v : CdSlot) : (s.setCd k v).b = s.b := rfl
@[simp] theorem State.setCd_c (k : Nat) (v : CdSlot) : (s.setCd k v).c = s.c := rfl
@[simp] theorem State.setCd_r (k : Nat) (v : CdSlot) : (s.setCd k v).r = s.r := rfl
@[simp] theorem State.setCd_status (k : Nat) (v : CdSlot) : (s.setCd k v).status = s.status := rfl
@[simp] theorem State.setCd_errInfo (k : Nat) (v : CdSlot) : (s.setCd k v).errInfo = s.errInfo := rfl
@[simp] theorem State.setCd_cmd (k : Nat) (v : CdSlot) : (s.setCd k v).cmd = s.cmd := rfl
@[simp] theorem State.setCd_wbits (k : Nat) (v : CdSlot) : (s.setCd k v).wbits = s.wbits := rfl
@[simp] theorem State.setCd_wclosed (k : Nat) (v : CdSlot) : (s.setCd k v).wclosed = s.wclosed := rfl
@[simp] theorem State.setCd_sink (k : Nat) (v : CdSlot) : (s.setCd k v).sink = s.sink := rfl
@[simp] theorem State.setCd_committed (k : Nat) (v : CdSlot) : (s.setCd k v).committed = s.committed := rfl
@[simp] theorem State.setCd_sinkFail (k : Nat) (v : CdSlot) : (s.setCd k v).sinkFail = s.sinkFail := rfl
@[simp] theorem State.setCd_src (k : Nat) (v : CdSlot) : (s.setCd k v).src = s.src := rfl
@[simp] theorem State.setCd_rpos (k : Nat) (v : CdSlot) : (s.setCd k v).rpos = s.rpos := rfl
@[simp] theorem State.setCd_pulled (k : Nat) (v : CdSlot) : (s.setCd k v).pulled = s.pulled := rfl
@[simp] theorem State.setCd_srcFail (k : Nat) (v : CdSlot) : (s.setCd k v).srcFail = s.srcFail := rfl
@[simp] theorem State.setCd_ae (k : Nat) (v : CdSlot) : (s.setCd k v).ae = s.ae := rfl
@[simp] theorem State.setCd_ad (k : Nat) (v : CdSlot) : (s.setCd k v).ad = s.ad := rfl
@[simp] theorem State.setCd_ce (k : Nat) (v : CdSlot) : (s.setCd k v).ce = s.ce := rfl
@[simp] theorem State.setCd_cd (k : Nat) (v : CdSlot) : (s.setCd k v).cd = s.cd.set k v := rfl
@[simp] theorem State.setCd_he (k : Nat) (v : CdSlot) : (s.setCd k v).he = s.he := rfl
@[simp] theorem State.setCd_hd (k : Nat) (v : CdSlot) : (s.setCd k v).hd = s.hd := rfl
@[simp] theorem State.setCd_arr (k : Nat) (v : CdSlot) : (s.setCd k v).arr = s.arr := rfl
@[simp] theorem State.setCd_moves (k : Nat) (v : CdSlot) : (s.setCd k v).moves = s.moves := rfl
@[simp] theorem State.setCd_readData (k : Nat) (v : CdSlot) : (s.setCd k v).readData = s.readData := rfl
@[simp] theorem State.setCd_draws (k : Nat) (v : CdSlot) : (s.setCd k v).draws = s.draws := rfl

/-! ### setHe -/

@[simp] theorem State.setHe_params (k : Nat) (v : HeSlot) : (s.setHe k v).params = s.params := rfl
@[simp] theorem State.setHe_a (k : Nat) (v : HeSlot) : (s.setHe k v).a = s.a := rfl
@[simp] theorem State.setHe_b (k : Nat) (v : HeSlot) : (s.setHe k v).b = s.b := rfl
@[simp] theorem State.setHe_c (k : Nat) (v : HeSlot) : (s.setHe k v).c = s.c := rfl
@[simp] theorem State.setHe_r (k : Nat) (v : HeSlot) : (s.setHe k v).r = s.r := rfl
@[simp] theorem State.setHe_status (k : Nat) (v : HeSlot) : (s.setHe k v).status = s.status := rfl
@[simp] theorem State.setHe_errInfo (k : Nat) (v : HeSlot) : (s.setHe k v).errInfo = s.errInfo := rfl
@[simp] theorem State.setHe_cmd (k : Nat) (v : HeSlot) : (s.setHe k v).cmd = s.cmd := rfl
@[simp] theorem State.setHe_wbits (k : Nat) (v : HeSlot) : (s.setHe k v).wbits = s.wbits := rfl
@[simp] theorem State.setHe_wclosed (k : Nat) (v : HeSlot) : (s.setHe k v).wclosed = s.wclosed := rfl
@[simp] theorem State.setHe_sink (k : Nat) (v : HeSlot) : (s.setHe k v).sink = s.sink := rfl
@[simp] theorem State.setHe_committed (k : Nat) (v : HeSlot) : (s.setHe k v).committed = s.committed := rfl
@[simp] theorem State.setHe_sinkFail (k : Nat) (v : HeSlot) : (s.setHe k v).sinkFail = s.sinkFail := rfl
@[simp] theorem State.setHe_src (k : Nat) (v : HeSlot) : (s.setHe k v).src = s.src := rfl
@[simp] theorem State.setHe_rpos (k : Nat) (v : HeSlot) : (s.setHe k v).rpos = s.rpos := rfl
@[simp] theorem State.setHe_pulled (k : Nat) (v : HeSlot) : (s.setHe k v).pulled = s.pulled := rfl
@[simp] theorem State.setHe_srcFail (k : Nat) (v : HeSlot) : (s.setHe k v).srcFail = s.srcFail := rfl
@[simp] theorem State.setHe_ae (k : Nat) (v : HeSlot) : (s.setHe k v).ae = s.ae := rfl
@[simp] theorem State.setHe_ad (k : Nat) (v : HeSlot) : (s.setHe k v).ad = s.ad := rfl
@[simp] theorem State.setHe_ce (k : Nat) (v : HeSlot) : (s.setHe k v).ce = s.ce := rfl
@[simp] theorem State.setHe_cd (k : Nat) (v : HeSlot) : (s.setHe k v).cd = s.cd := rfl
@[simp] theorem State.setHe_he (k : Nat) (v : HeSlot) : (s.setHe k v).he = s.he.set k v := rfl
@[simp] theorem State.setHe_hd (k : Nat) (v : HeSlot) : (s.setHe k v).hd = s.hd := rfl
@[simp] theorem State.setHe_arr (k : Nat) (v : HeSlot) : (s.setHe k v).arr = s.arr := rfl
@[simp] theorem State.setHe_moves (k : Nat) (v : HeSlot) : (s.setHe k v).moves = s.moves := rfl
@[simp] theorem State.setHe_readData (k : Nat) (v : HeSlot) : (s.setHe k v).readData = s.readData := rfl
@[simp] theorem State.setHe_draws (k : Nat) (v : HeSlot) : (s.setHe k v).draws = s.draws := rfl

/-! ### setHd -/

@[simp] theorem State.setHd_params (k : Nat) (v : HdSlot) : (s.setHd k v).params = s.params := rfl
@[simp] theorem State.setHd_a (k : Nat) (v : HdSlot) : (s.setHd k v).a = s.a := rfl
@[simp] theorem State.setHd_b (k : Nat) (v : HdSlot) : (s.setHd k v).b = s.b := rfl
@[simp] theorem State.setHd_c (k : Nat) (v : HdSlot) : (s.setHd k v).c = s.c := rfl
@[simp] theorem State.setHd_r (k : Nat) (v : HdSlot) : (s.setHd k v).r = s.r := rfl
@[simp] theorem State.setHd_status (k : Nat) (v : HdSlot) : (s.setHd k v).status = s.status := rfl
@[simp] theorem State.setHd_errInfo (k : Nat) (v : HdSlot) : (s.setHd k v).errInfo = s.errInfo := rfl
@[simp] theorem State.setHd_cmd (k : Nat) (v : HdSlot) : (s.setHd k v).cmd = s.cmd := rfl
@[simp] theorem State.setHd_wbits (k : Nat) (v : HdSlot) : (s.setHd k v).wbits = s.wbits := rfl
@[simp] theorem State.setHd_wclosed (k : Nat) (v : HdSlot) : (s.setHd k v).wclosed = s.wclosed := rfl
@[simp] theorem State.setHd_sink (k : Nat) (v : HdSlot) : (s.setHd k v).sink = s.sink := rfl
@[simp] theorem State.setHd_committed (k : Nat) (v : HdSlot) : (s.setHd k v).committed = s.committed := rfl
@[simp] theorem State.setHd_sinkFail (k : Nat) (v : HdSlot) : (s.setHd k v).sinkFail = s.sinkFail := rfl
@[simp] theorem State.setHd_src (k : Nat) (v : HdSlot) : (s.setHd k v).src = s.src := rfl
@[simp] theorem State.setHd_rpos (k : Nat) (v : HdSlot) : (s.setHd k v).rpos = s.rpos := rfl
@[simp] theorem State.setHd_pulled (k : Nat) (v : HdSlot) : (s.setHd k v).pulled = s.pulled := rfl
@[simp] theorem State.setHd_srcFail (k : Nat) (v : HdSlot) : (s.setHd k v).srcFail = s.srcFail := rfl
@[simp] theorem State.setHd_ae (k : Nat) (v : HdSlot) : (s.setHd k v).ae = s.ae := rfl
@[simp] theorem State.setHd_ad (k : Nat) (v : HdSlot) : (s.setHd k v).ad = s.ad := rfl
@[simp] theorem State.setHd_ce (k : Nat) (v : HdSlot) : (s.setHd k v).ce = s.ce := rfl
@[simp] theorem State.setHd_cd (k : Nat) (v : HdSlot) : (s.setHd k v).cd = s.cd := rfl
@[simp] theorem State.setHd_he (k : Nat) (v : HdSlot) : (s.setHd k v).he = s.he := rfl
@[simp] theorem State.setHd_hd (k : Nat) (v : HdSlot) : (s.setHd k v).hd = s.hd.set k v := rfl
@[simp] theorem State.setHd_arr (k : Nat) (v : HdSlot) : (s.setHd k v).arr = s.arr := rfl
@[simp] theorem State.setHd_moves (k : Nat) (v : HdSlot) : (s.setHd k v).moves = s.moves := rfl
@[simp] theorem State.setHd_readData (k : Nat) (v : HdSlot) : (s.setHd k v).readData = s.readData := rfl
@[simp] theorem State.setHd_draws (k : Nat) (v : HdSlot) : (s.setHd k v).draws = s.draws := rfl

/-! ### setArr -/

@[simp] theorem State.setArr_params (cells : List ArrCell) : (s.setArr cells).params = s.params := rfl
@[simp] theorem State.setArr_a (cells : List ArrCell) : (s.setArr cells).a = s.a := rfl
@[simp] theorem State.setArr_b (cells : List ArrCell) : (s.setArr cells).b = s.b := rfl
@[simp] theorem State.setArr_c (cells : List ArrCell) : (s.setArr cells).c = s.c := rfl
@[simp] theorem State.setArr_r (cells : List ArrCell) : (s.setArr cells).r = s.r := rfl
@[simp] theorem State.setArr_status (cells : List ArrCell) : (s.setArr cells).status = s.status := rfl
@[simp] theorem State.setArr_errInfo (cells : List ArrCell) : (s.setArr cells).errInfo = s.errInfo := rfl
@[simp] theorem State.setArr_cmd (cells : List ArrCell) : (s.setArr cells).cmd = s.cmd := rfl
@[simp] theorem State.setArr_wbits (cells : List ArrCell) : (s.setArr cells).wbits = s.wbits := rfl
@[simp] theorem State.setArr_wclosed (cells : List ArrCell) : (s.setArr cells).wclosed = s.wclosed := rfl
@[simp] theorem State.setArr_sink (cells : List ArrCell) : (s.setArr cells).sink = s.sink := rfl
@[simp] theorem State.setArr_committed (cells : List ArrCell) : (s.setArr cells).committed = s.committed := rfl
@[simp] theorem State.setArr_sinkFail (cells : List ArrCell) : (s.setArr cells).sinkFail = s.sinkFail := rfl
@[simp] theorem State.setArr_src (cells : List ArrCell) : (s.setArr cells).src = s.src := rfl
@[simp] theorem State.setArr_rpos (cells : List ArrCell) : (s.setArr cells).rpos = s.rpos := rfl
@[simp] theorem State.setArr_pulled (cells : List ArrCell) : (s.setArr cells).pulled = s.pulled := rfl
@[simp] theorem State.setArr_srcFail (cells : List ArrCell) : (s.setArr cells).srcFail = s.srcFail := rfl
@[simp] theorem State.setArr_ae (cells : List ArrCell) : (s.setArr cells).ae = s.ae := rfl
@[simp] theorem State.setArr_ad (cells : List ArrCell) : (s.setArr cells).ad = s.ad := rfl
@[simp] theorem State.setArr_ce (cells : List ArrCell) : (s.setArr cells).ce = s.ce := rfl
@[simp] theorem State.setArr_cd (cells : List ArrCell) : (s.setArr cells).cd = s.cd := rfl
@[simp] theorem State.setArr_he (cells : List ArrCell) : (s.setArr cells).he = s.he := rfl
@[simp] theorem State.setArr_hd (cells : List ArrCell) : (s.setArr cells).hd = s.hd := rfl
@[simp] theorem State.setArr_arr (cells : List ArrCell) : (s.setArr cells).arr = cells := rfl
@[simp] theorem State.setArr_moves (cells : List ArrCell) : (s.setArr cells).moves = s.moves := rfl
@[simp] theorem State.setArr_readData (cells : List ArrCell) : (s.setArr cells).readData = s.readData := rfl
@[simp] theorem State.setArr_draws (cells : List ArrCell) : (s.setArr cells).draws = s.draws := rfl

/-! ### memWrite -/

@[simp] theorem State.memWrite_params (i : Nat) (v : Word) : (s.memWrite i v).params = s.params := rfl
@[simp] theorem State.memWrite_a (i : Nat) (v : Word) : (s.memWrite i v).a = s.a := rfl
@[simp] theorem State.memWrite_b (i : Nat) (v : Word) : (s.memWrite i v).b = s.b := rfl
@[simp] theorem State.memWrite_c (i : Nat) (v : Word) : (s.memWrite i v).c = s.c := rfl
@[simp] theorem State.memWrite_r (i : Nat) (v : Word) : (s.memWrite i v).r = s.r := rfl
@[simp] theorem State.memWrite_status (i : Nat) (v : Word) : (s.memWrite i v).status = s.status := rfl
@[simp] theorem State.memWrite_errInfo (i : Nat) (v : Word) : (s.memWrite i v).errInfo = s.errInfo := rfl
@[simp] theorem State.memWrite_cmd (i : Nat) (v : Word) : (s.memWrite i v).cmd = s.cmd := rfl
@[simp] theorem State.memWrite_wbits (i : Nat) (v : Word) : (s.memWrite i v).wbits = s.wbits := rfl
@[simp] theorem State.memWrite_wclosed (i : Nat) (v : Word) : (s.memWrite i v).wclosed = s.wclosed := rfl
@[simp] theorem State.memWrite_sink (i : Nat) (v : Word) : (s.memWrite i v).sink = s.sink := rfl
@[simp] theorem State.memWrite_committed (i : Nat) (v : Word) : (s.memWrite i v).committed = s.committed := rfl
@[simp] theorem State.memWrite_sinkFail (i : Nat) (v : Word) : (s.memWrite i v).sinkFail = s.sinkFail := rfl
@[simp] theorem State.memWrite_src (i : Nat) (v : Word) : (s.memWrite i v).src = s.src := rfl
@[simp] theorem State.memWrite_rpos (i : Nat) (v : Word) : (s.memWrite i v).rpos = s.rpos := rfl
@[simp] theorem State.memWrite_pulled (i : Nat) (v : Word) : (s.memWrite i v).pulled = s.pulled := rfl
@[simp] theorem State.memWrite_srcFail (i : Nat) (v : Word) : (s.memWrite i v).srcFail = s.srcFail := rfl
@[simp] theorem State.memWrite_ae (i : Nat) (v : Word) : (s.memWrite i v).ae = s.ae := rfl
@[simp] theorem State.memWrite_ad (i : Nat) (v : Word) : (s.memWrite i v).ad = s.ad := rfl
@[simp] theorem State.memWrite_ce (i : Nat) (v : Word) : (s.memWrite i v).ce = s.ce := rfl
@[simp] theorem State.memWrite_cd (i : Nat) (v : Word) : (s.memWrite i v).cd = s.cd := rfl
@[simp] theorem State.memWrite_he (i : Nat) (v : Word) : (s.memWrite i v).he = s.he := rfl
@[simp] theorem State.memWrite_hd (i : Nat) (v : Word) : (s.memWrite i v).hd = s.hd := rfl
@[simp] theorem State.memWrite_arr (i : Nat) (v : Word) : (s.memWrite i v).arr = arrInsert i v s.arr := rfl
@[simp] theorem State.memWrite_moves (i : Nat) (v : Word) : (s.memWrite i v).moves = s.moves := rfl
@[simp] theorem State.memWrite_readData (i : Nat) (v : Word) : (s.memWrite i v).readData = s.readData := rfl
@[simp] theorem State.memWrite_draws (i : Nat) (v : Word) : (s.memWrite i v).draws = s.draws := rfl

/-! ### drawn -/

@[simp] theorem State.drawn_params : s.drawn.params = s.params := rfl
@[simp] theorem State.drawn_a : s.drawn.a = s.a := rfl
@[simp] theorem State.drawn_b : s.drawn.b = s.b := rfl
@[simp] theorem State.drawn_c : s.drawn.c = s.c := rfl
@[simp] theorem State.drawn_r : s.drawn.r = s.r := rfl
@[simp] theorem State.drawn_status : s.drawn.status = s.status := rfl
@[simp] theorem State.drawn_errInfo : s.drawn.errInfo = s.errInfo := rfl
@[simp] theorem State.drawn_cmd : s.drawn.cmd = s.cmd := rfl
@[simp] theorem State.drawn_wbits : s.drawn.wbits = s.wbits := rfl
@[simp] theorem State.drawn_wclosed : s.drawn.wclosed = s.wclosed := rfl
@[simp] theorem State.drawn_sink : s.drawn.sink = s.sink := rfl
@[simp] theorem State.drawn_committed : s.drawn.committed = s.committed := rfl
@[simp] theorem State.drawn_sinkFail : s.drawn.sinkFail = s.sinkFail := rfl
@[simp] theorem State.drawn_src : s.drawn.src = s.src := rfl
@[simp] theorem State.drawn_rpos : s.drawn.rpos = s.rpos := rfl
@[simp] theorem State.drawn_pulled : s.drawn.pulled = s.pulled := rfl
@[simp] theorem State.drawn_srcFail : s.drawn.srcFail = s.srcFail := rfl
@[simp] theorem State.drawn_ae : s.drawn.ae = s.ae := rfl
@[simp] theorem State.drawn_ad : s.drawn.ad = s.ad := rfl
@[simp] theorem State.drawn_ce : s.drawn.ce = s.ce := rfl
@[simp] theorem State.drawn_cd : s.drawn.cd = s.cd := rfl
@[simp] theorem State.drawn_he : s.drawn.he = s.he := rfl
@[simp] theorem State.drawn_hd : s.drawn.hd = s.hd := rfl
@[simp] theorem State.drawn_arr : s.drawn.arr = s.arr := rfl
@[simp] theorem State.drawn_moves : s.drawn.moves = s.moves := rfl
@[simp] theorem State.drawn_readData : s.drawn.readData = s.readData := rfl
@[simp] theorem State.drawn_draws : s.drawn.draws = s.draws + 1 := rfl

/-! ### settle -/

@[simp] theorem State.settle_params (k q : Nat) : (s.settle k q).params = s.params := rfl
@[simp] theorem State.settle_a (k q : Nat) : (s.settle k q).a = s.a := rfl
@[simp] theorem State.settle_b (k q : Nat) : (s.settle k q).b = s.b := rfl
@[simp] theorem State.settle_c (k q : Nat) : (s.settle k q).c = s.c := rfl
@[simp] theorem State.settle_r (k q : Nat) : (s.settle k q).r = s.r := rfl
@[simp] theorem State.settle_status (k q : Nat) : (s.settle k q).status = s.status := rfl
@[simp] theorem State.settle_errInfo (k q : Nat) : (s.settle k q).errInfo = s.errInfo := rfl
@[simp] theorem State.settle_cmd (k q : Nat) : (s.settle k q).cmd = s.cmd := rfl
@[simp] theorem State.settle_wbits (k q : Nat) : (s.settle k q).wbits = s.wbits := rfl
@[simp] theorem State.settle_wclosed (k q : Nat) : (s.settle k q).wclosed = s.wclosed := rfl
@[simp] theorem State.settle_sink (k q : Nat) : (s.settle k q).sink = s.sink ++ outBytes s.wbits s.committed k := rfl
@[simp] theorem State.settle_committed (k q : Nat) : (s.settle k q).committed = k := rfl
@[simp] theorem State.settle_sinkFail (k q : Nat) : (s.settle k q).sinkFail = s.sinkFail := rfl
@[simp] theorem State.settle_src (k q : Nat) : (s.settle k q).src = s.src := rfl
@[simp] theorem State.settle_rpos (k q : Nat) : (s.settle k q).rpos = s.rpos := rfl
@[simp] theorem State.settle_pulled (k q : Nat) : (s.settle k q).pulled = q := rfl
@[simp] theorem State.settle_srcFail (k q : Nat) : (s.settle k q).srcFail = s.srcFail := rfl
@[simp] theorem State.settle_ae (k q : Nat) : (s.settle k q).ae = s.ae := rfl
@[simp] theorem State.settle_ad (k q : Nat) : (s.settle k q).ad = s.ad := rfl
@[simp] theorem State.settle_ce (k q : Nat) : (s.settle k q).ce = s.ce := rfl
@[simp] theorem State.settle_cd (k q : Nat) : (s.settle k q).cd = s.cd := rfl
@[simp] theorem State.settle_he (k q : Nat) : (s.settle k q).he = s.he := rfl
@[simp] theorem State.settle_hd (k q : Nat) : (s.settle k q).hd = s.hd := rfl
@[simp] theorem State.settle_arr (k q : Nat) : (s.settle k q).arr = s.arr := rfl
@[simp] theorem State.settle_moves (k q : Nat) : (s.settle k q).moves = s.moves := rfl
@[simp] theorem State.settle_readData (k q : Nat) : (s.settle k q).readData = s.readData := rfl
@[simp] theorem State.settle_draws (k q : Nat) : (s.settle k q).draws = s.draws := rfl

/-! ### endBusy -/

@[simp] theorem State.endBusy_params : s.endBusy.params = s.params := rfl
@[simp] theorem State.endBusy_a : s.endBusy.a = s.a := rfl
@[simp] theorem State.endBusy_b : s.endBusy.b = s.b := rfl
@[simp] theorem State.endBusy_c : s.endBusy.c = s.c := rfl
@[simp] theorem State.endBusy_r : s.endBusy.r = s.r := rfl
@[simp] theorem State.endBusy_status : s.endBusy.status = { s.status with busy := false } := rfl
@[simp] theorem State.endBusy_errInfo : s.endBusy.errInfo = s.errInfo := rfl
@[simp] theorem State.endBusy_cmd : s.endBusy.cmd = s.cmd := rfl
@[simp] theorem State.endBusy_wbits : s.endBusy.wbits = s.wbits := rfl
@[simp] theorem State.endBusy_wclosed : s.endBusy.wclosed = s.wclosed := rfl
@[simp] theorem State.endBusy_sink : s.endBusy.sink = s.sink := rfl
@[simp] theorem State.endBusy_committed : s.endBusy.committed = s.committed := rfl
@[simp] theorem State.endBusy_sinkFail : s.endBusy.sinkFail = s.sinkFail := rfl
@[simp] theorem State.endBusy_src : s.endBusy.src = s.src := rfl
@[simp] theorem State.endBusy_rpos : s.endBusy.rpos = s.rpos := rfl
@[simp] theorem State.endBusy_pulled : s.endBusy.pulled = s.pulled := rfl
@[simp] theorem State.endBusy_srcFail : s.endBusy.srcFail = s.srcFail := rfl
@[simp] theorem State.endBusy_ae : s.endBusy.ae = s.ae := rfl
@[simp] theorem State.endBusy_ad : s.endBusy.ad = s.ad := rfl
@[simp] theorem State.endBusy_ce : s.endBusy.ce = s.ce := rfl
@[simp] theorem State.endBusy_cd : s.endBusy.cd = s.cd := rfl
@[simp] theorem State.endBusy_he : s.endBusy.he = s.he := rfl
@[simp] theorem State.endBusy_hd : s.endBusy.hd = s.hd := rfl
@[simp] theorem State.endBusy_arr : s.endBusy.arr = s.arr := rfl
@[simp] theorem State.endBusy_moves : s.endBusy.moves = s.moves := rfl
@[simp] theorem State.endBusy_readData : s.endBusy.readData = s.readData := rfl
@[simp] theorem State.endBusy_draws : s.endBusy.draws = s.draws := rfl

/-! ### takeError -/

@[simp] theorem State.takeError_params (op : Nat) (e : ErrCode) (info : Nat) :
    (s.takeError op e info).params = s.params := rfl
@[simp] theorem State.takeError_a (op : Nat) (e : ErrCode) (info : Nat) : (s.takeError op e info).a = s.a := rfl
@[simp] theorem State.takeError_b (op : Nat) (e : ErrCode) (info : Nat) : (s.takeError op e info).b = s.b := rfl
@[simp] theorem State.takeError_c (op : Nat) (e : ErrCode) (info : Nat) : (s.takeError op e info).c = s.c := rfl
@[simp] theorem State.takeError_r (op : Nat) (e : ErrCode) (info : Nat) : (s.takeError op e info).r = s.r := rfl
@[simp] theorem State.takeError_status (op : Nat) (e : ErrCode) (info : Nat) :
    (s.takeError op e info).status = { busy := false, fault := true, err := e.code, errOp := BitVec.ofNat 8 op } := rfl
@[simp] theorem State.takeError_errInfo (op : Nat) (e : ErrCode) (info : Nat) :
    (s.takeError op e info).errInfo = BitVec.ofNat 64 info := rfl
@[simp] theorem State.takeError_cmd (op : Nat) (e : ErrCode) (info : Nat) : (s.takeError op e info).cmd = s.cmd := rfl
@[simp] theorem State.takeError_wbits (op : Nat) (e : ErrCode) (info : Nat) :
    (s.takeError op e info).wbits = s.wbits := rfl
@[simp] theorem State.takeError_wclosed (op : Nat) (e : ErrCode) (info : Nat) :
    (s.takeError op e info).wclosed = s.wclosed := rfl
@[simp] theorem State.takeError_sink (op : Nat) (e : ErrCode) (info : Nat) :
    (s.takeError op e info).sink = s.sink := rfl
@[simp] theorem State.takeError_committed (op : Nat) (e : ErrCode) (info : Nat) :
    (s.takeError op e info).committed = s.committed := rfl
@[simp] theorem State.takeError_sinkFail (op : Nat) (e : ErrCode) (info : Nat) :
    (s.takeError op e info).sinkFail = s.sinkFail := rfl
@[simp] theorem State.takeError_src (op : Nat) (e : ErrCode) (info : Nat) : (s.takeError op e info).src = s.src := rfl
@[simp] theorem State.takeError_rpos (op : Nat) (e : ErrCode) (info : Nat) :
    (s.takeError op e info).rpos = s.rpos := rfl
@[simp] theorem State.takeError_pulled (op : Nat) (e : ErrCode) (info : Nat) :
    (s.takeError op e info).pulled = s.pulled := rfl
@[simp] theorem State.takeError_srcFail (op : Nat) (e : ErrCode) (info : Nat) :
    (s.takeError op e info).srcFail = s.srcFail := rfl
@[simp] theorem State.takeError_ae (op : Nat) (e : ErrCode) (info : Nat) : (s.takeError op e info).ae = s.ae := rfl
@[simp] theorem State.takeError_ad (op : Nat) (e : ErrCode) (info : Nat) : (s.takeError op e info).ad = s.ad := rfl
@[simp] theorem State.takeError_ce (op : Nat) (e : ErrCode) (info : Nat) : (s.takeError op e info).ce = s.ce := rfl
@[simp] theorem State.takeError_cd (op : Nat) (e : ErrCode) (info : Nat) : (s.takeError op e info).cd = s.cd := rfl
@[simp] theorem State.takeError_he (op : Nat) (e : ErrCode) (info : Nat) : (s.takeError op e info).he = s.he := rfl
@[simp] theorem State.takeError_hd (op : Nat) (e : ErrCode) (info : Nat) : (s.takeError op e info).hd = s.hd := rfl
@[simp] theorem State.takeError_arr (op : Nat) (e : ErrCode) (info : Nat) : (s.takeError op e info).arr = s.arr := rfl
@[simp] theorem State.takeError_moves (op : Nat) (e : ErrCode) (info : Nat) :
    (s.takeError op e info).moves = s.moves := rfl
@[simp] theorem State.takeError_readData (op : Nat) (e : ErrCode) (info : Nat) :
    (s.takeError op e info).readData = s.readData := rfl
@[simp] theorem State.takeError_draws (op : Nat) (e : ErrCode) (info : Nat) :
    (s.takeError op e info).draws = s.draws := rfl

end Sys2Proof.Machine
end

