-- ==== Sys2Proof/Laws/Memory.lean ====
section
/-! SUPPORT. The laws of the array memory: read after write, and every memory operation keeps the canonical form. -/

namespace Sys2Proof.Machine

open Sys2Proof Sys2Proof.Config

/-- A write is found at its index and moves no other word. -/
theorem arrLookup_arrInsert (i j : Nat) (v : Word) (cells : List ArrCell) :
    arrLookup j (arrInsert i v cells) = if j = i then some v else arrLookup j cells := by
  induction cells with
  | nil => simp [arrInsert, arrLookup, eq_comm]
  | cons c rest ih =>
    obtain ⟨k, u⟩ := c
    simp only [arrInsert]
    split_ifs with h1 h2 h3 h4 <;> simp_all [arrLookup] <;> grind

/-- Which indices a write lists. -/
theorem mem_arrInsert {i : Nat} {v : Word} {cells : List ArrCell} {c : ArrCell} (h : c ∈ arrInsert i v cells) :
    c = (i, v) ∨ c ∈ cells := by
  induction cells with
  | nil => simpa [arrInsert] using h
  | cons d rest ih =>
    simp only [arrInsert] at h
    split_ifs at h <;> simp_all <;> grind

/-- A write inside the bound keeps the canonical form. -/
theorem arrWf_arrInsert {bound i : Nat} {v : Word} {cells : List ArrCell} (hi : i < bound)
    (h : arrWf bound cells = true) : arrWf bound (arrInsert i v cells) = true := by
  induction cells with
  | nil => simp [arrInsert, arrWf, hi]
  | cons d rest ih =>
    obtain ⟨j, u⟩ := d
    simp only [arrWf, Bool.and_eq_true, decide_eq_true_eq, List.all_eq_true] at h
    obtain ⟨⟨hj, hall⟩, hrest⟩ := h
    simp only [arrInsert]
    split_ifs with h1 h2
    · simp only [arrWf, Bool.and_eq_true, decide_eq_true_eq, List.all_eq_true]
      refine ⟨⟨hi, fun c hc => ?_⟩, ⟨hj, hall⟩, hrest⟩
      rcases List.mem_cons.mp hc with rfl | hc
      · exact h1
      · exact h1.trans (hall c hc)
    · subst h2
      simp only [arrWf, Bool.and_eq_true, decide_eq_true_eq, List.all_eq_true]
      exact ⟨⟨hi, hall⟩, hrest⟩
    · simp only [arrWf, Bool.and_eq_true, decide_eq_true_eq, List.all_eq_true]
      refine ⟨⟨hj, fun c hc => ?_⟩, ih hrest⟩
      rcases mem_arrInsert hc with rfl | hc
      · simp only; omega
      · exact hall c hc

/-- `MemWrite` inside ARR keeps `memWf`. -/
theorem memWf_memWrite {s : State} {i : Nat} (v : Word) (hi : i < s.params.arrWords) (h : s.memWf = true) :
    (s.memWrite i v).memWf = true := arrWf_arrInsert hi h

/-- `MemRead` after `MemWrite` (20_memory.md R83). -/
theorem memRead_memWrite (s : State) (i j : Nat) (v : Word) :
    (s.memWrite i v).memRead j = if j = i then v else s.memRead j := by
  simp only [State.memRead, State.memWrite_arr, arrLookup_arrInsert, State.memWrite_draws]
  split_ifs <;> rfl

/-- A list of writes changes ARR and nothing else. -/
theorem memWriteList_eq (vs : List Word) (s : State) (i : Nat) :
    s.memWriteList i vs = { s with arr := (s.memWriteList i vs).arr } := by
  induction vs generalizing s i with
  | nil => rfl
  | cons v vs ih => rw [State.memWriteList, ih]; rfl

/-- A list of writes word by word. -/
theorem arrLookup_memWriteList (vs : List Word) (s : State) (i j : Nat) :
    arrLookup j (s.memWriteList i vs).arr =
      if i ≤ j ∧ j < i + vs.length then some (vs.getD (j - i) 0) else arrLookup j s.arr := by
  induction vs generalizing s i with
  | nil => simp only [State.memWriteList, List.length_nil]; split_ifs <;> first | omega | rfl
  | cons v vs ih =>
    rw [State.memWriteList, ih]
    simp only [State.memWrite_arr, arrLookup_arrInsert, List.length_cons]
    by_cases hj : j = i
    · subst hj; simp
    · by_cases h : i + 1 ≤ j ∧ j < i + 1 + vs.length
      · have h' : i ≤ j ∧ j < i + (vs.length + 1) := by omega
        have : j - i = (j - (i + 1)) + 1 := by omega
        simp [h, h', this]
      · have h' : ¬(i ≤ j ∧ j < i + (vs.length + 1)) := by omega
        rw [if_neg h, if_neg h', if_neg hj]

/-- A list of writes inside ARR keeps `memWf`. -/
theorem memWf_memWriteList (vs : List Word) {s : State} {i : Nat} (hi : i + vs.length ≤ s.params.arrWords)
    (h : s.memWf = true) : (s.memWriteList i vs).memWf = true := by
  induction vs generalizing s i with
  | nil => exact h
  | cons v vs ih =>
    simp only [List.length_cons] at hi
    exact ih (by simp only [State.memWrite_params]; omega) (memWf_memWrite v (by omega) h)

/-- Free values in a window change ARR and nothing else. -/
theorem scrambleWindow_eq (m : Nat) (s : State) (n i : Nat) :
    s.scrambleWindow n i m = { s with arr := (s.scrambleWindow n i m).arr } := by
  induction m generalizing s i with
  | zero => rfl
  | succ m ih => rw [State.scrambleWindow, ih]; rfl

/-- Free values in a window leave every word outside it. -/
theorem arrLookup_scrambleWindow (m : Nat) (s : State) (n i j : Nat) (hj : j < i ∨ i + m ≤ j) :
    arrLookup j (s.scrambleWindow n i m).arr = arrLookup j s.arr := by
  induction m generalizing s i with
  | zero => rfl
  | succ m ih =>
    rw [State.scrambleWindow, ih _ _ (by omega)]
    simp only [State.memWrite_arr, arrLookup_arrInsert]
    rw [if_neg (by omega)]

/-- Free values in a window inside ARR keep `memWf`. -/
theorem memWf_scrambleWindow (m : Nat) {s : State} {n i : Nat} (hi : i + m ≤ s.params.arrWords)
    (h : s.memWf = true) : (s.scrambleWindow n i m).memWf = true := by
  induction m generalizing s i with
  | zero => exact h
  | succ m ih =>
    exact ih (by simp only [State.memWrite_params]; omega) (memWf_memWrite _ (by omega) h)

/-- ARR lists nothing after reset, so it is in its canonical form. -/
theorem memWf_initial (p : Params) : (State.initial p).memWf = true := rfl

/-- The memory of `State.reset` has the canonical form. -/
theorem memWf_reset : State.reset.memWf = true := rfl

/-- Both resets keep `memWf`. -/
theorem memWf_softReset {s : State} (h : s.memWf = true) : s.softReset.memWf = true := h

/-- Both resets keep `memWf`. -/
theorem memWf_hardReset (s : State) : s.hardReset.memWf = true := rfl

end Sys2Proof.Machine
end

