-- ==== Sys2Proof/Laws/Ops.lean ====
section
/-! SUPPORT. What each shared operation of Machine/Ops.lean can do: checks, the end of a command, its errors, the late
error, the resets. -/

namespace Sys2Proof.Machine

open Sys2Proof Sys2Proof.Config

/-! ### Checks -/

@[simp] theorem require_true (e : Raise) : require true e = .ok () := rfl
@[simp] theorem require_false (e : Raise) : require false e = .error e := rfl

/-- A check goes on exactly where it holds. -/
theorem require_ok {ok : Bool} {e : Raise} {u : Unit} : require ok e = .ok u ↔ ok = true := by
  cases ok <;> simp

/-- `resourceLate` changes no result. -/
theorem resourceLate_ok {α : Type} {x : Except Raise α} {v : α} : resourceLate x = .ok v ↔ x = .ok v := by
  cases x <;> simp [resourceLate]

/-- `resourceLate` changes of an error only whether it is late. -/
theorem resourceLate_error {α : Type} {x : Except Raise α} {e : Raise} (h : resourceLate x = .error e) :
    ∃ e', x = .error e' ∧ e = { e' with late := e'.late || e'.code == .resource } := by
  cases x <;> simp [resourceLate] at h
  exact ⟨_, rfl, h.symm⟩

/-- A check raises its own error, where it does not hold. -/
theorem require_error {ok : Bool} {e e' : Raise} : require ok e = .error e' ↔ ok = false ∧ e = e' := by
  cases ok <;> simp

/-- A step of a body that went on: its first part went on too. -/
theorem bind_ok {α β : Type} {x : Except Raise α} {f : α → Except Raise β} {b : β} (h : (x >>= f) = .ok b) :
    ∃ a, x = .ok a ∧ f a = .ok b := by
  cases x with
  | error e => cases h
  | ok a => exact ⟨a, rfl, h⟩

/-- A step of a body that raised: its first part raised, or the rest did. -/
theorem bind_error {α β : Type} {x : Except Raise α} {f : α → Except Raise β} {e : Raise}
    (h : (x >>= f) = .error e) : x = .error e ∨ ∃ a, x = .ok a ∧ f a = .error e := by
  cases x with
  | error e' => exact .inl (by simpa [bind, Except.bind] using h)
  | ok a => exact .inr ⟨a, rfl, h⟩

@[simp] theorem ok_bind {α β : Type} (a : α) (f : α → Except Raise β) : (Except.ok a >>= f) = f a := rfl
@[simp] theorem error_bind {α β : Type} (e : Raise) (f : α → Except Raise β) :
    ((Except.error e : Except Raise α) >>= f) = .error e := rfl

/-- An open writer passes `WCheckOpen()`. -/
theorem checkOpen_open {s : State} (h : s.wclosed = false) : checkOpen s = .ok () := by simp [checkOpen, h]

/-- A closed writer does not. -/
theorem checkOpen_closed {s : State} (h : s.wclosed = true) :
    checkOpen s = .error { code := .invalidState, info := s.wbits.length } := by
  simp [checkOpen, h, State.wpos]

/-- A slot in range passes the slot check. -/
theorem checkSlot_ok {s : State} {side : Side} {slot : Nat} (h : slot < s.params.nSlots) :
    checkSlot s side slot = .ok () := by simp [checkSlot, h]

/-! ### Draws -/

/-- A draw stays in its range. -/
theorem drawIn_le {lo hi : Nat} (d : Nat) (h : lo ≤ hi) : lo ≤ drawIn lo hi d ∧ drawIn lo hi d ≤ hi := by
  unfold drawIn
  split_ifs with h1
  · omega
  · have := Nat.mod_lt d (show 0 < hi - lo + 1 by omega)
    omega

/-- A draw is never below its range. -/
theorem le_drawIn (lo hi d : Nat) : lo ≤ drawIn lo hi d := by
  unfold drawIn; split_ifs <;> omega

/-- A draw is at most the end of its range or, in an empty range, its start. -/
theorem drawIn_le_max (lo hi d : Nat) : drawIn lo hi d ≤ max lo hi := by
  rcases Nat.le_total lo hi with h | h
  · exact ((drawIn_le d h).2).trans (le_max_right _ _)
  · unfold drawIn; rw [if_pos h]; exact le_max_left _ _

/-! ### The end of a command -/

/-- Sound ports fail no command. -/
theorem portFailure_sound {s : State} (h : PortsSound s) (c : Command) (w p : Nat) : portFailure c s w p = none := by
  simp [portFailure, sinkFailure, sourceFailure, h.1, h.2]

/-- A command whose steps leave `s1` over sound ports ends without error. -/
theorem runCommand_ok {s s1 : State} {c : Command} (hp : PortsSound s) (hb : c.body s = .ok s1) :
    runCommand c s =
      .next ((s1.settle (commitTarget c s s1.wbits.length) (pulledAfter c s s1.rpos)).endBusy).drawn := by
  simp only [runCommand, hb, finish, portFailure_sound hp]
  rfl

/-- A command that raises at its stream's position, before any write, changes nothing else. -/
theorem runCommand_early {s : State} {c : Command} {e : Raise} (hb : c.body s = .error e) (hl : e.late = false)
    (hi : e.info = c.side.pos s) : runCommand c s = .next (s.takeError c.op e.code e.info).drawn := by
  simp [runCommand, hb, fail, hl, hi]

/-- A command that raises later, over sound ports, raises this error as a late one. -/
theorem runCommand_late {s : State} {c : Command} {e : Raise} (hp : PortsSound s) (hb : c.body s = .error e)
    (hl : e.late = true ∨ e.info ≠ c.side.pos s) : runCommand c s = .next (s.takeLate c e).drawn := by
  have h : (e.late || e.info != c.side.pos s) = true := by
    rcases hl with h | h <;> simp [h]
  simp only [runCommand, hb, fail, h, if_true, portFailure_sound hp]
  cases c.side <;> rfl

/-- A command that raises late raises this error or the port failure it met first, as a late one. -/
theorem fail_late {s : State} {c : Command} {e : Raise} (h : e.late = true) :
    ∃ e', fail c s e = s.takeLate c e' ∧ e'.window = e.window ∧ (e.still = false → e'.still = false) := by
  simp only [fail, h, Bool.true_or, if_true]
  split <;> split <;> first | exact ⟨_, rfl, rfl, id⟩ | exact ⟨_, rfl, rfl, fun _ => rfl⟩

/-- An early error is the `Raises` of the statements. -/
theorem raises_early (s : State) (op : Nat) (e : ErrCode) (info : Nat) :
    Raises s (s.takeError op e info).drawn op e info := rfl

/-- A late error sets STATUS and ERR_INFO as an early one does. -/
theorem raisesLate_takeLate (s : State) (c : Command) (e : Raise) :
    RaisesLate (s.takeLate c e).drawn c.op e.code e.info := ⟨rfl, rfl⟩

/-- The commit count of a command that does not drain lies in the range of 20_memory.md R85. -/
theorem commitTarget_range {s : State} {c : Command} {w : Nat} (h : 8 * s.committed ≤ w) (hd : c.drain = false) :
    s.committed ≤ commitTarget c s w ∧ w / 8 ≤ commitTarget c s w + 7 ∧ 8 * commitTarget c s w ≤ w := by
  have := drawIn_le (commitDraw s.draws) (show max s.committed (w / 8 - 7) ≤ w / 8 by omega)
  simp only [commitTarget, hd]
  simp only [Bool.false_eq_true, if_false]
  omega

/-- A command without error that drains nothing and reads nothing. -/
theorem runCommand_unread {s s1 : State} {c : Command} (hp : PortsSound s) (hs : StreamSound s)
    (hb : c.body s = .ok s1) (hd : c.drain = false) (hr : c.pull = .none) (hw : s.wbits.length ≤ s1.wbits.length)
    (hst : s1.status = s.status) (hk : s1.sink = s.sink) (hc : s1.committed = s.committed)
    (hn : s1.draws = s.draws) : ∃ t, runCommand c s = .next t ∧ EndsUnread s s1 t := by
  refine ⟨_, runCommand_ok hp hb, commitTarget c s s1.wbits.length,
    commitTarget_range (hs.sinkComplete.trans hw) hd, ?_⟩
  simp [pulledAfter, hr, ended, State.settle, State.endBusy, State.drawn, hst, hk, hc, hn]

/-- A command without error that drains the writer and reads nothing. -/
theorem runCommand_drained {s s1 : State} {c : Command} (hp : PortsSound s) (hs : StreamSound s)
    (hb : c.body s = .ok s1) (hd : c.drain = true) (hr : c.pull = .none) (hw : s.wbits.length ≤ s1.wbits.length)
    (h8 : s1.wbits.length % 8 = 0) (hst : s1.status = s.status) (hk : s1.sink = s.sink)
    (hc : s1.committed = s.committed) (hn : s1.draws = s.draws) :
    ∃ t, runCommand c s = .next t ∧ EndsDrained s s1 t := by
  have := hs.sinkComplete
  refine ⟨_, runCommand_ok hp hb, s1.wbits.length / 8, by omega, by omega, ?_⟩
  simp [commitTarget, pulledAfter, hd, hr, ended, State.settle, State.endBusy, State.drawn, hst, hk, hc, hn]

/-- PULLED after a command that read bit by bit lies in the bounds of 10_state.md R50. -/
theorem pulledAfter_bits {s : State} {c : Command} {p : Nat} (hs : StreamSound s) (hr : c.pull = .bits)
    (hp : s.rpos ≤ p) :
    s.pulled ≤ pulledAfter c s p ∧ min (ceil8 p) s.src.length ≤ pulledAfter c s p ∧
      pulledAfter c s p ≤ s.src.length ∧ pulledAfter c s p ≤ (p + 63) / 8 := by
  have h1 := hs.pulledAhead
  have h2 := hs.pulledSource
  have := drawIn_le (pullDraw s.draws) (show max s.pulled (ceil8 p) ≤ (p + 63) / 8 by unfold ceil8; omega)
  simp only [pulledAfter, pullTarget, hr]
  omega

/-- The same after a command that read whole bytes and so passed the next byte boundary. -/
theorem pulledAfter_bytes {s : State} {c : Command} {p : Nat} (hs : StreamSound s) (hr : c.pull = .bytes)
    (hp : 8 * ceil8 s.rpos ≤ p) :
    s.pulled ≤ pulledAfter c s p ∧ min (ceil8 p) s.src.length ≤ pulledAfter c s p ∧
      pulledAfter c s p ≤ s.src.length ∧ pulledAfter c s p ≤ (p + 63) / 8 := by
  have h1 := hs.pulledAhead
  have h2 := hs.pulledSource
  simp only [pulledAfter, pullTarget, hr]
  unfold ceil8 at *; omega

/-- A command without error that reads the source. -/
theorem runCommand_read {s s1 : State} {c : Command} (hp : PortsSound s) (hs : StreamSound s)
    (hb : c.body s = .ok s1) (hd : c.drain = false)
    (hq : (c.pull = .bits ∧ s.rpos ≤ s1.rpos) ∨ (c.pull = .bytes ∧ 8 * ceil8 s.rpos ≤ s1.rpos))
    (hw : s1.wbits = s.wbits) (hst : s1.status = s.status) (hk : s1.sink = s.sink)
    (hc : s1.committed = s.committed) (hn : s1.draws = s.draws) :
    ∃ t, runCommand c s = .next t ∧ EndsRead s s1 t := by
  refine ⟨_, runCommand_ok hp hb, commitTarget c s s1.wbits.length, pulledAfter c s s1.rpos,
    commitTarget_range (by rw [hw]; exact hs.sinkComplete) hd, ?_, ?_⟩
  · rcases hq with ⟨h, h'⟩ | ⟨h, h'⟩
    · exact pulledAfter_bits hs h h'
    · exact pulledAfter_bytes hs h h'
  · simp [ended, State.settle, State.endBusy, State.drawn, hst, hk, hc, hn]

/-! ### What a late error can write (60_exceptions.md R405) -/

/-- The elements of a state that a late error of a command writing `w` leaves as they were. -/
theorem scramble_kept (s : State) (n : Nat) (w : Writes) :
    (s.scramble n w).wbits = s.wbits ∧ (s.scramble n w).rpos = s.rpos ∧ (s.scramble n w).arr = s.arr ∧
      (s.scramble n w).sink = s.sink ∧ (s.scramble n w).committed = s.committed ∧
      (s.scramble n w).pulled = s.pulled ∧ (s.scramble n w).src = s.src ∧ (s.scramble n w).params = s.params ∧
      (w.r = false → (s.scramble n w).r = s.r) ∧ (w.closed = false → (s.scramble n w).wclosed = s.wclosed) ∧
      (s.scramble n w).ae = freedAe w.ae s.ae (lateAe n) ∧ (s.scramble n w).ad = freedAd w.ad s.ad (lateAd n) ∧
      (w.ce = none → (s.scramble n w).ce = s.ce) ∧ (w.cd = none → (s.scramble n w).cd = s.cd) ∧
      (w.he = none → (s.scramble n w).he = s.he) ∧ (w.hd = none → (s.scramble n w).hd = s.hd) := by
  refine ⟨rfl, rfl, rfl, rfl, rfl, rfl, rfl, rfl, ?_, ?_, rfl, rfl, ?_, ?_, ?_, ?_⟩ <;>
    intro h <;> simp [State.scramble, h]

/-! A late error leaves what its command could not write. -/

@[simp] theorem freedAe_none (v d : ArithEnc) : freedAe {} v d = v := rfl
@[simp] theorem freedAd_none (v d : ArithDec) : freedAd {} v d = v := rfl
@[simp] theorem freedCe_none (v d : CeSlot) : freedCe {} v d = v := rfl
@[simp] theorem freedHe_none (v d : HeSlot) : freedHe {} v d = v := rfl

/-- No error adds to what its command could write. -/
theorem lateWrites_eq (c : Command) (s : State) (e : Raise) :
    lateWrites c s e = { c.writes s with ae := (lateWrites c s e).ae } ∧
      ((c.writes s).ae = {} → (lateWrites c s e).ae = {}) := by
  unfold lateWrites
  split_ifs
  · exact ⟨rfl, fun h => by simp [h]⟩
  · exact ⟨rfl, id⟩

/-- A command's stream after a late error: its own grows or moves, the other one stays. -/
theorem scrambleStream_kept (s : State) (n : Nat) (side : Side) (moved : Bool) :
    (s.scrambleStream n side moved =
      { s with
        wbits := (s.scrambleStream n side moved).wbits
        rpos := (s.scrambleStream n side moved).rpos }) ∧
      (∃ more, (s.scrambleStream n side moved).wbits = s.wbits ++ more) ∧
      (side = .writer → (s.scrambleStream n side moved).rpos = s.rpos) ∧
      (side = .reader → (s.scrambleStream n side moved).wbits = s.wbits) ∧
      (moved = false → s.scrambleStream n side moved = s) := by
  cases moved
  · exact ⟨rfl, ⟨[], by simp [State.scrambleStream]⟩, fun _ => rfl, fun _ => rfl, fun _ => rfl⟩
  · cases side
    · exact ⟨rfl, ⟨lateBits n, rfl⟩, fun _ => rfl, (fun h => nomatch h), fun h => nomatch h⟩
    · exact ⟨rfl, ⟨[], by simp [State.scrambleStream, State.setRpos]⟩, (fun h => nomatch h), fun _ => rfl,
        fun h => nomatch h⟩

/-- A step of a command: an early error, a late error, or an end without error. -/
theorem runCommand_cases (c : Command) (s : State) :
    (∃ e, c.body s = .error e ∧ e.late = false ∧ e.info = c.side.pos s ∧
      runCommand c s = .next (s.takeError c.op e.code e.info).drawn) ∨
    (∃ e, runCommand c s = .next (s.takeLate c e).drawn ∧
      ((∃ e', c.body s = .error e' ∧ e.window = e'.window ∧ (e.result = none ∨ e.result = e'.result)) ∨
        ∃ s1, c.body s = .ok s1 ∧ e.window = c.window s1 ∧ e.result = none)) ∨
    ∃ s1, c.body s = .ok s1 ∧ portFailure c s s1.wbits.length s1.rpos = none ∧
      runCommand c s =
        .next ((s1.settle (commitTarget c s s1.wbits.length) (pulledAfter c s s1.rpos)).endBusy).drawn := by
  unfold runCommand
  cases hb : c.body s with
  | error e =>
    by_cases h : (e.late || e.info != c.side.pos s) = true
    · refine .inr (.inl ?_)
      simp only [fail, h, if_true]
      cases hside : c.side <;> simp only
      · cases hpf : portFailure c s e.info s.rpos with
        | some info => exact ⟨{ code := .resource, info := info, window := e.window }, rfl, .inl ⟨e, rfl, rfl, .inl rfl⟩⟩
        | none => exact ⟨e, rfl, .inl ⟨e, rfl, rfl, .inr rfl⟩⟩
      · cases hpf : portFailure c s s.wpos e.info with
        | some info => exact ⟨{ code := .resource, info := info, window := e.window }, rfl, .inl ⟨e, rfl, rfl, .inl rfl⟩⟩
        | none => exact ⟨e, rfl, .inl ⟨e, rfl, rfl, .inr rfl⟩⟩
    · refine .inl ⟨e, rfl, ?_, ?_, ?_⟩
      · cases h' : e.late <;> simp_all
      · cases h' : e.late <;> simp_all
      · simp only [fail, if_neg h]
  | ok s1 =>
    cases hpf : portFailure c s s1.wpos s1.rpos with
    | some info =>
      refine .inr (.inl ⟨{ code := .resource, info := info, still := s1.rpos == s.rpos, window := c.window s1 }, ?_,
        .inr ⟨s1, rfl, rfl, rfl⟩⟩)
      simp only [finish, hpf]
    | none =>
      refine .inr (.inr ⟨s1, rfl, hpf, ?_⟩)
      simp only [finish, hpf]
      rfl

/-! ### Resets -/

/-- Both resets put every element of 10_state.md R61 but ARR at its reset value. -/
theorem atResetValues_resetBlock (s : State) (cells : List ArrCell) : AtResetValues (s.resetBlock cells) := by
  constructor <;> simp [State.resetBlock, State.initial, Status.word, State.wposWord, State.rposWord, engineState]

/-- The reset values hold for every choice of the parameters. -/
theorem atResetValues_initial (p : Params) : AtResetValues (State.initial p) := by
  constructor <;> simp [State.initial, Status.word, State.wposWord, State.rposWord, engineState]

end Sys2Proof.Machine
end

