-- ==== Sys2Proof/Laws/Streams.lean ====
section
/-! SUPPORT. The reader's primitives over the logical input stream (40_bitio.md R170 to R173), and bit strings as
integers. -/

namespace Sys2Proof.Machine

open Sys2Proof Sys2Proof.Config

/-- Nothing is wrong with the source, so `TakeBit()` is the logical input stream of R170. -/
theorem takeBit_eq {s : State} (h : s.srcFail = none) (k : Nat) :
    takeBit s.source k =
      match inputBit s k with
      | some b => .ok (b, k + 1)
      | none => .error { code := .endOfStream, info := k } := by
  simp only [takeBit, Source.fails, State.source, h, inputBit]
  split_ifs <;> simp_all

theorem takeBit_some {s : State} (h : s.srcFail = none) {k : Nat} {b : Bool} (hb : inputBit s k = some b) :
    takeBit s.source k = .ok (b, k + 1) := by rw [takeBit_eq h, hb]

theorem takeBit_none {s : State} (h : s.srcFail = none) {k : Nat} (hb : inputBit s k = none) :
    takeBit s.source k = .error { code := .endOfStream, info := k } := by rw [takeBit_eq h, hb]

/-- The input stream holds `bits` from position `k` on. -/
def HoldsAt (s : State) (k : Nat) (bits : List Bool) : Prop :=
  ∀ i (h : i < bits.length), inputBit s (k + i) = some bits[i]

theorem holdsAt_iff (s : State) (bits : List Bool) : HoldsAt s s.rpos bits ↔ InputHolds s bits := Iff.rfl

theorem holdsAt_nil (s : State) (k : Nat) : HoldsAt s k [] := by
  intro i h; simp at h

theorem holdsAt_cons {s : State} {k : Nat} {b : Bool} {bits : List Bool} :
    HoldsAt s k (b :: bits) ↔ inputBit s k = some b ∧ HoldsAt s (k + 1) bits := by
  constructor
  · intro h
    refine ⟨h 0 (by simp), fun i hi => ?_⟩
    have := h (i + 1) (by simpa using hi)
    rwa [show k + (i + 1) = k + 1 + i by omega] at this
  · rintro ⟨h0, h1⟩ i hi
    cases i with
    | zero => simpa using h0
    | succ i =>
      have := h1 i (by simpa using hi)
      rwa [show k + 1 + i = k + (i + 1) by omega] at this

theorem holdsAt_append {s : State} {k : Nat} {xs ys : List Bool} :
    HoldsAt s k (xs ++ ys) ↔ HoldsAt s k xs ∧ HoldsAt s (k + xs.length) ys := by
  induction xs generalizing k with
  | nil => simp [holdsAt_nil]
  | cons b xs ih =>
    simp only [List.cons_append, holdsAt_cons, ih, List.length_cons, and_assoc]
    rw [show k + 1 + xs.length = k + (xs.length + 1) by omega]

theorem takeBits_of_holds {s : State} (h : s.srcFail = none) (bits : List Bool) {k : Nat} (hb : HoldsAt s k bits) :
    takeBits s.source bits.length k = .ok (bitsNat bits, k + bits.length) := by
  induction bits generalizing k with
  | nil => rfl
  | cons b bits ih =>
    rw [holdsAt_cons] at hb
    simp only [List.length_cons, takeBits, takeBit_some h hb.1, ok_bind, ih hb.2, bitsNat]
    rw [show k + 1 + bits.length = k + (bits.length + 1) by omega]

theorem natBits_length (n v : Nat) : (natBits n v).length = n := by simp [natBits]

theorem natBits_succ (n v : Nat) : natBits (n + 1) v = v.testBit 0 :: natBits n (v / 2) := by
  simp [natBits, List.range_succ_eq_map, Function.comp_def, Nat.testBit_succ]

theorem bitsNat_natBits (n v : Nat) : bitsNat (natBits n v) = v % 2 ^ n := by
  induction n generalizing v with
  | zero => simp [natBits, bitsNat, Nat.mod_one]
  | succ n ih =>
    rw [natBits_succ, bitsNat, ih, Nat.testBit_zero, pow_succ', Nat.mod_mul]
    congr 1
    rcases Nat.mod_two_eq_zero_or_one v with h | h <;> simp [h]

theorem natBits_zero (n : Nat) : natBits n 0 = List.replicate n false := by
  simp [natBits, List.eq_replicate_iff]

theorem takeBits_natBits {s : State} (h : s.srcFail = none) {n v k : Nat} (hb : HoldsAt s k (natBits n v)) :
    takeBits s.source n k = .ok (v % 2 ^ n, k + n) := by
  have := takeBits_of_holds h _ hb
  rwa [natBits_length, bitsNat_natBits] at this

/-- Clear pad bits are skipped. -/
theorem rAlign_clear {s : State} (h : s.srcFail = none) {k : Nat}
    (hb : HoldsAt s k (List.replicate (8 * ceil8 k - k) false)) : rAlign s.source k = .ok (8 * ceil8 k) := by
  have aux : ∀ fuel n k, n ≤ fuel → n < 8 → (k + n) % 8 = 0 → HoldsAt s k (List.replicate n false) →
      rAlignLoop s.source fuel k = .ok (k + n) := by
    intro fuel
    induction fuel with
    | zero => intro n k hn _ _ _; have : n = 0 := by omega
              subst this; rfl
    | succ fuel ih =>
      intro n k hn h8 hk hh
      rw [rAlignLoop]
      rcases Nat.eq_zero_or_pos n with h0 | h0
      · subst h0; rw [if_pos (by omega)]; rfl
      · obtain ⟨m, rfl⟩ : ∃ m, n = m + 1 := ⟨n - 1, by omega⟩
        rw [if_neg (by omega)]
        rw [List.replicate_succ, holdsAt_cons] at hh
        rw [takeBit_some h hh.1, ok_bind]
        simp only [Bool.false_eq_true, if_false]
        rw [ih m (k + 1) (by omega) (by omega) (by omega) hh.2]
        congr 1; omega
  have := aux 8 (8 * ceil8 k - k) k (by unfold ceil8; omega) (by unfold ceil8; omega) (by unfold ceil8; omega) hb
  rw [rAlign, this]; congr 1; unfold ceil8; omega

/-- The first pad bit that is 1 stops the re-alignment. -/
theorem rAlign_set {s : State} (h : s.srcFail = none) {k n : Nat} (hn : k + n < 8 * ceil8 k)
    (hb : HoldsAt s k (List.replicate n false ++ [true])) :
    rAlign s.source k = .error { code := .realignment, info := k + n + 1 } := by
  have aux : ∀ fuel n k, n < fuel → k + n < 8 * ceil8 k → HoldsAt s k (List.replicate n false ++ [true]) →
      rAlignLoop s.source fuel k = .error { code := .realignment, info := k + n + 1 } := by
    intro fuel
    induction fuel with
    | zero => intro n k hn; omega
    | succ fuel ih =>
      intro n k hn hk hh
      have h8 : k % 8 ≠ 0 := by unfold ceil8 at hk; omega
      rw [rAlignLoop, if_neg h8]
      cases n with
      | zero =>
        simp only [List.replicate_zero, List.nil_append, holdsAt_cons] at hh
        rw [takeBit_some h hh.1, ok_bind]; rfl
      | succ n =>
        rw [List.replicate_succ, List.cons_append, holdsAt_cons] at hh
        rw [takeBit_some h hh.1, ok_bind]
        simp only [Bool.false_eq_true, if_false]
        rw [ih n (k + 1) (by omega) (by unfold ceil8 at *; omega) hh.2]
        congr 2; omega
  exact aux 8 n k (by unfold ceil8 at hn; omega) hn hb

theorem rAlign_aligned (src : Source) {k : Nat} (hk : k % 8 = 0) : rAlign src k = .ok k := by
  rw [rAlign, rAlignLoop, if_pos hk]

/-- At a byte boundary `TakeByte` takes the next byte. -/
theorem takeByte_aligned {s : State} (h : s.srcFail = none) (e : ErrCode) {j : Nat} {b : Byte}
    (hb : s.src[j]? = some b) : takeByte s.source e (8 * j) = .ok (b, 8 * j + 8) := by
  have hj : j < s.src.length := (List.getElem?_eq_some_iff.mp hb).1
  rw [takeByte, rAlign_aligned _ (by omega), ok_bind]
  have h8 : 8 * j / 8 = j := by omega
  simp only [Source.fails, State.source, h, h8]
  rw [if_neg (by simp), if_neg (by simpa using hj)]
  simp [hb]

end Sys2Proof.Machine
end

