-- ==== Sys2Proof/Laws/Scalar.lean ====
section
/-! SUPPORT. The scalar codecs: each encoder emits the code its rule gives, each decoder takes exactly that code
(41_scalar_codecs.md R220 to R235). -/

namespace Sys2Proof.Machine

open Sys2Proof Sys2Proof.Config

theorem lt_two_pow_bitlen (x : Nat) : x < 2 ^ bitlen x := by
  unfold bitlen
  split_ifs with h
  · simp [h]
  · exact Nat.lt_log2_self

theorem two_pow_le_of_bitlen {x : Nat} (h : x ≠ 0) : 2 ^ (bitlen x - 1) ≤ x := by
  simp only [bitlen, if_neg h, Nat.add_sub_cancel]
  exact Nat.log2_self_le h

theorem bitlen_le {x n : Nat} (h : x < 2 ^ n) : bitlen x ≤ n := by
  unfold bitlen
  split_ifs with h0
  · omega
  · exact (Nat.log2_lt h0).mpr h

theorem mod_two_pow_succ' (v i : Nat) : v % 2 ^ (i + 1) = v % 2 ^ i + 2 ^ i * (v.testBit i).toNat := by
  rw [pow_succ, Nat.mod_mul, Nat.testBit_eq_decide_div_mod_eq]
  rcases Nat.mod_two_eq_zero_or_one (v / 2 ^ i) with h | h <;> simp [h]

/-- The passes of `EncBounded` from bit `i` on. -/
theorem boundedLoop_spec (max v : Nat) : ∀ fuel i, bitlen max ≤ i + fuel → v % 2 ^ i ≤ max →
    ∃ n, boundedLoop fuel (max - v % 2 ^ i) v i = (List.range n).map (fun j => v.testBit (i + j)) ∧ n ≤ fuel ∧
      (∀ j < n, v % 2 ^ (i + j) + 2 ^ (i + j) ≤ max) ∧ max < v % 2 ^ (i + n) + 2 ^ (i + n) := by
  intro fuel
  induction fuel with
  | zero =>
    intro i hi hle
    refine ⟨0, rfl, le_rfl, fun j hj => absurd hj (by omega), ?_⟩
    have h1 := lt_two_pow_bitlen max
    have h2 : 2 ^ bitlen max ≤ 2 ^ i := Nat.pow_le_pow_right (by norm_num) (by omega)
    simp only [Nat.add_zero]; omega
  | succ fuel ih =>
    intro i hi hle
    rw [boundedLoop]
    by_cases hc : 2 ^ i ≤ max - v % 2 ^ i
    · rw [if_pos hc]
      have hm := mod_two_pow_succ' v i
      have hpos : 0 < 2 ^ i := by positivity
      obtain ⟨n, h1, hn, h2, h3⟩ := ih (i + 1) (by omega) (by rw [hm]; cases v.testBit i <;> simp <;> omega)
      refine ⟨n + 1, ?_, by omega, ?_, ?_⟩
      · rw [List.range_succ_eq_map]
        simp only [List.map_cons, List.map_map, Nat.add_zero, Function.comp_def]
        have e : (fun j => v.testBit (i + Nat.succ j)) = fun j => v.testBit (i + 1 + j) := by
          funext j; congr 1; simp only [Nat.succ_eq_add_one]; omega
        simp only [e]
        rw [← h1]
        cases hb : v.testBit i
        · rw [hb] at hm; simp at hm; rw [hm]; simp
        · rw [hb] at hm; simp at hm; rw [hm, Nat.sub_sub]; simp
      · intro j hj
        cases j with
        | zero => simp only [Nat.add_zero]; omega
        | succ j =>
          have := h2 j (by omega)
          rwa [show i + 1 + j = i + (j + 1) by omega] at this
      · rwa [show i + 1 + n = i + (n + 1) by omega] at h3
    · rw [if_neg hc]
      exact ⟨0, rfl, by omega, fun j hj => absurd hj (by omega), by simp only [Nat.add_zero]; omega⟩

/-- `EncBounded` emits the code of R220, at most `bitlen(max)` bits of it. -/
theorem boundedBits_code {max v : Nat} (_h : v ≤ max) :
    BoundedCode max v (boundedBits max v) ∧ (boundedBits max v).length ≤ bitlen max := by
  obtain ⟨n, h1, hn, h2, h3⟩ := boundedLoop_spec max v (bitlen max) 0 (by omega) (by simp [Nat.mod_one])
  simp only [pow_zero, Nat.mod_one, Nat.sub_zero, Nat.zero_add] at h1 h2 h3
  refine ⟨⟨n, ?_, h2, h3⟩, ?_⟩
  · rw [boundedBits, h1]; rfl
  · rw [boundedBits, h1]; simpa using hn

/-- R220 fixes the code. -/
theorem boundedCode_unique {max v : Nat} {xs ys : List Bool} (hx : BoundedCode max v xs) (hy : BoundedCode max v ys) :
    xs = ys := by
  obtain ⟨n, rfl, hn, hn'⟩ := hx
  obtain ⟨m, rfl, hm, hm'⟩ := hy
  rcases lt_trichotomy n m with h | h | h
  · have := hm n h; omega
  · rw [h]
  · have := hn m h; omega

/-- The value of a code of `n` bits is below `2^n`. -/
theorem boundedCode_lt {max v n : Nat} (h : v ≤ max)
    (h3 : max < v % 2 ^ n + 2 ^ n) : v % 2 ^ n = v := by
  have hpos : 0 < 2 ^ n := by positivity
  have h4 := Nat.mod_add_div v (2 ^ n)
  rcases Nat.eq_zero_or_pos (v / 2 ^ n) with h5 | h5
  · rw [h5] at h4; omega
  · have : 2 ^ n ≤ 2 ^ n * (v / 2 ^ n) := Nat.le_mul_of_pos_right _ h5
    omega

/-- The loop of `DecBounded` on the bits of a code. -/
theorem decBoundedLoop_spec {s : State} (hs : s.srcFail = none) {max v n : Nat}
    (h2 : ∀ j < n, v % 2 ^ j + 2 ^ j ≤ max) (h3 : max < v % 2 ^ n + 2 ^ n) :
    ∀ fuel i k, i ≤ n → n ≤ i + fuel → HoldsAt s k ((List.range (n - i)).map (fun j => v.testBit (i + j))) →
      decBoundedLoop s.source max fuel (v % 2 ^ i) i k = .ok (v % 2 ^ n, k + (n - i)) := by
  intro fuel
  induction fuel with
  | zero =>
    intro i k hi hf _
    obtain rfl : i = n := by omega
    simp [decBoundedLoop]
  | succ fuel ih =>
    intro i k hi hf hh
    have hor : v % 2 ^ i ||| 2 ^ i = v % 2 ^ i + 2 ^ i := by
      have := Nat.two_pow_add_eq_or_of_lt (show v % 2 ^ i < 2 ^ i from Nat.mod_lt _ (by positivity)) 1
      rw [mul_one] at this
      rw [Nat.or_comm, ← this, Nat.add_comm]
    rw [decBoundedLoop, hor]
    rcases Nat.lt_or_ge i n with h | h
    · rw [if_pos (h2 i h)]
      obtain ⟨m, hm⟩ : ∃ m, n - i = m + 1 := ⟨n - i - 1, by omega⟩
      rw [hm, List.range_succ_eq_map] at hh
      simp only [List.map_cons, List.map_map, Nat.add_zero, Function.comp_def] at hh
      rw [holdsAt_cons] at hh
      rw [takeBit_some hs hh.1, ok_bind]
      have e : (fun j => v.testBit (i + Nat.succ j)) = fun j => v.testBit (i + 1 + j) := by
        funext j; congr 1; simp only [Nat.succ_eq_add_one]; omega
      have hh2 := hh.2
      rw [e, show m = n - (i + 1) by omega] at hh2
      have hv : (if v.testBit i then v % 2 ^ i + 2 ^ i else v % 2 ^ i) = v % 2 ^ (i + 1) := by
        rw [mod_two_pow_succ']; cases v.testBit i <;> simp
      simp only [hv]
      rw [ih (i + 1) (k + 1) (by omega) (by omega) hh2]
      congr 2; omega
    · obtain rfl : i = n := by omega
      rw [if_neg (by omega)]; simp

/-- `DecBounded` takes exactly the code of a value and returns the value (R222). -/
theorem decBoundedNat_code {s : State} (hs : s.srcFail = none) {max v k : Nat} {bits : List Bool} (h : v ≤ max)
    (hc : BoundedCode max v bits) (hh : HoldsAt s k bits) :
    decBoundedNat s.source max k = .ok (v, k + bits.length) := by
  have hlen : bits.length ≤ bitlen max := by
    rw [boundedCode_unique hc (boundedBits_code h).1]; exact (boundedBits_code h).2
  obtain ⟨n, rfl, h2, h3⟩ := hc
  rw [natBits_length] at hlen ⊢
  have := decBoundedLoop_spec hs h2 h3 (bitlen max) 0 k (by omega) (by omega)
    (by simpa [natBits] using hh)
  rw [boundedCode_lt h h3] at this
  simpa [decBoundedNat, Nat.mod_one] using this

/-- Whatever the bits, `DecBounded` returns a value in `[0, max]` (R221). -/
theorem decBoundedLoop_any {s : State} (hs : s.srcFail = none) (max : Nat) :
    ∀ fuel v i k (bits : List Bool), v ≤ max → bits.length = fuel → HoldsAt s k bits →
      ∃ w n, w ≤ max ∧ n ≤ fuel ∧ decBoundedLoop s.source max fuel v i k = .ok (w, k + n) := by
  intro fuel
  induction fuel with
  | zero => intro v i k bits hv _ _; exact ⟨v, 0, hv, le_rfl, rfl⟩
  | succ fuel ih =>
    intro v i k bits hv hl hh
    obtain ⟨b, bits, rfl⟩ := List.exists_cons_of_length_eq_add_one hl
    rw [holdsAt_cons] at hh
    rw [decBoundedLoop]
    split_ifs with hc
    · rw [takeBit_some hs hh.1, ok_bind]
      obtain ⟨w, n, hw, hn, he⟩ := ih (if b then v ||| 2 ^ i else v) (i + 1) (k + 1) bits
        (by split_ifs <;> assumption) (by simpa using hl) hh.2
      exact ⟨w, n + 1, hw, by omega, by simp only; rw [he]; congr 2; omega⟩
    · exact ⟨v, 0, hv, by omega, rfl⟩

/-- For max `2^n - 1` the code is the `n` low bits. -/
theorem boundedCode_full {n v : Nat} (h : v < 2 ^ n) : BoundedCode (2 ^ n - 1) v (natBits n v) := by
  refine ⟨n, rfl, fun j hj => ?_, ?_⟩
  · have h1 : v % 2 ^ j < 2 ^ j := Nat.mod_lt _ (by positivity)
    have h2 : 2 ^ (j + 1) ≤ 2 ^ n := Nat.pow_le_pow_right (by norm_num) hj
    rw [pow_succ] at h2; omega
  · have : 0 < 2 ^ n := by positivity
    omega

/-! ### Var-bits -/

/-- The range doubling of `EncUVarBits` from the range `2^j - 1` on. -/
theorem rangeLoop_spec (k : Nat) : ∀ fuel d h j, k = j + d → d ≤ fuel → 2 ^ k ≤ h + 2 ^ j → h + 2 ^ j < 2 ^ (k + 1) →
    rangeLoop fuel h (2 ^ j - 1) =
      List.replicate d false ++ true :: natBits k (h + 2 ^ j - 2 ^ k) := by
  have pos : ∀ j : Nat, 0 < 2 ^ j := fun j => by positivity
  intro fuel
  induction fuel with
  | zero =>
    intro d h j hk hd h1 h2
    obtain rfl : d = 0 := by omega
    obtain rfl : k = j := by omega
    have := pos k
    rw [pow_succ] at h2
    rw [rangeLoop, boundedCode_unique (boundedBits_code (show h ≤ 2 ^ k - 1 by omega)).1
      (boundedCode_full (show h < 2 ^ k by omega))]
    simp
  | succ fuel ih =>
    intro d h j hk hd h1 h2
    have := pos j
    rw [rangeLoop]
    cases d with
    | zero =>
      obtain rfl : k = j := by omega
      rw [pow_succ] at h2
      rw [if_neg (by omega), boundedCode_unique (boundedBits_code (show h ≤ 2 ^ k - 1 by omega)).1
        (boundedCode_full (show h < 2 ^ k by omega))]
      simp
    | succ d =>
      have hjk : 2 ^ (j + 1) ≤ 2 ^ k := Nat.pow_le_pow_right (by norm_num) (by omega)
      rw [pow_succ] at hjk
      rw [if_pos (by omega), show 2 * (2 ^ j - 1) + 1 = 2 ^ (j + 1) - 1 by rw [pow_succ]; omega,
        show 2 ^ j - 1 + 1 = 2 ^ j by omega,
        ih d (h - 2 ^ j) (j + 1) (by omega) (by omega) (by rw [pow_succ]; omega) (by rw [pow_succ 2 j]; omega)]
      rw [List.replicate_succ, List.cons_append, pow_succ 2 j]
      congr 4; omega

/-- `EncUVarBits` emits the code of R225. -/
theorem uvarBits_code (v noisy : Nat) : UVarCode v noisy (uvarBits v noisy) := by
  set h := v / 2 ^ noisy with hh
  have hne : h + 1 ≠ 0 := Nat.succ_ne_zero h
  have hb : bitlen (h + 1) - 1 + 1 = bitlen (h + 1) := by unfold bitlen; simp
  have h1 := two_pow_le_of_bitlen hne
  have h2 := lt_two_pow_bitlen (h + 1)
  refine ⟨bitlen (h + 1) - 1, h1, by rw [hb]; exact h2, ?_⟩
  have := rangeLoop_spec (bitlen (h + 1) - 1) (bitlen (h + 1)) (bitlen (h + 1) - 1) h 0 (by omega) (by omega)
    (by simpa using h1) (by rw [hb]; simpa using h2)
  simp only [pow_zero, Nat.sub_self] at this
  rw [uvarBits, ← hh, this]

/-- R225 fixes the code. -/
theorem uvarCode_unique {v noisy : Nat} {xs ys : List Bool} (hx : UVarCode v noisy xs) (hy : UVarCode v noisy ys) :
    xs = ys := by
  obtain ⟨k, h1, h2, rfl⟩ := hx
  obtain ⟨m, h3, h4, rfl⟩ := hy
  have hk : k < m + 1 := (Nat.pow_lt_pow_iff_right (by norm_num : 1 < 2)).mp (h1.trans_lt h4)
  have hm : m < k + 1 := (Nat.pow_lt_pow_iff_right (by norm_num : 1 < 2)).mp (h3.trans_lt h2)
  obtain rfl : k = m := by omega
  rfl

/-- The prefix loop of `DecUVarBits` on `d` zeros and a 1. -/
theorem prefixLoop_spec {s : State} (hs : s.srcFail = none) : ∀ fuel d j k, d < fuel → j + d ≤ 63 →
    HoldsAt s k (List.replicate d false ++ [true]) →
    prefixLoop s.source fuel (2 ^ j - 1) (2 ^ j - 1) k = .ok (2 ^ (j + d) - 1, 2 ^ (j + d) - 1, k + d + 1) := by
  intro fuel
  induction fuel with
  | zero => intro d j k hd; omega
  | succ fuel ih =>
    intro d j k hd hj hh
    rw [prefixLoop]
    cases d with
    | zero =>
      simp only [List.replicate_zero, List.nil_append, holdsAt_cons] at hh
      rw [takeBit_some hs hh.1, ok_bind]; rfl
    | succ d =>
      rw [List.replicate_succ, List.cons_append, holdsAt_cons] at hh
      rw [takeBit_some hs hh.1, ok_bind]
      have hpos : 0 < 2 ^ j := by positivity
      have hlt : 2 ^ (j + 1) ≤ 2 ^ 63 := Nat.pow_le_pow_right (by norm_num) (by omega)
      rw [pow_succ] at hlt
      simp only [Bool.false_eq_true, if_false]
      rw [if_neg (by unfold lmax; omega)]
      rw [show 2 * (2 ^ j - 1) + 1 = 2 ^ (j + 1) - 1 by rw [pow_succ]; omega,
        show 2 ^ j - 1 + (2 ^ j - 1) + 1 = 2 ^ (j + 1) - 1 by rw [pow_succ]; omega,
        ih d (j + 1) (k + 1) (by omega) (by omega) hh.2]
      simp only [Except.ok.injEq, Prod.mk.injEq, show j + 1 + d = j + (d + 1) by omega, true_and]
      omega

/-- `DecUVarBits` takes exactly the code of a value in its domain and returns the value. -/
theorem decUVarBits_code {s : State} (hs : s.srcFail = none) {v noisy k : Nat} {bits : List Bool} (hn : noisy ≤ 63)
    (hv : v ≤ lmax) (hc : UVarCode v noisy bits) (hh : HoldsAt s k bits) :
    decUVarBits s.source noisy k = .ok (v, k + bits.length) := by
  obtain ⟨m, h1, h2, rfl⟩ := hc
  rw [holdsAt_append, natBits_length] at hh
  obtain ⟨hlow, hrest⟩ := hh
  rw [show List.replicate m false ++ true :: natBits m (v / 2 ^ noisy + 1 - 2 ^ m) =
    (List.replicate m false ++ [true]) ++ natBits m (v / 2 ^ noisy + 1 - 2 ^ m) by simp, holdsAt_append] at hrest
  obtain ⟨hpre, hsuf⟩ := hrest
  have hq : v / 2 ^ noisy ≤ v := Nat.div_le_self _ _
  have hm : m ≤ 63 := by
    by_contra hcon
    have : 2 ^ 64 ≤ 2 ^ m := Nat.pow_le_pow_right (by norm_num) (by omega)
    unfold lmax at hv; omega
  have hp := prefixLoop_spec hs 64 m 0 (k + noisy) (by omega) (by omega) hpre
  simp only [pow_zero, Nat.sub_self, Nat.zero_add] at hp
  rw [pow_succ] at h2
  have hpos : 0 < 2 ^ m := by positivity
  have hd := decBoundedNat_code hs (show v / 2 ^ noisy + 1 - 2 ^ m ≤ 2 ^ m - 1 by omega)
    (boundedCode_full (show v / 2 ^ noisy + 1 - 2 ^ m < 2 ^ m by omega)) hsuf
  simp only [List.length_append, List.length_replicate, List.length_singleton, natBits_length] at hd
  rw [decUVarBits]
  simp only [hn, decide_true, require_true, ok_bind, takeBits_natBits hs hlow, hp]
  rw [show k + noisy + m + 1 = k + noisy + (m + 1) by omega, hd, ok_bind]
  have hsum : 2 ^ m - 1 + (v / 2 ^ noisy + 1 - 2 ^ m) = v / 2 ^ noisy := by omega
  simp only [hsum]
  have hle : v / 2 ^ noisy ≤ lmax / 2 ^ noisy := Nat.div_le_div_right hv
  simp only [hle, decide_true, require_true, ok_bind]
  congr 2
  · rw [mul_comm]; exact Nat.div_add_mod v (2 ^ noisy)
  · simp [natBits_length]; omega

theorem foldMag_eq (v : Int) : foldMag v = if v < 0 then (-v - 1).toNat else v.toNat := rfl

/-- `EncSVarBits` emits the code of R229. -/
theorem svarBits_code (v : Int) (noisy : Nat) : SVarCode v noisy (svarBits v noisy) :=
  ⟨uvarBits (foldMag v) noisy, rfl, uvarBits_code _ _⟩

/-- The folded magnitude of an s64 is in `[0, LMAX]`. -/
theorem foldMag_le {v : Int} (h1 : -2 ^ 63 ≤ v) (h2 : v ≤ (lmax : Int)) : foldMag v ≤ lmax := by
  unfold lmax at *
  rw [foldMag_eq]; split_ifs <;> omega

theorem unfoldMag_foldMag (v : Int) : unfoldMag (decide (v < 0)) (foldMag v) = v := by
  unfold unfoldMag foldMag
  by_cases h : v < 0 <;> simp [h]; all_goals omega

/-- `DecSVarBits` takes exactly the code of an s64 and returns the value. -/
theorem decSVarBits_code {s : State} (hs : s.srcFail = none) {v : Int} {noisy k : Nat} {bits : List Bool}
    (hn : noisy ≤ 63) (h1 : -2 ^ 63 ≤ v) (h2 : v ≤ (lmax : Int)) (hc : SVarCode v noisy bits)
    (hh : HoldsAt s k bits) : decSVarBits s.source noisy k = .ok (v, k + bits.length) := by
  obtain ⟨rest, rfl, hu⟩ := hc
  rw [← foldMag_eq] at hu
  rw [holdsAt_cons] at hh
  rw [decSVarBits]
  simp only [hn, decide_true, require_true, ok_bind, takeBit_some hs hh.1,
    decUVarBits_code hs hn (foldMag_le h1 h2) hu hh.2, unfoldMag_foldMag, List.length_cons]
  congr 2; omega

/-! ### Var-bytes -/

/-- The groups of `VBY.E`: `n` bytes for a value that needs `n` groups of 7 bits. -/
theorem vbyGroups_spec : ∀ fuel u n, 1 ≤ n → n ≤ fuel → u < 128 ^ n → (2 ≤ n → 128 ^ (n - 1) ≤ u) →
    vbyGroups fuel u = (List.range n).map (fun i => u / 128 ^ i % 128 + if i + 1 < n then 128 else 0) := by
  intro fuel
  induction fuel with
  | zero => intro u n h1 h2; omega
  | succ fuel ih =>
    intro u n h1 h2 h3 h4
    rw [vbyGroups]
    obtain ⟨m, rfl⟩ : ∃ m, n = m + 1 := ⟨n - 1, by omega⟩
    rcases Nat.eq_zero_or_pos m with h0 | h0
    · subst h0
      rw [if_pos (by simp at h3; omega)]; simp
    · have h5 := h4 (by omega)
      simp only [Nat.add_sub_cancel] at h5
      have h6 : 128 ^ 1 ≤ 128 ^ m := Nat.pow_le_pow_right (by norm_num) h0
      rw [if_neg (by omega), List.range_succ_eq_map]
      rw [ih (u / 128) m h0 (by omega) (by rw [Nat.div_lt_iff_lt_mul (by norm_num), ← pow_succ]; exact h3)
        (fun _ => by
          rw [Nat.le_div_iff_mul_le (by norm_num), ← pow_succ, show m - 1 + 1 = m by omega]; exact h5)]
      simp only [List.map_cons, List.map_map, Function.comp_def, pow_zero, Nat.div_one]
      congr 1
      · simp [h0]
      · apply List.map_congr_left
        intro i hi
        simp only [Nat.succ_eq_add_one, pow_succ', Nat.div_div_eq_div_mul]
        split_ifs <;> first | rfl | omega

/-- Every 64-bit value needs 1 to 10 groups. -/
theorem exists_groups {u : Nat} (h : u < 2 ^ 64) :
    ∃ n, 1 ≤ n ∧ n ≤ 10 ∧ u < 128 ^ n ∧ (2 ≤ n → 128 ^ (n - 1) ≤ u) := by
  have hex : ∃ n, u < 128 ^ n ∧ 1 ≤ n := ⟨10, by omega, by omega⟩
  classical
  refine ⟨Nat.find hex, (Nat.find_spec hex).2, Nat.find_min' hex ⟨by omega, by omega⟩, (Nat.find_spec hex).1, ?_⟩
  intro h2
  by_contra hc
  have := Nat.find_min hex (m := Nat.find hex - 1) (by omega)
  exact this ⟨by omega, by omega⟩

/-- `VBY.E` emits the code of R234. -/
theorem vbyBits_code {u : Nat} (h : u < 2 ^ 64) :
    ∃ bytes : List Byte, VarBytes u bytes ∧
      vbyBits u = bytes.flatMap (fun b => (List.range 8).map (fun i => b.getLsbD i)) := by
  obtain ⟨n, h1, h2, h3, h4⟩ := exists_groups h
  refine ⟨(List.range n).map (fun i => BitVec.ofNat 8 (u / 128 ^ i % 128 + if i + 1 < n then 128 else 0)),
    ⟨?_, by simpa using h3, by simpa using h4, ?_⟩, ?_⟩
  · intro hc; simp at hc; omega
  · intro i hi; simp
  · rw [vbyBits, vbyGroups_spec 10 u n h1 h2 h3 h4, List.flatMap_map, List.flatMap_map]
    congr 1; funext i
    apply List.map_congr_left
    intro j hj
    simp only [List.mem_range] at hj
    rw [BitVec.getLsbD_ofNat]
    simp [hj]

/-- The loop of `VBY.D` on the bytes of a code, `i` of them read. -/
theorem vbyLoop_spec {s : State} (hs : s.srcFail = none) {u : Nat} (hu : u < 2 ^ 64) (j n : Nat)
    (hn : n ≤ 10) (h3 : u < 128 ^ n)
    (hb : ∀ i < n, s.src[j + i]? = some (BitVec.ofNat 8 (u / 128 ^ i % 128 + if i + 1 < n then 128 else 0))) :
    ∀ fuel i, i < n → n < i + fuel →
      vbyLoop s.source fuel (u % 128 ^ i) (7 * i) (8 * (j + i)) = .ok (u, 8 * (j + n)) := by
  intro fuel
  induction fuel with
  | zero => intro i h1 h2; omega
  | succ fuel ih =>
    intro i h1 h2
    have hlt : u / 128 ^ i % 128 < 128 := Nat.mod_lt _ (by norm_num)
    rw [vbyLoop, if_neg (by omega), takeByte_aligned hs .truncation (hb i h1), ok_bind]
    have hto : (BitVec.ofNat 8 (u / 128 ^ i % 128 + if i + 1 < n then 128 else 0)).toNat =
        u / 128 ^ i % 128 + if i + 1 < n then 128 else 0 := by
      rw [BitVec.toNat_ofNat, Nat.mod_eq_of_lt]; split_ifs <;> omega
    simp only [hto]
    have hgrp : (u / 128 ^ i % 128 + if i + 1 < n then 128 else 0) % 128 = u / 128 ^ i % 128 := by
      split_ifs <;> omega
    have hpow : (128 : Nat) ^ i = 2 ^ (7 * i) := by rw [show (128 : Nat) = 2 ^ 7 by norm_num, ← pow_mul]
    have hpow1 : (128 : Nat) ^ (i + 1) = 2 ^ (7 * i) * 128 := by rw [pow_succ, hpow]
    have hor : (u % 128 ^ i ||| (u / 128 ^ i % 128) <<< (7 * i)) % 2 ^ 64 = u % 128 ^ (i + 1) := by
      have h5 := Nat.two_pow_add_eq_or_of_lt (show u % 128 ^ i < 2 ^ (7 * i) by
        rw [← hpow]; exact Nat.mod_lt _ (by positivity)) (u / 128 ^ i % 128)
      rw [Nat.shiftLeft_eq, mul_comm _ (2 ^ (7 * i)), Nat.or_comm, ← h5, hpow1, Nat.mod_mul, hpow, Nat.add_comm,
        Nat.mod_eq_of_lt]
      have h6 : u % (2 ^ (7 * i) * 128) ≤ u := Nat.mod_le _ _
      rw [Nat.mod_mul] at h6; omega
    rw [hgrp, hor]
    by_cases hc : i + 1 < n
    · simp only [hc, if_true]
      rw [if_neg (by omega), show 7 * i + 7 = 7 * (i + 1) by ring, show 8 * (j + i) + 8 = 8 * (j + (i + 1)) by ring]
      exact ih (i + 1) hc (by omega)
    · simp only [hc, if_false]
      obtain rfl : n = i + 1 := by omega
      rw [if_pos (by omega), Nat.mod_eq_of_lt h3]
      congr 2

/-- `VBY.D` takes exactly the bytes of a code and returns its value. -/
theorem vbyLoop_code {s : State} (hs : s.srcFail = none) {u j : Nat} {bytes : List Byte} (hu : u < 2 ^ 64)
    (hc : VarBytes u bytes) (hh : ∀ i (h : i < bytes.length), s.src[j + i]? = some bytes[i]) :
    vbyLoop s.source 11 0 0 (8 * j) = .ok (u, 8 * j + 8 * bytes.length) := by
  obtain ⟨h0, h1, h2, h3⟩ := hc
  have hpos : 0 < bytes.length := List.length_pos_iff.mpr h0
  have hle : bytes.length ≤ 10 := by
    by_contra hcon
    have := h2 (by omega)
    have h4 : 128 ^ 10 ≤ 128 ^ (bytes.length - 1) := Nat.pow_le_pow_right (by norm_num) (by omega)
    omega
  have := vbyLoop_spec hs hu j bytes.length hle h1 (fun i hi => by rw [hh i hi, h3 i hi]) 11 0 hpos (by omega)
  simpa [Nat.mod_one, Nat.mul_add] using this

theorem zigZag_lt {v : Int} (h1 : -2 ^ 63 ≤ v) (h2 : v ≤ (lmax : Int)) : zigZag v < 2 ^ 64 := by
  have := foldMag_le h1 h2
  unfold lmax at *
  unfold zigZag; split_ifs <;> omega

theorem unZigZag_zigZag (v : Int) : unZigZag (zigZag v) = v := by
  by_cases h : v < 0
  · have h1 : (2 * (-v - 1).toNat + 1) % 2 = 1 := by omega
    have h2 : (2 * (-v - 1).toNat + 1) / 2 = (-v - 1).toNat := by omega
    simp only [unZigZag, zigZag, foldMag_eq, h, if_true, h1, h2, unfoldMag, beq_self_eq_true]
    omega
  · have h1 : (2 * v.toNat % 2 == 1) = false := by simp
    have h2 : 2 * v.toNat / 2 = v.toNat := by omega
    simp only [unZigZag, zigZag, foldMag_eq, h, if_false, h1, h2, unfoldMag, Bool.false_eq_true]
    omega

theorem zigZag_unZigZag (u : Nat) : zigZag (unZigZag u) = u := by
  unfold unZigZag zigZag unfoldMag foldMag
  rcases Nat.mod_two_eq_zero_or_one u with h | h <;> simp [h] <;> split_ifs <;> omega

theorem zigZag_word (v : Word) : zigZag v.toInt = (zigZagWord v).toNat := by
  have hb := v.isLt
  rw [zigZag, foldMag_eq, zigZagWord]
  by_cases h : v.msb
  · have hi := BitVec.toInt_eq_msb_cond v
    rw [h] at hi
    simp only [if_true] at hi
    have hs : v.sshiftRight 63 = BitVec.allOnes 64 := by
      apply BitVec.eq_of_getLsbD_eq
      intro i hi'
      simp only [BitVec.getLsbD_sshiftRight, BitVec.getLsbD_allOnes, hi']
      rcases Nat.eq_zero_or_pos i with h0 | h0
      · subst h0; simp [BitVec.msb_eq_getLsbD_last] at h; simp [h]
      · have : ¬(63 + i < 64) := by omega
        simp [this, h, hi']
    rw [hs, BitVec.xor_allOnes, BitVec.toNat_not, BitVec.toNat_shiftLeft]
    have hmsb : 2 ^ 63 ≤ v.toNat := by have := BitVec.msb_eq_decide v; rw [h] at this; simpa using this.symm
    rw [hi, if_pos (by omega), if_pos (by omega), Nat.shiftLeft_eq]
    omega
  · have hm : v.toNat < 2 ^ 63 := by
      have := BitVec.msb_eq_decide v
      simp only [Bool.not_eq_true] at h
      rw [h] at this; simp at this; omega
    have hi : v.toInt = v.toNat := by rw [BitVec.toInt_eq_msb_cond]; simp [h]
    have hs : v.sshiftRight 63 = 0 := by
      rw [BitVec.sshiftRight_eq_of_msb_false (by simpa using h)]
      apply BitVec.eq_of_toNat_eq
      simp [Nat.shiftRight_eq_div_pow]; omega
    rw [hs, hi, show v <<< 1 ^^^ (0 : Word) = v <<< 1 from BitVec.xor_zero, BitVec.toNat_shiftLeft, if_neg (by omega),
      if_neg (by omega), Nat.shiftLeft_eq]
    simp; omega

end Sys2Proof.Machine
end

