-- ==== Sys2Proof/Laws/Arithmetic.lean ====
section
/-! SUPPORT. The arithmetic coder: the loops of 43_arithmetic.md R292 as relations, the interval they keep (R299), the
tables (R291) and the decode step (R298). -/

namespace Sys2Proof.Machine

open Sys2Proof Sys2Proof.Config

/-! ### Bits as arithmetic -/

theorem and_two_pow_beq (x i : Nat) : (x &&& 2 ^ i == 0) = !x.testBit i := by
  rw [Nat.and_two_pow]
  cases x.testBit i <;> simp

theorem topsAgree_eq (w low high : Nat) : topsAgree w low high = (low.testBit (w - 1) == high.testBit (w - 1)) := by
  rw [topsAgree, halfOf, and_two_pow_beq, Nat.testBit_xor]
  cases low.testBit (w - 1) <;> cases high.testBit (w - 1) <;> rfl

theorem nearHalf_eq (w low high : Nat) :
    nearHalf w low high = true ↔ low.testBit (w - 2) = true ∧ high.testBit (w - 2) = false := by
  simp [nearHalf]

theorem even_or_bit (x : Nat) (b : Bool) : 2 * x ||| b.toNat = 2 * x + b.toNat := by
  have := Nat.two_pow_add_eq_or_of_lt (show b.toNat < 2 ^ 1 by cases b <;> simp) x
  simpa using this.symm

theorem even_or_one (x : Nat) : 2 * x ||| 1 = 2 * x + 1 := even_or_bit x true

theorem xor_two_pow_top {r i : Nat} (h : r < 2 ^ i) : (2 ^ i + r) ^^^ 2 ^ i = r := by
  have h1 := Nat.two_pow_add_eq_or_of_lt h 1
  rw [mul_one] at h1
  rw [h1]
  apply Nat.eq_of_testBit_eq
  intro j
  simp only [Nat.testBit_xor, Nat.testBit_or, Nat.testBit_two_pow]
  by_cases hj : i = j
  · subst hj; simp [Nat.testBit_lt_two_pow h]
  · simp [hj]

theorem shiftLow_eq (w low : Nat) : (low <<< 1) &&& (2 ^ w - 1) = 2 * low % 2 ^ w := by
  rw [Nat.and_two_pow_sub_one_eq_mod, Nat.shiftLeft_eq, pow_one, mul_comm]

theorem shiftHigh_eq {w : Nat} (hw : 1 ≤ w) (high : Nat) (b : Bool) :
    ((high <<< 1) &&& (2 ^ w - 1)) ||| b.toNat = 2 * high % 2 ^ w + b.toNat := by
  rw [shiftLow_eq]
  obtain ⟨v, rfl⟩ : ∃ v, w = v + 1 := ⟨w - 1, by omega⟩
  rw [pow_succ', Nat.mul_mod_mul_left, even_or_bit]

/-- The top bit of a `w`-bit number. -/
theorem testBit_top {w x : Nat} (hw : 1 ≤ w) (h : x < 2 ^ w) : x.testBit (w - 1) = decide (2 ^ (w - 1) ≤ x) := by
  obtain ⟨v, rfl⟩ : ∃ v, w = v + 1 := ⟨w - 1, by omega⟩
  simp only [Nat.add_sub_cancel]
  rw [pow_succ] at h
  have hpos : 0 < 2 ^ v := by positivity
  rw [Nat.testBit_eq_decide_div_mod_eq]
  congr 1
  rw [eq_iff_iff]
  constructor
  · intro h1
    by_contra hc
    rw [Nat.div_eq_of_lt (by omega)] at h1; omega
  · intro h1
    have : x / 2 ^ v = 1 := by
      rw [Nat.div_eq_iff hpos]; omega
    omega

/-- The facts of one shift: both bounds lose the same top bit. -/
theorem shift_step {w x b : Nat} (hw : 1 ≤ w) (h : x < 2 ^ w) (hb : b ≤ 1) :
    2 * x % 2 ^ w + b = 2 * x + b - (if 2 ^ (w - 1) ≤ x then 2 ^ w else 0) ∧ 2 * x % 2 ^ w + b < 2 ^ w := by
  obtain ⟨v, rfl⟩ : ∃ v, w = v + 1 := ⟨w - 1, by omega⟩
  simp only [Nat.add_sub_cancel]
  rw [pow_succ'] at *
  rw [Nat.mul_mod_mul_left]
  have hpos : 0 < 2 ^ v := by positivity
  split_ifs with h1
  · have : x % 2 ^ v = x - 2 ^ v := by
      rw [Nat.mod_eq_sub_mod h1, Nat.mod_eq_of_lt (by omega)]
    omega
  · rw [Nat.mod_eq_of_lt (by omega)]; omega

/-- An underflow step on LOW. -/
theorem under_low {w low : Nat} (hw : 2 ≤ w) (h : low < 2 ^ (w - 1)) (hq : 2 ^ (w - 2) ≤ low) :
    (low <<< 1) ^^^ 2 ^ (w - 1) = 2 * low - 2 ^ (w - 1) := by
  obtain ⟨v, rfl⟩ : ∃ v, w = v + 2 := ⟨w - 2, by omega⟩
  simp only [show v + 2 - 1 = v + 1 by omega, show v + 2 - 2 = v by omega] at *
  rw [Nat.shiftLeft_eq, pow_one, mul_comm]
  have h2 : 2 ^ (v + 1) = 2 * 2 ^ v := pow_succ' 2 v
  have := xor_two_pow_top (show 2 * low - 2 ^ (v + 1) < 2 ^ (v + 1) by omega)
  rwa [show 2 ^ (v + 1) + (2 * low - 2 ^ (v + 1)) = 2 * low by omega] at this

/-- An underflow step on HIGH. -/
theorem under_high {w high : Nat} (hw : 2 ≤ w) (h : 2 ^ (w - 1) ≤ high) (hq : high < 3 * 2 ^ (w - 2)) :
    ((high ^^^ 2 ^ (w - 1)) <<< 1) ||| 2 ^ (w - 1) ||| 1 = 2 * high - 2 ^ (w - 1) + 1 := by
  obtain ⟨v, rfl⟩ : ∃ v, w = v + 2 := ⟨w - 2, by omega⟩
  simp only [show v + 2 - 1 = v + 1 by omega, show v + 2 - 2 = v by omega] at *
  have h2 : 2 ^ (v + 1) = 2 * 2 ^ v := pow_succ' 2 v
  have h3 := xor_two_pow_top (show high - 2 ^ (v + 1) < 2 ^ (v + 1) by omega)
  rw [show 2 ^ (v + 1) + (high - 2 ^ (v + 1)) = high by omega] at h3
  rw [h3, Nat.shiftLeft_eq, pow_one, mul_comm]
  have h4 := Nat.two_pow_add_eq_or_of_lt (show 2 * (high - 2 ^ (v + 1)) < 2 ^ (v + 1) by omega) 1
  rw [mul_one] at h4
  rw [Nat.or_comm (2 * _), ← h4, h2, show 2 * 2 ^ v + 2 * (high - 2 * 2 ^ v) = 2 * (2 ^ v + (high - 2 * 2 ^ v)) by ring,
    even_or_one]
  omega

/-- An underflow step on CODE, between the bounds. -/
theorem under_code {w code : Nat} (hw : 2 ≤ w) (h1 : 2 ^ (w - 2) ≤ code) (h2 : code < 3 * 2 ^ (w - 2)) (b : Bool) :
    (code &&& 2 ^ (w - 1)) ||| ((code <<< 1) &&& ((2 ^ w - 1) >>> 1)) ||| b.toNat =
      2 * code - 2 ^ (w - 1) + b.toNat := by
  obtain ⟨v, rfl⟩ : ∃ v, w = v + 2 := ⟨w - 2, by omega⟩
  simp only [show v + 2 - 1 = v + 1 by omega, show v + 2 - 2 = v by omega] at *
  have hp1 : 2 ^ (v + 1) = 2 * 2 ^ v := pow_succ' 2 v
  have hp2 : 2 ^ (v + 2) = 4 * 2 ^ v := by rw [pow_succ, pow_succ]; ring
  have hpos : 0 < 2 ^ v := by positivity
  have hmask : (2 ^ (v + 2) - 1) >>> 1 = 2 ^ (v + 1) - 1 := by
    rw [Nat.shiftRight_eq_div_pow, pow_one]; omega
  rw [hmask, shiftLow_eq, Nat.and_two_pow]
  have htb := testBit_top (w := v + 2) (x := code) (by omega) (by omega)
  rw [show v + 2 - 1 = v + 1 by omega] at htb
  rw [htb]
  by_cases hc : 2 ^ (v + 1) ≤ code
  · have e1 : 2 * code % 2 ^ (v + 1) = 2 * (code - 2 ^ (v + 1)) := by
      rw [show 2 * code = 2 * (code - 2 ^ (v + 1)) + 2 ^ (v + 1) * 2 by omega, Nat.add_mul_mod_self_left,
        Nat.mod_eq_of_lt (by omega)]
    have h4 := Nat.two_pow_add_eq_or_of_lt (show 2 * (code - 2 ^ (v + 1)) < 2 ^ (v + 1) by omega) 1
    rw [mul_one] at h4
    simp only [hc, decide_true, Bool.toNat_true, one_mul, e1]
    rw [← h4, show 2 ^ (v + 1) + 2 * (code - 2 ^ (v + 1)) = 2 * (2 ^ v + (code - 2 ^ (v + 1))) by omega, even_or_bit]
    omega
  · have e1 : 2 * code % 2 ^ (v + 1) = 2 * (code - 2 ^ v) := by
      rw [show 2 * code = 2 * (code - 2 ^ v) + 2 ^ (v + 1) * 1 by omega, Nat.add_mul_mod_self_left,
        Nat.mod_eq_of_lt (by omega)]
    simp only [hc, decide_false, Bool.toNat_false, zero_mul, Nat.zero_or, e1, even_or_bit]
    omega

/-- Near-convergence, in the interval after the shifts. -/
theorem near_iff {w low high : Nat} (hw : 2 ≤ w) (hl : low < 2 ^ (w - 1)) (hh : 2 ^ (w - 1) ≤ high)
    (ht : high < 2 ^ w) :
    (low.testBit (w - 2) = true ∧ high.testBit (w - 2) = false) ↔
      (2 ^ (w - 2) ≤ low ∧ high < 3 * 2 ^ (w - 2)) := by
  obtain ⟨v, rfl⟩ : ∃ v, w = v + 2 := ⟨w - 2, by omega⟩
  simp only [show v + 2 - 1 = v + 1 by omega, show v + 2 - 2 = v by omega] at *
  have hp1 : 2 ^ (v + 1) = 2 * 2 ^ v := pow_succ' 2 v
  have hp2 : 2 ^ (v + 2) = 4 * 2 ^ v := by rw [pow_succ, pow_succ]; ring
  have hpos : 0 < 2 ^ v := by positivity
  have h1 := testBit_top (w := v + 1) (x := low) (by omega) (by omega)
  rw [show v + 1 - 1 = v by omega] at h1
  have h2 : high.testBit v = (high - 2 ^ (v + 1)).testBit v := by
    conv_lhs => rw [show high = 2 ^ (v + 1) * 1 + (high - 2 ^ (v + 1)) by omega]
    rw [Nat.testBit_two_pow_mul_add _ (by omega)]; simp
  have h3 := testBit_top (w := v + 1) (x := high - 2 ^ (v + 1)) (by omega) (by omega)
  rw [show v + 1 - 1 = v by omega] at h3
  rw [h1, h2, h3]
  simp only [decide_eq_true_eq, decide_eq_false_iff_not]
  omega

/-! ### The loops -/

/-- One shift keeps `low ≤ high < 2^w` and doubles the range. -/
theorem shift_bounds {w low high : Nat} (hw : 1 ≤ w) (hle : low ≤ high) (ht : high < 2 ^ w)
    (ha : low.testBit (w - 1) = high.testBit (w - 1)) :
    2 * low % 2 ^ w ≤ 2 * high % 2 ^ w + 1 ∧ 2 * high % 2 ^ w + 1 < 2 ^ w ∧
      2 * high % 2 ^ w + 1 - 2 * low % 2 ^ w + 1 = 2 * (high - low + 1) := by
  have h1 := shift_step hw (show low < 2 ^ w by omega) (show 0 ≤ 1 by omega)
  have h2 := shift_step hw ht le_rfl
  rw [testBit_top hw (by omega), testBit_top hw ht, decide_eq_decide] at ha
  by_cases hc : 2 ^ (w - 1) ≤ low
  · have hc' := ha.mp hc
    rw [if_pos hc] at h1; rw [if_pos hc'] at h2
    have : 2 ^ w = 2 * 2 ^ (w - 1) := by rw [← pow_succ', Nat.sub_add_cancel hw]
    omega
  · have hc' := mt ha.mpr hc
    rw [if_neg hc] at h1; rw [if_neg hc'] at h2
    omega

/-- The tops of a full interval differ. -/
theorem tops_full {w low high : Nat} (hw : 1 ≤ w) (hle : low ≤ high) (ht : high < 2 ^ w)
    (hf : 2 ^ w ≤ high - low + 1) : low.testBit (w - 1) ≠ high.testBit (w - 1) := by
  have hp : 2 ^ w = 2 * 2 ^ (w - 1) := by rw [← pow_succ', Nat.sub_add_cancel hw]
  have hpos : 0 < 2 ^ (w - 1) := by positivity
  rw [testBit_top hw (by omega), testBit_top hw ht]
  have : low = 0 := by omega
  subst this
  rw [decide_eq_false (by omega), decide_eq_true (by omega)]; simp

/-- The interval after the shift loop. -/
def Straddles (w low high : Nat) : Prop := low < 2 ^ (w - 1) ∧ 2 ^ (w - 1) ≤ high ∧ high < 2 ^ w

theorem straddles_of_tops {w low high : Nat} (hw : 1 ≤ w) (hle : low ≤ high) (ht : high < 2 ^ w)
    (h : low.testBit (w - 1) ≠ high.testBit (w - 1)) : Straddles w low high := by
  rw [testBit_top hw (by omega), testBit_top hw ht] at h
  refine ⟨?_, ?_, ht⟩
  · by_contra hc
    apply h; rw [decide_eq_true (by omega), decide_eq_true (by omega)]
  · by_contra hc
    apply h; rw [decide_eq_false (by omega), decide_eq_false (by omega)]

/-- The shift loop of the encoder is the loop of R292: its fuel suffices. -/
theorem encShifts_run {w : Nat} (hw : 1 ≤ w) : ∀ fuel low high uf, low ≤ high → high < 2 ^ w →
    2 ^ w ≤ (high - low + 1) * 2 ^ fuel →
    ∃ bits l h u, encShifts w fuel low high uf = (bits, l, h, u) ∧ ShiftRun w low high uf bits l h u ∧
      Straddles w l h ∧ l ≤ h ∧ high - low + 1 ≤ h - l + 1 ∧ u ≤ uf := by
  intro fuel
  induction fuel with
  | zero =>
    intro low high uf hle ht hf
    have htops := tops_full hw hle ht (by simpa using hf)
    exact ⟨[], low, high, uf, rfl, .stop low high uf htops, straddles_of_tops hw hle ht htops, hle, le_rfl, le_rfl⟩
  | succ fuel ih =>
    intro low high uf hle ht hf
    rw [encShifts, topsAgree_eq]
    by_cases ha : low.testBit (w - 1) = high.testBit (w - 1)
    · rw [if_pos (by simp [ha])]
      obtain ⟨b1, b2, b3⟩ := shift_bounds hw hle ht ha
      have e1 : shiftLow w low = 2 * low % 2 ^ w := shiftLow_eq w low
      have e2 : shiftHigh w high = 2 * high % 2 ^ w + 1 := shiftHigh_eq hw high true
      obtain ⟨bits, l, h, u, he, hr, hs, h4, h5, h6⟩ := ih (shiftLow w low) (shiftHigh w high) 0
        (by rw [e1, e2]; exact b1) (by rw [e2]; exact b2) (by rw [e1, e2, b3]; rw [pow_succ] at hf; linarith)
      refine ⟨_, l, h, u, ?_, .shift low high uf bits l h u ha hr, hs, h4, ?_, ?_⟩
      · rw [he]; simp
      · rw [e1, e2] at h5; omega
      · omega
    · rw [if_neg (by simpa using ha)]
      exact ⟨[], low, high, uf, rfl, .stop low high uf ha, straddles_of_tops hw hle ht ha, hle, le_rfl, le_rfl⟩

/-- One underflow step keeps the straddling interval and doubles the range. -/
theorem under_bounds {w low high : Nat} (hw : 2 ≤ w) (hs : Straddles w low high)
    (hn : 2 ^ (w - 2) ≤ low ∧ high < 3 * 2 ^ (w - 2)) :
    Straddles w (2 * low - 2 ^ (w - 1)) (2 * high - 2 ^ (w - 1) + 1) ∧
      2 * low - 2 ^ (w - 1) ≤ 2 * high - 2 ^ (w - 1) + 1 ∧
      2 * high - 2 ^ (w - 1) + 1 - (2 * low - 2 ^ (w - 1)) + 1 = 2 * (high - low + 1) := by
  obtain ⟨h1, h2, h3⟩ := hs
  have hp1 : 2 ^ (w - 1) = 2 * 2 ^ (w - 2) := by rw [← pow_succ']; congr 1; omega
  have hp2 : 2 ^ w = 4 * 2 ^ (w - 2) := by
    rw [show 4 * 2 ^ (w - 2) = 2 ^ (2 + (w - 2)) by rw [pow_add]; norm_num]; congr 1; omega
  refine ⟨⟨?_, ?_, ?_⟩, ?_, ?_⟩ <;> omega

/-- An interval that straddles the half-point and is not near it is sound. -/
theorem sound_of_straddles {w low high : Nat} (hw : 2 ≤ w) (hw' : w ≤ 62) (hs : Straddles w low high)
    (hn : ¬(low.testBit (w - 2) = true ∧ high.testBit (w - 2) = false)) : IntervalSound w low high := by
  rw [near_iff hw hs.1 hs.2.1 hs.2.2] at hn
  exact ⟨hw, hw', hs.1, hs.2.1, hs.2.2, by omega⟩

/-- The underflow loop of the encoder is the loop of R292 with its limit: its fuel suffices. -/
theorem encUnders_run {w ufMax : Nat} (hw : 2 ≤ w) (hw' : w ≤ 62) : ∀ fuel low high uf, Straddles w low high →
    low ≤ high → 2 ^ w ≤ (high - low + 1) * 2 ^ fuel → uf ≤ ufMax →
    ∃ l h u, UnderRun w low high uf l h u ∧ IntervalSound w l h ∧ uf ≤ u ∧
      encUnders w ufMax fuel low high uf = if u ≤ ufMax then some (l, h, u) else none := by
  intro fuel
  induction fuel with
  | zero =>
    intro low high uf hs hle hf hu
    have hn : ¬(low.testBit (w - 2) = true ∧ high.testBit (w - 2) = false) := by
      have h3 := hs.2.2
      rw [show low = 0 by omega]; simp
    exact ⟨low, high, uf, .stop low high uf hn, sound_of_straddles hw hw' hs hn, le_rfl, by
      rw [encUnders, if_pos hu]⟩
  | succ fuel ih =>
    intro low high uf hs hle hf hu
    rw [encUnders]
    by_cases hn : low.testBit (w - 2) = true ∧ high.testBit (w - 2) = false
    · rw [if_pos ((nearHalf_eq w low high).mpr hn)]
      have hn' := (near_iff hw hs.1 hs.2.1 hs.2.2).mp hn
      have e1 : underLow w low = 2 * low - 2 ^ (w - 1) := under_low hw hs.1 hn'.1
      have e2 : underHigh w high = 2 * high - 2 ^ (w - 1) + 1 := under_high hw hs.2.1 hn'.2
      obtain ⟨b1, b2, b3⟩ := under_bounds hw hs hn'
      rw [← e1, ← e2] at b1 b2 b3
      by_cases hcap : ufMax ≤ uf
      · rw [if_pos hcap]
        -- beyond the limit the run goes on without it
        obtain ⟨l, h, u, hr, h5, h6, _⟩ : ∃ l h u, UnderRun w (underLow w low) (underHigh w high) (uf + 1) l h u ∧
            IntervalSound w l h ∧ uf + 1 ≤ u ∧ True := by
          have aux : ∀ fuel low high uf, Straddles w low high → low ≤ high → 2 ^ w ≤ (high - low + 1) * 2 ^ fuel →
              ∃ l h u, UnderRun w low high uf l h u ∧ IntervalSound w l h ∧ uf ≤ u ∧ True := by
            intro fuel
            induction fuel with
            | zero =>
              intro low high uf hs hle hf
              have hn : ¬(low.testBit (w - 2) = true ∧ high.testBit (w - 2) = false) := by
                have h3 := hs.2.2
                rw [show low = 0 by omega]; simp
              exact ⟨low, high, uf, .stop low high uf hn, sound_of_straddles hw hw' hs hn, le_rfl, trivial⟩
            | succ fuel ih =>
              intro low high uf hs hle hf
              by_cases hn : low.testBit (w - 2) = true ∧ high.testBit (w - 2) = false
              · have hn' := (near_iff hw hs.1 hs.2.1 hs.2.2).mp hn
                have e1 := under_low hw hs.1 hn'.1
                have e2 := under_high hw hs.2.1 hn'.2
                obtain ⟨b1, b2, b3⟩ := under_bounds hw hs hn'
                rw [← e1, ← e2] at b1 b2 b3
                obtain ⟨l, h, u, hr, h5, h6, _⟩ := ih _ _ (uf + 1) b1 b2
                  (by rw [b3]; rw [pow_succ] at hf; linarith)
                exact ⟨l, h, u, .under low high uf l h u hn hr, h5, by omega, trivial⟩
              · exact ⟨low, high, uf, .stop low high uf hn, sound_of_straddles hw hw' hs hn, le_rfl, trivial⟩
          exact aux fuel _ _ _ b1 b2 (by rw [b3]; rw [pow_succ] at hf; linarith)
        exact ⟨l, h, u, .under low high uf l h u hn hr, h5, by omega, by rw [if_neg (by omega)]⟩
      · rw [if_neg hcap]
        obtain ⟨l, h, u, hr, h5, h6, h7⟩ := ih _ _ (uf + 1) b1 b2
          (by rw [b3]; rw [pow_succ] at hf; linarith) (by omega)
        exact ⟨l, h, u, .under low high uf l h u hn hr, h5, by omega, h7⟩
    · rw [if_neg (by rw [nearHalf_eq]; exact hn)]
      exact ⟨low, high, uf, .stop low high uf hn, sound_of_straddles hw hw' hs hn, le_rfl, by rw [if_pos hu]⟩

/-- The loops of R292 have one outcome. -/
theorem shiftRun_det {w low high uf : Nat} {bits : List Bool} {l h u : Nat} (r1 : ShiftRun w low high uf bits l h u) :
    ∀ {bits' l' h' u'}, ShiftRun w low high uf bits' l' h' u' → bits = bits' ∧ l = l' ∧ h = h' ∧ u = u' := by
  induction r1 with
  | stop low high uf hne =>
    intro bits' l' h' u' r2
    cases r2 with
    | stop => exact ⟨rfl, rfl, rfl, rfl⟩
    | shift _ _ _ _ _ _ _ ha => exact absurd ha hne
  | shift low high uf bits l h u ha _ ih =>
    intro bits' l' h' u' r2
    cases r2 with
    | stop _ _ _ hne => exact absurd ha hne
    | shift _ _ _ bits2 _ _ _ _ r =>
      obtain ⟨rfl, rfl, rfl, rfl⟩ := ih r
      exact ⟨rfl, rfl, rfl, rfl⟩

/-- The loops of R292 have one outcome. -/
theorem underRun_det {w low high uf l h u : Nat} (r1 : UnderRun w low high uf l h u) :
    ∀ {l' h' u'}, UnderRun w low high uf l' h' u' → l = l' ∧ h = h' ∧ u = u' := by
  induction r1 with
  | stop low high uf hne =>
    intro l' h' u' r2
    cases r2 with
    | stop => exact ⟨rfl, rfl, rfl⟩
    | under _ _ _ _ _ _ ha => exact absurd ha hne
  | under low high uf l h u ha _ ih =>
    intro l' h' u' r2
    cases r2 with
    | stop _ _ _ hne => exact absurd ha hne
    | under _ _ _ _ _ _ _ r => exact ih r

/-! ### Narrowing (R290, R292, R299) -/

/-- A sound interval is at least as wide as the budget (R299 (a)). -/
theorem budget_le_range {w low high : Nat} (h : IntervalSound w low high) : budget w ≤ high - low + 1 := by
  obtain ⟨h1, _, h3, h4, h5, h6⟩ := h
  have hp1 : 2 ^ (w - 1) = 2 * 2 ^ (w - 2) := by rw [← pow_succ']; congr 1; omega
  unfold budget
  have := min_le_right (lmax / 2 ^ w) (2 ^ (w - 2) + 2)
  omega

theorem symHigh_le_total {w : Nat} {tab : List Nat} (h : TableValid w tab) {sym : Nat} (hs : sym < tab.length) :
    symHigh tab sym ≤ tab.getLastD 0 := by
  obtain ⟨h0, hp, _, _⟩ := h
  unfold symHigh
  rw [List.getLastD_eq_getLast?, List.getLast?_eq_getElem?, List.getD_eq_getElem?_getD]
  rw [List.getElem?_eq_getElem hs, List.getElem?_eq_getElem (by omega)]
  simp only [Option.getD_some]
  rcases Nat.lt_or_ge sym (tab.length - 1) with hlt | hge
  · exact List.pairwise_iff_getElem.mp hp sym (tab.length - 1) hs (by omega) hlt
  · have : sym = tab.length - 1 := by omega
    simp [this]

/-- The narrowed interval is inside the old one and not empty (R299 (a)). -/
theorem narrow_bounds {low high clo chi total : Nat} (hle : low ≤ high) (hlt : clo < chi) (hchi : chi ≤ total)
    (htot : total ≤ high - low + 1) :
    low ≤ newLow low high clo total ∧ newLow low high clo total ≤ newHigh low high chi total ∧
      newHigh low high chi total ≤ high := by
  have hpos : 0 < total := by omega
  unfold newLow newHigh
  have h1 : clo * (high - low + 1) / total + 1 ≤ chi * (high - low + 1) / total := by
    rw [Nat.le_div_iff_mul_le hpos, Nat.add_mul, one_mul]
    have h2 := Nat.div_mul_le_self (clo * (high - low + 1)) total
    have h3 : (clo + 1) * (high - low + 1) ≤ chi * (high - low + 1) := Nat.mul_le_mul_right _ hlt
    rw [Nat.add_mul, one_mul] at h3
    omega
  have h4 : chi * (high - low + 1) / total ≤ high - low + 1 := by
    rw [Nat.div_le_iff_le_mul_add_pred hpos]
    have := Nat.mul_le_mul_right (high - low + 1) hchi
    omega
  generalize clo * (high - low + 1) / total = x at *
  generalize chi * (high - low + 1) / total = y at *
  omega

theorem full_fuel {w r : Nat} (h : 1 ≤ r) : 2 ^ w ≤ r * 2 ^ w := Nat.le_mul_of_pos_left _ h

/-- `AEUpdate` of the encoder is the two loops of R292 (fuel suffices), and keeps the interval sound. -/
theorem encUpdate_run {ae : ArithEnc} {tab : List Nat} {sym ufMax : Nat} (hi : IntervalSound ae.w ae.low ae.high)
    (hu : ae.uf ≤ ufMax) (hc : Codable ae.w tab sym) :
    ∃ bits l h u, EncoderRun ae tab sym bits l h u ∧ IntervalSound ae.w l h ∧
      encUpdate ufMax ae (symLow tab sym) (symHigh tab sym) (tab.getLastD 0) =
        if u ≤ ufMax then .ok (bits, { ae with low := l, high := h, uf := u }) else .error bits.length := by
  obtain ⟨hv, hs, hlt⟩ := hc
  have htot : tab.getLastD 0 ≤ ae.high - ae.low + 1 := hv.2.2.2.trans (budget_le_range hi)
  obtain ⟨n1, n2, n3⟩ := narrow_bounds (by have := hi.below; have := hi.above; omega) hlt (symHigh_le_total hv hs) htot
  have hw := hi.widthLow
  obtain ⟨bits, l1, h1, u1, e1, r1, s1, le1, _, hu1⟩ := encShifts_run (show 1 ≤ ae.w by omega) ae.w
    (newLow ae.low ae.high (symLow tab sym) (tab.getLastD 0))
    (newHigh ae.low ae.high (symHigh tab sym) (tab.getLastD 0)) ae.uf n2 (n3.trans_lt hi.top) (full_fuel (by omega))
  obtain ⟨l, h, u, r2, hsound, _, e2⟩ := encUnders_run (ufMax := ufMax) hw hi.widthHigh ae.w l1 h1 u1 s1 le1
    (full_fuel (by omega)) (hu1.trans hu)
  refine ⟨bits, l, h, u, ⟨l1, h1, u1, r1, r2⟩, hsound, ?_⟩
  have e1' : encShifts ae.w ae.w (narrowLow ae.low ae.high (symLow tab sym) (tab.getLastD 0))
    (narrowHigh ae.low ae.high (symHigh tab sym) (tab.getLastD 0)) ae.uf = (bits, l1, h1, u1) := e1
  rw [encUpdate, e1']
  simp only [e2]
  split_ifs <;> rfl

/-- R292 fixes the outcome of the encoder's update. -/
theorem encoderRun_det {ae : ArithEnc} {tab : List Nat} {sym : Nat} {bits bits' : List Bool} {l h u l' h' u' : Nat}
    (r : EncoderRun ae tab sym bits l h u) (r' : EncoderRun ae tab sym bits' l' h' u') :
    bits = bits' ∧ l = l' ∧ h = h' ∧ u = u' := by
  obtain ⟨l1, h1, u1, a, b⟩ := r
  obtain ⟨l2, h2, u2, c, d⟩ := r'
  obtain ⟨rfl, rfl, rfl, rfl⟩ := shiftRun_det a c
  obtain ⟨rfl, rfl, rfl⟩ := underRun_det b d
  exact ⟨rfl, rfl, rfl, rfl⟩

/-! ### The decoder's loops -/

/-- The shift loop of the decoder takes exactly the bits of the loop of R292. -/
theorem decShifts_run {s : State} (hsrc : s.srcFail = none) {w : Nat} (hw : 1 ≤ w) : ∀ fuel low high code k bits l h c,
    low ≤ high → high < 2 ^ w → 2 ^ w ≤ (high - low + 1) * 2 ^ fuel → DecShiftRun w low high code bits l h c →
    HoldsAt s k bits → decShifts s.source w fuel low high code k = .ok (l, h, c, k + bits.length) := by
  intro fuel
  induction fuel with
  | zero =>
    intro low high code k bits l h c hle ht hf r hh
    cases r with
    | stop => rfl
    | shift _ _ _ _ _ _ _ _ ha => exact absurd ha (tops_full hw hle ht (by simpa using hf))
  | succ fuel ih =>
    intro low high code k bits l h c hle ht hf r hh
    rw [decShifts, topsAgree_eq]
    cases r with
    | stop _ _ _ hne => rw [if_neg (by simpa using hne)]; rfl
    | shift _ _ _ b bits _ _ _ ha r =>
      rw [if_pos (by simp [ha])]
      rw [holdsAt_cons] at hh
      rw [takeBit_some hsrc hh.1, ok_bind]
      obtain ⟨b1, b2, b3⟩ := shift_bounds hw hle ht ha
      have e1 : shiftLow w low = 2 * low % 2 ^ w := shiftLow_eq w low
      have e2 : shiftHigh w high = 2 * high % 2 ^ w + 1 := shiftHigh_eq hw high true
      have := ih (shiftLow w low) (shiftHigh w high) (((code <<< 1) &&& maskOf w) ||| b.toNat) (k + 1) bits l h c
        (by rw [e1, e2]; exact b1) (by rw [e2]; exact b2)
        (by rw [e1, e2, b3]; rw [pow_succ] at hf; linarith) r hh.2
      simp only
      rw [this, List.length_cons]
      congr 4; omega

/-- The underflow loop of the decoder takes exactly the bits of the loop of R292. -/
theorem decUnders_run {s : State} (hsrc : s.srcFail = none) {w : Nat} (hw : 2 ≤ w) :
    ∀ fuel low high code k bits l h c, Straddles w low high → low ≤ high → 2 ^ w ≤ (high - low + 1) * 2 ^ fuel →
    DecUnderRun w low high code bits l h c → HoldsAt s k bits →
    decUnders s.source w fuel low high code k = .ok (l, h, c, k + bits.length) := by
  intro fuel
  induction fuel with
  | zero =>
    intro low high code k bits l h c hs hle hf r hh
    cases r with
    | stop => rfl
    | under _ _ _ _ _ _ _ _ hn =>
      have h3 := hs.2.2
      have h0 : low = 0 := by omega
      subst h0; simp at hn
  | succ fuel ih =>
    intro low high code k bits l h c hs hle hf r hh
    rw [decUnders]
    cases r with
    | stop _ _ _ hn => rw [if_neg (by rw [nearHalf_eq]; exact hn)]; rfl
    | under _ _ _ b bits _ _ _ hn r =>
      rw [if_pos ((nearHalf_eq w low high).mpr hn)]
      rw [holdsAt_cons] at hh
      rw [takeBit_some hsrc hh.1, ok_bind]
      have hn' := (near_iff hw hs.1 hs.2.1 hs.2.2).mp hn
      have e1 : underLow w low = 2 * low - 2 ^ (w - 1) := under_low hw hs.1 hn'.1
      have e2 : underHigh w high = 2 * high - 2 ^ (w - 1) + 1 := under_high hw hs.2.1 hn'.2
      obtain ⟨b1, b2, b3⟩ := under_bounds hw hs hn'
      rw [← e1, ← e2] at b1 b2 b3
      have := ih (underLow w low) (underHigh w high)
        ((code &&& halfOf w) ||| ((code <<< 1) &&& (maskOf w >>> 1)) ||| b.toNat) (k + 1) bits l h c b1 b2
        (by rw [b3]; rw [pow_succ] at hf; linarith) r hh.2
      simp only
      rw [this, List.length_cons]
      congr 4; omega

/-- A bit is taken at a position one further on. -/
theorem takeBit_pos {src : Source} {k : Nat} {b : Bool} {k1 : Nat} (h : takeBit src k = .ok (b, k1)) : k1 = k + 1 := by
  unfold takeBit at h
  split_ifs at h <;> simp_all

/-- Where the decoder's shift loop goes on, it does the encoder's shifts and keeps CODE in the interval. -/
theorem decShifts_ok {src : Source} {w : Nat} (hw : 1 ≤ w) : ∀ fuel low high code k l h c k',
    low ≤ high → high < 2 ^ w → 2 ^ w ≤ (high - low + 1) * 2 ^ fuel → low ≤ code → code ≤ high →
    decShifts src w fuel low high code k = .ok (l, h, c, k') →
    Straddles w l h ∧ l ≤ h ∧ l ≤ c ∧ c ≤ h ∧ k ≤ k' ∧ ∀ uf, ∃ bits u, ShiftRun w low high uf bits l h u := by
  intro fuel
  induction fuel with
  | zero =>
    intro low high code k l h c k' hle ht hf hc1 hc2 hok
    simp only [decShifts, Except.ok.injEq, Prod.mk.injEq] at hok
    obtain ⟨rfl, rfl, rfl, rfl⟩ := hok
    have htops := tops_full hw hle ht (by simpa using hf)
    exact ⟨straddles_of_tops hw hle ht htops, hle, hc1, hc2, le_rfl, fun uf => ⟨[], uf, .stop _ _ _ htops⟩⟩
  | succ fuel ih =>
    intro low high code k l h c k' hle ht hf hc1 hc2 hok
    rw [decShifts, topsAgree_eq] at hok
    by_cases ha : low.testBit (w - 1) = high.testBit (w - 1)
    · rw [if_pos (by simp [ha])] at hok
      obtain ⟨⟨b, k1⟩, ht1, hok⟩ := bind_ok hok
      have hk1 := takeBit_pos ht1
      obtain ⟨b1, b2, b3⟩ := shift_bounds hw hle ht ha
      have e1 : shiftLow w low = 2 * low % 2 ^ w := shiftLow_eq w low
      have e2 : shiftHigh w high = 2 * high % 2 ^ w + 1 := shiftHigh_eq hw high true
      have e3 : ((code <<< 1) &&& maskOf w) ||| b.toNat = 2 * code % 2 ^ w + b.toNat := shiftHigh_eq hw code b
      have s1 := shift_step hw (show low < 2 ^ w by omega) (show 0 ≤ 1 by omega)
      have s2 := shift_step hw ht le_rfl
      have s3 := shift_step hw (show code < 2 ^ w by omega) (show b.toNat ≤ 1 by cases b <;> simp)
      have hcode : 2 * low % 2 ^ w ≤ 2 * code % 2 ^ w + b.toNat ∧ 2 * code % 2 ^ w + b.toNat ≤ 2 * high % 2 ^ w + 1 := by
        have hb : b.toNat ≤ 1 := by cases b <;> simp
        rw [testBit_top hw (by omega), testBit_top hw ht, decide_eq_decide] at ha
        have hp : 2 ^ w = 2 * 2 ^ (w - 1) := by rw [← pow_succ', Nat.sub_add_cancel hw]
        by_cases hc : 2 ^ (w - 1) ≤ low
        · have hc' := ha.mp hc
          rw [if_pos hc] at s1; rw [if_pos hc'] at s2; rw [if_pos (by omega)] at s3
          omega
        · have hc' := mt ha.mpr hc
          rw [if_neg hc] at s1; rw [if_neg hc'] at s2; rw [if_neg (by omega)] at s3
          omega
      obtain ⟨g1, g2, g3, g4, g5, g6⟩ := ih _ _ _ _ _ _ _ _ (by rw [e1, e2]; exact b1) (by rw [e2]; exact b2)
        (by rw [e1, e2, b3]; rw [pow_succ] at hf; linarith) (by rw [e1, e3]; exact hcode.1)
        (by rw [e2, e3]; exact hcode.2) hok
      refine ⟨g1, g2, g3, g4, by omega, fun uf => ?_⟩
      obtain ⟨bits, u, hr⟩ := g6 0
      exact ⟨_, u, .shift low high uf bits l h u ha hr⟩
    · rw [if_neg (by simpa using ha)] at hok
      simp only [Except.ok.injEq, Prod.mk.injEq] at hok
      obtain ⟨rfl, rfl, rfl, rfl⟩ := hok
      exact ⟨straddles_of_tops hw hle ht ha, hle, hc1, hc2, le_rfl, fun uf => ⟨[], uf, .stop _ _ _ ha⟩⟩

/-- Where the decoder's underflow loop goes on, it does the encoder's steps and keeps CODE in the interval. -/
theorem decUnders_ok {src : Source} {w : Nat} (hw : 2 ≤ w) (hw' : w ≤ 62) : ∀ fuel low high code k l h c k',
    Straddles w low high → low ≤ high → 2 ^ w ≤ (high - low + 1) * 2 ^ fuel → low ≤ code → code ≤ high →
    decUnders src w fuel low high code k = .ok (l, h, c, k') →
    IntervalSound w l h ∧ l ≤ c ∧ c ≤ h ∧ k ≤ k' ∧ ∀ uf, ∃ u, UnderRun w low high uf l h u := by
  intro fuel
  induction fuel with
  | zero =>
    intro low high code k l h c k' hs hle hf hc1 hc2 hok
    simp only [decUnders, Except.ok.injEq, Prod.mk.injEq] at hok
    obtain ⟨rfl, rfl, rfl, rfl⟩ := hok
    have hn : ¬(low.testBit (w - 2) = true ∧ high.testBit (w - 2) = false) := by
      have h3 := hs.2.2
      rw [show low = 0 by omega]; simp
    exact ⟨sound_of_straddles hw hw' hs hn, hc1, hc2, le_rfl, fun uf => ⟨uf, .stop _ _ _ hn⟩⟩
  | succ fuel ih =>
    intro low high code k l h c k' hs hle hf hc1 hc2 hok
    rw [decUnders] at hok
    by_cases hn : low.testBit (w - 2) = true ∧ high.testBit (w - 2) = false
    · rw [if_pos ((nearHalf_eq w low high).mpr hn)] at hok
      obtain ⟨⟨b, k1⟩, ht1, hok⟩ := bind_ok hok
      have hk1 := takeBit_pos ht1
      have hn' := (near_iff hw hs.1 hs.2.1 hs.2.2).mp hn
      have e1 : underLow w low = 2 * low - 2 ^ (w - 1) := under_low hw hs.1 hn'.1
      have e2 : underHigh w high = 2 * high - 2 ^ (w - 1) + 1 := under_high hw hs.2.1 hn'.2
      have e3 : (code &&& halfOf w) ||| ((code <<< 1) &&& (maskOf w >>> 1)) ||| b.toNat =
          2 * code - 2 ^ (w - 1) + b.toNat := under_code hw (by omega) (by omega) b
      obtain ⟨b1, b2, b3⟩ := under_bounds hw hs hn'
      have hb : b.toNat ≤ 1 := by cases b <;> simp
      have hp1 : 2 ^ (w - 1) = 2 * 2 ^ (w - 2) := by rw [← pow_succ']; congr 1; omega
      obtain ⟨g1, g2, g3, g4, g5⟩ := ih _ _ _ _ _ _ _ _ (by rw [e1, e2]; exact b1) (by rw [e1, e2]; exact b2)
        (by rw [e1, e2, b3]; rw [pow_succ] at hf; linarith) (by rw [e1, e3]; omega) (by rw [e2, e3]; omega) hok
      refine ⟨g1, g2, g3, by omega, fun uf => ?_⟩
      obtain ⟨u, hr⟩ := g5 (uf + 1)
      exact ⟨u, .under low high uf l h u hn hr⟩
    · rw [if_neg (by rw [nearHalf_eq]; exact hn)] at hok
      simp only [Except.ok.injEq, Prod.mk.injEq] at hok
      obtain ⟨rfl, rfl, rfl, rfl⟩ := hok
      exact ⟨sound_of_straddles hw hw' hs hn, hc1, hc2, le_rfl, fun uf => ⟨uf, .stop _ _ _ hn⟩⟩

/-! ### Tables and symbols (R291, R298) -/

theorem cumHigh_ofNat (xs : List Nat) (i : Nat) : cumHigh (xs.map Int.ofNat) i = (symHigh xs i : Int) := by
  simp only [cumHigh, symHigh, List.getD_eq_getElem?_getD, List.getElem?_map]
  cases xs[i]? <;> rfl

theorem cumLow_ofNat (xs : List Nat) (i : Nat) : cumLow (xs.map Int.ofNat) i = (symLow xs i : Int) := by
  unfold cumLow symLow
  split_ifs
  · rfl
  · exact cumHigh_ofNat xs (i - 1)

theorem tabTotal_ofNat (xs : List Nat) : tabTotal (xs.map Int.ofNat) = (xs.getLastD 0 : Int) := by
  unfold tabTotal
  rw [List.length_map, List.getLastD_eq_getLast?, List.getLast?_eq_getElem?, List.getD_eq_getElem?_getD,
    List.getElem?_map]
  cases xs[xs.length - 1]? <;> rfl

theorem neverFalling_iff (xs : List Int) : neverFalling xs = true ↔ xs.Pairwise (· ≤ ·) := by
  induction xs with
  | nil => simp [neverFalling]
  | cons x xs ih =>
    cases xs with
    | nil => simp [neverFalling]
    | cons y rest =>
      rw [neverFalling, Bool.and_eq_true, decide_eq_true_eq, ih, List.pairwise_cons (a := x)]
      constructor
      · rintro ⟨h1, h2⟩
        refine ⟨fun z hz => ?_, h2⟩
        rcases List.mem_cons.mp hz with rfl | hz
        · exact h1
        · exact h1.trans ((List.pairwise_cons.mp h2).1 z hz)
      · rintro ⟨h1, h2⟩
        exact ⟨h1 y (by simp), h2⟩

/-- `CheckTable` accepts exactly the valid tables (R291). -/
theorem checkTable_iff (w : Nat) (tab : List Int) :
    checkTable w tab = true ↔ ∃ xs : List Nat, tab = xs.map Int.ofNat ∧ TableValid w xs := by
  simp only [checkTable, Bool.and_eq_true, decide_eq_true_eq, neverFalling_iff]
  constructor
  · rintro ⟨⟨⟨⟨h1, h2⟩, h3⟩, h4⟩, h5⟩
    have hall : ∀ x ∈ tab, 0 ≤ x := by
      intro x hx
      cases tab with
      | nil => cases hx
      | cons y rest =>
        simp only [List.getD_cons_zero] at h2
        rcases List.mem_cons.mp hx with rfl | hx
        · exact h2
        · exact h2.trans ((List.pairwise_cons.mp h3).1 x hx)
    have hmap : tab = (tab.map Int.toNat).map Int.ofNat := by
      rw [List.map_map]
      conv_lhs => rw [← List.map_id tab]
      apply List.map_congr_left
      intro x hx
      simp [hall x hx]
    refine ⟨tab.map Int.toNat, hmap, ?_, ?_, ?_, ?_⟩
    · intro hc; simp at hc; simp [hc] at h1
    · rw [List.pairwise_map]
      exact h3.imp (fun h => Int.toNat_le_toNat h)
    · rw [hmap, tabTotal_ofNat] at h4; omega
    · rw [hmap, tabTotal_ofNat] at h5
      have : maxTotal w = budget w := rfl
      rw [this] at h5; omega
  · rintro ⟨xs, rfl, h1, h2, h3, h4⟩
    rw [tabTotal_ofNat]
    refine ⟨⟨⟨⟨?_, ?_⟩, ?_⟩, by omega⟩, ?_⟩
    · rw [List.length_map]; exact List.length_pos_iff.mpr h1
    · cases xs <;> simp
    · rw [List.pairwise_map]; exact h2.imp (fun h => Int.ofNat_le.mpr h)
    · have : maxTotal w = budget w := rfl
      rw [this]; omega

/-- `CheckSym` accepts exactly the symbols of a frequency that is not 0 (R291). -/
theorem checkSym_iff (xs : List Nat) (s : Int) :
    checkSym (xs.map Int.ofNat) s = true ↔
      ∃ sym : Nat, s = sym ∧ sym < xs.length ∧ symLow xs sym < symHigh xs sym := by
  simp only [checkSym, Bool.and_eq_true, decide_eq_true_eq, cumLow_ofNat, cumHigh_ofNat, List.length_map]
  constructor
  · rintro ⟨⟨h1, h2⟩, h3⟩
    exact ⟨s.toNat, by omega, by omega, by omega⟩
  · rintro ⟨sym, rfl, h1, h2⟩
    simp; omega

/-- The last index of a range that passes a test. -/
theorem getLast?_filter_range {n s : Nat} {p : Nat → Bool} (hs : s < n) (hp : p s = true)
    (hn : ∀ i, s < i → i < n → p i = false) : ((List.range n).filter p).getLast? = some s := by
  obtain ⟨m, rfl⟩ : ∃ m, n = (s + 1) + m := ⟨n - (s + 1), by omega⟩
  rw [List.range_add, List.filter_append, List.range_succ, List.filter_append]
  have h1 : ((List.range m).map (s + 1 + ·)).filter p = [] := by
    rw [List.filter_eq_nil_iff]
    intro i hi
    obtain ⟨j, hj, rfl⟩ := List.mem_map.mp hi
    rw [List.mem_range] at hj
    simp [hn (s + 1 + j) (by omega) (by omega)]
  rw [h1]
  simp [hp]

theorem symLow_mono {xs : List Nat} (hp : xs.Pairwise (· ≤ ·)) {i j : Nat} (hij : i < j) (hj : j < xs.length) :
    symHigh xs i ≤ symLow xs j := by
  unfold symHigh symLow
  rw [if_neg (by omega), List.getD_eq_getElem?_getD, List.getD_eq_getElem?_getD,
    List.getElem?_eq_getElem (by omega), List.getElem?_eq_getElem (by omega)]
  simp only [Option.getD_some]
  rcases Nat.lt_or_ge i (j - 1) with h | h
  · exact List.pairwise_iff_getElem.mp hp i (j - 1) (by omega) (by omega) h
  · have : i = j - 1 := by omega
    simp [this]

/-- The search of R298 finds the symbol whose part of the table holds the value. -/
theorem symbolAt_eq {xs : List Nat} (hp : xs.Pairwise (· ≤ ·)) {sym value : Nat} (hs : sym < xs.length)
    (h1 : symLow xs sym ≤ value) (h2 : value < symHigh xs sym) : symbolAt (xs.map Int.ofNat) value = sym := by
  unfold symbolAt
  rw [List.length_map, getLast?_filter_range hs]
  · rfl
  · rw [cumLow_ofNat]; simpa using h1
  · intro i hi hin
    rw [cumLow_ofNat, decide_eq_false_iff_not]
    have := symLow_mono hp hi hin
    omega

/-- Some symbol's part of a valid table holds every value below the total (R299 (b)). -/
theorem exists_symbol {w : Nat} {xs : List Nat} (h : TableValid w xs) {value : Nat} (hv : value < xs.getLastD 0) :
    ∃ sym < xs.length, symLow xs sym ≤ value ∧ value < symHigh xs sym := by
  obtain ⟨h0, hp, _, _⟩ := h
  have hlen : 0 < xs.length := List.length_pos_iff.mpr h0
  have hlast : value < symHigh xs (xs.length - 1) := by
    unfold symHigh
    rwa [List.getLastD_eq_getLast?, List.getLast?_eq_getElem?, ← List.getD_eq_getElem?_getD] at hv
  have hex : ∃ i, value < symHigh xs i := ⟨_, hlast⟩
  classical
  refine ⟨Nat.find hex, ?_, ?_, Nat.find_spec hex⟩
  · have := Nat.find_min' hex hlast; omega
  · unfold symLow
    split_ifs with hz
    · omega
    · have := Nat.find_min hex (m := Nat.find hex - 1) (by omega)
      exact Nat.le_of_not_lt this

/-- Where a code sits in the interval, its value is below the total (R299 (b)). -/
theorem value_lt {low high code total : Nat} (h1 : low ≤ code) (h2 : code ≤ high) (ht : 1 ≤ total) :
    ((code - low + 1) * total - 1) / (high - low + 1) < total := by
  rw [Nat.div_lt_iff_lt_mul (by omega), mul_comm total]
  have : (code - low + 1) * total ≤ (high - low + 1) * total := Nat.mul_le_mul_right _ (by omega)
  have : 0 < (code - low + 1) * total := by positivity
  omega

/-- The value lies in a symbol's part of the table exactly where the code lies in its part of the interval. -/
theorem value_iff {low high code clo chi total : Nat} (h1 : low ≤ code) (ht : 1 ≤ total)
    (hchi : total ≤ chi * (high - low + 1)) :
    (clo ≤ ((code - low + 1) * total - 1) / (high - low + 1) ↔ newLow low high clo total ≤ code) ∧
      (((code - low + 1) * total - 1) / (high - low + 1) < chi ↔ code ≤ newHigh low high chi total) := by
  have hpos : 0 < (code - low + 1) * total := by positivity
  unfold newLow newHigh
  constructor
  · rw [Nat.le_div_iff_mul_le (by omega)]
    have h3 : clo * (high - low + 1) / total < code - low + 1 ↔ clo * (high - low + 1) < (code - low + 1) * total := by
      rw [Nat.div_lt_iff_lt_mul (by omega)]
    generalize clo * (high - low + 1) / total = x at *
    omega
  · rw [Nat.div_lt_iff_lt_mul (by omega)]
    have h3 : code - low + 1 ≤ chi * (high - low + 1) / total ↔ (code - low + 1) * total ≤ chi * (high - low + 1) := by
      rw [Nat.le_div_iff_mul_le (by omega)]
    have h4 : 1 ≤ chi * (high - low + 1) / total := by rw [Nat.le_div_iff_mul_le (by omega)]; omega
    generalize chi * (high - low + 1) / total = x at *
    omega

/-! ### Coding and decoding one symbol -/

/-- `AEEncode` of a codable symbol of an active pass. -/
theorem aeEncode_run {s : State} {tab : List Nat} {sym : Nat} {bits : List Bool} {l h u : Nat}
    (hm : s.ae.mode = .active) (ho : s.wclosed = false) (hi : IntervalSound s.ae.w s.ae.low s.ae.high)
    (hu : s.ae.uf ≤ s.params.ufMax) (hc : Codable s.ae.w tab sym) (hr : EncoderRun s.ae tab sym bits l h u) :
    aeEncode s (tab.map Int.ofNat) sym =
      if u ≤ s.params.ufMax then
        .ok ((s.emit bits).setAe { s.ae with low := l, high := h, uf := u, coded := true })
      else .error { code := .capacity, info := s.wbits.length + bits.length, late := true } := by
  obtain ⟨bits', l', h', u', hr', _, he⟩ := encUpdate_run hi hu hc
  obtain ⟨rfl, rfl, rfl, rfl⟩ := encoderRun_det hr hr'
  have h1 : checkTable s.ae.w (tab.map Int.ofNat) = true := (checkTable_iff _ _).mpr ⟨tab, rfl, hc.1⟩
  have h2 : checkSym (tab.map Int.ofNat) (sym : Int) = true := (checkSym_iff _ _).mpr ⟨sym, rfl, hc.2⟩
  simp only [aeEncode, hm, beq_self_eq_true, require_true, ok_bind, checkOpen_open ho, h1, h2, Int.toNat_natCast,
    cumLow_ofNat, cumHigh_ofNat, tabTotal_ofNat, he]
  split_ifs <;> rfl

/-- Where `AEEncode` goes on, it coded a codable symbol of an active pass. -/
theorem aeEncode_ok {s s1 : State} {tab : List Int} {x : Int} (hi : s.ae.mode = .active →
    IntervalSound s.ae.w s.ae.low s.ae.high ∧ s.ae.uf ≤ s.params.ufMax) (h : aeEncode s tab x = .ok s1) :
    ∃ xs sym bits l h u, s.ae.mode = .active ∧ s.wclosed = false ∧ tab = xs.map Int.ofNat ∧ x = (sym : Nat) ∧
      Codable s.ae.w xs sym ∧ EncoderRun s.ae xs sym bits l h u ∧ IntervalSound s.ae.w l h ∧ u ≤ s.params.ufMax ∧
      s1 = (s.emit bits).setAe { s.ae with low := l, high := h, uf := u, coded := true } := by
  have horig := h
  rw [aeEncode] at h
  obtain ⟨_, h1, h⟩ := bind_ok h
  obtain ⟨_, h2, h⟩ := bind_ok h
  obtain ⟨_, h3, h⟩ := bind_ok h
  obtain ⟨_, h4, h⟩ := bind_ok h
  rw [require_ok] at h1 h3 h4
  have hm : s.ae.mode = .active := by simpa using h1
  have ho : s.wclosed = false := by
    rw [checkOpen, require_ok] at h2; simpa using h2
  obtain ⟨xs, rfl, hv⟩ := (checkTable_iff _ _).mp h3
  obtain ⟨sym, rfl, hs⟩ := (checkSym_iff _ _).mp h4
  obtain ⟨i1, i2⟩ := hi hm
  obtain ⟨bits, l, h', u, hr, hsound, _⟩ := encUpdate_run (ufMax := s.params.ufMax) i1 i2 ⟨hv, hs⟩
  rw [aeEncode_run hm ho i1 i2 ⟨hv, hs⟩ hr] at horig
  split_ifs at horig with hu
  simp only [Except.ok.injEq] at horig
  exact ⟨xs, sym, bits, l, h', u, hm, ho, rfl, rfl, ⟨hv, hs⟩, hr, hsound, hu, horig.symm⟩

theorem fillLoop_of_holds {s : State} (hs : s.srcFail = none) : ∀ (bits : List Bool) (code k : Nat),
    HoldsAt s k bits →
      fillLoop s.source bits.length code k =
        .ok (bits.foldl (fun c b => 2 * c + b.toNat) code, k + bits.length) := by
  intro bits
  induction bits with
  | nil => intro code k _; rfl
  | cons b bits ih =>
    intro code k hh
    rw [holdsAt_cons] at hh
    simp only [List.length_cons, fillLoop, takeBit_some hs hh.1, ok_bind, ih _ _ hh.2, List.foldl_cons]
    congr 2; omega

/-- The fill stays below `2^w`. -/
theorem fillLoop_lt {src : Source} : ∀ n code k c k', fillLoop src n code k = .ok (c, k') →
    c < (code + 1) * 2 ^ n ∧ k ≤ k' := by
  intro n
  induction n with
  | zero => intro code k c k' h; simp only [fillLoop, Except.ok.injEq, Prod.mk.injEq] at h; omega
  | succ n ih =>
    intro code k c k' h
    rw [fillLoop] at h
    obtain ⟨⟨b, k1⟩, h1, h⟩ := bind_ok h
    have hk := takeBit_pos h1
    obtain ⟨h2, h3⟩ := ih _ _ _ _ h
    have hb : b.toNat ≤ 1 := by cases b <;> simp
    refine ⟨h2.trans_le ?_, by omega⟩
    rw [pow_succ', ← mul_assoc]
    exact Nat.mul_le_mul_right _ (by omega)

theorem msbNat_lt (bits : List Bool) : msbNat bits < 2 ^ bits.length := by
  have aux : ∀ (bits : List Bool) c n, c < 2 ^ n →
      bits.foldl (fun c b => 2 * c + b.toNat) c < 2 ^ (n + bits.length) := by
    intro bits
    induction bits with
    | nil => intro c n h; simpa using h
    | cons b bits ih =>
      intro c n h
      have := ih (2 * c + b.toNat) (n + 1) (by rw [pow_succ]; cases b <;> simp <;> omega)
      rw [List.foldl_cons, List.length_cons, show n + (bits.length + 1) = n + 1 + bits.length by omega]
      exact this
  have := aux bits 0 0 (by norm_num)
  rwa [Nat.zero_add] at this

/-- The code of a decode step sits in the interval. -/
def FilledIn (ad : ArithDec) (code : Nat) : Prop := ad.low ≤ code ∧ code ≤ ad.high

/-- `AEUpdate` of the decoder on a code inside a symbol's part of the interval. -/
theorem decUpdate_run {s : State} (hsrc : s.srcFail = none) {ad : ArithDec} {tab : List Nat} {sym k : Nat}
    {bits1 bits2 : List Bool} {l1 h1 c1 l2 h2 c2 : Nat} (hi : IntervalSound ad.w ad.low ad.high)
    (hc : Codable ad.w tab sym)
    (r1 : DecShiftRun ad.w (newLow ad.low ad.high (symLow tab sym) (tab.getLastD 0))
      (newHigh ad.low ad.high (symHigh tab sym) (tab.getLastD 0)) ad.code bits1 l1 h1 c1)
    (r2 : DecUnderRun ad.w l1 h1 c1 bits2 l2 h2 c2)
    (hin1 : newLow ad.low ad.high (symLow tab sym) (tab.getLastD 0) ≤ ad.code)
    (hin2 : ad.code ≤ newHigh ad.low ad.high (symHigh tab sym) (tab.getLastD 0))
    (hh : HoldsAt s k (bits1 ++ bits2)) :
    decUpdate s.source ad (symLow tab sym) (symHigh tab sym) (tab.getLastD 0) k =
      .ok ({ ad with low := l2, high := h2, code := c2 }, k + (bits1 ++ bits2).length) := by
  obtain ⟨hv, hs, hlt⟩ := hc
  have hle : ad.low ≤ ad.high := by have := hi.below; have := hi.above; omega
  obtain ⟨n1, n2, n3⟩ := narrow_bounds hle hlt (symHigh_le_total hv hs) (hv.2.2.2.trans (budget_le_range hi))
  have hw := hi.widthLow
  rw [holdsAt_append] at hh
  have e1 : decShifts s.source ad.w ad.w (narrowLow ad.low ad.high (symLow tab sym) (tab.getLastD 0))
      (narrowHigh ad.low ad.high (symHigh tab sym) (tab.getLastD 0)) ad.code k = .ok (l1, h1, c1, k + bits1.length) :=
    decShifts_run hsrc (by omega) ad.w _ _ _ k bits1 l1 h1 c1 n2 (n3.trans_lt hi.top) (full_fuel (by omega)) r1 hh.1
  obtain ⟨st, le1, _, _, _, _⟩ := decShifts_ok (by omega) ad.w _ _ _ _ _ _ _ _ n2 (n3.trans_lt hi.top)
    (full_fuel (by omega)) hin1 hin2 e1
  have e2 := decUnders_run hsrc hw ad.w l1 h1 c1 (k + bits1.length) bits2 l2 h2 c2 st le1 (full_fuel (by omega)) r2 hh.2
  rw [decUpdate, e1, ok_bind]
  simp only [e2, ok_bind, List.length_append]
  rw [Nat.add_assoc]

/-- `ADDecode` over a valid table takes exactly the bits of R297 and R298. -/
theorem adDecode_run {s : State} (hsrc : s.srcFail = none) {tab : List Nat} {bits : List Bool} {sym : Nat}
    {ad : ArithDec} (hm : s.ad.mode = .active) (ha : ArithSound s) (hv : TableValid s.ad.w tab)
    (hr : DecoderRun s.ad tab bits sym ad) (hh : HoldsAt s s.rpos bits) :
    adDecode s (tab.map Int.ofNat) = .ok (sym, (s.setAd ad).setRpos (s.rpos + bits.length)) := by
  obtain ⟨fill, bits1, bits2, code, l1, h1, c1, l2, h2, c2, rfl, hfill, hs, hlow, hhigh, r1, r2, rfl⟩ := hr
  have hi := ha.dec hm
  rw [holdsAt_append] at hh
  have h1' : checkTable s.ad.w (tab.map Int.ofNat) = true := (checkTable_iff _ _).mpr ⟨tab, rfl, hv⟩
  have hadfill : adFill s.source s.ad s.rpos = .ok ({ s.ad with code := code, filled := true }, s.rpos + fill.length) := by
    unfold adFill
    split_ifs at hfill ⊢ with hf
    · obtain ⟨rfl, rfl⟩ := hfill
      cases had : s.ad
      rw [had] at hf
      simp only at hf
      simp [hf]
    · obtain ⟨hl, rfl⟩ := hfill
      have := fillLoop_of_holds hsrc fill 0 s.rpos hh.1
      rw [hl] at this
      rw [this, ok_bind, hl]; rfl
  have hin : s.ad.low ≤ code ∧ code ≤ s.ad.high := by
    split_ifs at hfill with hf
    · obtain ⟨_, rfl⟩ := hfill; exact ha.code hm hf
    · obtain ⟨hl, rfl⟩ := hfill
      obtain ⟨e1, e2⟩ := ha.fresh hm (by simpa using hf)
      have := msbNat_lt fill
      rw [hl] at this; omega
  have hle : s.ad.low ≤ s.ad.high := by have := hi.below; have := hi.above; omega
  have hlt : symLow tab sym < symHigh tab sym := by omega
  have hchi := symHigh_le_total hv hs
  have htot := hv.2.2.2.trans (budget_le_range hi)
  have hpos : tab.getLastD 0 ≤ symHigh tab sym * (s.ad.high - s.ad.low + 1) :=
    htot.trans (Nat.le_mul_of_pos_left _ (by omega))
  obtain ⟨v1, v2⟩ := value_iff (clo := symLow tab sym) hin.1 hv.2.2.1 hpos
  have hsym : symbolAt (tab.map Int.ofNat) (adValue { s.ad with code := code, filled := true } (tab.getLastD 0)) = sym :=
    symbolAt_eq hv.2.1 hs hlow hhigh
  have hup := decUpdate_run (ad := { s.ad with code := code, filled := true }) hsrc hi ⟨hv, hs, hlt⟩ r1 r2
    (v1.mp hlow) (v2.mp hhigh) (k := s.rpos + fill.length) hh.2
  rw [adDecode, show (s.ad.mode == .active) = true by simp [hm], require_true, ok_bind, h1', require_true, ok_bind,
    resourceLate_ok, adStep, hadfill, ok_bind]
  simp only
  rw [tabTotal_ofNat, Int.toNat_natCast, hsym, cumLow_ofNat, cumHigh_ofNat, Int.toNat_natCast, Int.toNat_natCast, hup,
    ok_bind]
  simp only [List.length_append (as := fill), Nat.add_assoc]

/-- Where `ADDecode` goes on, it decoded a codable symbol, keeps the interval sound with CODE inside, and did the
encoder's shifts. -/
theorem adDecode_ok {s s1 : State} {tab : List Int} {i : Nat} (ha : ArithSound s) (h : adDecode s tab = .ok (i, s1)) :
    ∃ xs ad code k, s.ad.mode = .active ∧ tab = xs.map Int.ofNat ∧ Codable s.ad.w xs i ∧
      (s.ad.filled = true → code = s.ad.code) ∧ FilledIn s.ad code ∧
      newLow s.ad.low s.ad.high (symLow xs i) (xs.getLastD 0) ≤ code ∧
      code ≤ newHigh s.ad.low s.ad.high (symHigh xs i) (xs.getLastD 0) ∧
      s1 = (s.setAd ad).setRpos k ∧ s.rpos ≤ k ∧ ad.mode = s.ad.mode ∧ ad.w = s.ad.w ∧ ad.filled = true ∧
      IntervalSound ad.w ad.low ad.high ∧ FilledIn ad ad.code ∧
      ∀ uf, ∃ bits l1 h1 u1 u,
        ShiftRun s.ad.w (newLow s.ad.low s.ad.high (symLow xs i) (xs.getLastD 0))
          (newHigh s.ad.low s.ad.high (symHigh xs i) (xs.getLastD 0)) uf bits l1 h1 u1 ∧
        UnderRun s.ad.w l1 h1 u1 ad.low ad.high u := by
  rw [adDecode] at h
  obtain ⟨_, h1, h⟩ := bind_ok h
  obtain ⟨_, h2, h⟩ := bind_ok h
  rw [require_ok] at h1 h2
  have hm : s.ad.mode = .active := by simpa using h1
  obtain ⟨xs, rfl, hv⟩ := (checkTable_iff _ _).mp h2
  rw [resourceLate_ok, adStep] at h
  obtain ⟨⟨ad1, k1⟩, hf, h⟩ := bind_ok h
  obtain ⟨⟨ad2, k2⟩, hu, h⟩ := bind_ok h
  simp only [Except.ok.injEq, Prod.mk.injEq] at h
  obtain ⟨rfl, rfl⟩ := h
  have hi := ha.dec hm
  have hle : s.ad.low ≤ s.ad.high := by have := hi.below; have := hi.above; omega
  -- the filled code
  obtain ⟨code, hk1, rfl, hin, hcode⟩ : ∃ code, s.rpos ≤ k1 ∧ ad1 = { s.ad with code := code, filled := true } ∧
      FilledIn s.ad code ∧ (s.ad.filled = true → code = s.ad.code) := by
    unfold adFill at hf
    split_ifs at hf with hfl
    · simp only [Except.ok.injEq, Prod.mk.injEq] at hf
      obtain ⟨rfl, rfl⟩ := hf
      exact ⟨s.ad.code, le_rfl, by cases had : s.ad; rw [had] at hfl; simp_all, ha.code hm hfl, fun _ => rfl⟩
    · obtain ⟨⟨c, k⟩, h4, hf⟩ := bind_ok hf
      simp only [Except.ok.injEq, Prod.mk.injEq] at hf
      obtain ⟨rfl, rfl⟩ := hf
      obtain ⟨h5, h6⟩ := fillLoop_lt _ _ _ _ _ h4
      obtain ⟨e1, e2⟩ := ha.fresh hm (by simpa using hfl)
      exact ⟨c, h6, rfl, ⟨by omega, by omega⟩, fun h => absurd h hfl⟩
  obtain ⟨hin1, hin2⟩ := hin
  have hval := value_lt hin1 hin2 hv.2.2.1
  obtain ⟨sym, hs, g1, g2⟩ := exists_symbol hv hval
  have hsym : symbolAt (xs.map Int.ofNat) (adValue { s.ad with code := code, filled := true } (xs.getLastD 0)) = sym :=
    symbolAt_eq hv.2.1 hs g1 g2
  rw [tabTotal_ofNat, Int.toNat_natCast] at hu ⊢
  simp only [hsym] at hu ⊢
  rw [cumLow_ofNat, cumHigh_ofNat, Int.toNat_natCast, Int.toNat_natCast] at hu
  have hlt : symLow xs sym < symHigh xs sym := by omega
  have hchi := symHigh_le_total hv hs
  have htot := hv.2.2.2.trans (budget_le_range hi)
  obtain ⟨v1, v2⟩ := value_iff (clo := symLow xs sym) hin1 hv.2.2.1
    (htot.trans (Nat.le_mul_of_pos_left (s.ad.high - s.ad.low + 1) (show 0 < symHigh xs sym by omega)))
  obtain ⟨n1, n2, n3⟩ := narrow_bounds hle hlt hchi htot
  have hw := hi.widthLow
  rw [decUpdate] at hu
  obtain ⟨⟨l1, h1', c1, k3⟩, hsh, hu⟩ := bind_ok hu
  obtain ⟨⟨l2, h2', c2, k4⟩, hun, hu⟩ := bind_ok hu
  simp only [Except.ok.injEq, Prod.mk.injEq] at hu
  obtain ⟨rfl, rfl⟩ := hu
  obtain ⟨st, le1, q1, q2, q3, q4⟩ := decShifts_ok (by omega) _ _ _ _ _ _ _ _ _ n2 (n3.trans_lt hi.top)
    (full_fuel (by omega)) (v1.mp g1) (v2.mp g2) hsh
  obtain ⟨sd, p1, p2, p3, p4⟩ := decUnders_ok hw hi.widthHigh _ _ _ _ _ _ _ _ _ st le1 (full_fuel (by omega)) q1 q2 hun
  refine ⟨xs, _, code, k4, hm, rfl, ⟨hv, hs, hlt⟩, hcode, ⟨hin1, hin2⟩, v1.mp g1, v2.mp g2, rfl, by omega, rfl, rfl,
    rfl, sd, ⟨p1, p2⟩, fun uf => ?_⟩
  obtain ⟨bits, u1, r1⟩ := q4 uf
  obtain ⟨u, r2⟩ := p4 u1
  exact ⟨bits, l1, h1', u1, u, r1, r2⟩

/-- A natural number in `[0, LMAX]` as an s64 pattern. -/
theorem toInt_ofNat_of_le {n : Nat} (h : n ≤ lmax) : (BitVec.ofNat 64 n).toInt = n := by
  unfold lmax at h
  rw [BitVec.toInt_eq_toNat_of_lt (by rw [BitVec.toNat_ofNat]; omega), BitVec.toNat_ofNat]
  omega

/-- The ARR window of a table as a list. -/
theorem readWindow_eq {s : State} {off : Nat} {xs : List Nat} (h : WindowHolds s off xs) (hx : ∀ x ∈ xs, x ≤ lmax) :
    readWindow s off xs.length = xs.map Int.ofNat := by
  apply List.ext_getElem
  · simp [readWindow]
  · intro i h1 h2
    simp only [readWindow, List.getElem_map, List.getElem_range]
    have hi : i < xs.length := by simpa using h2
    rw [h.2 i hi, toInt_ofNat_of_le (hx _ (List.getElem_mem hi))]
    rfl

/-- The window checks pass for a window inside ARR. -/
theorem windowOk_of_holds {s : State} {off : Nat} {xs : List Nat} (h : WindowHolds s off xs) :
    windowOk s (off : Int) (xs.length : Int) = true := by
  have := h.1
  simp [windowOk]; omega

/-- The entries of a valid table are s64 values. -/
theorem tableValid_le {w : Nat} {tab : List Nat} (h : TableValid w tab) : ∀ x ∈ tab, x ≤ lmax := by
  intro x hx
  obtain ⟨i, hi, rfl⟩ := List.getElem_of_mem hx
  have h1 := symHigh_le_total h hi
  unfold symHigh at h1
  rw [List.getD_eq_getElem?_getD, List.getElem?_eq_getElem hi] at h1
  simp only [Option.getD_some] at h1
  have h2 := h.2.2.2
  unfold budget at h2
  have h3 : lmax / 2 ^ w ≤ lmax := Nat.div_le_self _ _
  omega

end Sys2Proof.Machine
end

