-- ==== Sys2Proof/Laws/Positions.lean ====
section
/-! SUPPORT. No reader procedure moves back in the input stream (40_bitio.md R170: RPOS only grows). -/

namespace Sys2Proof.Machine

open Sys2Proof Sys2Proof.Config

/-- `TakeBits(n)` moves `n` bits on. -/
theorem takeBits_pos {src : Source} : ∀ n k v k1, takeBits src n k = .ok (v, k1) → k1 = k + n := by
  intro n
  induction n with
  | zero => intro k v k1 h; cases h; rfl
  | succ n ih =>
    intro k v k1 h
    obtain ⟨⟨b, k2⟩, h1, h⟩ := bind_ok h
    obtain ⟨⟨v', k3⟩, h2, h⟩ := bind_ok h
    cases h
    have := takeBit_pos h1
    have := ih _ _ _ h2
    omega

/-- The loop of `RAlign()` stops at the boundary, or when its passes are used up. -/
theorem rAlignLoop_pos {src : Source} : ∀ n k k1, rAlignLoop src n k = .ok k1 →
    k ≤ k1 ∧ k1 ≤ 8 * ceil8 k ∧ (k1 % 8 = 0 ∨ k1 = k + n) := by
  intro n
  induction n with
  | zero => intro k k1 h; cases h; unfold ceil8; omega
  | succ n ih =>
    intro k k1 h
    unfold rAlignLoop at h
    split_ifs at h with h8
    · cases h; unfold ceil8; omega
    · obtain ⟨⟨b, k2⟩, h1, h⟩ := bind_ok h
      have := takeBit_pos h1
      dsimp only at h
      split_ifs at h
      have := ih _ _ h
      unfold ceil8 at *; omega

/-- `RAlign()` ends at the next byte boundary. -/
theorem rAlign_pos {src : Source} {k k1} (h : rAlign src k = .ok k1) : k1 = 8 * ceil8 k := by
  have := rAlignLoop_pos 8 k k1 h
  unfold ceil8 at *; omega

/-- `TakeByte` ends one byte after the next byte boundary. -/
theorem takeByte_pos {src : Source} {e k b k1} (h : takeByte src e k = .ok (b, k1)) : k1 = 8 * ceil8 k + 8 := by
  obtain ⟨k2, h1, h⟩ := bind_ok h
  have := rAlign_pos h1
  split_ifs at h
  cases h; omega

/-- The loop of `R.SYNC` passes the next byte boundary with its first byte. -/
theorem syncLoop_pos {src : Source} : ∀ n v k v' k1, syncLoop src n v k = .ok (v', k1) →
    k ≤ k1 ∧ (1 ≤ n → 8 * ceil8 k + 8 ≤ k1) := by
  intro n
  induction n with
  | zero => intro v k v' k1 h; cases h; omega
  | succ n ih =>
    intro v k v' k1 h
    obtain ⟨⟨b, k2⟩, h1, h⟩ := bind_ok h
    have := takeByte_pos h1
    have := ih _ _ _ _ h
    unfold ceil8 at *; omega

/-- The loop of `VBY.D` passes the next byte boundary. -/
theorem vbyLoop_pos {src : Source} : ∀ n u sh k v' k1, vbyLoop src n u sh k = .ok (v', k1) → 8 * ceil8 k ≤ k1 := by
  intro n
  induction n with
  | zero => intro u sh k v' k1 h; cases h
  | succ n ih =>
    intro u sh k v' k1 h
    unfold vbyLoop at h
    split_ifs at h
    obtain ⟨⟨b, k2⟩, h1, h⟩ := bind_ok h
    have := takeByte_pos h1
    dsimp only at h
    split_ifs at h
    · cases h; omega
    · have := ih _ _ _ _ _ h
      unfold ceil8 at *; omega

/-- The loop of `DecBounded` never moves back. -/
theorem decBoundedLoop_pos {src : Source} {max} : ∀ n v i k v' k1, decBoundedLoop src max n v i k = .ok (v', k1) →
    k ≤ k1 := by
  intro n
  induction n with
  | zero => intro v i k v' k1 h; cases h; omega
  | succ n ih =>
    intro v i k v' k1 h
    unfold decBoundedLoop at h
    split_ifs at h
    · obtain ⟨⟨b, k2⟩, h1, h⟩ := bind_ok h
      have := takeBit_pos h1
      have := ih _ _ _ _ _ h
      omega
    · cases h; omega

/-- `DecBounded` never moves back. -/
theorem decBounded_pos {src : Source} {max : Int} {k v k1} (h : decBounded src max k = .ok (v, k1)) : k ≤ k1 := by
  obtain ⟨_, _, h⟩ := bind_ok h
  exact decBoundedLoop_pos _ _ _ _ _ _ h

/-- The prefix loop of `DecUVarBits` never moves back. -/
theorem prefixLoop_pos {src : Source} : ∀ n r b k x, prefixLoop src n r b k = .ok x → k ≤ x.2.2 := by
  intro n
  induction n with
  | zero => intro v i k x h; cases h
  | succ n ih =>
    intro v i k x h
    obtain ⟨⟨b, k2⟩, h1, h⟩ := bind_ok h
    have := takeBit_pos h1
    dsimp only at h
    split_ifs at h
    · cases h; simp; omega
    · have := ih _ _ _ _ h
      omega

/-- `DecUVarBits` never moves back. -/
theorem decUVarBits_pos {src : Source} {n k v k1} (h : decUVarBits src n k = .ok (v, k1)) : k ≤ k1 := by
  obtain ⟨_, _, h⟩ := bind_ok h
  obtain ⟨⟨_, _⟩, h1, h⟩ := bind_ok h
  obtain ⟨⟨_, _, _⟩, h2, h⟩ := bind_ok h
  obtain ⟨⟨_, _⟩, h3, h⟩ := bind_ok h
  obtain ⟨_, _, h⟩ := bind_ok h
  cases h
  have := takeBits_pos _ _ _ _ h1
  have := prefixLoop_pos _ _ _ _ _ h2
  have := decBoundedLoop_pos _ _ _ _ _ _ h3
  simp at *; omega

/-- `DecSVarBits` never moves back. -/
theorem decSVarBits_pos {src : Source} {n k v k1} (h : decSVarBits src n k = .ok (v, k1)) : k ≤ k1 := by
  obtain ⟨_, _, h⟩ := bind_ok h
  obtain ⟨⟨_, _⟩, h1, h⟩ := bind_ok h
  obtain ⟨⟨_, _⟩, h2, h⟩ := bind_ok h
  cases h
  have := takeBit_pos h1
  have := decUVarBits_pos h2
  omega

/-- `DecNode` never moves back. -/
theorem decNode_pos {src : Source} : ∀ d m pre k xs k1, decNode src d m pre k = .ok (xs, k1) → k ≤ k1 := by
  intro d
  induction d with
  | zero =>
    intro m pre k xs k1 h
    unfold decNode at h
    split_ifs at h
    · cases h; simp_all
    · cases h; simp
  | succ d ih =>
    intro m pre k xs k1 h
    unfold decNode at h
    split_ifs at h
    · cases h; simp_all
    · obtain ⟨⟨_, _⟩, h1, h⟩ := bind_ok h
      cases h
      have := takeBits_pos _ _ _ _ h1
      omega
    · obtain ⟨⟨dd, _⟩, h1, h⟩ := bind_ok h
      obtain ⟨⟨_, _⟩, h2, h⟩ := bind_ok h
      obtain ⟨⟨_, _⟩, h3, h⟩ := bind_ok h
      cases h
      have := decBoundedLoop_pos _ _ _ _ _ _ h1
      have := ih _ _ _ _ _ h2
      have := ih _ _ _ _ _ h3
      omega

/-- `DecUSABody` never moves back. -/
theorem decUsaBody_pos {src : Source} {n k xs k1} (h : decUsaBody src n k = .ok (xs, k1)) : k ≤ k1 := by
  unfold decUsaBody at h
  split_ifs at h
  · cases h; simp_all
  · obtain ⟨⟨_, _⟩, h1, h⟩ := bind_ok h
    obtain ⟨_, _, h⟩ := bind_ok h
    have := decUVarBits_pos h1
    have := decNode_pos _ _ _ _ _ _ h
    omega

/-- The fill never moves back. -/
theorem fillLoop_pos {src : Source} {n c k c' k'} (h : fillLoop src n c k = .ok (c', k')) : k ≤ k' :=
  (fillLoop_lt _ _ _ _ _ h).2

/-- The shift loop of the decoder never moves back. -/
theorem decShifts_pos {src : Source} {w} : ∀ n l h c k x, decShifts src w n l h c k = .ok x → k ≤ x.2.2.2 := by
  intro n
  induction n with
  | zero => intro l h c k x hh; cases hh; simp
  | succ n ih =>
    intro l h c k x hh
    unfold decShifts at hh
    split_ifs at hh
    · obtain ⟨⟨b, k2⟩, h1, hh⟩ := bind_ok hh
      have := takeBit_pos h1
      have := ih _ _ _ _ _ hh
      omega
    · cases hh; simp

/-- The underflow loop of the decoder never moves back. -/
theorem decUnders_pos {src : Source} {w} : ∀ n l h c k x, decUnders src w n l h c k = .ok x → k ≤ x.2.2.2 := by
  intro n
  induction n with
  | zero => intro l h c k x hh; cases hh; simp
  | succ n ih =>
    intro l h c k x hh
    unfold decUnders at hh
    split_ifs at hh
    · obtain ⟨⟨b, k2⟩, h1, hh⟩ := bind_ok hh
      have := takeBit_pos h1
      have := ih _ _ _ _ _ hh
      omega
    · cases hh; simp

/-- `ADDecode` writes the decoder and the position only, and never moves back. -/
theorem adDecode_frame {s s1 : State} {tab i} (h : adDecode s tab = .ok (i, s1)) :
    ∃ ad k, s1 = (s.setAd ad).setRpos k ∧ s.rpos ≤ k := by
  unfold adDecode at h
  obtain ⟨_, _, h⟩ := bind_ok h
  obtain ⟨_, _, h⟩ := bind_ok h
  rw [resourceLate_ok, adStep] at h
  obtain ⟨⟨ad1, k1⟩, h1, h⟩ := bind_ok h
  obtain ⟨⟨ad2, k2⟩, h2, h⟩ := bind_ok h
  cases h
  refine ⟨_, _, rfl, ?_⟩
  have a : s.rpos ≤ k1 := by
    unfold adFill at h1
    split_ifs at h1
    · cases h1; rfl
    · obtain ⟨⟨_, _⟩, h3, h1⟩ := bind_ok h1
      cases h1
      exact fillLoop_pos h3
  obtain ⟨⟨_, _, _, _⟩, h3, h2⟩ := bind_ok h2
  obtain ⟨⟨_, _, _, _⟩, h4, h2⟩ := bind_ok h2
  cases h2
  have := decShifts_pos _ _ _ _ _ _ h3
  have := decUnders_pos _ _ _ _ _ _ h4
  simp at *; omega

/-- `ReadTree` never moves back. -/
theorem readTree_pos {src : Source} {cfg ss} : ∀ n a b k x, readTree src cfg ss n a b k = .ok x → k ≤ x.2.2.2 := by
  intro n
  induction n with
  | zero => intro a b k x h; cases h
  | succ n ih =>
    intro a b k x h
    unfold readTree at h
    obtain ⟨⟨bb, k2⟩, h1, h⟩ := bind_ok h
    have := takeBit_pos h1
    dsimp only at h
    split_ifs at h
    · obtain ⟨_, _, h⟩ := bind_ok h
      obtain ⟨⟨_, _, _, _⟩, h2, h⟩ := bind_ok h
      obtain ⟨⟨_, _, _, _⟩, h3, h⟩ := bind_ok h
      cases h
      have := ih _ _ _ _ h2
      have := ih _ _ _ _ h3
      simp at *; omega
    · obtain ⟨_, _, h⟩ := bind_ok h
      obtain ⟨⟨vv, kk⟩, h2, h⟩ := bind_ok h
      cases h
      have : k2 ≤ kk := by
        unfold leafDec at h2
        split_ifs at h2
        · exact decSVarBits_pos h2
        · obtain ⟨⟨_, _⟩, h3, h2⟩ := bind_ok h2
          cases h2
          exact decUVarBits_pos h3
        · obtain ⟨⟨_, _⟩, h3, h2⟩ := bind_ok h2
          cases h2
          exact decBounded_pos h3
      simp at *; omega

/-- The descent of `HD.DEC` never moves back. -/
theorem descend_pos {src : Source} : ∀ t k x k1, descend src t k = .ok (x, k1) → k ≤ k1 := by
  intro t
  induction t with
  | leaf x => intro k x k1 h; cases h; rfl
  | node a b iha ihb =>
    intro k x k1 h
    obtain ⟨⟨bb, k2⟩, h1, h⟩ := bind_ok h
    have := takeBit_pos h1
    dsimp only at h
    split_ifs at h
    · have := ihb _ _ _ h; omega
    · have := iha _ _ _ h; omega

end Sys2Proof.Machine
end

