-- ==== Sys2Proof/Laws/Commands.lean ====
section
/-! SUPPORT. What the steps of a command can do to the state when they raise nothing: `exec` as one command, and the frame
of every writer-side and every reader-side body. -/

namespace Sys2Proof.Machine

open Sys2Proof Sys2Proof.Config

/-- The command that `exec` runs for an instruction. SRESET, which runs none, has a row of its own with no effect. -/
def commandOf : Instr → Command
  | .sreset => { op := 0x01, side := .writer, body := fun s => .ok s }
  | .wBit => { op := 0x10, side := .writer, body := bodyWBit }
  | .wBits n => { op := 0x11, side := .writer, body := bodyWBits n }
  | .wByte => { op := 0x12, side := .writer, drain := true, body := bodyWByte }
  | .wAlign => { op := 0x13, side := .writer, drain := true, body := bodyWAlign }
  | .wClose => { op := 0x14, side := .writer, drain := true, writes := fun _ => { closed := true }, body := bodyWClose }
  | .wSync => { op := 0x15, side := .writer, drain := true, body := bodyWSync }
  | .rBit => { op := 0x20, side := .reader, pull := .bits, writes := fun _ => { r := true }, body := bodyRBit }
  | .rBits n => { op := 0x21, side := .reader, pull := .bits, writes := fun _ => { r := true }, body := bodyRBits n }
  | .rByte => { op := 0x22, side := .reader, pull := .bytes, writes := fun _ => { r := true }, body := bodyRByte }
  | .rAlign => { op := 0x23, side := .reader, pull := .bits, body := bodyRAlign }
  | .rSync => { op := 0x24, side := .reader, pull := .bytes, writes := fun _ => { r := true }, body := bodyRSync }
  | .bndE => { op := 0x30, side := .writer, body := bodyBndE }
  | .bndD => { op := 0x31, side := .reader, pull := .bits, writes := fun _ => { r := true }, body := bodyBndD }
  | .uvbE n => { op := 0x32, side := .writer, body := bodyUvbE n }
  | .uvbD n => { op := 0x33, side := .reader, pull := .bits, writes := fun _ => { r := true }, body := bodyUvbD n }
  | .svbE n => { op := 0x34, side := .writer, body := bodySvbE n }
  | .svbD n => { op := 0x35, side := .reader, pull := .bits, writes := fun _ => { r := true }, body := bodySvbD n }
  | .vbyE => { op := 0x36, side := .writer, drain := true, body := bodyVbyE }
  | .vbyD => { op := 0x37, side := .reader, pull := .bytes, writes := fun _ => { r := true }, body := bodyVbyD }
  | .usaE => { op := 0x40, side := .writer, body := bodyUsaE }
  | .usaD =>
    { op := 0x41
      side := .reader
      pull := .bits
      writes := fun _ => { r := true }
      window := fun s1 => (s1.opA.toNat, s1.r.toNat)
      body := bodyUsaD }
  | .usanE => { op := 0x42, side := .writer, body := bodyUsanE }
  | .usanD =>
    { op := 0x43
      side := .reader
      pull := .bits
      writes := fun _ => { r := true }
      window := fun s1 => (s1.opA.toNat, s1.opB.toNat)
      body := bodyUsanD }
  | .aeReset n =>
    { op := 0x50
      side := .writer
      writes := fun _ => { ae := { mode := true, w := true, interval := true, uf := true, coded := true } }
      body := bodyAeReset n }
  | .aeEnc => { op := 0x51, side := .writer, writes := fun _ => { ae := aeStepWrites }, body := bodyAeEnc }
  | .aeFin =>
    { op := 0x52, side := .writer, writes := fun _ => { ae := { mode := true, uf := true } }, body := bodyAeFin }
  | .adReset n =>
    { op := 0x58
      side := .reader
      writes := fun _ => { ad := { mode := true, w := true, interval := true, code := true, filled := true } }
      body := bodyAdReset n }
  | .adDec =>
    { op := 0x59
      side := .reader
      pull := .bits
      writes := fun s => { r := true, ad := adStepWrites s }
      body := bodyAdDec }
  | .ceInit slot => { op := 0x60, side := .writer, writes := ceInitWrites slot, body := bodyCeInit slot }
  | .ceEnc slot => { op := 0x61, side := .writer, writes := ceEncWrites slot, body := bodyCeEnc slot }
  | .ceFin slot =>
    { op := 0x62, side := .writer, writes := fun _ => { ce := some (slot, { pass := true }) }, body := bodyCeFin slot }
  | .cdInit slot =>
    { op := 0x68
      side := .reader
      pull := .bits
      writes := fun _ => { cd := some slot }
      body := bodyCdInit slot }
  | .cdDec slot =>
    { op := 0x69
      side := .reader
      pull := .bits
      writes := cdDecWrites slot
      body := bodyCdDec slot }
  | .heInit n slot => { op := 0x70, side := .writer, writes := heInitWrites slot, body := bodyHeInit n slot }
  | .heEnc slot => { op := 0x71, side := .writer, writes := heEncWrites slot, body := bodyHeEnc slot }
  | .heFin slot =>
    { op := 0x72, side := .writer, writes := fun _ => { he := some (slot, { pass := true }) }, body := bodyHeFin slot }
  | .hdInit n slot =>
    { op := 0x78
      side := .reader
      pull := .bits
      writes := fun _ => { hd := some slot }
      body := bodyHdInit n slot }
  | .hdDec slot => { op := 0x79, side := .reader, pull := .bits, writes := fun _ => { r := true }, body := bodyHdDec slot }

/-- Every instruction but SRESET runs its command. -/
theorem exec_commandOf (i : Instr) (h : i ≠ .sreset) (s : State) : exec i s = runCommand (commandOf i) s := by
  cases i <;> first | exact absurd rfl h | rfl

/-- The opcode ERR_OP reports is the instruction's own. -/
theorem commandOf_op (i : Instr) : (commandOf i).op = i.opcode := by cases i <;> rfl

/-- A command is of one side or the other. -/
theorem commandOf_side (i : Instr) : (commandOf i).side = .writer ∨ (commandOf i).side = .reader := by
  cases (commandOf i).side <;> simp

/-- What a writer-side command can do: emit bits, close the writer, write the encoders. -/
def WriterFrame (s s1 : State) : Prop :=
  ∃ more, s1 =
    { s with wbits := s.wbits ++ more, wclosed := s1.wclosed, ae := s1.ae, ce := s1.ce, he := s1.he }

/-- `AEEncode` emits bits and writes the encoder. -/
theorem aeEncode_frame {s s1 : State} {tab x} (h : aeEncode s tab x = .ok s1) : WriterFrame s s1 := by
  unfold aeEncode at h
  obtain ⟨_, _, h⟩ := bind_ok h
  obtain ⟨_, _, h⟩ := bind_ok h
  obtain ⟨_, _, h⟩ := bind_ok h
  obtain ⟨_, _, h⟩ := bind_ok h
  split at h
  · cases h
  · cases h; exact ⟨_, rfl⟩

/-- Every writer-side command without error keeps the writer's frame. -/
theorem body_writer {i : Instr} {s s1 : State} (hs : (commandOf i).side = .writer) (hb : (commandOf i).body s = .ok s1) :
    WriterFrame s s1 := by
  cases i <;> first | (cases hs; done) | skip
  case sreset => cases hb; exact ⟨[], by simp⟩
  case ceInit slot =>
    change bodyCeInit slot s = _ at hb
    unfold bodyCeInit at hb
    obtain ⟨_, _, hb⟩ := bind_ok hb
    dsimp only at hb
    split at hb
    · cases hb; exact ⟨[], by simp [State.setCe]⟩
    · cases hb; exact ⟨[], by simp [State.setCe]⟩
    · obtain ⟨_, _, hb⟩ := bind_ok hb
      obtain ⟨_, _, hb⟩ := bind_ok hb
      obtain ⟨_, _, hb⟩ := bind_ok hb
      cases hb; exact ⟨_, rfl⟩
    · cases hb
  case ceEnc slot =>
    change bodyCeEnc slot s = _ at hb
    unfold bodyCeEnc at hb
    obtain ⟨_, _, hb⟩ := bind_ok hb
    dsimp only at hb
    split at hb
    · obtain ⟨_, _, hb⟩ := bind_ok hb
      obtain ⟨_, _, hb⟩ := bind_ok hb
      cases hb; exact ⟨[], by simp [State.setCe]⟩
    · obtain ⟨_, _, hb⟩ := bind_ok hb
      split_ifs at hb
      · exact aeEncode_frame hb
      · cases hb; exact ⟨[], by simp⟩
    · cases hb
    · cases hb
  case ceFin slot =>
    change bodyCeFin slot s = _ at hb
    unfold bodyCeFin at hb
    obtain ⟨_, _, hb⟩ := bind_ok hb
    obtain ⟨_, _, hb⟩ := bind_ok hb
    cases hb; exact ⟨[], by simp [State.setCe]⟩
  case heInit n slot =>
    change bodyHeInit n slot s = _ at hb
    unfold bodyHeInit at hb
    obtain ⟨_, _, hb⟩ := bind_ok hb
    obtain ⟨_, _, hb⟩ := bind_ok hb
    obtain ⟨_, _, hb⟩ := bind_ok hb
    split_ifs at hb
    · obtain ⟨_, _, hb⟩ := bind_ok hb
      obtain ⟨_, _, hb⟩ := bind_ok hb
      cases hb; exact ⟨_, rfl⟩
    · cases hb; exact ⟨[], by simp [State.setHe]⟩
  case heEnc slot =>
    change bodyHeEnc slot s = _ at hb
    unfold bodyHeEnc at hb
    obtain ⟨_, _, hb⟩ := bind_ok hb
    dsimp only at hb
    split at hb
    · obtain ⟨_, _, hb⟩ := bind_ok hb
      cases hb; exact ⟨[], by simp [State.setHe]⟩
    · split at hb
      · cases hb
      · obtain ⟨_, _, hb⟩ := bind_ok hb
        cases hb; exact ⟨_, rfl⟩
    · cases hb
    · cases hb
  case heFin slot =>
    change bodyHeFin slot s = _ at hb
    unfold bodyHeFin at hb
    obtain ⟨_, _, hb⟩ := bind_ok hb
    obtain ⟨_, _, hb⟩ := bind_ok hb
    cases hb; exact ⟨[], by simp [State.setHe]⟩
  case aeFin =>
    change bodyAeFin s = _ at hb
    unfold bodyAeFin at hb
    obtain ⟨_, _, hb⟩ := bind_ok hb
    split_ifs at hb
    · obtain ⟨_, _, hb⟩ := bind_ok hb
      cases hb; exact ⟨_, rfl⟩
    · cases hb; exact ⟨[], by simp [State.setAe]⟩
  case aeEnc =>
    change bodyAeEnc s = _ at hb
    unfold bodyAeEnc at hb
    obtain ⟨_, _, hb⟩ := bind_ok hb
    obtain ⟨_, _, hb⟩ := bind_ok hb
    obtain ⟨_, _, hb⟩ := bind_ok hb
    exact aeEncode_frame hb
  case aeReset n =>
    change bodyAeReset n s = _ at hb
    unfold bodyAeReset at hb
    obtain ⟨_, _, hb⟩ := bind_ok hb
    cases hb; exact ⟨[], by simp [State.setAe]⟩
  all_goals
    (repeat' (obtain ⟨_, _, hb⟩ := bind_ok hb))
    cases hb; exact ⟨_, rfl⟩

/-- What a reader-side command can do: write R, the decoders and ARR, and move on in the input stream. -/
def ReaderFrame (s s1 : State) : Prop :=
  s1 = { s with r := s1.r, rpos := s1.rpos, ad := s1.ad, cd := s1.cd, hd := s1.hd, arr := s1.arr } ∧ s.rpos ≤ s1.rpos

/-- `inWindow` changes no value. -/
theorem inWindow_ok {α : Type} {w : Nat × Nat} {x : Except Raise α} {v} : inWindow w x = .ok v ↔ x = .ok v := by
  cases x <;> simp [inWindow]

/-- Every reader-side command without error keeps the reader's frame. -/
theorem body_reader {i : Instr} {s s1 : State} (hs : (commandOf i).side = .reader) (hb : (commandOf i).body s = .ok s1) :
    ReaderFrame s s1 := by
  cases i <;> first | (cases hs; done) | skip
  case adReset n =>
    change bodyAdReset n s = _ at hb
    obtain ⟨_, _, hb⟩ := bind_ok hb
    cases hb; exact ⟨rfl, le_rfl⟩
  case rBit =>
    change bodyRBit s = _ at hb
    obtain ⟨⟨_, _⟩, h, hb⟩ := bind_ok hb
    cases hb; exact ⟨rfl, by have := takeBit_pos h; simp; omega⟩
  case rBits n =>
    change bodyRBits n s = _ at hb
    obtain ⟨_, _, hb⟩ := bind_ok hb
    obtain ⟨⟨_, _⟩, h, hb⟩ := bind_ok hb
    cases hb; exact ⟨rfl, by have := takeBits_pos _ _ _ _ h; simp; omega⟩
  case rByte =>
    change bodyRByte s = _ at hb
    obtain ⟨⟨_, _⟩, h, hb⟩ := bind_ok hb
    cases hb; exact ⟨rfl, by have := takeByte_pos h; unfold ceil8 at *; simp; omega⟩
  case rAlign =>
    change bodyRAlign s = _ at hb
    obtain ⟨_, h, hb⟩ := bind_ok hb
    cases hb; exact ⟨rfl, by have := rAlign_pos h; unfold ceil8 at *; simp; omega⟩
  case rSync =>
    change bodyRSync s = _ at hb
    obtain ⟨⟨_, _⟩, h, hb⟩ := bind_ok hb
    obtain ⟨_, _, hb⟩ := bind_ok hb
    cases hb; exact ⟨rfl, by have := syncLoop_pos _ _ _ _ _ h; unfold ceil8 at *; simp; omega⟩
  case bndD =>
    change bodyBndD s = _ at hb
    obtain ⟨⟨_, _⟩, h, hb⟩ := bind_ok hb
    cases hb; exact ⟨rfl, by have := decBounded_pos h; simp; omega⟩
  case uvbD n =>
    change bodyUvbD n s = _ at hb
    obtain ⟨⟨_, _⟩, h, hb⟩ := bind_ok hb
    cases hb; exact ⟨rfl, by have := decUVarBits_pos h; simp; omega⟩
  case svbD n =>
    change bodySvbD n s = _ at hb
    obtain ⟨⟨_, _⟩, h, hb⟩ := bind_ok hb
    cases hb; exact ⟨rfl, by have := decSVarBits_pos h; simp; omega⟩
  case vbyD =>
    change bodyVbyD s = _ at hb
    obtain ⟨_, h1, hb⟩ := bind_ok hb
    obtain ⟨⟨_, _⟩, h, hb⟩ := bind_ok hb
    have := rAlign_pos h1
    have := vbyLoop_pos _ _ _ _ _ _ h
    cases hb; exact ⟨rfl, by unfold ceil8 at *; simp; omega⟩
  case usaD =>
    change bodyUsaD s = _ at hb
    obtain ⟨_, _, hb⟩ := bind_ok hb
    obtain ⟨⟨_, _⟩, h, hb⟩ := bind_ok hb
    obtain ⟨_, _, hb⟩ := bind_ok hb
    obtain ⟨⟨_, _⟩, h1, hb⟩ := bind_ok hb
    cases hb
    have := decUVarBits_pos h
    have := decUsaBody_pos (inWindow_ok.1 h1)
    refine ⟨?_, by simp; omega⟩
    rw [memWriteList_eq]; rfl
  case usanD =>
    change bodyUsanD s = _ at hb
    obtain ⟨_, _, hb⟩ := bind_ok hb
    obtain ⟨⟨_, _⟩, h1, hb⟩ := bind_ok hb
    cases hb
    have := decUsaBody_pos (inWindow_ok.1 h1)
    refine ⟨?_, by simp; omega⟩
    rw [memWriteList_eq]; rfl
  case adDec =>
    change bodyAdDec s = _ at hb
    obtain ⟨_, _, hb⟩ := bind_ok hb
    obtain ⟨_, _, hb⟩ := bind_ok hb
    obtain ⟨⟨_, _⟩, h1, hb⟩ := bind_ok hb
    obtain ⟨ad, k, rfl, hk⟩ := adDecode_frame h1
    cases hb
    exact ⟨rfl, by simpa using hk⟩
  case cdInit slot =>
    change bodyCdInit slot s = _ at hb
    unfold bodyCdInit at hb
    obtain ⟨_, _, hb⟩ := bind_ok hb
    obtain ⟨_, _, hb⟩ := bind_ok hb
    obtain ⟨⟨n, k⟩, h1, hb⟩ := bind_ok hb
    obtain ⟨_, _, hb⟩ := bind_ok hb
    dsimp only at hb
    have h1 := decUVarBits_pos h1
    have key : ∀ cum k1, k ≤ k1 → (do
        require (decide (n < 2) || decide (cum.getLastD 0 ≤ maxTotal s.ad.w)) { code := .precisionBudget, info := k1 }
        let (syms, k2) ← decUsaBody s.source n k1
        Except.ok ((s.setRpos k2).setCd slot (.ready syms cum))) = Except.ok s1 → ReaderFrame s s1 := by
      intro cum k1 hk hb
      obtain ⟨_, _, hb⟩ := bind_ok hb
      obtain ⟨⟨_, _⟩, h2, hb⟩ := bind_ok hb
      cases hb
      have := decUsaBody_pos h2
      exact ⟨rfl, by simp; omega⟩
    split_ifs at hb
    · obtain ⟨⟨_, _⟩, h2, hb⟩ := bind_ok hb
      exact key _ _ (decUsaBody_pos h2) hb
    · exact key _ _ le_rfl hb
  case cdDec slot =>
    change bodyCdDec slot s = _ at hb
    unfold bodyCdDec at hb
    obtain ⟨_, _, hb⟩ := bind_ok hb
    dsimp only at hb
    split at hb
    · split_ifs at hb
      · cases hb; exact ⟨rfl, le_rfl⟩
      · obtain ⟨⟨_, _⟩, h1, hb⟩ := bind_ok hb
        obtain ⟨ad, k, rfl, hk⟩ := adDecode_frame h1
        cases hb
        exact ⟨rfl, by simpa using hk⟩
    · cases hb
    · cases hb
  case hdInit n slot =>
    change bodyHdInit n slot s = _ at hb
    unfold bodyHdInit at hb
    obtain ⟨_, _, hb⟩ := bind_ok hb
    obtain ⟨_, _, hb⟩ := bind_ok hb
    obtain ⟨⟨f, k⟩, h1, hb⟩ := bind_ok hb
    have := takeBit_pos h1
    dsimp only at hb
    split_ifs at hb
    · obtain ⟨⟨_, _, _, _⟩, h2, hb⟩ := bind_ok hb
      have := readTree_pos _ _ _ _ _ h2
      cases hb
      exact ⟨rfl, by simp at *; omega⟩
    · cases hb; exact ⟨rfl, by simp; omega⟩
  case hdDec slot =>
    change bodyHdDec slot s = _ at hb
    unfold bodyHdDec at hb
    obtain ⟨_, _, hb⟩ := bind_ok hb
    dsimp only at hb
    split at hb
    · obtain ⟨⟨_, _⟩, h1, hb⟩ := bind_ok hb
      have := descend_pos _ _ _ _ h1
      cases hb
      exact ⟨rfl, by simp; omega⟩
    · cases hb
    · cases hb

/-- What any command without error can do. -/
theorem body_frame {i : Instr} {s s1 : State} (hb : (commandOf i).body s = .ok s1) :
    s1 = { s with wbits := s1.wbits, wclosed := s1.wclosed, ae := s1.ae, ce := s1.ce, he := s1.he, r := s1.r
                  rpos := s1.rpos, ad := s1.ad, cd := s1.cd, hd := s1.hd, arr := s1.arr } ∧
    (∃ more, s1.wbits = s.wbits ++ more) ∧ s.rpos ≤ s1.rpos := by
  rcases commandOf_side i with h | h
  · obtain ⟨more, h1⟩ := body_writer h hb
    rw [h1]; exact ⟨rfl, ⟨more, rfl⟩, le_rfl⟩
  · obtain ⟨h1, h2⟩ := body_reader h hb
    refine ⟨?_, ⟨[], ?_⟩, h2⟩
    · rw [h1]
    · rw [h1]; simp

/-- A command that reads whole bytes passes the next byte boundary. -/
theorem body_bytes {i : Instr} {s s1 : State} (hs : (commandOf i).pull = .bytes) (hb : (commandOf i).body s = .ok s1) :
    8 * ceil8 s.rpos ≤ s1.rpos := by
  cases i <;> first | (cases hs; done) | skip
  case rByte =>
    change bodyRByte s = _ at hb
    obtain ⟨⟨_, _⟩, h, hb⟩ := bind_ok hb
    cases hb; have := takeByte_pos h; simp; omega
  case rSync =>
    change bodyRSync s = _ at hb
    obtain ⟨⟨_, _⟩, h, hb⟩ := bind_ok hb
    obtain ⟨_, _, hb⟩ := bind_ok hb
    cases hb; have := syncLoop_pos _ _ _ _ _ h; simp; omega
  case vbyD =>
    change bodyVbyD s = _ at hb
    obtain ⟨_, h1, hb⟩ := bind_ok hb
    obtain ⟨⟨_, _⟩, h, hb⟩ := bind_ok hb
    cases hb; have := rAlign_pos h1; have := vbyLoop_pos _ _ _ _ _ _ h; unfold ceil8 at *; simp; omega

/-- A drain point leaves whole bytes only. -/
theorem body_drain {i : Instr} {s s1 : State} (hs : (commandOf i).drain = true) (hb : (commandOf i).body s = .ok s1) :
    s1.wbits.length % 8 = 0 := by
  cases i <;> first | (cases hs; done) | skip
  all_goals
    obtain ⟨_, _, hb⟩ := bind_ok hb
    cases hb
    simp [alignBits, State.wpos, syncBits, vbyBits, natBits_length]
  case wByte => omega
  case wAlign => omega
  case wClose => omega
  case wSync => omega
  case vbyE =>
    omega

end Sys2Proof.Machine
end

