-- ==== Sys2Proof/Laws/SortedArray.lean ====
section
/-! SUPPORT. The sorted-array codec: the encoder emits the code of 42_sorted_array.md R261, the decoder takes exactly that
code, and every list it returns is a valid sorted array (R262). -/

namespace Sys2Proof.Machine

open Sys2Proof Sys2Proof.Config

/-- A strictly rising list inside an interval is no longer than the interval. -/
theorem length_le_of_rising {xs : List Nat} {a b : Nat} (hs : xs.Pairwise (· < ·)) (ha : ∀ x ∈ xs, a ≤ x ∧ x < b) :
    xs.length ≤ b - a := by
  induction xs generalizing a with
  | nil => simp
  | cons x xs ih =>
    rw [List.pairwise_cons] at hs
    have h1 := ha x (by simp)
    have := ih hs.2 (a := x + 1) (fun y hy => ⟨hs.1 y hy, (ha y (by simp [hy])).2⟩)
    simp only [List.length_cons]; omega

/-- A node of `d` bits has at most `2^d` elements. -/
theorem length_le_of_node {xs : List Nat} {d c : Nat} (hs : xs.Pairwise (· < ·)) (hc : ∀ x ∈ xs, x / 2 ^ d = c) :
    xs.length ≤ 2 ^ d := by
  have hpos : 0 < 2 ^ d := by positivity
  have := length_le_of_rising hs (a := c * 2 ^ d) (b := c * 2 ^ d + 2 ^ d) (fun x hx => by
    have h1 := hc x hx
    have h2 := Nat.div_add_mod x (2 ^ d)
    have h3 := Nat.mod_lt x hpos
    rw [h1, mul_comm] at h2; omega)
  omega

/-- Bit `p` splits the high part. -/
theorem div_two_pow_bit (x p : Nat) : x / 2 ^ p = 2 * (x / 2 ^ (p + 1)) + (x.testBit p).toNat := by
  rw [pow_succ, ← Nat.div_div_eq_div_mul, Nat.testBit_eq_decide_div_mod_eq]
  rcases Nat.mod_two_eq_zero_or_one (x / 2 ^ p) with h | h <;> simp [h] <;> omega

/-- A list on which a test never goes from true back to false is its false part, then its true part. -/
theorem split_by {α : Type} {q : α → Bool} {xs : List α} (h : xs.Pairwise (fun x y => q x = true → q y = true)) :
    xs = xs.filter (fun x => !q x) ++ xs.filter q := by
  induction xs with
  | nil => rfl
  | cons x xs ih =>
    rw [List.pairwise_cons] at h
    cases hx : q x with
    | false => simpa [hx] using ih h.2
    | true =>
      have h1 : xs.filter (fun x => !q x) = [] := by
        rw [List.filter_eq_nil_iff]; intro y hy; simp [h.1 y hy hx]
      have h2 : xs.filter q = xs := by rw [List.filter_eq_self]; intro y hy; exact h.1 y hy hx
      simp [hx, h1, h2]

/-- The zero group and the one group of a node. -/
theorem node_split {xs : List Nat} {p c : Nat} (hs : xs.Pairwise (· < ·)) (hc : ∀ x ∈ xs, x / 2 ^ (p + 1) = c) :
    xs.take (xs.filter (fun x => !x.testBit p)).length = xs.filter (fun x => !x.testBit p) ∧
      xs.drop (xs.filter (fun x => !x.testBit p)).length = xs.filter (fun x => x.testBit p) ∧
      xs = xs.filter (fun x => !x.testBit p) ++ xs.filter (fun x => x.testBit p) := by
  have hsplit : xs = xs.filter (fun x => !x.testBit p) ++ xs.filter (fun x => x.testBit p) := by
    refine split_by (q := fun x : Nat => x.testBit p) ?_
    refine List.Pairwise.imp_of_mem ?_ hs
    intro x y hx hy hlt hq
    have h1 := div_two_pow_bit x p
    have h2 := div_two_pow_bit y p
    rw [hc x hx, hq] at h1
    rw [hc y hy] at h2
    have h3 : x / 2 ^ p ≤ y / 2 ^ p := Nat.div_le_div_right hlt.le
    cases hb : y.testBit p
    · rw [hb] at h2; simp at h1 h2; omega
    · rfl
  refine ⟨?_, ?_, hsplit⟩
  · conv_lhs => rw [hsplit]
    simp
  · conv_lhs => rw [hsplit]
    simp

/-- `EncNode` emits the code of R261. -/
theorem nodeBits_code : ∀ d (xs : List Nat) c, xs.Pairwise (· < ·) → (∀ x ∈ xs, x / 2 ^ d = c) →
    NodeCode d xs (nodeBits d xs) := by
  intro d
  induction d with
  | zero =>
    intro xs c hs hc
    have := length_le_of_node hs hc
    match xs, this with
    | [], _ => exact .empty 0
    | [x], _ => exact .single 0 x
    | x :: y :: rest, h => simp at h
  | succ p ih =>
    intro xs c hs hc
    match hxs : xs with
    | [] => simpa [nodeBits] using NodeCode.empty (p + 1)
    | [x] => simpa [nodeBits] using NodeCode.single (p + 1) x
    | x :: y :: rest =>
      rw [← hxs] at hs hc ⊢
      obtain ⟨ht, hd, hsplit⟩ := node_split hs hc
      have hlen : 2 ≤ xs.length := by rw [hxs]; simp
      have hunf : nodeBits (p + 1) xs =
          boundedBits (min xs.length (2 ^ p) - (xs.length - 2 ^ p))
              ((xs.filter (fun x => !x.testBit p)).length - (xs.length - 2 ^ p)) ++
            (nodeBits p (xs.filter (fun x => !x.testBit p)) ++ nodeBits p (xs.filter (fun x => x.testBit p))) := by
        conv_rhs => rw [← ht, ← hd]
        rw [hxs, nodeBits, ← hxs]
        · simp [ht]
        · simp
        · simp
      rw [hunf]
      generalize hz : xs.filter (fun x => !x.testBit p) = zeros at *
      generalize ho : xs.filter (fun x => x.testBit p) = ones at *
      have hzm : ∀ x ∈ zeros, x ∈ xs ∧ x.testBit p = false := by
        intro x hx; rw [← hz] at hx; simpa using hx
      have hom : ∀ x ∈ ones, x ∈ xs ∧ x.testBit p = true := by
        intro x hx; rw [← ho] at hx; simpa using hx
      have hzs : zeros.Pairwise (· < ·) := by rw [← hz]; exact hs.filter _
      have hos : ones.Pairwise (· < ·) := by rw [← ho]; exact hs.filter _
      have hzc : ∀ x ∈ zeros, x / 2 ^ p = 2 * c := by
        intro x hx; rw [div_two_pow_bit, hc x (hzm x hx).1, (hzm x hx).2]; simp
      have hoc : ∀ x ∈ ones, x / 2 ^ p = 2 * c + 1 := by
        intro x hx; rw [div_two_pow_bit, hc x (hom x hx).1, (hom x hx).2]; simp
      have hzl := length_le_of_node hzs hzc
      have hol := length_le_of_node hos hoc
      rw [hsplit]
      rw [hsplit, List.length_append] at hlen
      refine NodeCode.split p zeros ones _ _ _ (by simpa using hlen) (fun x hx => (hzm x hx).2)
        (fun x hx => (hom x hx).2) (boundedBits_code ?_).1 (ih _ _ hzs hzc) (ih _ _ hos hoc)
      rw [List.length_append]; omega

/-- `DecNode` takes exactly the code of a node and returns its elements. -/
theorem decNode_code {s : State} (hs : s.srcFail = none) {d : Nat} {xs : List Nat} {bits : List Bool}
    (hc : NodeCode d xs bits) : ∀ c k, xs.Pairwise (· < ·) → (∀ x ∈ xs, x / 2 ^ d = c) → HoldsAt s k bits →
      decNode s.source d xs.length (c * 2 ^ d) k = .ok (xs, k + bits.length) := by
  induction hc with
  | empty d => intro c k _ _ _; cases d <;> simp [decNode]
  | single d x =>
    intro c k _ hx hh
    have h1 := hx x (by simp)
    cases d with
    | zero => simp [decNode, natBits] at h1 ⊢; exact h1.symm
    | succ p =>
      have hpos : 1 ≤ 2 ^ p := Nat.one_le_two_pow
      simp only [List.length_singleton, decNode, one_ne_zero, if_false]
      rw [if_neg (by rw [pow_succ]; omega), if_pos trivial, takeBits_natBits hs hh, ok_bind, natBits_length]
      have := Nat.two_pow_add_eq_or_of_lt (Nat.mod_lt x (show 0 < 2 ^ (p + 1) by positivity)) c
      have h2 := Nat.div_add_mod x (2 ^ (p + 1))
      rw [h1] at h2
      simp only [mul_comm c, ← this, h2]
  | split p zeros ones count code0 code1 many hz ho hcnt h0 h1 ih0 ih1 =>
    intro c k hp hx hh
    rw [List.pairwise_append] at hp
    rw [holdsAt_append, holdsAt_append] at hh
    have hzc : ∀ x ∈ zeros, x / 2 ^ p = 2 * c := by
      intro x h; rw [div_two_pow_bit, hx x (by simp [h]), hz x h]; simp
    have hoc : ∀ x ∈ ones, x / 2 ^ p = 2 * c + 1 := by
      intro x h; rw [div_two_pow_bit, hx x (by simp [h]), ho x h]; simp
    have hzl := length_le_of_node hp.1 hzc
    have hol := length_le_of_node hp.2.1 hoc
    rw [List.length_append] at hcnt many ⊢
    rw [decNode, if_neg (by omega), if_neg (by rw [pow_succ]; omega), if_neg (by omega)]
    simp only
    rw [decBoundedNat_code hs (by omega) hcnt hh.1, ok_bind]
    simp only
    have e0 := ih0 (2 * c) _ hp.1 hzc hh.2.1
    have e1 := ih1 (2 * c + 1) _ hp.2.1 hoc hh.2.2
    rw [show zeros.length + ones.length - 2 ^ p + (zeros.length - (zeros.length + ones.length - 2 ^ p)) = zeros.length
      by omega, show c * 2 ^ (p + 1) = 2 * c * 2 ^ p by ring, e0, ok_bind]
    have hor : 2 * c * 2 ^ p ||| 2 ^ p = (2 * c + 1) * 2 ^ p := by
      have h5 := Nat.two_pow_add_eq_or_of_lt (show 2 ^ p < 2 ^ (p + 1) by rw [pow_succ]; omega) c
      rw [show 2 * c * 2 ^ p = 2 ^ (p + 1) * c by ring, ← h5]; ring
    simp only [hor]
    rw [show zeros.length + ones.length - zeros.length = ones.length by omega, e1, ok_bind]
    simp only [List.length_append, Except.ok.injEq, Prod.mk.injEq, true_and]
    omega

/-- The last element of a rising list is its greatest. -/
theorem le_getLastD {xs : List Nat} (hs : xs.Pairwise (· < ·)) : ∀ x ∈ xs, x ≤ xs.getLastD 0 := by
  intro x hx
  rcases List.eq_nil_or_concat xs with rfl | ⟨ys, y, rfl⟩
  · cases hx
  · simp only [List.concat_eq_append] at *
    rw [List.pairwise_append] at hs
    simp only [List.getLastD_concat]
    rcases List.mem_append.mp hx with h | h
    · exact (hs.2.2 x h y (by simp)).le
    · rw [List.mem_singleton.mp h]

/-- `EncUSABody` emits the code of R261. -/
theorem usaBody_code {xs : List Nat} (h : SortedArray xs) : BodyCode xs (usaBody xs) := by
  unfold BodyCode
  split_ifs with h0
  · subst h0; rfl
  · have hlast : xs.getLast? = some (xs.getLastD 0) := by
      rw [List.getLastD_eq_getLast?, List.getLast?_eq_some_getLast h0]; rfl
    refine ⟨_, _, uvarBits_code _ 0, nodeBits_code _ xs 0 h.1 ?_, ?_⟩
    · intro x hx
      exact Nat.div_eq_of_lt ((le_getLastD h.1 x hx).trans_lt (lt_two_pow_bitlen _))
    · rw [usaBody, hlast]

/-- `DecUSABody` takes exactly the code of a sorted array and returns the array. -/
theorem decUsaBody_code {s : State} (hs : s.srcFail = none) {xs : List Nat} {bits : List Bool} {k : Nat}
    (h : SortedArray xs) (hc : BodyCode xs bits) (hh : HoldsAt s k bits) :
    decUsaBody s.source xs.length k = .ok (xs, k + bits.length) := by
  unfold BodyCode at hc
  split_ifs at hc with h0
  · subst h0; subst hc; rfl
  · obtain ⟨wb, nodes, hw, hn, rfl⟩ := hc
    rw [holdsAt_append] at hh
    have hlast : xs.getLastD 0 ∈ xs := by
      rw [List.getLastD_eq_getLast?, List.getLast?_eq_some_getLast h0]; exact List.getLast_mem h0
    have hw63 : bitlen (xs.getLastD 0) ≤ 63 := bitlen_le (by have := h.2 _ hlast; unfold lmax at this; omega)
    rw [decUsaBody, if_neg (by simpa using h0),
      decUVarBits_code hs (by omega) (by unfold lmax; omega) hw hh.1]
    rw [ok_bind]
    simp only
    rw [decide_eq_true hw63, require_true, ok_bind]
    have := decNode_code hs hn 0 _ h.1 (fun x hx =>
      Nat.div_eq_of_lt ((le_getLastD h.1 x hx).trans_lt (lt_two_pow_bitlen _))) hh.2
    rw [Nat.zero_mul] at this
    rw [this, List.length_append, Nat.add_assoc]

/-- Bits taken as a value. -/
theorem takeBits_lt {src : Source} : ∀ n k v k', takeBits src n k = .ok (v, k') → v < 2 ^ n := by
  intro n
  induction n with
  | zero => intro k v k' h; simp only [takeBits, Except.ok.injEq, Prod.mk.injEq] at h; omega
  | succ n ih =>
    intro k v k' h
    rw [takeBits] at h
    obtain ⟨⟨b, k1⟩, _, h⟩ := bind_ok h
    obtain ⟨⟨w, k2⟩, h2, h⟩ := bind_ok h
    simp only [Except.ok.injEq, Prod.mk.injEq] at h
    have := ih _ _ _ h2
    rw [pow_succ]
    cases b <;> simp at h <;> omega

/-- `DecBounded` stays in its range. -/
theorem decBoundedLoop_le {src : Source} {max : Nat} : ∀ fuel v i k w k', v ≤ max →
    decBoundedLoop src max fuel v i k = .ok (w, k') → w ≤ max := by
  intro fuel
  induction fuel with
  | zero => intro v i k w k' hv h; simp only [decBoundedLoop, Except.ok.injEq, Prod.mk.injEq] at h; omega
  | succ fuel ih =>
    intro v i k w k' hv h
    rw [decBoundedLoop] at h
    split_ifs at h with hc
    · obtain ⟨⟨b, k1⟩, _, h⟩ := bind_ok h
      refine ih _ _ _ _ _ ?_ h
      split_ifs <;> assumption
    · simp only [Except.ok.injEq, Prod.mk.injEq] at h; omega

/-- `DecBounded` stays in its range. -/
theorem decBoundedNat_le {src : Source} {max k w k' : Nat} (h : decBoundedNat src max k = .ok (w, k')) : w ≤ max :=
  decBoundedLoop_le _ _ _ _ _ _ (Nat.zero_le _) h

/-- Every list `DecNode` returns is a node of as many elements as asked for (R262). -/
theorem decNode_sorted {src : Source} : ∀ d m c k xs k', decNode src d m (c * 2 ^ d) k = .ok (xs, k') →
    xs.length = m ∧ xs.Pairwise (· < ·) ∧ ∀ x ∈ xs, x / 2 ^ d = c := by
  intro d
  induction d with
  | zero =>
    intro m c k xs k' h
    rw [decNode] at h
    split_ifs at h with h0 h1
    · simp only [Except.ok.injEq, Prod.mk.injEq] at h; obtain ⟨rfl, _⟩ := h; simp [h0]
    · simp only [Except.ok.injEq, Prod.mk.injEq] at h; obtain ⟨rfl, _⟩ := h; simp; omega
  | succ p ih =>
    intro m c k xs k' h
    rw [decNode] at h
    split_ifs at h with h0 h1 h2
    · simp only [Except.ok.injEq, Prod.mk.injEq] at h; obtain ⟨rfl, _⟩ := h; simp [h0]
    · obtain ⟨⟨v, k1⟩, hv, h⟩ := bind_ok h
      simp only [Except.ok.injEq, Prod.mk.injEq] at h; obtain ⟨rfl, _⟩ := h
      have hlt := takeBits_lt _ _ _ _ hv
      have hpos : 0 < 2 ^ (p + 1) := by positivity
      have h5 := Nat.two_pow_add_eq_or_of_lt hlt c
      refine ⟨by simp [h2], by simp, ?_⟩
      intro x hx
      rw [List.mem_singleton] at hx
      rw [hx, mul_comm, ← h5, Nat.mul_add_div hpos, Nat.div_eq_of_lt hlt, Nat.add_zero]
    · obtain ⟨⟨d, k1⟩, hd, h⟩ := bind_ok h
      obtain ⟨⟨ys, k2⟩, hy, h⟩ := bind_ok h
      obtain ⟨⟨zs, k3⟩, hz, h⟩ := bind_ok h
      simp only [Except.ok.injEq, Prod.mk.injEq] at h; obtain ⟨rfl, _⟩ := h
      have hdle := decBoundedNat_le hd
      rw [show c * 2 ^ (p + 1) = 2 * c * 2 ^ p by ring] at hy hz
      have hor : 2 * c * 2 ^ p ||| 2 ^ p = (2 * c + 1) * 2 ^ p := by
        have h5 := Nat.two_pow_add_eq_or_of_lt (show 2 ^ p < 2 ^ (p + 1) by rw [pow_succ]; omega) c
        rw [show 2 * c * 2 ^ p = 2 ^ (p + 1) * c by ring, ← h5]; ring
      rw [hor] at hz
      obtain ⟨l1, s1, q1⟩ := ih _ _ _ _ _ hy
      obtain ⟨l2, s2, q2⟩ := ih _ _ _ _ _ hz
      have hdiv : ∀ x, x / 2 ^ (p + 1) = x / 2 ^ p / 2 := fun x => by rw [pow_succ, Nat.div_div_eq_div_mul]
      refine ⟨?_, ?_, ?_⟩
      · rw [List.length_append, l1, l2]; rw [pow_succ] at h1; omega
      · rw [List.pairwise_append]
        refine ⟨s1, s2, fun a ha b hb => ?_⟩
        have h6 := q1 a ha
        have h7 := q2 b hb
        by_contra hcon
        have : b / 2 ^ p ≤ a / 2 ^ p := Nat.div_le_div_right (by omega)
        omega
      · intro x hx
        rcases List.mem_append.mp hx with hx | hx
        · rw [hdiv, q1 x hx]; omega
        · rw [hdiv, q2 x hx]; omega

/-- Every list `DecUSABody` returns is a valid sorted array of the size asked for (R262). -/
theorem decUsaBody_sorted {src : Source} {n k : Nat} {xs : List Nat} {k' : Nat}
    (h : decUsaBody src n k = .ok (xs, k')) : xs.length = n ∧ SortedArray xs := by
  rw [decUsaBody] at h
  split_ifs at h with h0
  · simp only [Except.ok.injEq, Prod.mk.injEq] at h
    obtain ⟨rfl, _⟩ := h
    exact ⟨by simp [h0], by simp [SortedArray]⟩
  · obtain ⟨⟨w, k1⟩, hw, h⟩ := bind_ok h
    obtain ⟨u, hr, h⟩ := bind_ok h
    rw [require_ok, decide_eq_true_eq] at hr
    obtain ⟨l, p, q⟩ := decNode_sorted w n 0 k1 xs k' (by rw [Nat.zero_mul]; exact h)
    refine ⟨l, p, fun x hx => ?_⟩
    have h2 : 2 ^ w ≤ 2 ^ 63 := Nat.pow_le_pow_right (by norm_num) hr
    have h3 := (Nat.div_eq_zero_iff_lt (by positivity)).mp (q x hx)
    unfold lmax; omega

end Sys2Proof.Machine
end

