-- ==== Sys2Proof/Laws/Context.lean ====
section
/-! SUPPORT. The counts of the two-pass slots: the context table of 43_arithmetic.md R301, counting a symbol (R302,
44_huffman.md R357). -/

namespace Sys2Proof.Machine

open Sys2Proof Sys2Proof.Config

/-- The code of a context table is that of R301. -/
theorem contextTable_code {syms cum : List Nat} (hs : SortedArray syms) (hc : 2 ≤ syms.length → SortedArray cum) :
    ContextCode syms cum (contextTable syms cum) := by
  refine ⟨uvarBits syms.length 0, if 2 ≤ syms.length then usaBody cum else [], usaBody syms, uvarBits_code _ _, ?_,
    usaBody_code hs, by simp [contextTable]⟩
  split_ifs with h
  · exact usaBody_code (hc h)
  · rfl

theorem runningSums_eq (cs : List Nat) : ∀ acc,
    runningSums acc cs = (List.range cs.length).map (fun i => acc + (cs.take (i + 1)).sum) := by
  induction cs with
  | nil => intro acc; rfl
  | cons c cs ih =>
    intro acc
    rw [runningSums, ih, List.length_cons, List.range_succ_eq_map]
    simp [Function.comp_def, Nat.add_assoc]

/-- `CUM` as the spec writes it (R301). -/
theorem sums_eq_cumulative (st : CeSlot) : st.sums = cumulative st.freq := by
  rw [CeSlot.sums, runningSums_eq, cumulative, List.length_map]
  apply List.map_congr_left
  intro i _
  rw [Nat.zero_add, List.map_take]

theorem runningSums_sorted {cs : List Nat} (h : ∀ c ∈ cs, 1 ≤ c) : ∀ acc,
    (runningSums acc cs).Pairwise (· < ·) ∧ ∀ x ∈ runningSums acc cs, acc < x := by
  induction cs with
  | nil => intro acc; simp [runningSums]
  | cons c cs ih =>
    intro acc
    have hc := h c (by simp)
    obtain ⟨h1, h2⟩ := ih (fun c hc => h c (by simp [hc])) (acc + c)
    rw [runningSums]
    refine ⟨List.pairwise_cons.mpr ⟨h2, h1⟩, fun x hx => ?_⟩
    rcases List.mem_cons.mp hx with rfl | hx
    · omega
    · have := h2 x hx; omega

/-- Counts of at least 1 have strictly rising sums. -/
theorem cumulative_sorted {freq : List (Nat × Nat)} (h : ∀ p ∈ freq, 1 ≤ p.2) :
    (cumulative freq).Pairwise (· < ·) := by
  have := (runningSums_sorted (cs := freq.map Prod.snd) (fun c hc => by
    obtain ⟨p, hp, rfl⟩ := List.mem_map.mp hc; exact h p hp) 0).1
  have e := sums_eq_cumulative { pass := .idle, freq := freq, syms := [], cum := [] }
  rw [CeSlot.sums] at e
  rwa [e] at this

theorem cumulative_length (freq : List (Nat × Nat)) : (cumulative freq).length = freq.length := by
  simp [cumulative]

/-- One more count of a symbol: the keys stay strictly rising, the counts are as R302 says. -/
theorem freqAdd_spec (x : Nat) {freq : List (Nat × Nat)} (h : (freq.map Prod.fst).Pairwise (· < ·)) :
    ((freqAdd x freq).map Prod.fst).Pairwise (· < ·) ∧
      (∀ y, countOf (freqAdd x freq) y = countOf freq y + if y = x then 1 else 0) ∧
      (∀ y, y ∈ (freqAdd x freq).map Prod.fst ↔ y = x ∨ y ∈ freq.map Prod.fst) ∧
      (freqAdd x freq).length = freq.length + (if x ∈ freq.map Prod.fst then 0 else 1) ∧
      ((∀ p ∈ freq, 1 ≤ p.2) → ∀ p ∈ freqAdd x freq, 1 ≤ p.2) := by
  induction freq with
  | nil =>
    refine ⟨by simp [freqAdd], fun y => ?_, by simp [freqAdd], by simp [freqAdd], by simp [freqAdd]⟩
    by_cases hy : y = x
    · simp [freqAdd, countOf, hy]
    · simp [freqAdd, countOf, hy, Ne.symm hy]
  | cons p rest ih =>
    obtain ⟨k, c⟩ := p
    rw [List.map_cons, List.pairwise_cons] at h
    obtain ⟨i1, i2, i3, i4, i5⟩ := ih h.2
    have hunf : freqAdd x ((k, c) :: rest) =
        if x < k then (x, 1) :: (k, c) :: rest else if x = k then (k, c + 1) :: rest else (k, c) :: freqAdd x rest := rfl
    rw [hunf]
    rcases Nat.lt_trichotomy x k with h1 | h2 | h2
    · rw [if_pos h1]
      refine ⟨?_, fun y => ?_, ?_, ?_, ?_⟩
      · simp only [List.map_cons, List.pairwise_cons]
        refine ⟨fun y hy => ?_, h.1, h.2⟩
        rcases List.mem_cons.mp hy with rfl | hy
        · exact h1
        · exact h1.trans (h.1 y hy)
      · by_cases hy : y = x
        · simp [countOf, hy]; omega
        · simp [countOf, hy, Ne.symm hy]
      · simp
      · rw [if_neg]
        · simp
        · intro hc
          rcases List.mem_cons.mp hc with hc | hc
          · simp only at hc; omega
          · have := h.1 x hc; simp only at this; omega
      · intro hp p hpm
        rcases List.mem_cons.mp hpm with rfl | hpm
        · simp
        · exact hp p hpm
    · subst h2
      rw [if_neg (lt_irrefl _), if_pos rfl]
      refine ⟨by simpa using h, fun y => ?_, by simp, by simp, ?_⟩
      · by_cases hy : y = x
        · subst hy; simp [countOf]; omega
        · simp [countOf, hy, Ne.symm hy]
      · intro hp p hpm
        rcases List.mem_cons.mp hpm with rfl | hpm
        · simp
        · exact hp p (by simp [hpm])
    · rw [if_neg (by omega), if_neg (by omega)]
      refine ⟨?_, fun y => ?_, ?_, ?_, ?_⟩
      · simp only [List.map_cons, List.pairwise_cons]
        refine ⟨fun y hy => ?_, i1⟩
        rcases (i3 y).mp hy with rfl | hy
        · omega
        · exact h.1 y hy
      · have := i2 y
        simp only [countOf] at this ⊢
        by_cases hk : k = y
        · simp [hk, this]; omega
        · simp [hk, this]
      · intro y
        simp only [List.map_cons, List.mem_cons, i3 y]; tauto
      · rw [List.length_cons, i4]
        have hxk : x ≠ k := by omega
        simp only [List.map_cons, List.mem_cons, hxk, false_or, List.length_cons]
        omega
      · intro hp p hpm
        rcases List.mem_cons.mp hpm with rfl | hpm
        · exact hp _ (by simp)
        · exact i5 (fun p hp' => hp p (by simp [hp'])) p hpm

/-- One more count of a symbol already seen (R357). -/
theorem huffAdd_seen (x : Int) {freq : List (Int × Nat)} (hn : (freq.map Prod.fst).Nodup)
    (hx : ∃ p ∈ freq, p.1 = x) : huffAdd x freq = freq.map (fun p => if p.1 = x then (p.1, p.2 + 1) else p) := by
  induction freq with
  | nil => obtain ⟨p, hp, _⟩ := hx; cases hp
  | cons p rest ih =>
    obtain ⟨y, c⟩ := p
    rw [List.map_cons, List.nodup_cons] at hn
    rw [huffAdd]
    split_ifs with h
    · subst h
      simp only [List.map_cons, if_true, List.cons.injEq, true_and]
      conv_lhs => rw [← List.map_id rest]
      apply List.map_congr_left
      intro q hq
      rw [if_neg]
      · rfl
      · intro hc; exact hn.1 (List.mem_map.mpr ⟨q, hq, hc⟩)
    · simp only [List.map_cons, if_neg h, List.cons.injEq, true_and]
      obtain ⟨q, hq, hqx⟩ := hx
      rcases List.mem_cons.mp hq with rfl | hq
      · exact absurd hqx h
      · exact ih hn.2 ⟨q, hq, hqx⟩

/-- A new symbol goes to the end of ORDER (R357). -/
theorem huffAdd_new (x : Int) {freq : List (Int × Nat)} (hx : ∀ p ∈ freq, p.1 ≠ x) :
    huffAdd x freq = freq ++ [(x, 1)] := by
  induction freq with
  | nil => rfl
  | cons p rest ih =>
    obtain ⟨y, c⟩ := p
    rw [huffAdd, if_neg (hx (y, c) (by simp)), ih (fun p hp => hx p (by simp [hp]))]
    rfl

/-- The code of a symbol is its first one (R357). -/
theorem codeOf_eq_find (x : Int) (codes : List (Int × List Bool)) :
    codeOf x codes = (codes.find? (fun p => p.1 = x)).map Prod.snd := by
  induction codes with
  | nil => rfl
  | cons p rest ih =>
    obtain ⟨y, c⟩ := p
    rw [codeOf]
    split_ifs with h
    · simp [h]
    · simp [h, ih]

end Sys2Proof.Machine
end

