-- ==== Sys2Proof/Laws/Huffman.lean ====
section
/-! SUPPORT. The Huffman coder: leaves, trees, codes and the queue of 44_huffman.md R350 to R361 as relations. -/

namespace Sys2Proof.Machine

open Sys2Proof Sys2Proof.Config

/-! ### Leaves (R350, R351) -/

/-- `CheckCfg` accepts exactly the legal configurations. -/
theorem valid_iff (cfg : LeafCfg) : cfg.valid = true ↔ ConfigLegal cfg := by
  simp only [LeafCfg.valid, ConfigLegal, Bool.and_eq_true, Bool.or_eq_true, decide_eq_true_eq]
  by_cases h : cfg.mode = 2 <;> simp [h]
  all_goals tauto

/-- `LeafCheck` accepts exactly the symbols the configuration represents. -/
theorem leafOk_iff (cfg : LeafCfg) (x : Int) : leafOk cfg x = true ↔ Represents cfg x := by
  simp only [leafOk, Represents, Bool.and_eq_true, Bool.or_eq_true, decide_eq_true_eq]
  by_cases h : cfg.mode = 2 <;> simp [h]

/-- `LeafEnc` emits the code of R351. -/
theorem leafBits_code {cfg : LeafCfg} {x : Int} (hc : ConfigLegal cfg) (hr : Represents cfg x) (h1 : -2 ^ 63 ≤ x)
    (h2 : x ≤ (lmax : Int)) : LeafCode cfg x (leafBits cfg x) := by
  obtain ⟨c1, c2, c3, c4⟩ := hc
  obtain ⟨r1, r2⟩ := hr
  unfold leafBits
  split_ifs with h0 h1'
  · exact .inl ⟨h0, c3, h1, h2, svarBits_code _ _⟩
  · exact .inr (.inl ⟨h1', c3, by omega, h2, uvarBits_code _ _⟩)
  · have hm : cfg.mode = 2 := by omega
    have := r2 hm
    exact .inr (.inr ⟨hm, by omega, this, (boundedBits_code (by omega)).1⟩)

/-- `LeafDec` takes exactly the code of a symbol and returns it. -/
theorem leafDec_code {s : State} (hs : s.srcFail = none) {cfg : LeafCfg} {x : Int} {bits : List Bool} {k : Nat}
    (hc : LeafCode cfg x bits) (hh : HoldsAt s k bits) : leafDec s.source cfg k = .ok (x, k + bits.length) := by
  unfold leafDec
  rcases hc with ⟨h0, hn, h1, h2, hc⟩ | ⟨h0, hn, h1, h2, hc⟩ | ⟨h0, h1, h2, hc⟩
  · rw [if_pos h0, decSVarBits_code hs hn h1 h2 hc hh]
  · rw [if_neg (by omega), if_pos h0, decUVarBits_code hs hn (by omega) hc hh, ok_bind]
    simp [h1]
  · rw [if_neg (by omega), if_neg (by omega), decBounded]
    have h3 : (0 : Int) ≤ cfg.max := by omega
    rw [decide_eq_true h3, require_true, ok_bind, decBoundedNat_code hs (by omega) hc hh, ok_bind]
    simp [h1]

/-! ### Trees (R354, R355, R359, R361) -/

/-- Every leaf of a tree holds a symbol with the property. -/
def AllLeaves (P : Int → Prop) : HTree → Prop
  | .leaf x => P x
  | .node t0 t1 => AllLeaves P t0 ∧ AllLeaves P t1

/-- `SerTree` emits the code of R355. -/
theorem serTree_code {cfg : LeafCfg} (hc : ConfigLegal cfg) {t : HTree}
    (ht : AllLeaves (fun x => Represents cfg x ∧ -2 ^ 63 ≤ x ∧ x ≤ (lmax : Int)) t) : TreeCode cfg t (serTree cfg t) := by
  induction t with
  | leaf x => exact .leaf x _ (leafBits_code hc ht.1 ht.2.1 ht.2.2)
  | node t0 t1 ih0 ih1 => exact .node t0 t1 _ _ (ih0 ht.1) (ih1 ht.2)

theorem leafCount_pos (t : HTree) : 1 ≤ leafCount t := by
  induction t with
  | leaf x => exact le_rfl
  | node t0 t1 ih0 ih1 => simp only [leafCount]; omega

/-- `ReadTree` takes exactly the code of a tree and returns the tree. -/
theorem readTree_code {s : State} (hs : s.srcFail = none) {cfg : LeafCfg} {slotSyms : Nat} {t : HTree}
    {bits : List Bool} (hc : TreeCode cfg t bits) : ∀ fuel nodes leaves k, leafCount t ≤ fuel →
      nodes + leafCount t ≤ slotSyms → leaves + leafCount t ≤ slotSyms → HoldsAt s k bits →
      readTree s.source cfg slotSyms fuel nodes leaves k =
        .ok (t, nodes + (leafCount t - 1), leaves + leafCount t, k + bits.length) := by
  induction hc with
  | leaf x bits h =>
    intro fuel nodes leaves k hf hn hl hh
    simp only [leafCount] at hf hn hl ⊢
    obtain ⟨fuel, rfl⟩ : ∃ f, fuel = f + 1 := ⟨fuel - 1, by omega⟩
    rw [holdsAt_cons] at hh
    rw [readTree, takeBit_some hs hh.1, ok_bind]
    simp only [Bool.false_eq_true, if_false]
    rw [decide_eq_true hl, require_true, ok_bind, leafDec_code hs h hh.2, ok_bind]
    simp only [List.length_cons, Nat.sub_self, Nat.add_zero, Except.ok.injEq, Prod.mk.injEq, true_and]
    omega
  | node t0 t1 bits0 bits1 _ _ ih0 ih1 =>
    intro fuel nodes leaves k hf hn hl hh
    simp only [leafCount] at hf hn hl ⊢
    have p0 := leafCount_pos t0
    have p1 := leafCount_pos t1
    obtain ⟨fuel, rfl⟩ : ∃ f, fuel = f + 1 := ⟨fuel - 1, by omega⟩
    rw [holdsAt_cons, holdsAt_append] at hh
    rw [readTree, takeBit_some hs hh.1, ok_bind]
    simp only [if_true]
    rw [decide_eq_true (show nodes + 1 ≤ slotSyms - 1 by omega), require_true, ok_bind,
      ih0 fuel _ _ _ (by omega) (by omega) (by omega) hh.2.1, ok_bind]
    simp only
    rw [ih1 fuel _ _ _ (by omega) (by omega) (by omega) hh.2.2, ok_bind]
    simp only [List.length_cons, List.length_append, Except.ok.injEq, Prod.mk.injEq, true_and]
    omega

/-- A tree `ReadTree` returns has at most SLOT_SYMS leaves. -/
theorem readTree_ok {src : Source} {cfg : LeafCfg} {slotSyms : Nat} : ∀ fuel nodes leaves k t n' l' k',
    readTree src cfg slotSyms fuel nodes leaves k = .ok (t, n', l', k') →
      l' = leaves + leafCount t ∧ l' ≤ slotSyms := by
  intro fuel
  induction fuel with
  | zero => intro nodes leaves k t n' l' k' h; cases h
  | succ fuel ih =>
    intro nodes leaves k t n' l' k' h
    rw [readTree] at h
    obtain ⟨⟨b, k1⟩, _, h⟩ := bind_ok h
    simp only at h
    split_ifs at h with hb
    · obtain ⟨_, _, h⟩ := bind_ok h
      obtain ⟨⟨t0, n0, l0, k2⟩, h0, h⟩ := bind_ok h
      obtain ⟨⟨t1, n1, l1, k3⟩, h1, h⟩ := bind_ok h
      simp only [Except.ok.injEq, Prod.mk.injEq] at h
      obtain ⟨rfl, rfl, rfl, rfl⟩ := h
      obtain ⟨e0, _⟩ := ih _ _ _ _ _ _ _ h0
      obtain ⟨e1, g1⟩ := ih _ _ _ _ _ _ _ h1
      simp only [leafCount] at *; omega
    · obtain ⟨_, hr, h⟩ := bind_ok h
      obtain ⟨⟨x, k2⟩, _, h⟩ := bind_ok h
      simp only [Except.ok.injEq, Prod.mk.injEq] at h
      obtain ⟨rfl, rfl, rfl, rfl⟩ := h
      rw [require_ok, decide_eq_true_eq] at hr
      exact ⟨rfl, hr⟩

/-- The codes are the paths (R354). -/
theorem mem_assignCodes (t : HTree) (code : List Bool) (x : Int) : (x, code) ∈ assignCodes t ↔ LeafPath t code x := by
  induction t generalizing code with
  | leaf y =>
    simp only [assignCodes, List.mem_singleton, Prod.mk.injEq]
    constructor
    · rintro ⟨rfl, rfl⟩; exact .leaf x
    · intro h; cases h; exact ⟨rfl, rfl⟩
  | node t0 t1 ih0 ih1 =>
    simp only [assignCodes, List.mem_append, List.mem_map, Prod.mk.injEq, Prod.exists]
    constructor
    · rintro (⟨y, c, hm, rfl, rfl⟩ | ⟨y, c, hm, rfl, rfl⟩)
      · exact .zero _ _ _ _ ((ih0 c).mp hm)
      · exact .one _ _ _ _ ((ih1 c).mp hm)
    · intro h
      cases h with
      | zero _ _ c _ h => exact .inl ⟨x, c, (ih0 c).mpr h, rfl, rfl⟩
      | one _ _ c _ h => exact .inr ⟨x, c, (ih1 c).mpr h, rfl, rfl⟩

/-- The descent takes exactly the path to a leaf (R361). -/
theorem descend_path {s : State} (hs : s.srcFail = none) {t : HTree} {code : List Bool} {x : Int}
    (hp : LeafPath t code x) : ∀ k, HoldsAt s k code → descend s.source t k = .ok (x, k + code.length) := by
  induction hp with
  | leaf x => intro k _; rfl
  | zero t0 t1 code x _ ih =>
    intro k hh
    rw [holdsAt_cons] at hh
    rw [descend, takeBit_some hs hh.1, ok_bind]
    simp only [Bool.false_eq_true, if_false]
    rw [ih _ hh.2, List.length_cons]; congr 2; omega
  | one t0 t1 code x _ ih =>
    intro k hh
    rw [holdsAt_cons] at hh
    rw [descend, takeBit_some hs hh.1, ok_bind]
    simp only [if_true]
    rw [ih _ hh.2, List.length_cons]; congr 2; omega

/-! ### The tree of the counts (R353) -/

theorem qBefore_iff (x y : QEntry) : qBefore x y = true ↔ Sooner x y := by
  simp [qBefore, Sooner]

theorem qInsert_perm (x : QEntry) (q : List QEntry) : (qInsert x q).Perm (x :: q) := by
  induction q with
  | nil => exact List.Perm.refl _
  | cons y rest ih =>
    rw [qInsert]
    split_ifs
    · exact (ih.cons y).trans (List.Perm.swap x y rest)
    · exact List.Perm.refl _

/-- The queue is kept in order, the sequence numbers being distinct. -/
theorem qInsert_sorted {x : QEntry} {q : List QEntry} (hq : q.Pairwise Sooner) (hx : ∀ e ∈ q, e.2.1 ≠ x.2.1) :
    (qInsert x q).Pairwise Sooner := by
  induction q with
  | nil => simp [qInsert]
  | cons y rest ih =>
    rw [List.pairwise_cons] at hq
    rw [qInsert]
    split_ifs with h
    · rw [qBefore_iff] at h
      rw [List.pairwise_cons]
      refine ⟨fun e he => ?_, ih hq.2 (fun e he => hx e (by simp [he]))⟩
      rcases List.mem_cons.mp ((qInsert_perm x rest).mem_iff.mp he) with rfl | he
      · exact h
      · exact hq.1 e he
    · rw [qBefore_iff] at h
      have hne := hx y (by simp)
      have hxy : Sooner x y := by unfold Sooner at *; omega
      rw [List.pairwise_cons]
      refine ⟨fun e he => ?_, List.pairwise_cons.mpr hq⟩
      rcases List.mem_cons.mp he with rfl | he
      · exact hxy
      · have := hq.1 e he; unfold Sooner at *; omega

/-- The merging loop is `BuildTree`'s, its fuel suffices. -/
theorem qMerge_builds : ∀ fuel next (q q' : List QEntry), q.Pairwise Sooner → (∀ e ∈ q, e.2.1 < next) → q ≠ [] →
    q.length ≤ fuel + 1 → q'.Perm q → ∃ e, qMerge fuel next q = [e] ∧ Builds next q' e.2.2 := by
  intro fuel
  induction fuel with
  | zero =>
    intro next q q' _ _ h0 hl hp
    match q, h0, hl with
    | [e], _, _ =>
      rw [List.perm_singleton] at hp
      subst hp
      exact ⟨e, rfl, .done next e.1 e.2.1 e.2.2⟩
    | _ :: _ :: _, _, hl => simp at hl
  | succ fuel ih =>
    intro next q q' hs hn h0 hl hp
    match q, h0, hl with
    | [e], _, _ =>
      rw [List.perm_singleton] at hp
      subst hp
      exact ⟨e, rfl, .done next e.1 e.2.1 e.2.2⟩
    | x :: y :: rest, _, hl =>
      rw [List.pairwise_cons, List.pairwise_cons] at hs
      rw [qMerge]
      have hperm := qInsert_perm (x.1 + y.1, next, .node x.2.2 y.2.2) rest
      obtain ⟨e, he, hb⟩ := ih (next + 1) (qInsert (x.1 + y.1, next, .node x.2.2 y.2.2) rest)
        ((x.1 + y.1, next, .node x.2.2 y.2.2) :: rest)
        (qInsert_sorted hs.2.2 (fun e he => by have := hn e (by simp [he]); simp only; omega))
        (fun e he => by
          rcases List.mem_cons.mp (hperm.mem_iff.mp he) with rfl | he
          · simp
          · have := hn e (by simp [he]); omega)
        (fun hc => by rw [hc] at hperm; have := hperm.length_eq; simp at this)
        (by rw [hperm.length_eq]; simp only [List.length_cons] at hl ⊢; omega) hperm.symm
      exact ⟨e, he, .merge next q' rest x y _ hp hs.1 hs.2.1 hb⟩

theorem qLeaves_spec (freq : List (Int × Nat)) : ∀ i,
    (qLeaves i freq).Perm ((freq.zipIdx i).map (fun p => (p.1.2, p.2, HTree.leaf p.1.1))) ∧
      (qLeaves i freq).Pairwise Sooner ∧ ∀ e ∈ qLeaves i freq, i ≤ e.2.1 ∧ e.2.1 < i + freq.length := by
  induction freq with
  | nil => intro i; simp [qLeaves]
  | cons p rest ih =>
    intro i
    obtain ⟨x, c⟩ := p
    obtain ⟨h1, h2, h3⟩ := ih (i + 1)
    rw [qLeaves]
    have hp := qInsert_perm (c, i, .leaf x) (qLeaves (i + 1) rest)
    refine ⟨?_, qInsert_sorted h2 (fun e he => by have := (h3 e he).1; simp only; omega), fun e he => ?_⟩
    · rw [List.zipIdx_cons, List.map_cons]
      exact hp.trans (h1.cons _)
    · rcases List.mem_cons.mp (hp.mem_iff.mp he) with rfl | he
      · simp
      · have := h3 e he; simp only [List.length_cons]; omega

/-- `BuildTree` gives the tree of R353. -/
theorem buildTree_builds {freq : List (Int × Nat)} (h : freq ≠ []) :
    Builds freq.length (leafQueue freq) (buildTree freq) := by
  obtain ⟨h1, h2, h3⟩ := qLeaves_spec freq 0
  have hlen : (qLeaves 0 freq).length = freq.length := by rw [h1.length_eq]; simp
  obtain ⟨e, he, hb⟩ := qMerge_builds freq.length freq.length (qLeaves 0 freq) (leafQueue freq) h2
    (fun e he => by have := (h3 e he).2; omega)
    (fun hc => h (List.eq_nil_of_length_eq_zero (by rw [← hlen, hc]; rfl))) (by omega) h1.symm
  rw [buildTree, he]
  exact hb

/-- The leaves of a built tree come from the queue. -/
theorem builds_leaves {P : Int → Prop} {next : Nat} {q : List Queued} {t : HTree} (h : Builds next q t) :
    (∀ e ∈ q, AllLeaves P e.2.2) → AllLeaves P t := by
  induction h with
  | done next w i t => intro h; exact h (w, i, t) (by simp)
  | merge next q rest x y t hq _ _ _ ih =>
    intro h
    refine ih (fun e he => ?_)
    rcases List.mem_cons.mp he with rfl | he
    · exact ⟨h x (hq.mem_iff.mpr (by simp)), h y (hq.mem_iff.mpr (by simp))⟩
    · exact h e (hq.mem_iff.mpr (by simp [he]))

/-- The leaves of the tree are the symbols counted. -/
theorem buildTree_leaves {P : Int → Prop} {freq : List (Int × Nat)} (h : freq ≠ []) (hp : ∀ p ∈ freq, P p.1) :
    AllLeaves P (buildTree freq) := by
  refine builds_leaves (buildTree_builds h) (fun e he => ?_)
  obtain ⟨p, hm, rfl⟩ := List.mem_map.mp he
  exact hp _ (List.fst_mem_of_mem_zipIdx hm)

end Sys2Proof.Machine
end

