-- ==== Sys2Proof/Laws/Errors.lean ====
section
/-! SUPPORT. Where the decoders raise, and with which position, and the argument checks as the relations of Safety.lean. -/

namespace Sys2Proof.Machine

open Sys2Proof

/-! ### Var-bits and var-bytes (41_scalar_codecs.md R226, R235) -/

/-- The 64th prefix zero raises `OVERFLOW`. -/
theorem prefixLoop_zeros {s : State} (hs : s.srcFail = none) : ∀ fuel d j k, 1 ≤ d → d ≤ fuel → j + d = 64 →
    HoldsAt s k (List.replicate d false) →
    prefixLoop s.source fuel (2 ^ j - 1) (2 ^ j - 1) k = .error { code := .overflow, info := k + d } := by
  intro fuel
  induction fuel with
  | zero => intro d j k h1 h2; omega
  | succ fuel ih =>
    intro d j k h1 h2 hj hh
    obtain ⟨d, rfl⟩ : ∃ e, d = e + 1 := ⟨d - 1, by omega⟩
    rw [List.replicate_succ, holdsAt_cons] at hh
    rw [prefixLoop, takeBit_some hs hh.1, ok_bind]
    simp only [Bool.false_eq_true, if_false]
    rcases Nat.eq_zero_or_pos d with h0 | h0
    · subst h0
      obtain rfl : j = 63 := by omega
      rw [if_pos (by unfold lmax; norm_num)]
    · have hlt : 2 ^ (j + 1) ≤ 2 ^ 63 := Nat.pow_le_pow_right (by norm_num) (by omega)
      have hpos : 0 < 2 ^ j := by positivity
      rw [pow_succ] at hlt
      rw [if_neg (by unfold lmax; omega), show 2 * (2 ^ j - 1) + 1 = 2 ^ (j + 1) - 1 by rw [pow_succ]; omega,
        show 2 ^ j - 1 + (2 ^ j - 1) + 1 = 2 ^ (j + 1) - 1 by rw [pow_succ]; omega,
        ih d (j + 1) (k + 1) h0 (by omega) (by omega) hh.2]
      congr 2; omega

/-- A 64th prefix zero after any noisy bits raises `OVERFLOW`. -/
theorem decUVarBits_zeros {s : State} (hs : s.srcFail = none) {noisy k : Nat} {low : List Bool} (hn : noisy ≤ 63)
    (hl : low.length = noisy) (hh : HoldsAt s k (low ++ List.replicate 64 false)) :
    decUVarBits s.source noisy k = .error { code := .overflow, info := k + (noisy + 64) } := by
  rw [holdsAt_append, hl] at hh
  have h1 := takeBits_of_holds hs low hh.1
  rw [hl] at h1
  have h2 := prefixLoop_zeros hs 64 64 0 (k + noisy) (by omega) (by omega) (by omega) hh.2
  simp only [pow_zero, Nat.sub_self] at h2
  rw [decUVarBits]
  simp only [hn, decide_true, require_true, ok_bind, h1, h2]
  rw [Nat.add_assoc]; rfl

/-- A high part above `LMAX >> noisy` raises `OVERFLOW`. -/
theorem decUVarBits_high {s : State} (hs : s.srcFail = none) {noisy k high : Nat} {low code : List Bool}
    (hn : noisy ≤ 63) (hl : low.length = noisy) (h64 : high + 1 < 2 ^ 64) (hhi : lmax / 2 ^ noisy < high)
    (hc : UVarCode high 0 code) (hh : HoldsAt s k (low ++ code)) :
    decUVarBits s.source noisy k = .error { code := .overflow, info := k + (noisy + code.length) } := by
  obtain ⟨m, h1, h2, rfl⟩ := hc
  simp only [pow_zero, Nat.div_one] at h1 h2 hh ⊢
  rw [show natBits 0 high = [] from rfl, List.nil_append] at hh ⊢
  rw [holdsAt_append, hl, show List.replicate m false ++ true :: natBits m (high + 1 - 2 ^ m) =
    (List.replicate m false ++ [true]) ++ natBits m (high + 1 - 2 ^ m) by simp, holdsAt_append] at hh
  obtain ⟨hlow, hpre, hsuf⟩ := hh
  have ht := takeBits_of_holds hs low hlow
  rw [hl] at ht
  have hm : m ≤ 63 := by
    by_contra hcon
    have : 2 ^ 64 ≤ 2 ^ m := Nat.pow_le_pow_right (by norm_num) (by omega)
    omega
  have hp := prefixLoop_spec hs 64 m 0 (k + noisy) (by omega) (by omega) hpre
  simp only [pow_zero, Nat.sub_self, Nat.zero_add] at hp
  rw [pow_succ] at h2
  have hd := decBoundedNat_code hs (show high + 1 - 2 ^ m ≤ 2 ^ m - 1 by omega)
    (boundedCode_full (show high + 1 - 2 ^ m < 2 ^ m by omega)) hsuf
  simp only [List.length_append, List.length_replicate, List.length_singleton, natBits_length] at hd
  rw [decUVarBits]
  simp only [hn, decide_true, require_true, ok_bind, ht, hp]
  rw [show k + noisy + m + 1 = k + noisy + (m + 1) by omega, hd, ok_bind]
  simp only [show 2 ^ m - 1 + (high + 1 - 2 ^ m) = high by omega]
  rw [decide_eq_false (by omega)]
  simp only [require_false, List.length_append, List.length_replicate, List.length_cons, natBits_length]
  rw [show k + noisy + (m + 1) + m = k + (noisy + (m + (m + 1))) by omega]; rfl

/-- Bytes whose flags are set run to the end of the source, or to the tenth: `TRUNCATION`. -/
theorem vbyLoop_truncated {s : State} (hs : s.srcFail = none) : ∀ (bytes : List Byte) (fuel u i j : Nat),
    (∀ b ∈ bytes, b.getLsbD 7 = true) → (∀ n (h : n < bytes.length), s.src[j + n]? = some bytes[n]) →
    bytes.length < fuel → (i + bytes.length = 10 ∨ (i + bytes.length ≤ 9 ∧ s.src.length = j + bytes.length)) →
    vbyLoop s.source fuel u (7 * i) (8 * j) =
      .error { code := .truncation, info := 8 * j + 8 * bytes.length } := by
  intro bytes
  induction bytes with
  | nil =>
    intro fuel u i j _ _ hf hc
    obtain ⟨fuel, rfl⟩ : ∃ f, fuel = f + 1 := ⟨fuel - 1, by simp at hf; omega⟩
    simp only [List.length_nil, Nat.add_zero, Nat.mul_zero] at hc ⊢
    rw [vbyLoop]
    rcases hc with rfl | ⟨hi, hl⟩
    · rw [if_pos (by omega)]
    · rw [if_neg (by omega), takeByte, rAlign_aligned _ (by omega), ok_bind]
      simp only [Source.fails, State.source, hs, show 8 * j / 8 = j by omega]
      rw [if_neg (by simp), if_pos (by omega)]; rfl
  | cons b bytes ih =>
    intro fuel u i j hb hh hf hc
    obtain ⟨fuel, rfl⟩ : ∃ f, fuel = f + 1 := ⟨fuel - 1, by simp at hf; omega⟩
    simp only [List.length_cons] at hc hf ⊢
    have h0 := hh 0 (by simp)
    simp only [Nat.add_zero, List.getElem_cons_zero] at h0
    have hge : ¬b.toNat < 128 := by
      have := hb b (by simp)
      rw [BitVec.getLsbD, Nat.testBit_eq_decide_div_mod_eq] at this
      have := of_decide_eq_true this
      omega
    rw [vbyLoop, if_neg (by omega), takeByte_aligned hs .truncation h0, ok_bind]
    simp only [hge, if_false]
    rw [show 7 * i + 7 = 7 * (i + 1) by ring, show 8 * j + 8 = 8 * (j + 1) by ring,
      ih fuel _ (i + 1) (j + 1) (fun x hx => hb x (by simp [hx]))
        (fun n h => by have := hh (n + 1) (by simpa using h); rwa [Nat.add_assoc, Nat.add_comm 1 n])
        (by omega) (by omega)]
    congr 2; ring

/-! ### Sorted arrays (42_sorted_array.md R262) -/

/-- A width above 63 raises `OVERFLOW`. -/
theorem decUsaBody_wide {s : State} (hs : s.srcFail = none) {n w k : Nat} {width : List Bool} (hn : 1 ≤ n)
    (hw : 63 < w) (h64 : w + 1 < 2 ^ 64) (hc : UVarCode w 0 width) (hh : HoldsAt s k width) :
    decUsaBody s.source n k = .error { code := .overflow, info := k + width.length } := by
  rw [decUsaBody, if_neg (by omega)]
  by_cases h : w ≤ lmax
  · rw [decUVarBits_code hs (by omega) h hc hh, ok_bind]
    simp only
    rw [decide_eq_false (by omega)]; rfl
  · rw [decUVarBits_high hs (noisy := 0) (low := []) (by omega) rfl h64 (by simpa using h) hc (by simpa using hh),
      Nat.zero_add]
    rfl

/-- A size above what the width allows raises `UNIQUENESS_VIOLATION`. -/
theorem decUsaBody_crowded {s : State} (hs : s.srcFail = none) {n w k : Nat} {width : List Bool} (hw : w ≤ 63)
    (hn : 2 ^ w < n) (hc : UVarCode w 0 width) (hh : HoldsAt s k width) :
    decUsaBody s.source n k = .error { code := .uniquenessViolation, info := k + width.length } := by
  have hpos : 0 < 2 ^ w := by positivity
  rw [decUsaBody, if_neg (by omega), decUVarBits_code hs (by omega) (by unfold lmax; omega) hc hh, ok_bind]
  simp only
  rw [decide_eq_true hw, require_true, ok_bind]
  cases w with
  | zero => rw [decNode, if_neg (by omega), if_pos (by simpa using hn)]
  | succ w => rw [decNode, if_neg (by omega), if_pos hn]

/-- The checks of a sorted array accept exactly the valid ones (R260). -/
theorem validSorted_iff (s : State) :
    validSorted (readWindow s s.opA.toNat s.opB.toNat) = true ↔ SortedWords (windowWords s) := by
  have hrise : ∀ xs : List Int, strictlyRising xs = true ↔ xs.Pairwise (· < ·) := by
    intro xs
    induction xs with
    | nil => simp [strictlyRising]
    | cons x rest ih =>
      cases rest with
      | nil => simp [strictlyRising]
      | cons y rest =>
        rw [strictlyRising, Bool.and_eq_true, decide_eq_true_eq, ih, List.pairwise_cons (a := x)]
        refine and_congr_left fun hp => ⟨fun h z hz => ?_, fun h => h y (by simp)⟩
        rcases List.mem_cons.mp hz with rfl | hz
        · exact h
        · exact h.trans ((List.pairwise_cons.mp hp).1 z hz)
  have hle : ∀ x ∈ windowWords s, x ≤ (lmax : Int) := by
    intro x hx
    obtain ⟨i, _, rfl⟩ := List.mem_map.mp hx
    have := BitVec.toInt_lt (x := s.memRead (s.a.toInt.toNat + i))
    unfold lmax; norm_num at this ⊢; omega
  rw [show readWindow s s.opA.toNat s.opB.toNat = windowWords s from rfl, validSorted, Bool.and_eq_true, hrise,
    SortedWords, and_comm]
  refine and_congr_right fun _ => ?_
  rw [List.all_eq_true]
  exact ⟨fun h x hx => by have := h x hx; simp at this; exact this.1,
    fun h x hx => by rw [Bool.and_eq_true, decide_eq_true_eq, decide_eq_true_eq]; exact ⟨h x hx, hle x hx⟩⟩

/-! ### Windows and tables (42_sorted_array.md R263, 43_arithmetic.md R291) -/

theorem windowOk_iff (s : State) : windowOk s s.opA s.opB = true ↔ WindowInside s := by
  show (decide (0 ≤ s.a.toInt) && decide (0 ≤ s.b.toInt) &&
    decide (s.a.toInt + s.b.toInt ≤ (s.params.arrWords : Int))) = true ↔ _
  simp [WindowInside, and_assoc]

theorem checkTable_words (w : Nat) (tab : List Int) : checkTable w tab = true ↔ TableChecked w tab := by
  simp only [checkTable, Bool.and_eq_true, decide_eq_true_eq, neverFalling_iff, TableChecked]
  cases tab with
  | nil => simp
  | cons x rest =>
    have hlast : tabTotal (x :: rest) = (x :: rest).getLastD 0 := by
      rw [tabTotal, List.getLastD_eq_getLast?, List.getLast?_eq_getElem?]
      simp
    rw [hlast]
    simp [and_assoc, maxTotal, budget, fullOf, quarterOf]

theorem checkSym_words (tab : List Int) (c : Int) : checkSym tab c = true ↔ SymChecked tab c := by
  simp only [checkSym, Bool.and_eq_true, decide_eq_true_eq, SymChecked, and_assoc]
  refine and_congr_right fun h => and_congr_right fun _ => ?_
  have h0 : c.toNat = 0 ↔ c = 0 := by omega
  simp only [cumLow, cumHigh, h0]

/-! ### Huffman trees (44_huffman.md R359) -/

/-- Over the code of a tree, `ReadTree` returns the tree or raises `CAPACITY` while it reads. -/
theorem readTree_or_capacity {s : State} (hs : s.srcFail = none) {cfg : LeafCfg} {slotSyms : Nat} {t : HTree}
    {bits : List Bool} (hc : TreeCode cfg t bits) : ∀ fuel nodes leaves k : Nat, HoldsAt s k bits →
      (∃ n l, readTree s.source cfg slotSyms fuel nodes leaves k = .ok (t, n, l, k + bits.length)) ∨
      ∃ info, k ≤ info ∧ info ≤ k + bits.length ∧
        readTree s.source cfg slotSyms fuel nodes leaves k = .error { code := .capacity, info := info } := by
  induction hc with
  | leaf x bits h =>
    intro fuel nodes leaves k hh
    cases fuel with
    | zero => exact .inr ⟨k, le_rfl, Nat.le_add_right _ _, rfl⟩
    | succ fuel =>
      rw [holdsAt_cons] at hh
      rw [readTree, takeBit_some hs hh.1, ok_bind]
      simp only [Bool.false_eq_true, if_false, List.length_cons]
      by_cases hl : leaves + 1 ≤ slotSyms
      · refine .inl ⟨nodes, leaves + 1, ?_⟩
        rw [decide_eq_true hl, require_true, ok_bind, leafDec_code hs h hh.2, ok_bind]
        simp only [Except.ok.injEq, Prod.mk.injEq, true_and]; omega
      · refine .inr ⟨k + 1, by omega, by omega, ?_⟩
        rw [decide_eq_false hl]; rfl
  | node t0 t1 bits0 bits1 _ _ ih0 ih1 =>
    intro fuel nodes leaves k hh
    cases fuel with
    | zero => exact .inr ⟨k, le_rfl, Nat.le_add_right _ _, rfl⟩
    | succ fuel =>
      rw [holdsAt_cons, holdsAt_append] at hh
      rw [readTree, takeBit_some hs hh.1, ok_bind]
      simp only [if_true, List.length_cons, List.length_append]
      by_cases hn : nodes + 1 ≤ slotSyms - 1
      · rw [decide_eq_true hn, require_true, ok_bind]
        rcases ih0 fuel (nodes + 1) leaves (k + 1) hh.2.1 with ⟨n, l, h0⟩ | ⟨info, h1, h2, h0⟩
        · rw [h0, ok_bind]
          simp only
          rcases ih1 fuel n l (k + 1 + bits0.length) hh.2.2 with ⟨n', l', h3⟩ | ⟨info, h1, h2, h3⟩
          · refine .inl ⟨n', l', ?_⟩
            rw [h3, ok_bind]
            simp only [Except.ok.injEq, Prod.mk.injEq, true_and]; omega
          · exact .inr ⟨info, by omega, by omega, by rw [h3]; rfl⟩
        · exact .inr ⟨info, by omega, by omega, by rw [h0]; rfl⟩
      · exact .inr ⟨k + 1, by omega, by omega, by rw [decide_eq_false hn]; rfl⟩

/-- A tree of more leaves than a slot holds raises `CAPACITY` while it is read. -/
theorem readTree_capacity {s : State} (hs : s.srcFail = none) {cfg : LeafCfg} {slotSyms : Nat} {t : HTree}
    {bits : List Bool} (hc : TreeCode cfg t bits) (hl : slotSyms < leafCount t) (fuel nodes leaves k : Nat)
    (hh : HoldsAt s k bits) :
    ∃ info, k ≤ info ∧ info ≤ k + bits.length ∧
      readTree s.source cfg slotSyms fuel nodes leaves k = .error { code := .capacity, info := info } := by
  rcases readTree_or_capacity hs hc fuel nodes leaves k hh with ⟨n, l, h⟩ | h
  · obtain ⟨h1, h2⟩ := readTree_ok (slotSyms := slotSyms) fuel nodes leaves k t n l _ h
    omega
  · exact h

end Sys2Proof.Machine
end

