-- ==== Sys2Proof/Laws/LateErrors.lean ====
section
/-! SUPPORT. What a command that raises can do (60_exceptions.md R402, R405): which ARR window and which value of R its error
carries, and everything a late error changes. -/

namespace Sys2Proof.Machine

open Sys2Proof Sys2Proof.Config

/-! ### What an error carries -/

/-- Every error of `x` carries an empty ARR window and no value of R. -/
def Plain {α : Type} (x : Except Raise α) : Prop := ∀ e, x = .error e → e.window = (0, 0) ∧ e.result = none

theorem Plain.ok {α : Type} (a : α) : Plain (.ok a) := fun _ h => nomatch h

theorem Plain.err {α : Type} (e : Raise) (h : e.window = (0, 0) ∧ e.result = none) :
    Plain (.error e : Except Raise α) := fun _ h' => by cases h'; exact h

theorem Plain.bind {α β : Type} {x : Except Raise α} {f : α → Except Raise β} (hx : Plain x) (hf : ∀ a, Plain (f a)) :
    Plain (x >>= f) := by
  intro e h
  rcases bind_error h with h | ⟨a, _, h⟩
  · exact hx e h
  · exact hf a e h

theorem Plain.req {b : Bool} {e : Raise} (h : e.window = (0, 0) ∧ e.result = none) : Plain (require b e) := by
  intro e' h'; rw [(require_error.1 h').2.symm]; exact h

theorem Plain.checkOpen (s : State) : Plain (checkOpen s) := Plain.req ⟨rfl, rfl⟩

theorem Plain.checkSlot (s : State) (side : Side) (slot : Nat) : Plain (checkSlot s side slot) := Plain.req ⟨rfl, rfl⟩

theorem Plain.takeBit (src k) : Plain (takeBit src k) := by
  unfold Machine.takeBit; split_ifs <;> first | exact Plain.ok _ | exact Plain.err _ ⟨rfl, rfl⟩

theorem Plain.takeBits (src) : ∀ n k, Plain (takeBits src n k)
  | 0, _ => Plain.ok _
  | n + 1, _ => (Plain.takeBit _ _).bind fun _ => (Plain.takeBits src n _).bind fun _ => Plain.ok _

theorem Plain.rAlignLoop (src) : ∀ n k, Plain (rAlignLoop src n k)
  | 0, _ => Plain.ok _
  | n + 1, k => by
    unfold Machine.rAlignLoop
    split_ifs
    · exact Plain.ok _
    · refine (Plain.takeBit _ _).bind fun _ => ?_
      dsimp only
      split_ifs
      · exact Plain.err _ ⟨rfl, rfl⟩
      · exact Plain.rAlignLoop src n _

theorem Plain.takeByte (src e k) : Plain (takeByte src e k) :=
  (Plain.rAlignLoop _ _ _).bind fun _ => by split_ifs <;> first | exact Plain.ok _ | exact Plain.err _ ⟨rfl, rfl⟩

theorem Plain.syncLoop (src) : ∀ n v k, Plain (syncLoop src n v k)
  | 0, _, _ => Plain.ok _
  | n + 1, _, _ => (Plain.takeByte _ _ _).bind fun _ => Plain.syncLoop src n _ _

theorem Plain.vbyLoop (src) : ∀ n u sh k, Plain (vbyLoop src n u sh k)
  | 0, _, _, _ => Plain.err _ ⟨rfl, rfl⟩
  | n + 1, u, sh, k => by
    unfold Machine.vbyLoop
    split_ifs
    · exact Plain.err _ ⟨rfl, rfl⟩
    · refine (Plain.takeByte _ _ _).bind fun _ => ?_
      dsimp only
      split_ifs
      · exact Plain.ok _
      · exact Plain.vbyLoop src n _ _ _

theorem Plain.decBoundedLoop (src max) : ∀ n v i k, Plain (decBoundedLoop src max n v i k)
  | 0, _, _, _ => Plain.ok _
  | n + 1, v, i, k => by
    unfold Machine.decBoundedLoop
    split_ifs
    · exact (Plain.takeBit _ _).bind fun _ => Plain.decBoundedLoop src max n _ _ _
    · exact Plain.ok _

theorem Plain.decBounded (src max k) : Plain (decBounded src max k) :=
  (Plain.req ⟨rfl, rfl⟩).bind fun _ => Plain.decBoundedLoop _ _ _ _ _ _

theorem Plain.prefixLoop (src) : ∀ n r b k, Plain (prefixLoop src n r b k)
  | 0, _, _, _ => Plain.err _ ⟨rfl, rfl⟩
  | n + 1, v, i, k => by
    unfold Machine.prefixLoop
    exact (Plain.takeBit _ _).bind fun _ => by
      dsimp only; split_ifs
      · exact Plain.ok _
      · exact Plain.err _ ⟨rfl, rfl⟩
      · exact Plain.prefixLoop src n _ _ _

theorem Plain.decUVarBits (src n k) : Plain (decUVarBits src n k) :=
  (Plain.req ⟨rfl, rfl⟩).bind fun _ => (Plain.takeBits _ _ _).bind fun _ => (Plain.prefixLoop _ _ _ _ _).bind fun _ =>
    (Plain.decBoundedLoop _ _ _ _ _ _).bind fun _ => (Plain.req ⟨rfl, rfl⟩).bind fun _ => Plain.ok _

theorem Plain.decSVarBits (src n k) : Plain (decSVarBits src n k) :=
  (Plain.req ⟨rfl, rfl⟩).bind fun _ => (Plain.takeBit _ _).bind fun _ => (Plain.decUVarBits _ _ _).bind fun _ => Plain.ok _

theorem Plain.decNode (src) : ∀ d m pre k, Plain (decNode src d m pre k)
  | 0, m, pre, k => by unfold Machine.decNode; split_ifs <;> first | exact Plain.ok _ | exact Plain.err _ ⟨rfl, rfl⟩
  | d + 1, m, pre, k => by
    unfold Machine.decNode; split_ifs
    · exact Plain.ok _
    · exact Plain.err _ ⟨rfl, rfl⟩
    · exact (Plain.takeBits _ _ _).bind fun _ => Plain.ok _
    · exact (Plain.decBoundedLoop _ _ _ _ _ _).bind fun _ => (Plain.decNode src d _ _ _).bind fun _ =>
        (Plain.decNode src d _ _ _).bind fun _ => Plain.ok _

theorem Plain.decUsaBody (src n k) : Plain (decUsaBody src n k) := by
  unfold Machine.decUsaBody; split_ifs
  · exact Plain.ok _
  · exact (Plain.decUVarBits _ _ _).bind fun _ => (Plain.req ⟨rfl, rfl⟩).bind fun _ => Plain.decNode _ _ _ _ _

theorem Plain.fillLoop (src) : ∀ n c k, Plain (fillLoop src n c k)
  | 0, _, _ => Plain.ok _
  | n + 1, _, _ => (Plain.takeBit _ _).bind fun _ => Plain.fillLoop src n _ _

theorem Plain.decShifts (src w) : ∀ n l h c k, Plain (decShifts src w n l h c k)
  | 0, _, _, _, _ => Plain.ok _
  | n + 1, l, h, c, k => by
    unfold Machine.decShifts; split_ifs
    · exact (Plain.takeBit _ _).bind fun _ => Plain.decShifts src w n _ _ _ _
    · exact Plain.ok _

theorem Plain.decUnders (src w) : ∀ n l h c k, Plain (decUnders src w n l h c k)
  | 0, _, _, _, _ => Plain.ok _
  | n + 1, l, h, c, k => by
    unfold Machine.decUnders; split_ifs
    · exact (Plain.takeBit _ _).bind fun _ => Plain.decUnders src w n _ _ _ _
    · exact Plain.ok _

theorem Plain.adFill (src ad k) : Plain (adFill src ad k) := by
  unfold Machine.adFill
  split_ifs
  · exact Plain.ok _
  · exact (Plain.fillLoop _ _ _ _).bind fun _ => Plain.ok _

theorem Plain.decUpdate (src ad clo chi total k) : Plain (decUpdate src ad clo chi total k) :=
  (Plain.decShifts _ _ _ _ _ _ _).bind fun _ => (Plain.decUnders _ _ _ _ _ _ _).bind fun _ => Plain.ok _

theorem Plain.resourceLate {α : Type} {x : Except Raise α} (hx : Plain x) : Plain (resourceLate x) := by
  intro e h
  obtain ⟨e', h', rfl⟩ := resourceLate_error h
  exact hx e' h'

theorem Plain.adDecode (s tab) : Plain (adDecode s tab) :=
  (Plain.req ⟨rfl, rfl⟩).bind fun _ => (Plain.req ⟨rfl, rfl⟩).bind fun _ => Plain.resourceLate <|
    (Plain.adFill _ _ _).bind fun _ => (Plain.decUpdate _ _ _ _ _ _).bind fun _ => Plain.ok _

theorem Plain.aeEncode (s tab x) : Plain (aeEncode s tab x) :=
  (Plain.req ⟨rfl, rfl⟩).bind fun _ => (Plain.checkOpen _).bind fun _ => (Plain.req ⟨rfl, rfl⟩).bind fun _ =>
    (Plain.req ⟨rfl, rfl⟩).bind fun _ => by
    split
    · exact Plain.err _ ⟨rfl, rfl⟩
    · exact Plain.ok _

theorem Plain.leafDec (src cfg k) : Plain (leafDec src cfg k) := by
  unfold Machine.leafDec; split_ifs
  · exact Plain.decSVarBits _ _ _
  · exact (Plain.decUVarBits _ _ _).bind fun _ => Plain.ok _
  · exact (Plain.decBounded _ _ _).bind fun _ => Plain.ok _

theorem Plain.readTree (src cfg ss) : ∀ n a b k, Plain (readTree src cfg ss n a b k)
  | 0, _, _, _ => Plain.err _ ⟨rfl, rfl⟩
  | n + 1, a, b, k => by
    unfold Machine.readTree
    refine (Plain.takeBit _ _).bind fun _ => ?_
    dsimp only; split_ifs
    · exact (Plain.req ⟨rfl, rfl⟩).bind fun _ => (Plain.readTree src cfg ss n _ _ _).bind fun _ =>
        (Plain.readTree src cfg ss n _ _ _).bind fun _ => Plain.ok _
    · exact (Plain.req ⟨rfl, rfl⟩).bind fun _ => (Plain.leafDec _ _ _).bind fun _ => Plain.ok _

theorem Plain.descend (src) : ∀ t k, Plain (descend src t k)
  | .leaf x, k => Plain.ok _
  | .node a b, k => by
    unfold Machine.descend
    refine (Plain.takeBit _ _).bind fun _ => ?_
    dsimp only; split_ifs
    · exact Plain.descend src b _
    · exact Plain.descend src a _

theorem Plain.sortedOperand (s) : Plain (sortedOperand s) :=
  (Plain.checkOpen _).bind fun _ => (Plain.req ⟨rfl, rfl⟩).bind fun _ => (Plain.req ⟨rfl, rfl⟩).bind fun _ => Plain.ok _

/-- Only USA.D, USAN.D and R.SYNC raise errors that carry a window or a value of R. -/
theorem body_plain {i : Instr} (h1 : i ≠ .usaD) (h2 : i ≠ .usanD) (h3 : i ≠ .rSync) (s : State) :
    Plain ((commandOf i).body s) := by
  cases i
  case usaD => exact absurd rfl h1
  case usanD => exact absurd rfl h2
  case rSync => exact absurd rfl h3
  case sreset => exact Plain.ok _
  case wBit | wByte | wAlign | wClose | wSync | vbyE => exact (Plain.checkOpen _).bind fun _ => Plain.ok _
  case wBits => exact (Plain.checkOpen _).bind fun _ => (Plain.req ⟨rfl, rfl⟩).bind fun _ => Plain.ok _
  case rBit => exact (Plain.takeBit _ _).bind fun _ => Plain.ok _
  case rBits => exact (Plain.req ⟨rfl, rfl⟩).bind fun _ => (Plain.takeBits _ _ _).bind fun _ => Plain.ok _
  case rByte => exact (Plain.takeByte _ _ _).bind fun _ => Plain.ok _
  case rAlign => exact (Plain.rAlignLoop _ _ _).bind fun _ => Plain.ok _
  case bndE => exact (Plain.checkOpen _).bind fun _ =>
    ((Plain.req ⟨rfl, rfl⟩).bind fun _ => Plain.ok _ : Plain (encBounded _ _ _)).bind fun _ => Plain.ok _
  case bndD => exact (Plain.decBounded _ _ _).bind fun _ => Plain.ok _
  case uvbE => exact (Plain.checkOpen _).bind fun _ =>
    ((Plain.req ⟨rfl, rfl⟩).bind fun _ => Plain.ok _ : Plain (encUVarBits _ _ _)).bind fun _ => Plain.ok _
  case uvbD => exact (Plain.decUVarBits _ _ _).bind fun _ => Plain.ok _
  case svbE => exact (Plain.checkOpen _).bind fun _ =>
    ((Plain.req ⟨rfl, rfl⟩).bind fun _ => Plain.ok _ : Plain (encSVarBits _ _ _)).bind fun _ => Plain.ok _
  case svbD => exact (Plain.decSVarBits _ _ _).bind fun _ => Plain.ok _
  case vbyD => exact (Plain.rAlignLoop _ _ _).bind fun _ => (Plain.vbyLoop _ _ _ _ _).bind fun _ => Plain.ok _
  case usaE | usanE => exact (Plain.sortedOperand _).bind fun _ => Plain.ok _
  case aeReset | adReset => exact (Plain.req ⟨rfl, rfl⟩).bind fun _ => Plain.ok _
  case aeEnc => exact (Plain.req ⟨rfl, rfl⟩).bind fun _ => (Plain.checkOpen _).bind fun _ =>
    (Plain.req ⟨rfl, rfl⟩).bind fun _ => Plain.aeEncode _ _ _
  case aeFin =>
    refine Plain.bind (x := require _ _) (Plain.req ⟨rfl, rfl⟩) fun _ => ?_
    split_ifs
    · exact (Plain.checkOpen _).bind fun _ => Plain.ok _
    · exact Plain.ok _
  case adDec => exact (Plain.req ⟨rfl, rfl⟩).bind fun _ => (Plain.req ⟨rfl, rfl⟩).bind fun _ =>
    (Plain.adDecode _ _).bind fun _ => Plain.ok _
  case ceInit slot =>
    refine Plain.bind (x := checkSlot _ _ _) (Plain.checkSlot _ _ _) fun _ => ?_
    dsimp only
    split
    · exact Plain.ok _
    · exact Plain.ok _
    · exact (Plain.req ⟨rfl, rfl⟩).bind fun _ => (Plain.checkOpen _).bind fun _ =>
        (Plain.req ⟨rfl, rfl⟩).bind fun _ => Plain.ok _
    · exact Plain.err _ ⟨rfl, rfl⟩
  case ceEnc slot =>
    refine Plain.bind (x := checkSlot _ _ _) (Plain.checkSlot _ _ _) fun _ => ?_
    dsimp only
    split
    · exact (Plain.req ⟨rfl, rfl⟩).bind fun _ => (Plain.req ⟨rfl, rfl⟩).bind fun _ => Plain.ok _
    · refine (Plain.req ⟨rfl, rfl⟩).bind fun _ => ?_
      split_ifs
      · exact Plain.aeEncode _ _ _
      · exact Plain.ok _
    · exact Plain.err _ ⟨rfl, rfl⟩
    · exact Plain.err _ ⟨rfl, rfl⟩
  case ceFin | heFin => exact (Plain.checkSlot _ _ _).bind fun _ => (Plain.req ⟨rfl, rfl⟩).bind fun _ => Plain.ok _
  case cdInit slot =>
    refine Plain.bind (x := checkSlot _ _ _) (Plain.checkSlot _ _ _) fun _ => ?_
    refine Plain.bind (x := require _ _) (Plain.req ⟨rfl, rfl⟩) fun _ => ?_
    refine Plain.bind (x := decUVarBits _ _ _) (Plain.decUVarBits _ _ _) fun _ => ?_
    refine Plain.bind (x := require _ _) (Plain.req ⟨rfl, rfl⟩) fun _ => ?_
    dsimp only
    split_ifs
    · exact (Plain.decUsaBody _ _ _).bind fun _ => (Plain.req ⟨rfl, rfl⟩).bind fun _ =>
        (Plain.decUsaBody _ _ _).bind fun _ => Plain.ok _
    · exact (Plain.ok _).bind fun _ => (Plain.req ⟨rfl, rfl⟩).bind fun _ =>
        (Plain.decUsaBody _ _ _).bind fun _ => Plain.ok _
  case cdDec slot =>
    refine Plain.bind (x := checkSlot _ _ _) (Plain.checkSlot _ _ _) fun _ => ?_
    dsimp only
    split
    · split_ifs
      · exact Plain.ok _
      · exact (Plain.adDecode _ _).bind fun _ => Plain.ok _
    · exact Plain.err _ ⟨rfl, rfl⟩
    · exact Plain.err _ ⟨rfl, rfl⟩
  case heInit n slot =>
    refine Plain.bind (x := checkSlot _ _ _) (Plain.checkSlot _ _ _) fun _ => ?_
    refine Plain.bind (x := require _ _) (Plain.req ⟨rfl, rfl⟩) fun _ => ?_
    refine Plain.bind (x := require _ _) (Plain.req ⟨rfl, rfl⟩) fun _ => ?_
    split_ifs
    · exact (Plain.checkOpen _).bind fun _ => (Plain.req ⟨rfl, rfl⟩).bind fun _ => Plain.ok _
    · exact Plain.ok _
  case heEnc slot =>
    refine Plain.bind (x := checkSlot _ _ _) (Plain.checkSlot _ _ _) fun _ => ?_
    dsimp only
    split
    · exact (Plain.req ⟨rfl, rfl⟩).bind fun _ => Plain.ok _
    · split
      · exact Plain.err _ ⟨rfl, rfl⟩
      · exact (Plain.checkOpen _).bind fun _ => Plain.ok _
    · exact Plain.err _ ⟨rfl, rfl⟩
    · exact Plain.err _ ⟨rfl, rfl⟩
  case hdInit n slot =>
    refine Plain.bind (x := checkSlot _ _ _) (Plain.checkSlot _ _ _) fun _ => ?_
    refine Plain.bind (x := require _ _) (Plain.req ⟨rfl, rfl⟩) fun _ => ?_
    refine (Plain.takeBit _ _).bind fun _ => ?_
    dsimp only
    split_ifs
    · exact (Plain.readTree _ _ _ _ _ _ _).bind fun _ => Plain.ok _
    · exact Plain.ok _
  case hdDec slot =>
    refine Plain.bind (x := checkSlot _ _ _) (Plain.checkSlot _ _ _) fun _ => ?_
    dsimp only
    split
    · exact (Plain.descend _ _ _).bind fun _ => Plain.ok _
    · exact Plain.err _ ⟨rfl, rfl⟩
    · exact Plain.err _ ⟨rfl, rfl⟩

/-- Only USA.D and USAN.D raise errors that carry a window. -/
theorem body_window {i : Instr} {s : State} {e : Raise} (h1 : i ≠ .usaD) (h2 : i ≠ .usanD)
    (h : (commandOf i).body s = .error e) : e.window = (0, 0) := by
  by_cases h3 : i = .rSync
  · subst h3
    rcases bind_error h with h | ⟨⟨_, _⟩, _, h⟩
    · exact (Plain.syncLoop _ _ _ _ e h).1
    rcases bind_error h with h | ⟨_, _, h⟩
    · rw [← (require_error.1 h).2]
    · cases h
  · exact (body_plain h1 h2 h3 s e h).1

/-- The window of an error inside `inWindow`. -/
theorem inWindow_err {α : Type} {w : Nat × Nat} {x : Except Raise α} {e : Raise} (h : inWindow w x = .error e) :
    e.window = w := by
  cases x <;> simp [inWindow] at h
  subst h; rfl

/-- The window of an error of USA.D lies inside ARR, from `A` on. -/
theorem usaD_window {s : State} {e : Raise} (h : bodyUsaD s = .error e) :
    e.window = (0,0) ∨ (0 ≤ s.opA ∧ e.window.1 = s.opA.toNat ∧ e.window.1 + e.window.2 ≤ s.params.arrWords) := by
  rcases bind_error h with h | ⟨_, h0, h⟩
  · exact .inl (Plain.req (b := _) ⟨rfl, rfl⟩ e h).1
  rcases bind_error h with h | ⟨⟨n, k⟩, h1, h⟩
  · exact .inl (Plain.decUVarBits _ _ _ e h).1
  rcases bind_error h with h | ⟨_, h2, h⟩
  · exact .inl (Plain.req (b := _) ⟨rfl, rfl⟩ e h).1
  rcases bind_error h with h | ⟨⟨_, _⟩, h3, h⟩
  · have h0 := require_ok.1 h0
    have h2 := require_ok.1 h2
    have := inWindow_err h
    simp at h0 h2
    right; rw [this]; exact ⟨h0.1, rfl, h2⟩
  · cases h

/-- The window of an error of USAN.D is the window of `B` words from `A` on, inside ARR. -/
theorem usanD_window {s : State} {e : Raise} (h : bodyUsanD s = .error e) :
    e.window = (0,0) ∨
      (0 ≤ s.opA ∧ 0 ≤ s.opB ∧ s.opA + s.opB ≤ s.params.arrWords ∧ e.window = (s.opA.toNat, s.opB.toNat)) := by
  rcases bind_error h with h | ⟨_, h0, h⟩
  · exact .inl (Plain.req (b := _) ⟨rfl, rfl⟩ e h).1
  rcases bind_error h with h | ⟨⟨_, _⟩, h3, h⟩
  · have h0 := require_ok.1 h0
    have := inWindow_err h
    simp [windowOk] at h0
    right; exact ⟨h0.1.1, h0.1.2, h0.2, this⟩
  · cases h

/-- The window a late error of a command gives free values to: empty, or that of USA.D or USAN.D. -/
theorem late_window {i : Instr} {s : State} {w : Nat × Nat}
    (h : (∃ e', (commandOf i).body s = .error e' ∧ w = e'.window) ∨
      ∃ s1, (commandOf i).body s = .ok s1 ∧ w = (commandOf i).window s1) :
    w.2 = 0 ∨ (i = .usaD ∧ 0 ≤ s.opA ∧ w.1 = s.opA.toNat ∧ w.1 + w.2 ≤ s.params.arrWords) ∨
      (i = .usanD ∧ 0 ≤ s.opA ∧ 0 ≤ s.opB ∧ s.opA + s.opB ≤ s.params.arrWords ∧ w = (s.opA.toNat, s.opB.toNat)) := by
  by_cases h1 : i = .usaD
  · subst h1
    rcases h with ⟨e, he, rfl⟩ | ⟨s1, hs, rfl⟩
    · rcases usaD_window he with h | h
      · left; rw [h]
      · right; left; exact ⟨rfl, h⟩
    · change bodyUsaD s = _ at hs
      obtain ⟨_, h0, hs⟩ := bind_ok hs
      obtain ⟨⟨n, k⟩, h1, hs⟩ := bind_ok hs
      obtain ⟨_, h2, hs⟩ := bind_ok hs
      obtain ⟨⟨xs, p⟩, h3, hs⟩ := bind_ok hs
      cases hs
      have h0 := require_ok.1 h0
      have h2 := require_ok.1 h2
      simp at h0 h2
      right; left
      refine ⟨rfl, h0.1, ?_⟩
      rw [memWriteList_eq]
      have : n % 2 ^ 64 ≤ n := Nat.mod_le _ _
      simp [commandOf, State.opA, State.setR, State.setRpos] at *
      omega
  · by_cases h2 : i = .usanD
    · subst h2
      rcases h with ⟨e, he, rfl⟩ | ⟨s1, hs, rfl⟩
      · rcases usanD_window he with h | h
        · left; rw [h]
        · right; right; exact ⟨rfl, h⟩
      · change bodyUsanD s = _ at hs
        obtain ⟨_, h0, hs⟩ := bind_ok hs
        obtain ⟨⟨xs, p⟩, h3, hs⟩ := bind_ok hs
        cases hs
        have h0 := require_ok.1 h0
        simp [windowOk] at h0
        right; right
        refine ⟨rfl, h0.1.1, h0.1.2, h0.2, ?_⟩
        rw [memWriteList_eq]; rfl
    · left
      rcases h with ⟨e, he, rfl⟩ | ⟨s1, hs, rfl⟩
      · rw [body_window h1 h2 he]
      · have : (commandOf i).window s1 = (0, 0) := by cases i <;> first | rfl | exact absurd rfl h1 | exact absurd rfl h2
        rw [this]

/-- No writer-side error carries a value of R. -/
theorem writer_result {i : Instr} {s : State} {e : Raise} (hs : (commandOf i).side = .writer)
    (h : (commandOf i).body s = .error e) : e.result = none := by
  refine (body_plain ?_ ?_ ?_ s e h).2 <;> rintro rfl <;> cases hs

/-! ### What a late error changes -/

/-- Everything a late error of the command `c` that carries `e` does. -/
structure LateFacts (s : State) (c : Command) (e : Raise) (t : State) : Prop where
  eq : t = { s with
      wbits := t.wbits, rpos := t.rpos, r := t.r, wclosed := t.wclosed, ae := t.ae, ad := t.ad, ce := t.ce, cd := t.cd
      he := t.he, hd := t.hd
      arr := (s.scrambleWindow s.draws e.window.1 e.window.2).arr
      sink := t.sink, committed := t.committed, pulled := t.pulled
      status := errorStatus c.op e.code
      errInfo := BitVec.ofNat 64 e.info
      draws := s.draws + 1 }
  more : ∃ more, t.wbits = s.wbits ++ more
  comm : s.committed ≤ t.committed
  cap : ∀ j, s.sinkFail = some j → s.committed ≤ j → t.committed ≤ j
  sink : t.sink = s.sink ++ outBytes t.wbits s.committed t.committed
  rpos : c.side = .writer → t.rpos = s.rpos
  wbits : c.side = .reader → t.wbits = s.wbits
  pulled : c.pull = .none → t.pulled = s.pulled
  wbits' : c.side = .writer → e.info = s.wbits.length → t.wbits = s.wbits
  r : (c.writes s).r = false → e.result = none → t.r = s.r
  r' : ∀ v, e.result = some v → t.r = v
  wclosed : (c.writes s).closed = false → t.wclosed = s.wclosed
  ae : t.ae = freedAe (lateWrites c s e).ae s.ae (lateAe s.draws)
  ad : t.ad = freedAd (c.writes s).ad s.ad (lateAd s.draws)
  ce : (c.writes s).ce = none → t.ce = s.ce
  cd : (c.writes s).cd = none → t.cd = s.cd
  he : (c.writes s).he = none → t.he = s.he
  hd : (c.writes s).hd = none → t.hd = s.hd
  lce : t.ce.length = s.ce.length
  lcd : t.cd.length = s.cd.length
  lhe : t.he.length = s.he.length
  lhd : t.hd.length = s.hd.length

theorem scramble_eq (s : State) (n : Nat) (w : Writes) :
    s.scramble n w =
      { s with
        r := (s.scramble n w).r
        wclosed := (s.scramble n w).wclosed
        ae := (s.scramble n w).ae
        ad := (s.scramble n w).ad
        ce := (s.scramble n w).ce
        cd := (s.scramble n w).cd
        he := (s.scramble n w).he
        hd := (s.scramble n w).hd } := rfl

/-- A late error changes no slot count. -/
theorem scramble_length (s : State) (n : Nat) (w : Writes) : (s.scramble n w).ce.length = s.ce.length ∧
    (s.scramble n w).cd.length = s.cd.length ∧ (s.scramble n w).he.length = s.he.length ∧
    (s.scramble n w).hd.length = s.hd.length := by
  refine ⟨?_, ?_, ?_, ?_⟩ <;> unfold State.scramble <;> dsimp only <;> split <;> simp

/-- The words a window's free values leave depend on ARR only. -/
theorem scrambleWindow_arr (m : Nat) :
    ∀ (s t : State) (n i : Nat), s.arr = t.arr → (s.scrambleWindow n i m).arr = (t.scrambleWindow n i m).arr := by
  induction m with
  | zero => intro s t n i h; exact h
  | succ m ih => intro s t n i h; exact ih _ _ _ _ (by simp [State.memWrite, State.setArr, h])

/-- A late error does what `LateFacts` says. -/
theorem lateFacts (s : State) (c : Command) (e : Raise) : LateFacts s c e (s.takeLate c e).drawn := by
  obtain ⟨code, info, late, still, result, w⟩ := e
  let e : Raise := { code := code, info := info, late := late, still := still, result := result, window := w }
  let m := e.moved c.side s
  obtain ⟨h1, ⟨more, h2⟩, h3, h4, h5⟩ := scrambleStream_kept s s.draws c.side m
  obtain ⟨hw, -⟩ := lateWrites_eq c s e
  let s1 := (s.scrambleStream s.draws c.side m).scramble s.draws (lateWrites c s e)
  let s2 := s1.scrambleWindow s.draws w.1 w.2
  let k (n : Nat) := drawIn s.committed (capAt n s.sinkFail) (lateCommit s.draws)
  let q := if c.pull = .none then s.pulled else drawIn s.pulled (capAt s.src.length s.srcFail) (latePulled s.draws)
  have hs1 : s1 =
      { s with
        wbits := s1.wbits
        rpos := s1.rpos
        r := s1.r
        wclosed := s1.wclosed
        ae := s1.ae
        ad := s1.ad
        ce := s1.ce
        cd := s1.cd
        he := s1.he
        hd := s1.hd } := by
    simp only [s1]; rw [scramble_eq, h1]
  obtain ⟨-, -, -, -, -, -, -, -, k9, k10, k11, k12, k13, k14, k15, k16⟩ :=
    scramble_kept (s.scrambleStream s.draws c.side m) s.draws (lateWrites c s e)
  obtain ⟨l1, l2, l3, l4⟩ := scramble_length (s.scrambleStream s.draws c.side m) s.draws (lateWrites c s e)
  have hs2 : s2 = { s1 with arr := (s.scrambleWindow s.draws w.1 w.2).arr } := by
    have harr : s2.arr = (s.scrambleWindow s.draws w.1 w.2).arr := scrambleWindow_arr _ _ _ _ _ (by rw [hs1])
    rw [← harr]; simp only [s2]; rw [scrambleWindow_eq]
  rw [hs1] at hs2
  have hc : ∀ n j, s.sinkFail = some j → s.committed ≤ j → k n ≤ j := by
    intro n j hj hle
    refine (drawIn_le_max _ _ _).trans ?_
    simp [capAt, hj, hle]
  have f : ∀ {α : Type} (g : State → α), (∀ w p, g { s with wbits := w, rpos := p } = g s) →
      g (s.scrambleStream s.draws c.side m) = g s := fun g hg => by rw [h1]; exact hg _ _
  have hm : c.side = .writer → info = s.wbits.length → s1.wbits = s.wbits := fun hc' h =>
    show (s.scrambleStream s.draws c.side m).wbits = _ by
      rw [h5 (by simp [m, Raise.moved, hc', e, h, State.wpos])]
  have hae : s1.ae = freedAe (lateWrites c s e).ae s.ae (lateAe s.draws) := k11.trans (by rw [h1])
  have had : s1.ad = freedAd (c.writes s).ad s.ad (lateAd s.draws) := k12.trans (by rw [h1, hw])
  cases result with
  | none =>
    have ht : s.takeLate c { code := code, info := info, late := late, still := still, result := none, window := w } =
        (s2.settle (k (s2.wbits.length / 8)) q).takeError c.op code info := rfl
    rw [ht, hs2]
    exact ⟨rfl, ⟨more, h2⟩, le_drawIn _ _ _, fun j hj hle => hc _ j hj hle, rfl, h3, h4,
      fun h => by simp [State.takeError, State.settle, State.drawn, q, h], hm, fun h _ => (k9 (by rw [hw]; exact h)).trans (f _ fun _ _ => rfl),
      (fun _ h => nomatch h),
      fun h => (k10 (by rw [hw]; exact h)).trans (f _ fun _ _ => rfl), hae, had,
      fun h => (k13 (by rw [hw]; exact h)).trans (f _ fun _ _ => rfl),
      fun h => (k14 (by rw [hw]; exact h)).trans (f _ fun _ _ => rfl),
      fun h => (k15 (by rw [hw]; exact h)).trans (f _ fun _ _ => rfl),
      fun h => (k16 (by rw [hw]; exact h)).trans (f _ fun _ _ => rfl), l1.trans (f (·.ce.length) fun _ _ => rfl),
      l2.trans (f (·.cd.length) fun _ _ => rfl), l3.trans (f (·.he.length) fun _ _ => rfl),
      l4.trans (f (·.hd.length) fun _ _ => rfl)⟩
  | some v =>
    have ht : s.takeLate c { code := code, info := info, late := late, still := still, result := some v, window := w } =
        ((s2.setR v).settle (k (s2.wbits.length / 8)) q).takeError c.op code info := rfl
    rw [ht, hs2]
    exact ⟨rfl, ⟨more, h2⟩, le_drawIn _ _ _, fun j hj hle => hc _ j hj hle, rfl, h3, h4,
      fun h => by simp [State.takeError, State.settle, State.drawn, q, h], hm, (fun _ h => nomatch h),
      (fun _ h => by cases h; rfl),
      fun h => (k10 (by rw [hw]; exact h)).trans (f _ fun _ _ => rfl), hae, had,
      fun h => (k13 (by rw [hw]; exact h)).trans (f _ fun _ _ => rfl),
      fun h => (k14 (by rw [hw]; exact h)).trans (f _ fun _ _ => rfl),
      fun h => (k15 (by rw [hw]; exact h)).trans (f _ fun _ _ => rfl),
      fun h => (k16 (by rw [hw]; exact h)).trans (f _ fun _ _ => rfl), l1.trans (f (·.ce.length) fun _ _ => rfl),
      l2.trans (f (·.cd.length) fun _ _ => rfl), l3.trans (f (·.he.length) fun _ _ => rfl),
      l4.trans (f (·.hd.length) fun _ _ => rfl)⟩

end Sys2Proof.Machine
end

