-- ==== Sys2Proof/Laws/PerInstr.lean ====
section
/-! SUPPORT. The per-command family: what the word of each well-formed command holds in each of its fields
(30_encoding.md R121, R127). -/

namespace Sys2Proof.Laws

open Sys2Proof

/-- The fields of the word of a well-formed command: its opcode, its count, its slot and zero bits above
(30_encoding.md R121, R124). -/
def EncodedFields.Statement (i : Instr) : Prop :=
  i.wellFormed = true →
    opField (encode i) = i.opcode ∧ nFieldOf (encode i) = i.nField ∧ slotFieldOf (encode i) = i.slotField ∧
      reservedField (encode i) = 0

/-- A word put together from fields of 8 bits has these fields. -/
theorem fields_of_sum {op n slot : Nat} (ho : op < 256) (hn : n < 256) (hs : slot < 256) :
    opField (BitVec.ofNat 64 (slot * 65536 + n * 256 + op)) = op ∧
      nFieldOf (BitVec.ofNat 64 (slot * 65536 + n * 256 + op)) = n ∧
      slotFieldOf (BitVec.ofNat 64 (slot * 65536 + n * 256 + op)) = slot ∧
      reservedField (BitVec.ofNat 64 (slot * 65536 + n * 256 + op)) = 0 := by
  simp only [opField, nFieldOf, slotFieldOf, reservedField, BitVec.toNat_ofNat]
  omega

/-- The fields of the word of a command with an opcode of 8 bits. -/
theorem statement_of_opcode {i : Instr} (ho : i.opcode < 256) : EncodedFields.Statement i := by
  intro h
  simp only [Instr.wellFormed, Bool.and_eq_true, decide_eq_true_eq] at h
  exact fields_of_sum ho h.1 h.2

theorem EncodedFields.sreset : EncodedFields.Statement .sreset := statement_of_opcode (by simp [Instr.opcode])
theorem EncodedFields.wBit : EncodedFields.Statement .wBit := statement_of_opcode (by simp [Instr.opcode])
theorem EncodedFields.wBits (n : Nat) : EncodedFields.Statement (.wBits n) := statement_of_opcode (by simp [Instr.opcode])
theorem EncodedFields.wByte : EncodedFields.Statement .wByte := statement_of_opcode (by simp [Instr.opcode])
theorem EncodedFields.wAlign : EncodedFields.Statement .wAlign := statement_of_opcode (by simp [Instr.opcode])
theorem EncodedFields.wClose : EncodedFields.Statement .wClose := statement_of_opcode (by simp [Instr.opcode])
theorem EncodedFields.wSync : EncodedFields.Statement .wSync := statement_of_opcode (by simp [Instr.opcode])
theorem EncodedFields.rBit : EncodedFields.Statement .rBit := statement_of_opcode (by simp [Instr.opcode])
theorem EncodedFields.rBits (n : Nat) : EncodedFields.Statement (.rBits n) := statement_of_opcode (by simp [Instr.opcode])
theorem EncodedFields.rByte : EncodedFields.Statement .rByte := statement_of_opcode (by simp [Instr.opcode])
theorem EncodedFields.rAlign : EncodedFields.Statement .rAlign := statement_of_opcode (by simp [Instr.opcode])
theorem EncodedFields.rSync : EncodedFields.Statement .rSync := statement_of_opcode (by simp [Instr.opcode])
theorem EncodedFields.bndE : EncodedFields.Statement .bndE := statement_of_opcode (by simp [Instr.opcode])
theorem EncodedFields.bndD : EncodedFields.Statement .bndD := statement_of_opcode (by simp [Instr.opcode])
theorem EncodedFields.uvbE (n : Nat) : EncodedFields.Statement (.uvbE n) := statement_of_opcode (by simp [Instr.opcode])
theorem EncodedFields.uvbD (n : Nat) : EncodedFields.Statement (.uvbD n) := statement_of_opcode (by simp [Instr.opcode])
theorem EncodedFields.svbE (n : Nat) : EncodedFields.Statement (.svbE n) := statement_of_opcode (by simp [Instr.opcode])
theorem EncodedFields.svbD (n : Nat) : EncodedFields.Statement (.svbD n) := statement_of_opcode (by simp [Instr.opcode])
theorem EncodedFields.vbyE : EncodedFields.Statement .vbyE := statement_of_opcode (by simp [Instr.opcode])
theorem EncodedFields.vbyD : EncodedFields.Statement .vbyD := statement_of_opcode (by simp [Instr.opcode])
theorem EncodedFields.usaE : EncodedFields.Statement .usaE := statement_of_opcode (by simp [Instr.opcode])
theorem EncodedFields.usaD : EncodedFields.Statement .usaD := statement_of_opcode (by simp [Instr.opcode])
theorem EncodedFields.usanE : EncodedFields.Statement .usanE := statement_of_opcode (by simp [Instr.opcode])
theorem EncodedFields.usanD : EncodedFields.Statement .usanD := statement_of_opcode (by simp [Instr.opcode])
theorem EncodedFields.aeReset (n : Nat) : EncodedFields.Statement (.aeReset n) := statement_of_opcode (by simp [Instr.opcode])
theorem EncodedFields.aeEnc : EncodedFields.Statement .aeEnc := statement_of_opcode (by simp [Instr.opcode])
theorem EncodedFields.aeFin : EncodedFields.Statement .aeFin := statement_of_opcode (by simp [Instr.opcode])
theorem EncodedFields.adReset (n : Nat) : EncodedFields.Statement (.adReset n) := statement_of_opcode (by simp [Instr.opcode])
theorem EncodedFields.adDec : EncodedFields.Statement .adDec := statement_of_opcode (by simp [Instr.opcode])
theorem EncodedFields.ceInit (slot : Nat) : EncodedFields.Statement (.ceInit slot) := statement_of_opcode (by simp [Instr.opcode])
theorem EncodedFields.ceEnc (slot : Nat) : EncodedFields.Statement (.ceEnc slot) := statement_of_opcode (by simp [Instr.opcode])
theorem EncodedFields.ceFin (slot : Nat) : EncodedFields.Statement (.ceFin slot) := statement_of_opcode (by simp [Instr.opcode])
theorem EncodedFields.cdInit (slot : Nat) : EncodedFields.Statement (.cdInit slot) := statement_of_opcode (by simp [Instr.opcode])
theorem EncodedFields.cdDec (slot : Nat) : EncodedFields.Statement (.cdDec slot) := statement_of_opcode (by simp [Instr.opcode])
theorem EncodedFields.heInit (n slot : Nat) : EncodedFields.Statement (.heInit n slot) := statement_of_opcode (by simp [Instr.opcode])
theorem EncodedFields.heEnc (slot : Nat) : EncodedFields.Statement (.heEnc slot) := statement_of_opcode (by simp [Instr.opcode])
theorem EncodedFields.heFin (slot : Nat) : EncodedFields.Statement (.heFin slot) := statement_of_opcode (by simp [Instr.opcode])
theorem EncodedFields.hdInit (n slot : Nat) : EncodedFields.Statement (.hdInit n slot) := statement_of_opcode (by simp [Instr.opcode])
theorem EncodedFields.hdDec (slot : Nat) : EncodedFields.Statement (.hdDec slot) := statement_of_opcode (by simp [Instr.opcode])

end Sys2Proof.Laws
end

