-- ==== Sys2Proof/Laws/Steps.lean ====
section
/-! SUPPORT. Everything a step can do: the engine's step, the resets, and each move of the host (10_state.md R58, 20_memory.md
R81, 70_reset_and_hazards.md R440 to R443). -/

namespace Sys2Proof.Machine

open Sys2Proof Sys2Proof.Config

/-- `exec` answers a next state for every instruction. -/
theorem exec_next (i : Instr) (s : State) : ∃ t, exec i s = .next t := by cases i <;> exact ⟨_, rfl⟩

/-- The engine answers a next state for every word. -/
theorem engine_next (s : State) : ∃ t, engineStep s = .next t := by
  unfold engineStep
  split
  · exact exec_next _ _
  · exact ⟨_, rfl⟩

/-- The engine raises `ILLEGAL_COMMAND`, resets the block, or executes a command. -/
theorem engine_cases {s t : State} (h : engineStep s = .next t) :
    t = s.takeError (s.cmd.toNat % 256) .illegalCommand s.wpos ∨ t = s.resetBlock s.arr ∨
    ∃ i, i ≠ .sreset ∧ decode s.cmd = .ok i ∧ exec i s = .next t := by
  unfold engineStep at h
  split at h
  · rename_i i hi
    by_cases h0 : i = .sreset
    · subst h0; cases h; exact .inr (.inl rfl)
    · exact .inr (.inr ⟨i, h0, hi, h⟩)
  · cases h; exact .inl rfl

/-- What a step can make of a state. -/
inductive Stepped (s : State) : State → Prop
  | idle : Stepped s s
  | engine (t : State) (busy : s.status.busy = true) (h : engineStep s = .next t) : Stepped s t
  | reset (s' : State) (same : s'.params = s.params) : Stepped s s'.hardReset
  | read (rest : List HostMove) (v : Word) :
      Stepped s { s with moves := rest, readData := v, draws := s.draws + 1 }
  | ignored (rest : List HostMove) (ready : s.status.busy = false) : Stepped s { s with moves := rest }
  | command (rest : List HostMove) (w : Word) (ready : s.status.busy = false) (taken : s.status.fault = true → w = 1) :
      Stepped s { s with moves := rest, cmd := w, status := { s.status with busy := true } }
  | operand (rest : List HostMove) (a b c : Word) (ready : s.status.busy = false) :
      Stepped s { s with moves := rest, a := a, b := b, c := c }
  | array (rest : List HostMove) (i : Nat) (v : Word) (ready : s.status.busy = false) (hi : i < s.params.arrWords) :
      Stepped s { s with moves := rest, arr := arrInsert i v s.arr }
  | source (rest : List HostMove) (bytes : List Byte) (failAt : Option Nat) (ready : s.status.busy = false)
      (drained : s.rpos = 8 * s.pulled) :
      Stepped s { s with moves := rest, src := s.src.take s.pulled ++ bytes, srcFail := failAt }
  | sink (rest : List HostMove) (failAt : Option Nat) (ready : s.status.busy = false)
      (drained : s.wbits.length = 8 * s.committed) :
      Stepped s { s with moves := rest, sink := [], sinkFail := failAt }

/-- A host write does nothing, starts a command, or writes an operand register or a word of ARR. -/
theorem stepped_write {s : State} (rest : List HostMove) (off : Nat) (v : Word) (ready : s.status.busy = false) :
    Stepped s (regWrite { s with moves := rest } off v) := by
  unfold regWrite
  split
  · unfold cmdWrite
    split_ifs with hf
    · exact .ignored rest ready
    · exact .command rest v ready fun hf' => by simp at hf; exact hf hf'
  · exact .operand rest v s.b s.c ready
  · exact .operand rest s.a v s.c ready
  · exact .operand rest s.a s.b v ready
  · generalize hx : arrIndex { s with moves := rest } _ = x
    cases x with
    | none => exact .ignored rest ready
    | some i =>
      refine .array rest i v ready ?_
      unfold arrIndex at hx
      split_ifs at hx with hr
      injection hx with hi
      simp at hr; omega

/-- A step that answers a next state does nothing, runs the engine, resets, or makes one move of the host. -/
theorem step_cases {s t : State} (h : step s = .next t) : Stepped s t := by
  unfold step blockStep at h
  split_ifs at h with hb
  · unfold busyStep at h
    split at h
    · rename_i rest _
      obtain ⟨u, hu⟩ := engine_next { s with moves := rest }
      rw [resetWhileBusy, hu] at h
      cases h; exact .reset _ rfl
    · split_ifs at h
      · cases h; exact .read _ _
      · exact .engine t hb h
    · exact .engine t hb h
  · have ready : s.status.busy = false := by simpa using hb
    unfold idleStep at h
    split at h
    · cases h; exact .idle
    · rename_i m rest hm
      unfold hostStep at h
      split at h
      · split_ifs at h; cases h; exact stepped_write rest _ _ ready
      · split_ifs at h; cases h; exact .read _ _
      · split_ifs at h with hd
        cases h; exact .source rest _ _ ready (by simpa [sourceDrained] using hd)
      · split_ifs at h with hd
        cases h; exact .sink rest _ ready (by simpa [sinkDrained, State.wpos] using hd)
      · cases h; exact .reset _ rfl

end Sys2Proof.Machine
end

