-- ==== Sys2Proof/Tests/Slice0.lean ====
section
/-! SUPPORT. Tests: the well-formedness checks, the word of every command, one or two steps of every command with the values of
95_test_vectors.md, the host's moves, and a witness for every statement that has hypotheses. -/

namespace Sys2Proof.Tests

open Sys2Proof Sys2Proof.Machine Sys2Proof.Config

/-! ### Well-formedness (30_encoding.md R121) -/

theorem test_n_too_wide : (Instr.wBits 256).wellFormed = false := by decide
theorem test_slot_too_wide : (Instr.ceEnc 256).wellFormed = false := by decide
theorem test_both_fields_at_the_limit : (Instr.heInit 255 255).wellFormed = true := by decide

/-! ### Words, written as SLOT, N, OP from 30_encoding.md R121, R123 and the CMD columns of 95_test_vectors.md -/

theorem test_word_sreset : decode 0x01 = .ok .sreset := by decide
theorem test_words_writer :
    decode 0x10 = .ok .wBit ∧ decode 0x311 = .ok (.wBits 3) ∧ decode 0x12 = .ok .wByte ∧ decode 0x13 = .ok .wAlign ∧
      decode 0x14 = .ok .wClose ∧ decode 0x15 = .ok .wSync := by decide
theorem test_words_reader :
    decode 0x20 = .ok .rBit ∧ decode 0x421 = .ok (.rBits 4) ∧ decode 0x22 = .ok .rByte ∧ decode 0x23 = .ok .rAlign ∧
      decode 0x24 = .ok .rSync := by decide
theorem test_words_scalar :
    decode 0x30 = .ok .bndE ∧ decode 0x31 = .ok .bndD ∧ decode 0x32 = .ok (.uvbE 0) ∧ decode 0x33 = .ok (.uvbD 0) ∧
      decode 0x334 = .ok (.svbE 3) ∧ decode 0x335 = .ok (.svbD 3) ∧ decode 0x36 = .ok .vbyE ∧
      decode 0x37 = .ok .vbyD := by decide
theorem test_words_sorted_array :
    decode 0x40 = .ok .usaE ∧ decode 0x41 = .ok .usaD ∧ decode 0x42 = .ok .usanE ∧ decode 0x43 = .ok .usanD := by decide
theorem test_words_arithmetic :
    decode 0x2150 = .ok (.aeReset 33) ∧ decode 0x51 = .ok .aeEnc ∧ decode 0x52 = .ok .aeFin ∧
      decode 0x2158 = .ok (.adReset 33) ∧ decode 0x59 = .ok .adDec := by decide
theorem test_words_context :
    decode 0x10060 = .ok (.ceInit 1) ∧ decode 0x10061 = .ok (.ceEnc 1) ∧ decode 0x10062 = .ok (.ceFin 1) ∧
      decode 0x10068 = .ok (.cdInit 1) ∧ decode 0x10069 = .ok (.cdDec 1) := by decide
theorem test_words_huffman :
    decode 0x20070 = .ok (.heInit 0 2) ∧ decode 0x10071 = .ok (.heEnc 1) ∧ decode 0x10072 = .ok (.heFin 1) ∧
      decode 0x10078 = .ok (.hdInit 0 1) ∧ decode 0x10079 = .ok (.hdDec 1) := by decide

/-- Vectors K1 to K8: none of these is a command. -/
theorem test_words_illegal :
    (decode 0x0).toOption = none ∧ (decode 0x02).toOption = none ∧ (decode 0x1000010).toOption = none ∧
      (decode 0x8000000000000010).toOption = none ∧ (decode 0x110).toOption = none ∧ (decode 0x10013).toOption = none ∧
      (decode 0x10020).toOption = none ∧ (decode 0x101).toOption = none := by decide

theorem test_table_word : decodeTableWord 24 0x20070 = some (.heInit 0 2) := by decide

/-! ### One step -/

/-- The block after reset with the operands given. -/
def ops (a b c : Word) : State := { State.reset with a := a, b := b, c := c }

/-- The block with a source and some of it read. -/
def from_ (bytes : List Byte) (rpos : Nat) (s : State) : State :=
  { s with src := bytes, rpos := rpos, pulled := min (ceil8 rpos) bytes.length }

/-- The block with a source that holds `bits` from its first bit on. -/
def sourceOf (bits : List Bool) (s : State) : State := from_ (outBytes bits 0 (ceil8 bits.length)) 0 s

/-- What `f` says of the state after a command. -/
def after {α : Type} (f : State → α) (i : Instr) (s : State) : Option α :=
  match exec i s with
  | .next t => some (f t)
  | .fault _ => none
  | .refused _ => none

/-- The bits of the output stream, as 0 and 1, and STATUS. -/
def out (i : Instr) (s : State) : Option (List Nat × Word) :=
  after (fun t => (t.wbits.map Bool.toNat, t.status.word)) i s

/-- R, RPOS and STATUS. -/
def got (i : Instr) (s : State) : Option (Word × Nat × Word) := after (fun t => (t.r, t.rpos, t.status.word)) i s

/-- STATUS and ERR_INFO. -/
def err (i : Instr) (s : State) : Option (Word × Word) := after (fun t => (t.status.word, t.errInfo)) i s

/-- Vector K14: ARR stays, the passes end. -/
theorem test_sreset :
    after (fun t => (t.wposWord, t.ae.mode, arrLookup 0 t.arr)) .sreset
      { ops 5 0 0 with
        wbits := [true, false]
        arr := [(0, 7)]
        ae := { mode := .active, w := 4, low := 0, high := 15, uf := 0, coded := false } } =
      some (0, .idle, some 7) := by decide

/-- 95_test_vectors.md, writer sequence, step 4: bit 0 of `A` only. -/
theorem test_wBit : out .wBit (ops 2 0 0) = some ([0], 0) := by decide
/-- Step 14: a closed writer. -/
theorem test_wBit_closed :
    err .wBit { ops 1 0 0 with wbits := List.replicate 8 false, wclosed := true } = some (0x100302, 8) := by decide
/-- Step 2. -/
theorem test_wBits : out (.wBits 3) (ops 6 0 0) = some ([0, 1, 1], 0) := by decide
/-- Vector K9. -/
theorem test_wBits_too_many : err (.wBits 255) (ops 0 0 0) = some (0x110202, 0) := by decide
/-- Step 8. -/
theorem test_wByte :
    out .wByte { ops 0x1AB 0 0 with wbits := [true, false, true] } =
      some ([1, 0, 1, 0, 0, 0, 0, 0, 1, 1, 0, 1, 0, 1, 0, 1], 0) := by decide
/-- Step 5: the sink then holds the byte. -/
theorem test_wAlign :
    after (fun t => (t.wbits.length, t.sink)) .wAlign { ops 0 0 0 with wbits := [true, false, true, true, false] } =
      some (8, [0x0D]) := by decide
/-- Step 13. -/
theorem test_wClose :
    after (fun t => (t.sink, t.wclosed)) .wClose { ops 0 0 0 with wbits := [true, true] } = some ([0x03], true) := by
  decide
/-- Step 11: the most significant byte first. -/
theorem test_wSync :
    after (fun t => t.sink) .wSync { ops 0x0102030405060708 0 0 with wbits := [true] } =
      some [0x01, 0x01, 0x02, 0x03, 0x04, 0x05, 0x06, 0x07, 0x08] := by decide

/-- The stream of program P1. -/
def p1 : List Byte :=
  [0x5A, 0x92, 0x88, 0xD8, 0x10, 0xD8, 0x04, 0x53, 0x54, 0x41, 0x54, 0x43, 0x30, 0x44, 0x45, 0x01]

theorem test_rBits : got (.rBits 4) (from_ p1 0 (ops 0 0 0)) = some (10, 4, 0) := by decide
theorem test_rBit : got .rBit (from_ p1 120 (ops 0 0 0)) = some (1, 121, 0) := by decide
/-- Program P1: a further R.BIT. -/
theorem test_rBit_end : err .rBit (from_ p1 128 (ops 0 0 0)) = some (0x201002, 128) := by decide
theorem test_rByte : got .rByte (from_ p1 0 (ops 0 0 0)) = some (0x5A, 8, 0) := by decide
/-- 20_memory.md R86: off a byte boundary too, a byte-level read pulls only the byte it takes. -/
theorem test_rByte_pulls : after (fun t => (t.r, t.pulled)) .rByte (from_ [0x05, 0xAB, 0, 0] 3 (ops 0 0 0)) =
    some (0xAB, 2) := by decide
theorem test_rAlign : got .rAlign (from_ p1 121 (ops 0 0 0)) = some (0, 128, 0) := by decide
/-- A pad bit that is 1 (40_bitio.md R172): bit 1 of 5A. -/
theorem test_rAlign_dirty : err .rAlign (from_ p1 1 (ops 0 0 0)) = some (0x231102, 2) := by decide
theorem test_rSync :
    got .rSync (from_ p1 56 (ops 0x5354415443304445 0 0)) = some (0x5354415443304445, 120, 0) := by decide
/-- 90_conflicts.md C8: R holds the marker read. -/
theorem test_rSync_mismatch :
    after (fun t => (t.r, t.status.word, t.errInfo)) .rSync (from_ p1 56 (ops 0 0 0)) =
      some (0x5354415443304445, 0x241302, 120) := by decide

theorem test_bndE : out .bndE (ops 100 37 0) = some ([1, 0, 1, 0, 0, 1], 0) := by decide
/-- Vector S1. -/
theorem test_bndE_above_max : err .bndE (ops 4 5 0) = some (0x300202, 0) := by decide
theorem test_bndD : got .bndD (from_ p1 4 (ops 100 0 0)) = some (37, 10, 0) := by decide
theorem test_uvbE : out (.uvbE 0) (ops 3 0 0) = some ([0, 0, 1, 0, 0], 0) := by decide
theorem test_uvbD : got (.uvbD 0) (from_ p1 10 (ops 0 0 0)) = some (3, 15, 0) := by decide
theorem test_svbE : out (.svbE 3) (ops (-9) 0 0) = some ([1, 0, 0, 0, 0, 1, 0], 0) := by decide
theorem test_svbD : got (.svbD 3) (from_ p1 31 (ops 0 0 0)) = some (-9, 38, 0) := by decide
/-- The values of R236 (d), each decoded over the bits it is coded in. -/
theorem test_svb_round_trip :
    ∀ v ∈ [0, 1, 63738377475675, 2 ^ 63 - 1, -1, -63738377475675, -(2 ^ 63 - 1), (-2 ^ 63 : Int)],
      got (.svbD 0) (sourceOf (svarBits v 0) State.reset) = some (BitVec.ofInt 64 v, (svarBits v 0).length, 0) := by
  decide +kernel
theorem test_vbyE : after (fun t => t.sink) .vbyE (ops 300 0 0) = some [0xD8, 0x04] := by decide
theorem test_vbyD : got .vbyD (from_ p1 38 (ops 0 0 0)) = some (300, 56, 0) := by decide

/-- The array memory of program P2. -/
def p2 (a b : Word) : State :=
  { ops a b 0 with arr := [(0, 1), (1, 3), (2, 8), (3, 9), (4, 100), (5, 101), (6, 102), (7, 1000)] }

theorem test_usaE :
    out .usaE (p2 0 4) = some ([0, 0, 1, 1, 0, 0, 0, 1, 1, 0, 0, 1, 0, 1, 1, 1, 1, 0, 1, 0, 1], 0) := by decide
theorem test_usanE :
    after (fun t => t.wbits.length) .usanE (p2 4 4) = some 34 := by decide
theorem test_usaD :
    after (fun t => (t.r, t.rpos, t.arr)) .usaD
      (from_ [0x8C, 0xE9, 0x15, 0xF7, 0xC3, 0x13, 0x7A] 0 (ops 16 0 0)) =
      some (4, 21, [(16, 1), (17, 3), (18, 8), (19, 9)]) := by decide
theorem test_usanD :
    after (fun t => (t.r, t.rpos, t.arr)) .usanD
      (from_ [0x8C, 0xE9, 0x15, 0xF7, 0xC3, 0x13, 0x7A] 21 (ops 20 4 0)) =
      some (4, 55, [(20, 100), (21, 101), (22, 102), (23, 1000)]) := by decide

/-- The frequency table of vector X10, `W = 33`. -/
def x10 (c : Word) : State :=
  { ops 0 3 c with
    arr := [(0, 1), (1, 1000000), (2, 1073741823)]
    ae := { mode := .active, w := 33, low := 0, high := 8589934591, uf := 0, coded := false }
    ad := { mode := .active, w := 33, low := 0, high := 8589934591, code := 0, filled := false } }

theorem test_aeReset : after (fun t => (t.ae.mode, t.ae.w, t.ae.high)) (.aeReset 33) (ops 0 0 0) =
    some (.active, 33, 8589934591) := by decide
theorem test_aeReset_range : err (.aeReset 63) (ops 0 0 0) = some (0x500202, 0) := by decide
theorem test_aeEnc :
    after (fun t => (t.wbits.length, t.ae.low, t.ae.high)) .aeEnc (x10 2) = some (0, 8000000, 8589934591) := by decide
/-- Vector K15. -/
theorem test_aeEnc_idle : err .aeEnc (ops 0 1 0) = some (0x510302, 0) := by decide
theorem test_aeFin :
    after (fun t => (t.wbits, t.ae.mode)) .aeFin
      { x10 0 with ae := { mode := .active, w := 4, low := 2, high := 9, uf := 1, coded := true } } =
      some ([true, false, false, false, false], .finished) := by decide
theorem test_adReset : after (fun t => (t.ad.mode, t.ad.filled)) (.adReset 33) (ops 0 0 0) =
    some (.active, false) := by decide
theorem test_adDec :
    got .adDec (from_ [0x00, 0x00, 0x00, 0x00, 0x00, 0x2f, 0x02, 0x00, 0x00, 0x00, 0x00] 0 (x10 0)) =
      some (0, 63, 0) := by decide

/-- Slot 0 of program P3 at the end of pass 1. -/
def p3 (a : Word) : State :=
  { ops a 0 0 with
    ae := { mode := .active, w := 16, low := 0, high := 65535, uf := 0, coded := false }
    ad := { mode := .active, w := 16, low := 0, high := 65535, code := 0, filled := false }
    ce := [{ pass := .pass1, freq := [(5, 2), (9, 1)], syms := [], cum := [] }] }

theorem test_ceInit :
    out (.ceInit 0) (p3 0) = some ([0, 1, 1, 0, 1, 1, 0, 0, 0, 0, 1, 1, 0, 1, 1, 0, 1, 1, 0, 0], 0) := by decide
/-- Vector K10. -/
theorem test_ceInit_slot : err (.ceInit 255) (ops 0 0 0) = some (0x600202, 0) := by decide
theorem test_ceEnc :
    after (fun t => (t.ceAt 0).freq) (.ceEnc 0) (p3 9) = some [(5, 2), (9, 2)] := by decide
theorem test_ceEnc_not_seen :
    err (.ceEnc 0) { p3 7 with ce := [{ pass := .pass2, freq := [], syms := [5, 9], cum := [2, 3] }] } =
      some (0x610402, 0) := by decide
theorem test_ceFin :
    after (fun t => (t.ceAt 0).pass) (.ceFin 0)
      { p3 0 with ce := [{ pass := .pass2, freq := [], syms := [5, 9], cum := [2, 3] }] } = some .done := by decide
theorem test_cdInit :
    after (fun t => (t.rpos, t.cdAt 0)) (.cdInit 0)
      (from_ [0x36, 0x6C, 0x63, 0x43, 0xBA, 0x06, 0x00, 0x00] 0 { p3 0 with cd := [.idle] }) =
      some (20, .ready [5, 9] [2, 3]) := by decide
theorem test_cdDec :
    got (.cdDec 0)
      (from_ [0x36, 0x6C, 0x63, 0x43, 0xBA, 0x06, 0x00, 0x00] 38 { p3 0 with cd := [.ready [5, 9] [2, 3]] }) =
      some (5, 54, 0) := by decide

/-- Slot 1 of program P4 at the end of pass 1. -/
def p4 : State :=
  { ops 2 1 0 with
    he := [{ pass := .idle, freq := [], codes := [] }, { pass := .pass1, freq := [(1, 2), (0, 1)], codes := [] }] }

theorem test_heInit :
    after (fun t => (t.wbits, (t.heAt 1).codes)) (.heInit 0 1) p4 =
      some ([true, true, false, false, false, true], [(0, [false]), (1, [true])]) := by decide
/-- Vector H7. -/
theorem test_heInit_negative_max : err (.heInit 0 0) (ops 2 (-1) 0) = some (0x700202, 0) := by decide
theorem test_heEnc : after (fun t => (t.heAt 1).freq) (.heEnc 1) p4 = some [(1, 2), (0, 1), (2, 1)] := by decide
theorem test_heEnc_code :
    out (.heEnc 1)
      { p4 with
        a := 1
        he := [{ pass := .idle, freq := [], codes := [] },
          { pass := .pass2, freq := [(1, 2), (0, 1)], codes := [(0, [false]), (1, [true])] }] } = some ([1], 0) := by
  decide
/-- Vector H19. -/
theorem test_heFin_pass1 : err (.heFin 1) p4 = some (0x720302, 0) := by decide
theorem test_hdInit :
    after (fun t => (t.rpos, t.hdAt 1)) (.hdInit 0 1) (from_ [0x63, 0x01] 0 (ops 2 1 0)) =
      some (6, .ready (.node (.leaf 0) (.leaf 1))) := by decide
theorem test_hdDec :
    got (.hdDec 1)
      (from_ [0x63, 0x01] 6 { ops 0 0 0 with hd := [.idle, .ready (.node (.leaf 0) (.leaf 1))] }) =
      some (1, 7, 0) := by decide

/-! ### Steps of the block and its host (vectors K1, K9, K11 to K13) -/

/-- The block in the FAULT of vector K9, with one move of the host pending. -/
def k9 (m : HostMove) : State :=
  { ops 1 0 0 with
    cmd := 0xFF11
    status := { busy := false, fault := true, err := 0x02, errOp := 0x11 }
    moves := [m] }

/-- STATUS, WPOS and the number of pending moves after a step. -/
def stepped (s : State) : Option (Word × Word × Nat) :=
  match step s with
  | .next t => some (t.status.word, t.wposWord, t.moves.length)
  | .fault _ => none
  | .refused _ => none

theorem test_illegal_word : stepped (State.reset.withFetchWord 64 0) = some (0x102, 0, 0) := by decide
theorem test_fetched_word : stepped (State.reset.withFetchWord 16 0x311) = some (0, 3, 0) := by decide
theorem test_fault_ignores_command : stepped (k9 (.write 0x000 0x10)) = some (0x110202, 0, 0) := by decide
theorem test_fault_ignores_near_sreset : stepped (k9 (.write 0x000 0x101)) = some (0x110202, 0, 0) := by decide
theorem test_fault_takes_sreset : stepped (k9 (.write 0x000 0x01)) = some (0x110203, 0, 0) := by decide
theorem test_sreset_in_fault :
    stepped { k9 .reset with cmd := 1, status := { (k9 .reset).status with busy := true }, moves := [] } =
      some (0, 0, 0) := by decide
theorem test_misaligned_move : stepped (k9 (.read 0x004)) = none := by decide

/-! ### Witnesses: states and operands that meet the hypotheses of each statement, clause by clause -/

theorem streamSound_of (s : State)
    (h : 8 * s.committed ≤ s.wbits.length ∧ s.wbits.length / 8 ≤ s.committed + 7 ∧
      min (ceil8 s.rpos) s.src.length ≤ s.pulled ∧ s.pulled ≤ s.src.length ∧ s.pulled ≤ (s.rpos + 63) / 8) :
    StreamSound s := ⟨h.1, h.2.1, h.2.2.1, h.2.2.2.1, h.2.2.2.2⟩

theorem inputHolds_of (s : State) (bits : List Bool)
    (h : (List.range bits.length).all (fun i => inputBit s (s.rpos + i) == bits[i]?) = true) : InputHolds s bits := by
  intro i hi
  have := List.all_eq_true.mp h i (List.mem_range.mpr hi)
  simpa [hi] using this

theorem sourceHolds_of (s : State) (bytes : List Byte)
    (h : (List.range bytes.length).all (fun i => s.src[ceil8 s.rpos + i]? == bytes[i]?) = true) :
    SourceHolds s bytes := by
  intro i hi
  have := List.all_eq_true.mp h i (List.mem_range.mpr hi)
  simpa [hi] using this

theorem windowHolds_of (s : State) (off : Nat) (xs : List Nat) (hw : off + xs.length ≤ s.params.arrWords)
    (h : (List.range xs.length).all (fun i => arrLookup (off + i) s.arr == xs[i]?.map (BitVec.ofNat 64)) = true) :
    WindowHolds s off xs := by
  refine ⟨hw, fun i hi => ?_⟩
  have := List.all_eq_true.mp h i (List.mem_range.mpr hi)
  have h' : arrLookup (off + i) s.arr = some (BitVec.ofNat 64 xs[i]) := by simpa [hi] using this
  simp [State.memRead, h']

theorem intervalSound_of (w low high : Nat)
    (h : 2 ≤ w ∧ w ≤ 62 ∧ low < 2 ^ (w - 1) ∧ 2 ^ (w - 1) ≤ high ∧ high < 2 ^ w ∧
      (low < 2 ^ (w - 2) ∨ 3 * 2 ^ (w - 2) ≤ high)) : IntervalSound w low high :=
  ⟨h.1, h.2.1, h.2.2.1, h.2.2.2.1, h.2.2.2.2.1, h.2.2.2.2.2⟩

theorem portsSound_reset : PortsSound State.reset := ⟨rfl, rfl⟩
theorem streamSound_reset : StreamSound State.reset := streamSound_of _ (by decide)
theorem slotsSound_reset : SlotsSound State.reset := by
  constructor <;> intro x hx <;> simp [State.reset, State.initial, vectorParams] at hx <;> subst hx <;>
    simp [CeSound, CdSound, HeSound, HdSound, SortedArray]
theorem arithSound_reset : ArithSound State.reset := by
  constructor <;> intro h <;> cases h

theorem witness_DecodeOfEncode : (Instr.heInit 255 255).wellFormed = true ∧ (Instr.wBits 0).wellFormed = true := by
  decide
theorem witness_EncodeOfDecode : decode 0xFFFF78 = .ok (.hdInit 255 255) := by decide
theorem witness_IllegalWords :
    ¬LegalWord 0x1000010 ∧ ¬LegalWord 0x110 ∧ ¬LegalWord 0x10013 ∧ ¬LegalWord 0x02 ∧ LegalWord 0xFFFF78 := by
  unfold LegalWord; decide

/-- A BUSY block about to run W.BIT. -/
def busyWBit (moves : List HostMove) : State :=
  { State.reset with cmd := 0x10, status := { busy := true, fault := false, err := 0, errOp := 0 }, moves := moves }

theorem witness_StepRunsCommand :
    (∀ m ∈ [[], [HostMove.read 0x008], [HostMove.read 0x028]],
      (busyWBit m).status.busy = true ∧ decode (busyWBit m).cmd = .ok .wBit) ∧
      (busyWBit []).moves.head? ≠ some .reset ∧ (busyWBit []).moves.head? ≠ some (.read 0x028) ∧
      (Instr.hdInit 255 255).wellFormed = true := by decide
theorem witness_FaultIgnoresCommands :
    ∀ m ∈ [HostMove.write 0x000 0x00, .write 0x000 0x02, .write 0x000 0x01, .read 0x028],
      (k9 m).status.fault = true ∧ (k9 m).status.busy = false ∧ (k9 m).moves = [m] := by decide
theorem witness_RegisterMap :
    ∀ off ∈ [0x000, 0x008, 0x010, 0x018, 0x020, 0x028, 0x030, 0x038, 0x040, 0x048, 0xFF8, 0x1000, 0x17F8, 0x1800],
      off % 8 = 0 ∧ ({ State.reset with moves := [HostMove.read off] } : State).status.busy = false := by decide
theorem witness_ArrWriteRead :
    255 < State.reset.params.arrWords ∧
      ({ State.reset with moves := [HostMove.write (0x1000 + 8 * 255) 7] } : State).status.busy = false := by decide
theorem witness_SresetKeepsHostSide : ∃ t, exec .sreset State.reset = .next t := exec_next _ _
theorem witness_ResetInput :
    (busyWBit [.reset]).moves = [.reset] ∧
      ({ busyWBit [.reset] with status := State.reset.status } : State).status.busy = false ∧
      ∃ t, exec .sreset State.reset = .next t := ⟨rfl, rfl, exec_next _ _⟩

/-- A block that has drained 2 bytes, read 3 bits and holds a table in every unit. -/
def inUse : State :=
  { busyWBit [] with
    wbits := List.replicate 19 true
    sink := [0xFF, 0xFF]
    committed := 2
    src := [0x05, 0x00]
    rpos := 3
    pulled := 1
    arr := [(0, 1), (255, 2)]
    ae := { mode := .active, w := 2, low := 0, high := 3, uf := 0, coded := false }
    ad := { mode := .active, w := 2, low := 0, high := 3, code := 2, filled := true }
    ce := { pass := .pass2, freq := [(5, 2), (9, 1)], syms := [5, 9], cum := [2, 3] } :: State.reset.ce.drop 1
    cd := [.ready [5, 9] [2, 3], .idle, .idle, .idle]
    he := { pass := .pass1, freq := [(-1, 1)], codes := [] } :: State.reset.he.drop 1
    hd := [.ready (.leaf 7), .empty, .idle, .idle] }

theorem step_inUse : ∃ t, step inUse = .next t := engine_next inUse
theorem witness_EngineInvKept : EngineInv inUse ∧ ∃ t, step inUse = .next t :=
  ⟨⟨fun _ => ⟨rfl, rfl⟩, (fun h => nomatch h), (fun h => nomatch h)⟩, step_inUse⟩
theorem witness_StoresInvKept : StoresInv inUse ∧ ∃ t, step inUse = .next t :=
  ⟨⟨by decide, rfl, rfl, rfl, rfl⟩, step_inUse⟩
theorem witness_StreamInvKept : StreamInv inUse ∧ ∃ t, step inUse = .next t :=
  ⟨fun _ => streamSound_of _ (by decide), step_inUse⟩
theorem witness_ArithInvKept : ArithInv inUse ∧ ∃ t, step inUse = .next t :=
  ⟨fun _ => ⟨fun _ => ⟨intervalSound_of _ _ _ (by decide), by decide⟩, fun _ => intervalSound_of _ _ _ (by decide),
    fun _ _ => by decide, (fun _ h => nomatch h)⟩, step_inUse⟩
theorem slotsSound_inUse : SlotsSound inUse := by
  constructor <;> intro x hx <;> simp [inUse, State.reset, State.initial, vectorParams] at hx
  · rcases hx with rfl | rfl <;> simp [CeSound, SortedArray, lmax, inUse, busyWBit, State.reset, State.initial, vectorParams]
  · rcases hx with rfl | rfl <;> simp [CdSound, SortedArray, lmax, inUse, busyWBit, State.reset, State.initial, vectorParams]
  · rcases hx with rfl | rfl <;> simp [HeSound, inUse, busyWBit, State.reset, State.initial, vectorParams]
  · rcases hx with rfl | rfl | rfl <;> simp [HdSound, leafCount, inUse, busyWBit, State.reset, State.initial, vectorParams]
theorem witness_SlotsInvKept : SlotsInv inUse ∧ ∃ t, step inUse = .next t := ⟨fun _ => slotsSound_inUse, step_inUse⟩

theorem witness_EveryCommandEnds : Instr.wBit ≠ .sreset := by decide
theorem witness_OperandsKept : Instr.rBit ≠ .sreset ∧ ∃ t, exec .rBit inUse = .next t := ⟨by decide, exec_next _ _⟩
theorem witness_SinkInOrder : Instr.wSync ≠ .sreset ∧ StreamSound inUse ∧ ∃ t, exec .wSync inUse = .next t :=
  ⟨by decide, streamSound_of _ (by decide), exec_next _ _⟩
theorem witness_SidesSeparate :
    (∀ i ∈ [Instr.wBit, .rBit, .usaD, .usanD], ∃ t, exec i (p2 1 1) = .next t) ∧ Instr.wBit.opcode = 0x10 ∧
      Instr.rBit.opcode = 0x20 ∧ ((0 : Nat) : Int) < (p2 1 1).a.toInt ∧
      (p2 1 1).a.toInt + (p2 1 1).b.toInt ≤ ((2 : Nat) : Int) :=
  ⟨fun i _ => exec_next i _, by decide, by decide, by decide, by decide⟩
theorem witness_AccumulatorsTransparent :
    Instr.rBit ≠ .sreset ∧ PortsSound inUse ∧
      SameButHidden inUse { inUse with pulled := 2, committed := 1, sink := [0xFF] } ∧
      (∃ t, exec .rBit inUse = .next t) ∧
      ∃ t, exec .rBit { inUse with pulled := 2, committed := 1, sink := [0xFF] } = .next t :=
  ⟨by decide, ⟨rfl, rfl⟩, rfl, exec_next _ _, exec_next _ _⟩

/-- A closed writer. -/
def shut : State := { State.reset with wclosed := true }

/-- The block over a source of nine bytes, three bits read, its pad bits and the byte after them given. -/
def reading (b : Byte) : State := from_ [b, 1, 2, 3, 4, 5, 6, 7, 8] 3 (ops 0x0102030405060708 0 0)

theorem streamSound_reading : StreamSound (reading 0x07) := streamSound_of _ (by decide)

theorem witness_WriteBit :
    State.reset.wclosed = false ∧ StreamSound State.reset ∧ PortsSound State.reset ∧ shut.wclosed = true :=
  ⟨rfl, streamSound_reset, portsSound_reset, rfl⟩
theorem witness_WriteBits : 255 < 256 ∧ 64 ≤ 64 ∧ 0 ≤ 64 ∧ 64 < 65 ∧ State.reset.wclosed = false ∧ shut.wclosed = true ∧
    StreamSound State.reset ∧ PortsSound State.reset :=
  ⟨by decide, by decide, by decide, by decide, rfl, rfl, streamSound_reset, portsSound_reset⟩
theorem witness_AlignedWrites : inUse.wclosed = false ∧ StreamSound inUse ∧ PortsSound inUse ∧ inUse.wbits.length % 8 = 3 :=
  ⟨rfl, streamSound_of _ (by decide), ⟨rfl, rfl⟩, by decide⟩
theorem witness_ClosedWriterRefuses : shut.wclosed = true ∧ Instr.usanE.opcode ∈ [0x10, 0x42] := by decide
theorem witness_PortFailureRaises :
    (∀ s ∈ [{ inUse with sinkFail := some 2 }], s.wclosed = false ∧ StreamSound s ∧ s.sinkFail = some 2 ∧ s.committed ≤ 2 ∧
      2 < ceil8 s.wbits.length) ∧
      ∀ s ∈ [{ from_ [1, 2] 8 State.reset with srcFail := some 1 }],
        StreamSound s ∧ s.srcFail = some 1 ∧ s.pulled ≤ 1 ∧ 1 ≤ s.src.length ∧ 1 ≤ s.rpos / 8 := by
  constructor
  · intro s hs
    obtain rfl := List.mem_singleton.mp hs
    exact ⟨rfl, streamSound_of _ (by decide), rfl, by decide, by decide⟩
  · intro s hs
    obtain rfl := List.mem_singleton.mp hs
    exact ⟨streamSound_of _ (by decide), rfl, by decide, by decide, by decide⟩

theorem witness_ReadBits :
    StreamSound (reading 0x07) ∧ PortsSound (reading 0x07) ∧ InputHolds (reading 0x07) [false] ∧
      InputHolds (reading 0x07) [] ∧
      InputHolds (reading 0x07) ((List.range 64).map (fun i => i == 5 || i == 14 || i == 21 || i == 22 || i == 31 ||
        i == 37 || i == 39 || i == 46 || i == 47 || i == 53 || i == 54 || i == 55 || i == 64)) :=
  ⟨streamSound_reading, ⟨rfl, rfl⟩, inputHolds_of _ _ (by decide), inputHolds_of _ _ (by decide),
    inputHolds_of _ _ (by decide)⟩
theorem witness_ReadByteAndAlign :
    StreamSound (reading 0x07) ∧ PortsSound (reading 0x07) ∧ PadClear (reading 0x07) ∧ SourceHolds (reading 0x07) [1] :=
  ⟨streamSound_reading, ⟨rfl, rfl⟩, inputHolds_of _ _ (by decide), sourceHolds_of _ _ (by decide)⟩
theorem witness_ReadSync :
    StreamSound (reading 0x07) ∧ PortsSound (reading 0x07) ∧ PadClear (reading 0x07) ∧
      SourceHolds (reading 0x07) ((List.range 8).map (fun i => (reading 0x07).a.extractLsb' (8 * (7 - i)) 8)) ∧
      (reading 0x07).a ≠ { reading 0x07 with a := 0 }.a :=
  ⟨streamSound_reading, ⟨rfl, rfl⟩, inputHolds_of _ _ (by decide), sourceHolds_of _ _ (by decide), by decide⟩
theorem witness_ReaderErrors :
    PortsSound (reading 0x27) ∧ (reading 0x27).rpos + 2 < 8 * ceil8 (reading 0x27).rpos ∧
      InputHolds (reading 0x27) (List.replicate 2 false ++ [true]) ∧ inputBit State.reset State.reset.rpos = none ∧
      State.reset.rpos % 8 = 0 ∧ 8 * State.reset.src.length ≤ State.reset.rpos :=
  ⟨⟨rfl, rfl⟩, by decide, inputHolds_of _ _ (by decide), by decide, by decide, by decide⟩
theorem witness_PortBinding_drain :
    (∀ i ∈ [Instr.wByte, .wAlign, .wClose, .wSync, .vbyE],
      ∃ t, exec i inUse = .next t ∧ t.status.fault = false) ∧ inUse.status.fault = false ∧ StreamSound inUse ∧
      (reading 0x07).status.fault = false ∧ StreamSound (reading 0x07) ∧
      ∃ t, exec .rSync (reading 0x07) = .next t ∧ t.status.fault = false := by
  refine ⟨fun i hi => ?_, rfl, streamSound_of _ (by decide), rfl, streamSound_reading, _, rfl, by decide⟩
  simp only [List.mem_cons, List.mem_nil_iff, or_false] at hi
  rcases hi with rfl | rfl | rfl | rfl | rfl <;> exact ⟨_, rfl, by decide⟩
theorem witness_PortBinding_moves :
    State.reset.status.busy = false ∧ (reading 0x07).status.busy = false ∧
      State.reset.rpos = 8 * State.reset.pulled ∧ State.reset.pulled ≤ State.reset.src.length ∧
      (reading 0x07).rpos ≠ 8 * (reading 0x07).pulled ∧ State.reset.wbits.length = 8 * State.reset.committed ∧
      inUse.wbits.length ≠ 8 * inUse.committed := by decide

theorem witness_FieldOutOfRange :
    (Instr.hdDec 4).opcode ∈ slotOps ∧ State.reset.params.nSlots ≤ (Instr.hdDec 4).slotField ∧ 64 < 65 ∧ 63 < 64 ∧ 1 < 2 ∧
      62 < 63 ∧ State.reset.wclosed = false := by decide

theorem witness_BoundedLengthLaw :
    4 ≤ 4 ∧ 0 ≤ 2 ^ 0 - 1 ∧ PortsSound (reading 0x07) ∧ InputHolds (reading 0x07) (boundedBits 4 0) :=
  ⟨by decide, by decide, ⟨rfl, rfl⟩, inputHolds_of _ _ (by decide)⟩
theorem witness_BoundedEncode :
    (ops 4 4 0).wclosed = false ∧ (ops 4 4 0).a.toInt = (4 : Nat) ∧ (ops 4 4 0).b.toInt = (4 : Nat) ∧
      StreamSound (ops 4 4 0) ∧ PortsSound (ops 4 4 0) ∧ (ops (-1) 0 0).a.toInt < 0 ∧ (ops 4 (-1) 0).b.toInt < 0 ∧
      (ops 4 5 0).a.toInt < (ops 4 5 0).b.toInt :=
  ⟨rfl, by decide, by decide, streamSound_of _ (by decide), ⟨rfl, rfl⟩, by decide, by decide, by decide⟩

/-- The block over a source of zeros. -/
def zeros (a b c : Word) : State := from_ (List.replicate 17 0) 0 (ops a b c)

theorem streamSound_zeros (a b c : Word) : StreamSound (zeros a b c) :=
  streamSound_of _ (by simp [zeros, from_, ops, State.reset, State.initial, ceil8])

theorem witness_BoundedDecode :
    (zeros 4 0 0).a.toInt = (4 : Nat) ∧ BoundedCode 4 0 (boundedBits 4 0) ∧ StreamSound (zeros 4 0 0) ∧
      PortsSound (zeros 4 0 0) ∧ InputHolds (zeros 4 0 0) (boundedBits 4 0) ∧
      InputHolds (zeros 4 0 0) [false, false, false] ∧ [false, false, false].length = bitlen 4 ∧
      (zeros (-1) 0 0).a.toInt < 0 :=
  ⟨by decide, (boundedBits_code (by decide)).1, streamSound_zeros _ _ _, ⟨rfl, rfl⟩, inputHolds_of _ _ (by decide),
    inputHolds_of _ _ (by decide), by decide, by decide⟩
theorem witness_VarBitsEncode :
    (ops 0 0 0).wclosed = false ∧ 63 ≤ 63 ∧ 0 ≤ (ops 0 0 0).a.toInt ∧ (ops (-1) 0 0).a.toInt < 0 ∧
      StreamSound (ops 0 0 0) ∧ PortsSound (ops 0 0 0) :=
  ⟨rfl, by decide, by decide, by decide, streamSound_of _ (by decide), ⟨rfl, rfl⟩⟩

/-- The block over a source of ones: the code of LMAX with 63 noisy bits. -/
def ones : State := from_ (List.replicate 8 0xFF) 0 (ops 0 0 0)

theorem witness_VarBitsDecode :
    63 ≤ 63 ∧ StreamSound ones ∧ PortsSound ones ∧ 0 ≤ (0x7FFFFFFFFFFFFFFF : Word).toInt ∧
      UVarCode (0x7FFFFFFFFFFFFFFF : Word).toNat 63 (uvarBits 0x7FFFFFFFFFFFFFFF 63) ∧
      InputHolds ones (uvarBits 0x7FFFFFFFFFFFFFFF 63) ∧ SVarCode (0 : Word).toInt 63 (svarBits 0 63) ∧
      InputHolds (from_ ((List.range 9).map (fun i => if i = 8 then 0x01 else 0)) 0 (ops 0 0 0)) (svarBits 0 63) ∧
      InputHolds (zeros 0 0 0) (List.replicate 64 false) :=
  ⟨by decide, streamSound_of _ (by decide), ⟨rfl, rfl⟩, by decide, uvarBits_code _ _, inputHolds_of _ _ (by decide),
    svarBits_code _ _, inputHolds_of _ _ (by decide), inputHolds_of _ _ (by decide)⟩
theorem witness_VarBitsDecode_encoded :
    (ops 0x7FFFFFFFFFFFFFFF 0 0).wclosed = false ∧ StreamSound (ops 0x7FFFFFFFFFFFFFFF 0 0) ∧ StreamSound (ops 0 0 0) ∧
      PortsSound (ops 0 0 0) ∧ 0 ≤ (ops 0x7FFFFFFFFFFFFFFF 0 0).a.toInt ∧
      (∃ t, exec (.uvbE 63) (ops 0x7FFFFFFFFFFFFFFF 0 0) = .next t ∧ InputHolds ones (t.wbits.drop 0)) ∧
      ∃ t, exec (.svbE 63) (ops 0 0 0) = .next t ∧ StreamSound (sourceOf (svarBits 0 63) State.reset) ∧
        InputHolds (sourceOf (svarBits 0 63) State.reset) (t.wbits.drop 0) :=
  ⟨rfl, streamSound_of _ (by decide), streamSound_of _ (by decide), ⟨rfl, rfl⟩, by decide,
    ⟨_, rfl, inputHolds_of _ _ (by decide)⟩, _, rfl, streamSound_of _ (by decide), inputHolds_of _ _ (by decide)⟩
theorem witness_VarBitsDecode_zeros :
    ∀ n ∈ [0, 63], n ≤ 63 ∧ (List.replicate n false).length = n ∧ PortsSound (zeros 0 0 0) ∧
      InputHolds (zeros 0 0 0) (List.replicate n false ++ List.replicate 64 false) ∧
      InputHolds (zeros 0 0 0) (false :: (List.replicate n false ++ List.replicate 64 false)) := by
  intro n hn
  have : n = 0 ∨ n = 63 := by simpa using hn
  rcases this with rfl | rfl <;>
    exact ⟨by decide, by decide, ⟨rfl, rfl⟩, inputHolds_of _ _ (by decide), inputHolds_of _ _ (by decide)⟩
theorem witness_VarBitsDecode_high :
    (∀ p ∈ [(0, 2 ^ 63), (0, 2 ^ 64 - 2), (63, 1)], p.1 ≤ 63 ∧ p.2 + 1 < 2 ^ 64 ∧ lmax / 2 ^ p.1 < p.2 ∧
      UVarCode p.2 0 (uvarBits p.2 0)) ∧ PortsSound (sourceOf (uvarBits (2 ^ 63) 0) State.reset) ∧
      InputHolds (sourceOf (uvarBits (2 ^ 63) 0) State.reset) (uvarBits (2 ^ 63) 0) ∧
      InputHolds (sourceOf (true :: (List.replicate 63 true ++ uvarBits 1 0)) State.reset)
        (true :: (List.replicate 63 true ++ uvarBits 1 0)) :=
  ⟨fun p hp => ⟨by revert p; decide, by revert p; decide, by revert p; decide, uvarBits_code _ _⟩, ⟨rfl, rfl⟩,
    inputHolds_of _ _ (by decide +kernel), inputHolds_of _ _ (by decide)⟩
theorem witness_ZigZagBijection : -2 ^ 63 ≤ (-2 ^ 63 : Int) ∧ (lmax : Int) ≤ lmax ∧ 2 ^ 64 - 1 < 2 ^ 64 := by decide
theorem witness_VarBytesEncode : inUse.wclosed = false ∧ StreamSound inUse ∧ PortsSound inUse :=
  ⟨rfl, streamSound_of _ (by decide), rfl, rfl⟩
theorem witness_VarBytesDecode :
    StreamSound (zeros 0 0 0) ∧ PortsSound (zeros 0 0 0) ∧ PadClear (zeros 0 0 0) ∧ SourceHolds (zeros 0 0 0) [0] ∧
      VarBytes (zigZagWord 0).toNat [0] := by
  refine ⟨streamSound_zeros _ _ _, ⟨rfl, rfl⟩, inputHolds_of _ _ (by decide), sourceHolds_of _ _ (by decide), ?_⟩
  unfold VarBytes; decide

/-- The var-bytes code of -2^63, the longest. -/
def longest : List Byte := List.replicate 9 0xFF ++ [0x01]

theorem witness_VarBytesDecode_encoded :
    (ops 0x8000000000000000 0 0).wclosed = false ∧ StreamSound (ops 0x8000000000000000 0 0) ∧
      PortsSound (ops 0x8000000000000000 0 0) ∧
      (∃ t, exec .vbyE (ops 0x8000000000000000 0 0) = .next t ∧
        t.wbits = longest.flatMap (fun b => (List.range 8).map (fun i => b.getLsbD i))) ∧
      StreamSound (from_ longest 0 State.reset) ∧ PadClear (from_ longest 0 State.reset) ∧
      SourceHolds (from_ longest 0 State.reset) longest :=
  ⟨rfl, streamSound_of _ (by decide), ⟨rfl, rfl⟩, ⟨_, rfl, by decide⟩, streamSound_of _ (by decide),
    inputHolds_of _ _ (by decide), sourceHolds_of _ _ (by decide)⟩
theorem witness_VarBytesDecode_truncated :
    ∀ n ∈ [0, 9, 10], PortsSound (from_ (List.replicate n 0x80) 0 State.reset) ∧
      PadClear (from_ (List.replicate n 0x80) 0 State.reset) ∧
      SourceHolds (from_ (List.replicate n 0x80) 0 State.reset) (List.replicate n 0x80) ∧
      (∀ b ∈ List.replicate n (0x80 : Byte), b.getLsbD 7 = true) ∧
      (from_ (List.replicate n 0x80) 0 State.reset).src.length =
        ceil8 (from_ (List.replicate n 0x80) 0 State.reset).rpos + (List.replicate n (0x80 : Byte)).length := by
  intro n hn
  have : n = 0 ∨ n = 9 ∨ n = 10 := by simpa using hn
  rcases this with rfl | rfl | rfl <;>
    exact ⟨⟨rfl, rfl⟩, inputHolds_of _ _ (by decide), sourceHolds_of _ _ (by decide), by decide, by decide⟩

/-- The two words of a sorted array or a frequency table in ARR. -/
def twoWords (a b c : Word) : State := { ops a b c with arr := [(254, 1), (255, 2)] }

theorem windowHolds_twoWords (a b c : Word) : WindowHolds (twoWords a b c) 254 [1, 2] :=
  windowHolds_of _ _ _ (by simp [twoWords, ops, State.reset, State.initial, vectorParams]) (by rfl)
theorem sortedArray_two : SortedArray [1, 2] := by simp [SortedArray, lmax]

theorem witness_SortedArrayEncode :
    (twoWords 254 2 0).wclosed = false ∧ StreamSound (twoWords 254 2 0) ∧ PortsSound (twoWords 254 2 0) ∧
      (twoWords 254 2 0).a.toInt = (254 : Nat) ∧ (twoWords 254 2 0).b.toInt = [1, 2].length ∧
      WindowHolds (twoWords 254 2 0) 254 [1, 2] ∧ SortedArray [1, 2] ∧ SortedArray [] :=
  ⟨rfl, streamSound_of _ (by decide), ⟨rfl, rfl⟩, by decide, by decide, windowHolds_twoWords _ _ _, sortedArray_two,
    by simp [SortedArray]⟩
theorem not_sortedWords (s : State) (x y : Int) (h : windowWords s = [x, y]) (hn : y ≤ x ∨ x < 0) :
    ¬SortedWords (windowWords s) := by
  rw [h]; simp [SortedWords]; omega
theorem witness_SortedArrayEncode_refused :
    (∀ s ∈ [ops (-1) 1 0, ops 1 (-1) 0, ops 255 2 0, ops 257 0 0], s.wclosed = false ∧ ¬WindowInside s) ∧
      ∀ s ∈ [{ ops 254 2 0 with arr := [(254, 1), (255, 1)] }, { ops 254 2 0 with arr := [(254, -1), (255, 0)] }],
        s.wclosed = false ∧ ¬SortedWords (windowWords s) := by
  refine ⟨by unfold WindowInside; decide, fun s hs => ?_⟩
  simp only [List.mem_cons, List.mem_nil_iff, or_false] at hs
  rcases hs with rfl | rfl
  · exact ⟨rfl, not_sortedWords _ 1 1 (by decide) (.inl le_rfl)⟩
  · exact ⟨rfl, not_sortedWords _ (-1) 0 (by decide) (.inr (by decide))⟩

/-- The block over the code of `[1, 2]`, `011` and `011110`, from bit 5 on. -/
def sortedSource (rpos : Nat) : State := from_ [0xC0, 0x1E] rpos (ops 254 2 0)

theorem witness_SortedArrayDecode :
    (∀ k ∈ [5, 8], StreamSound (sortedSource k) ∧ PortsSound (sortedSource k) ∧
      (sortedSource k).a.toInt = (254 : Nat) ∧ 254 + [1, 2].length ≤ (sortedSource k).params.arrWords ∧
      (sortedSource k).b.toInt = [1, 2].length) ∧ SortedArray [1, 2] ∧ UVarCode [1, 2].length 0 (uvarBits 2 0) ∧
      BodyCode [1, 2] (usaBody [1, 2]) ∧ InputHolds (sortedSource 5) (uvarBits 2 0 ++ usaBody [1, 2]) ∧
      InputHolds (sortedSource 8) (usaBody [1, 2]) := by
  refine ⟨fun k hk => ⟨streamSound_of _ ?_, ⟨rfl, rfl⟩, rfl, le_rfl, rfl⟩, sortedArray_two,
    uvarBits_code _ _, usaBody_code sortedArray_two, inputHolds_of _ _ (by decide), inputHolds_of _ _ (by decide)⟩
  have : k = 5 ∨ k = 8 := by simpa using hk
  rcases this with rfl | rfl <;> decide
theorem witness_SortedArrayDecode_refused :
    (ops (-1) 0 0).a.toInt < 0 ∧ ((ops 257 0 0).params.arrWords : Int) < (ops 257 0 0).a.toInt ∧
      ¬WindowInside (ops 255 2 0) := by
  unfold WindowInside; decide
theorem witness_SortedArrayDecode_capacity :
    ∀ s ∈ [sourceOf (uvarBits 1 0) (ops 256 0 0)], PortsSound s ∧ s.a.toInt = (256 : Nat) ∧ 256 ≤ s.params.arrWords ∧ 1 ≤ lmax ∧
      s.params.arrWords < 256 + 1 ∧ UVarCode 1 0 (uvarBits 1 0) ∧ InputHolds s (uvarBits 1 0) := by
  intro s hs
  obtain rfl := List.mem_singleton.mp hs
  exact ⟨⟨rfl, rfl⟩, by decide, by decide, by decide, by decide, uvarBits_code _ _, inputHolds_of _ _ (by decide)⟩
theorem witness_SortedArrayDecode_width :
    ∀ p ∈ [(1, 64), (2, 0), (129, 7)],
      ((1 ≤ p.1 ∧ 63 < p.2) ∨ (p.2 ≤ 63 ∧ 2 ^ p.2 < p.1)) ∧ 127 + p.1 ≤ (ops 127 0 0).params.arrWords ∧ p.1 ≤ lmax ∧
      UVarCode p.1 0 (uvarBits p.1 0) ∧ UVarCode p.2 0 (uvarBits p.2 0) ∧ p.2 + 1 < 2 ^ 64 ∧
      InputHolds (sourceOf (uvarBits p.1 0 ++ uvarBits p.2 0) (ops 127 0 0)) (uvarBits p.1 0 ++ uvarBits p.2 0) ∧
      InputHolds (sourceOf (uvarBits p.2 0) (ops 127 p.1 0)) (uvarBits p.2 0) ∧
      (ops 127 (BitVec.ofNat 64 p.1) 0).b.toInt = p.1 := by
  intro p hp
  have : p = (1, 64) ∨ p = (2, 0) ∨ p = (129, 7) := by simpa using hp
  rcases this with rfl | rfl | rfl <;>
    exact ⟨by decide, by decide, by decide, uvarBits_code _ _, uvarBits_code _ _, by decide, inputHolds_of _ _ (by decide),
      inputHolds_of _ _ (by decide), by decide⟩

/-! The arithmetic coder at `W = 2` with the table `[1, 2]`: symbol 0 narrows `[0, 3]` to `[0, 1]`, one shift restores it. -/

/-- Both coders active over the table `[1, 2]` at words 254 and 255. -/
def coding (filled : Bool) : State :=
  { from_ [0, 0] 0 (twoWords 254 2 0) with
    ae := { mode := .active, w := 2, low := 0, high := 3, uf := 0, coded := true }
    ad := { mode := .active, w := 2, low := 0, high := 3, code := 0, filled := filled }
    ce := { pass := .pass2, freq := [(5, 1), (9, 1)], syms := [5, 9], cum := [1, 2] } :: State.reset.ce.drop 1
    cd := .ready [5, 9] [1, 2] :: State.reset.cd.drop 1 }

theorem streamSound_coding (f : Bool) : StreamSound (coding f) := streamSound_of _ (by
  simp [coding, from_, twoWords, ops, State.reset, State.initial, ceil8])
theorem arithSound_coding (f : Bool) : ArithSound (coding f) :=
  ⟨fun _ => ⟨intervalSound_of _ _ _ (by simp [coding]), Nat.zero_le _⟩, fun _ => intervalSound_of _ _ _ (by simp [coding]),
    fun _ _ => ⟨le_rfl, Nat.zero_le _⟩, fun _ _ => ⟨rfl, rfl⟩⟩
theorem slotsSound_coding (f : Bool) : SlotsSound (coding f) := by
  constructor <;> intro x hx <;> simp [coding, from_, twoWords, ops, State.reset, State.initial, vectorParams] at hx
  · rcases hx with rfl | rfl <;>
      simp [CeSound, SortedArray, lmax, coding, from_, twoWords, ops, State.reset, State.initial, vectorParams]
  · rcases hx with rfl | rfl <;>
      simp [CdSound, SortedArray, lmax, coding, from_, twoWords, ops, State.reset, State.initial, vectorParams]
  · subst hx; simp [HeSound]
  · subst hx; simp [HdSound]
theorem windowHolds_coding (f : Bool) : WindowHolds (coding f) 254 [1, 2] := windowHolds_twoWords 254 2 0
theorem tableValid_two : TableValid 2 [1, 2] := by unfold TableValid budget lmax; decide
theorem codable_two : Codable 2 [1, 2] 0 := ⟨tableValid_two, by decide, by decide⟩
theorem encoderRun_two (f : Bool) : EncoderRun (coding f).ae [1, 2] 0 [false] 0 3 0 := by
  have shift : ShiftRun 2 0 1 0 [false] 0 3 0 := .shift 0 1 0 [] 0 3 0 (by decide) (.stop 0 3 0 (by decide))
  have h : newLow 0 3 (symLow [1, 2] 0) 2 = 0 ∧ newHigh 0 3 (symHigh [1, 2] 0) 2 = 1 := by decide
  exact ⟨0, 3, 0, by simpa [coding, h] using shift, .stop 0 3 0 (show ¬(Nat.testBit 0 (2 - 2) = true ∧ Nat.testBit 3 (2 - 2) = false) by decide)⟩
theorem decoderRun_two : DecoderRun (coding false).ad [1, 2] [false, false, false] 0 (coding true).ad := by
  have shift : DecShiftRun 2 0 1 0 [false] 0 3 0 := .shift 0 1 0 false [] 0 3 0 (by decide) (.stop 0 3 0 (by decide))
  exact ⟨[false, false], [false], [], 0, 0, 3, 0, 0, 3, 0, rfl, by decide, by decide, by decide, by decide, shift,
    .stop 0 3 0 (by decide), rfl⟩

/-- 60_exceptions.md R405: a port failure at the first bit of a filled decoder, whose interval R292 has narrowed already;
AD_STATE, AD_W and AD_FILLED stay. -/
theorem test_adDec_late : ∀ s ∈ [{ coding true with srcFail := some 0 }],
    after (fun t => (t.ad, t.rpos)) .adDec s =
      some ({ s.ad with low := (lateAd 0).low, high := (lateAd 0).high, code := (lateAd 0).code }, lateRpos 0) := by
  intro s hs
  obtain rfl := List.mem_singleton.mp hs
  obtain ⟨⟨code, info, late, still, result, window⟩, h, rfl, hst⟩ :=
    fail_late (s := { coding true with srcFail := some 0 }) (c := commandOf .adDec)
      (e := { code := .resource, info := 0, late := true }) rfl
  obtain rfl := hst rfl
  show some ((fail (commandOf .adDec) _ _).drawn.ad, (fail (commandOf .adDec) _ _).drawn.rpos) = _
  erw [h]
  unfold State.takeLate lateWrites
  split_ifs <;> cases result <;> rfl

/-- Vector A15 of 95_test_vectors.md: no bit was appended, and AE_STATE, AE_W and AE_CODED stay. -/
theorem test_aeEnc_capacity :
    after (fun t => (t.status.word, t.errInfo, t.wbits, t.ae.mode, t.ae.w, t.ae.coded)) .aeEnc
      { ops 0 3 1 with
        params := { vectorParams with ufMax := 1 }
        arr := [(0, 1), (1, 3), (2, 4)]
        ae := { mode := .active, w := 4, low := 0, high := 15, uf := 1, coded := true } } =
      some (0x512102, 0, [], .active, 4, true) := by decide

/-- The interval `[2, 5]` of `W = 3`, UF at its limit 1. -/
def atLimit : State :=
  { ops 253 3 1 with
    params := { vectorParams with ufMax := 1 }
    arr := [(253, 1), (254, 2), (255, 3)]
    ae := { mode := .active, w := 3, low := 0, high := 7, uf := 1, coded := true } }

theorem witness_ArithmeticReset : 2 ≤ 2 ∧ 2 ≤ 62 ∧ 62 ≤ 62 ∧ StreamSound State.reset ∧ PortsSound State.reset :=
  ⟨by decide, by decide, by decide, streamSound_reset, portsSound_reset⟩
theorem witness_IntervalUpdateEnds :
    IntervalSound (coding true).ae.w (coding true).ae.low (coding true).ae.high ∧ (coding true).ae.uf ≤ 0 ∧
      Codable (coding true).ae.w [1, 2] 0 ∧ EncoderRun (coding true).ae [1, 2] 0 [false] 0 3 0 ∧ 0 ≤ 0 :=
  ⟨((arithSound_coding true).enc rfl).1, le_rfl, codable_two, encoderRun_two _, le_rfl⟩
theorem witness_ArithmeticEncode :
    ((coding true).wclosed = false ∧ (coding true).ae.mode = .active ∧ ArithSound (coding true) ∧
      StreamSound (coding true) ∧ PortsSound (coding true) ∧ (coding true).a.toInt = (254 : Nat) ∧
      (coding true).b.toInt = [1, 2].length ∧ (coding true).c.toInt = (0 : Nat) ∧ WindowHolds (coding true) 254 [1, 2] ∧
      Codable (coding true).ae.w [1, 2] 0 ∧ EncoderRun (coding true).ae [1, 2] 0 [false] 0 3 0 ∧
      0 ≤ (coding true).params.ufMax) :=
  ⟨rfl, rfl, arithSound_coding _, streamSound_coding _, ⟨rfl, rfl⟩, by decide, by decide, by decide,
    windowHolds_coding _, codable_two, encoderRun_two _, Nat.zero_le _⟩
theorem witness_ArithmeticEncode_capacity :
    atLimit.wclosed = false ∧ atLimit.ae.mode = .active ∧ ArithSound atLimit ∧ StreamSound atLimit ∧ PortsSound atLimit ∧
      atLimit.a.toInt = (253 : Nat) ∧ atLimit.b.toInt = [1, 2, 3].length ∧ atLimit.c.toInt = (1 : Nat) ∧
      WindowHolds atLimit 253 [1, 2, 3] ∧ Codable atLimit.ae.w [1, 2, 3] 1 ∧ EncoderRun atLimit.ae [1, 2, 3] 1 [] 0 5 2 ∧
      atLimit.params.ufMax < 2 := by
  refine ⟨rfl, rfl, ⟨fun _ => ⟨intervalSound_of _ _ _ (by decide), by decide⟩, (fun h => nomatch h), (fun h => nomatch h),
    (fun h => nomatch h)⟩, streamSound_of _ (by decide), ⟨rfl, rfl⟩, by decide, by decide, by decide,
    windowHolds_of _ _ _ (by decide) (by decide), ⟨?_, by decide, by decide⟩, ?_, by decide⟩
  · unfold TableValid budget lmax; decide
  · exact ⟨2, 4, 1, .stop _ _ _ (by decide), .under _ _ _ _ _ _ (by decide) (.stop _ _ _ (by decide))⟩
theorem witness_ArithmeticEncode_refused :
    State.reset.ae.mode ≠ .active ∧ ({ coding true with wclosed := true } : State).wclosed = true ∧
      (coding true).ae.mode = .active ∧ ¬WindowInside { coding true with b := 3 } ∧
      ¬TableChecked 2 (windowWords { coding true with b := 0 }) ∧
      ¬TableChecked 2 (windowWords { coding true with arr := [(254, 1), (255, 4)] }) ∧
      ¬SymChecked (windowWords { coding true with c := 2 }) (2 : Word).toInt ∧
      ¬SymChecked (windowWords { coding true with arr := [(254, 1), (255, 1)] }) (1 : Word).toInt := by
  unfold WindowInside TableChecked SymChecked budget lmax; decide
theorem witness_IntervalUpdateEnds_limit :
    IntervalSound atLimit.ae.w atLimit.ae.low atLimit.ae.high ∧ atLimit.ae.uf ≤ 1 ∧ Codable atLimit.ae.w [1, 2, 3] 1 ∧
      EncoderRun atLimit.ae [1, 2, 3] 1 [] 0 5 2 ∧ 1 < 2 := by
  obtain ⟨-, -, h, -, -, -, -, -, -, hc, he, -⟩ := witness_ArithmeticEncode_capacity
  exact ⟨(h.enc rfl).1, by decide, hc, he, by decide⟩
theorem witness_ArithmeticFinish :
    (coding true).ae.mode = .active ∧ StreamSound (coding true) ∧ PortsSound (coding true) ∧
      (coding true).ae.coded = true ∧ (coding true).wclosed = false ∧ atLimit.ae.mode = .active ∧
      { atLimit.ae with coded := false }.coded = false ∧ State.reset.ae.mode ≠ .active ∧
      ({ coding true with wclosed := true } : State).wclosed = true :=
  ⟨rfl, streamSound_coding _, ⟨rfl, rfl⟩, rfl, rfl, rfl, rfl, by decide, rfl⟩
theorem witness_ArithmeticDecode :
    (coding false).ad.mode = .active ∧ ArithSound (coding false) ∧ StreamSound (coding false) ∧
      PortsSound (coding false) ∧ (coding false).a.toInt = (254 : Nat) ∧ (coding false).b.toInt = [1, 2].length ∧
      WindowHolds (coding false) 254 [1, 2] ∧ TableValid (coding false).ad.w [1, 2] ∧
      DecoderRun (coding false).ad [1, 2] [false, false, false] 0 (coding true).ad ∧
      InputHolds (coding false) [false, false, false] :=
  ⟨rfl, arithSound_coding _, streamSound_coding _, ⟨rfl, rfl⟩, by decide, by decide, windowHolds_coding _, tableValid_two,
    decoderRun_two, inputHolds_of _ _ (by decide)⟩
theorem witness_ArithmeticDecode_refused :
    State.reset.ad.mode ≠ .active ∧ (coding true).ad.mode = .active ∧ ¬WindowInside { coding true with b := 3 } ∧
      ¬TableChecked (coding true).ad.w (windowWords { coding true with arr := [(254, 1), (255, 4)] }) := by
  unfold WindowInside TableChecked budget lmax; decide
theorem witness_DecoderFollowsEncoder :
    ArithSound (coding true) ∧ PortsSound (coding true) ∧ (coding true).ad.filled = true ∧
      (coding true).ae.w = (coding true).ad.w ∧ (coding true).ae.low = (coding true).ad.low ∧
      (coding true).ae.high = (coding true).ad.high ∧ WindowHolds (coding true) 254 [1, 2] ∧ Codable 2 [1, 2] 0 ∧
      (coding true).c.toInt = (0 : Nat) ∧
      newLow (coding true).ae.low (coding true).ae.high (symLow [1, 2] 0) 2 ≤ (coding true).ad.code ∧
      (coding true).ad.code ≤ newHigh (coding true).ae.low (coding true).ae.high (symHigh [1, 2] 0) 2 ∧
      (coding true).status.fault = false ∧
      after (fun t => t.status.fault) .aeEnc (coding true) = some false ∧
      after (fun t => t.status.fault) .adDec (coding true) = some false :=
  ⟨arithSound_coding _, ⟨rfl, rfl⟩, rfl, rfl, rfl, rfl, windowHolds_coding _, codable_two, by decide, by decide, by decide,
    rfl, by decide, by decide⟩

/-- Slot 0 in pass 1 with two symbols counted, slot 1 idle. -/
def counting (x : Word) : State :=
  { coding true with
    a := x
    ce := { pass := .pass1, freq := [(5, 1), (9, 1)], syms := [], cum := [] } :: State.reset.ce.drop 1 }

theorem slotsSound_counting (x : Word) : SlotsSound (counting x) := by
  refine ⟨?_, (slotsSound_coding true).cd, (slotsSound_coding true).he, (slotsSound_coding true).hd⟩
  intro st hst
  simp [counting, State.reset, State.initial, vectorParams] at hst
  rcases hst with rfl | rfl <;>
    simp [CeSound, SortedArray, lmax, counting, coding, from_, twoWords, ops, State.reset, State.initial, vectorParams]

theorem witness_ContextInit :
    0 < (counting 5).params.nSlots ∧ 3 < (counting 5).params.nSlots ∧ StreamSound (counting 5) ∧ PortsSound (counting 5) ∧
      ((counting 5).ceAt 3).pass = .idle ∧ SlotsSound (counting 5) ∧ ((counting 5).ceAt 0).pass = .pass1 ∧
      (counting 5).ae.mode ≠ .idle ∧ (counting 5).wclosed = false ∧
      (cumulative ((counting 5).ceAt 0).freq).getLastD 0 ≤ budget (counting 5).ae.w ∧
      ((coding true).ceAt 0).pass = .pass2 ∧ ({ counting 5 with wclosed := true } : State).wclosed = true :=
  ⟨by decide, by decide, streamSound_of _ (by decide), ⟨rfl, rfl⟩, rfl, slotsSound_counting 5, rfl, by decide, rfl,
    by decide, rfl, rfl⟩
theorem witness_ContextInit_budget :
    ∀ s ∈ [{ counting 5 with ce := [{ pass := .pass1, freq := [(5, 1), (9, 3)], syms := [], cum := [] }] }],
      (s.ceAt 0).pass = .pass1 ∧ s.ae.mode ≠ .idle ∧ s.wclosed = false ∧ 2 ≤ (s.ceAt 0).freq.length ∧
        budget s.ae.w < (cumulative (s.ceAt 0).freq).getLastD 0 := by decide
theorem witness_ContextCount :
    3 < (counting 5).params.nSlots ∧ StreamSound (counting 5) ∧ PortsSound (counting 5) ∧ SlotsSound (counting 5) ∧
      ((counting 5).ceAt 0).pass = .pass1 ∧ (counting 5).a.toInt = (5 : Nat) ∧
      5 ∈ ((counting 5).ceAt 0).freq.map Prod.fst ∧ (counting 7).a.toInt = (7 : Nat) ∧
      7 ∉ ((counting 7).ceAt 0).freq.map Prod.fst ∧
      ((counting 7).ceAt 0).freq.length < (counting 7).params.slotSyms :=
  ⟨by decide, streamSound_of _ (by decide), ⟨rfl, rfl⟩, slotsSound_counting 5, rfl, by decide, by decide, by decide,
    by decide, by decide⟩
theorem witness_ContextCount_full :
    StreamSound { counting 7 with params := { vectorParams with slotSyms := 2 } } ∧
      SlotsSound { counting 7 with params := { vectorParams with slotSyms := 2 } } ∧
      ((counting 7).ceAt 0).freq.length = { vectorParams with slotSyms := 2 }.slotSyms := by
  refine ⟨streamSound_of _ (by decide), ⟨?_, ?_, ?_, ?_⟩, rfl⟩ <;> intro x hx <;>
    simp [counting, coding, from_, twoWords, ops, State.reset, State.initial, vectorParams] at hx
  · rcases hx with rfl | rfl <;> simp [CeSound, SortedArray, lmax]
  · rcases hx with rfl | rfl <;> simp [CdSound, SortedArray, lmax]
  · subst hx; simp [HeSound]
  · subst hx; simp [HdSound]
theorem witness_ContextCount_refused :
    ((counting (-1)).ceAt 0).pass = .pass1 ∧ (counting (-1)).a.toInt < 0 ∧ ((counting 5).ceAt 3).pass = .idle ∧
      (({ counting 5 with ce := [{ pass := .done, freq := [], syms := [], cum := [] }] } : State).ceAt 0).pass = .done := by
  decide
theorem witness_ContextEncode :
    0 < ({ coding true with a := 5 } : State).params.nSlots ∧ ((coding true).ceAt 0).pass = .pass2 ∧
      (coding true).wclosed = false ∧ (coding true).ae.mode = .active ∧ ArithSound { coding true with a := 5 } ∧
      StreamSound { coding true with a := 5 } ∧ SlotsSound { coding true with a := 5 } ∧
      2 ≤ ((coding true).ceAt 0).syms.length ∧ 0 ≤ (5 : Word).toInt ∧
      ((coding true).ceAt 0).syms[0]? = some (5 : Word).toNat ∧ Codable 2 ((coding true).ceAt 0).cum 0 ∧
      EncoderRun (coding true).ae ((coding true).ceAt 0).cum 0 [false] 0 3 0 ∧
      (-1 : Word).toInt < 0 ∧ (7 : Word).toNat ∉ ((coding true).ceAt 0).syms :=
  ⟨by decide, rfl, rfl, rfl, ⟨(arithSound_coding true).enc, (arithSound_coding true).dec, (arithSound_coding true).code,
    (arithSound_coding true).fresh⟩, streamSound_of _ (by decide),
    ⟨(slotsSound_coding true).ce, (slotsSound_coding true).cd, (slotsSound_coding true).he, (slotsSound_coding true).hd⟩,
    by decide, by decide, rfl, codable_two, encoderRun_two _, by decide, by decide⟩
theorem witness_ContextEncode_single :
    ({ coding true with
      a := 5
      ce := [{ pass := .pass2, freq := [(5, 1)], syms := [5], cum := [1] }] } : State).ceAt 0 =
        { pass := .pass2, freq := [(5, 1)], syms := [(5 : Word).toNat], cum := [1] } := by decide
/-- Slot 0 in pass 2 over the encoder at its limit, with the counts given. -/
def contextLimit (cum : List Nat) : State :=
  { atLimit with
    a := 6
    ce := [{ pass := .pass2, freq := [(5, 1), (6, 1), (7, 1)], syms := [5, 6, 7], cum := cum }]
    cd := []
    he := []
    hd := [] }

theorem slotsSound_contextLimit (z : Nat) (hz : 2 < z ∧ z ≤ lmax) : SlotsSound (contextLimit [1, 2, z]) := by
  constructor <;> intro x hx <;> simp [contextLimit] at hx
  subst hx
  simp [CeSound, SortedArray, lmax, contextLimit, atLimit, vectorParams]
  omega
theorem witness_ContextEncode_refused :
    (∀ s ∈ [{ contextLimit [1, 2, 3] with wclosed := true }], s.wclosed = true ∧ 0 ≤ s.a.toInt ∧
      s.a.toNat ∈ (s.ceAt 0).syms ∧ 2 ≤ (s.ceAt 0).syms.length ∧ (s.ceAt 0).pass = .pass2) ∧
      State.reset.ae.mode ≠ .active ∧ SlotsSound (contextLimit [1, 2, 5]) ∧
      (contextLimit [1, 2, 5]).ae.mode = .active ∧ (contextLimit [1, 2, 5]).wclosed = false ∧
      ¬Codable (contextLimit [1, 2, 5]).ae.w ((contextLimit [1, 2, 5]).ceAt 0).cum 1 :=
  ⟨by decide, by decide, slotsSound_contextLimit 5 (by decide), rfl, rfl, by
    unfold Codable TableValid budget lmax; decide⟩
theorem witness_ContextEncode_capacity :
    ((contextLimit [1, 2, 3]).ceAt 0).syms[1]? = some (contextLimit [1, 2, 3]).a.toNat ∧
      ArithSound (contextLimit [1, 2, 3]) ∧ PortsSound (contextLimit [1, 2, 3]) ∧ SlotsSound (contextLimit [1, 2, 3]) ∧
      Codable (contextLimit [1, 2, 3]).ae.w ((contextLimit [1, 2, 3]).ceAt 0).cum 1 ∧
      EncoderRun (contextLimit [1, 2, 3]).ae ((contextLimit [1, 2, 3]).ceAt 0).cum 1 [] 0 5 2 ∧
      (contextLimit [1, 2, 3]).params.ufMax < 2 := by
  obtain ⟨-, -, h, -, -, -, -, -, -, hc, he, hu⟩ := witness_ArithmeticEncode_capacity
  exact ⟨by decide, ⟨h.enc, h.dec, h.code, h.fresh⟩, ⟨rfl, rfl⟩, slotsSound_contextLimit 3 (by decide), hc, he, hu⟩
theorem witness_SlotFinish :
    0 < (coding true).params.nSlots ∧ StreamSound (coding true) ∧ PortsSound (coding true) ∧
      ((coding true).ceAt 0).pass = .pass2 ∧ ((coding true).ceAt 3).pass ≠ .pass2 ∧ (State.reset.heAt 0).pass ≠ .pass2 ∧
      (({ coding true with he := [{ pass := .pass2, freq := [], codes := [] }] } : State).heAt 0).pass = .pass2 :=
  ⟨by decide, streamSound_coding _, ⟨rfl, rfl⟩, rfl, by decide, by decide, rfl⟩

/-- The block over the context table of `[1, 2]` with the counts `[1, 2]`: `011`, `011110`, `011110`. -/
def tableSource : State := { from_ [0xF6, 0x3C] 0 (ops 0 0 0) with ad := (coding false).ad }

theorem witness_ContextRead :
    0 < tableSource.params.nSlots ∧ tableSource.ad.mode ≠ .idle ∧ StreamSound tableSource ∧ PortsSound tableSource ∧
      SortedArray [1, 2] ∧ [1, 2].length ≤ tableSource.params.slotSyms ∧ [1, 2].length ≤ lmax ∧
      [1, 2].getLastD 0 ≤ budget tableSource.ad.w ∧ ContextCode [1, 2] [1, 2] (contextTable [1, 2] [1, 2]) ∧
      InputHolds tableSource (contextTable [1, 2] [1, 2]) ∧ ContextCode [] [] (contextTable [] []) ∧
      State.reset.ad.mode = .idle :=
  ⟨by decide, by decide, streamSound_of _ (by decide), ⟨rfl, rfl⟩, sortedArray_two, by decide, by decide, by decide,
    contextTable_code sortedArray_two fun _ => sortedArray_two, inputHolds_of _ _ (by decide),
    contextTable_code (by simp [SortedArray]) (fun h => absurd h (by decide)), rfl⟩
/-- The block in a decoder pass of `W = 2` over a source that holds `bits`. -/
def tableBits (bits : List Bool) : State := { sourceOf bits State.reset with ad := (coding false).ad }

theorem witness_ContextRead_capacity :
    ∀ n ∈ [(tableBits []).params.slotSyms + 1], (tableBits []).params.slotSyms < n ∧ n ≤ lmax ∧
      UVarCode n 0 (uvarBits n 0) ∧ InputHolds (tableBits (uvarBits n 0)) (uvarBits n 0) := by
  intro n hn
  obtain rfl := List.mem_singleton.mp hn
  exact ⟨by decide, by decide, uvarBits_code _ _, inputHolds_of _ _ (by decide)⟩
theorem witness_ContextRead_budget :
    SortedArray [1, 4] ∧ [1, 4].length = 2 ∧ 2 ≤ (tableBits []).params.slotSyms ∧
      budget (tableBits []).ad.w < [1, 4].getLastD 0 ∧ BodyCode [1, 4] (usaBody [1, 4]) ∧ UVarCode 2 0 (uvarBits 2 0) ∧
      InputHolds (tableBits (uvarBits 2 0 ++ usaBody [1, 4])) (uvarBits 2 0 ++ usaBody [1, 4]) := by
  have h : SortedArray [1, 4] := by simp [SortedArray, lmax]
  exact ⟨h, rfl, by decide, by decide, usaBody_code h, uvarBits_code _ _, inputHolds_of _ _ (by decide)⟩
theorem witness_ContextRead_width :
    2 ≤ (tableBits []).params.slotSyms ∧ 2 ^ 0 < 2 ∧ UVarCode 2 0 (uvarBits 2 0) ∧ UVarCode 0 0 (uvarBits 0 0) ∧
      InputHolds (tableBits (uvarBits 2 0 ++ uvarBits 0 0)) (uvarBits 2 0 ++ uvarBits 0 0) :=
  ⟨by decide, by decide, uvarBits_code _ _, uvarBits_code _ _, inputHolds_of _ _ (by decide)⟩
theorem witness_ContextDecode :
    0 < (coding false).params.nSlots ∧ StreamSound (coding false) ∧ PortsSound (coding false) ∧
      (coding false).cdAt 0 = .ready [5, 9] [1, 2] ∧ 2 ≤ [5, 9].length ∧ (coding false).ad.mode = .active ∧
      ArithSound (coding false) ∧ TableValid (coding false).ad.w [1, 2] ∧
      DecoderRun (coding false).ad [1, 2] [false, false, false] 0 (coding true).ad ∧
      InputHolds (coding false) [false, false, false] ∧ [5, 9][0]? = some 5 ∧ (coding false).cdAt 3 = .idle ∧
      ({ coding false with cd := [.ready [5] []] } : State).cdAt 0 = .ready [5] [] ∧
      ({ coding false with cd := [.ready [] []] } : State).cdAt 0 = .ready [] [] :=
  ⟨by decide, streamSound_coding _, ⟨rfl, rfl⟩, rfl, by decide, rfl, arithSound_coding _, tableValid_two, decoderRun_two,
    inputHolds_of _ _ (by decide), rfl, rfl, rfl, rfl⟩
theorem witness_ContextDecode_refused :
    (∀ s ∈ [{ coding false with ad := State.reset.ad }], s.cdAt 0 = .ready [5, 9] [1, 2] ∧ s.ad.mode ≠ .active) ∧
      ({ coding false with cd := [.ready [5, 9] [1, 4]] } : State).cdAt 0 = .ready [5, 9] [1, 4] ∧
      (coding false).ad.mode = .active ∧ ¬TableValid (coding false).ad.w [1, 4] := by
  unfold TableValid budget lmax; decide

/-- Slot 0 in pass 1 with the symbols 1 and 0 of program P4, slot 1 in pass 1 with none, slot 2 in pass 2. -/
def huffman (x : Word) : State :=
  { ops x 1 0 with
    he := [{ pass := .pass1, freq := [(1, 2), (0, 1)], codes := [] }, { pass := .pass1, freq := [], codes := [] },
      { pass := .pass2, freq := [(1, 2), (0, 1)], codes := [(0, [false]), (1, [true])] },
      { pass := .done, freq := [], codes := [] }]
    hd := [.ready (.node (.leaf 0) (.leaf 1)), .empty, .idle, .idle]
    src := [0x63, 0x01] }

theorem streamSound_huffman (x : Word) : StreamSound (huffman x) :=
  streamSound_of _ (by simp [huffman, ops, State.reset, State.initial, ceil8])
theorem slotsSound_huffman (x : Word) : SlotsSound (huffman x) := by
  constructor <;> intro y hy <;> simp [huffman, ops, State.reset, State.initial, vectorParams] at hy
  · subst hy; simp [CeSound, SortedArray]
  · subst hy; simp [CdSound]
  · rcases hy with rfl | rfl | rfl | rfl <;>
      simp [HeSound, lmax, huffman, ops, State.reset, State.initial, vectorParams]
  · rcases hy with rfl | rfl | rfl <;> simp [HdSound, leafCount, huffman, ops, State.reset, State.initial, vectorParams]
theorem configLegal_two : ConfigLegal { mode := (huffman 2).a.toInt, noisy := 0, max := (huffman 2).b.toInt } := by
  unfold ConfigLegal; decide

theorem witness_HuffmanInit :
    3 < (huffman 2).params.nSlots ∧ StreamSound (huffman 2) ∧ PortsSound (huffman 2) ∧
      ConfigLegal { mode := (huffman 2).a.toInt, noisy := 0, max := (huffman 2).b.toInt } ∧
      ((huffman 2).heAt 3).pass = .done ∧ ((huffman 2).heAt 1).pass = .pass1 ∧ ((huffman 2).heAt 1).freq = [] ∧
      ((huffman 2).heAt 0).pass = .pass1 ∧ ((huffman 2).heAt 0).freq ≠ [] ∧ (huffman 2).wclosed = false ∧
      SlotsSound (huffman 2) ∧
      ∀ p ∈ ((huffman 2).heAt 0).freq,
        Represents { mode := (huffman 2).a.toInt, noisy := 0, max := (huffman 2).b.toInt } p.1 :=
  ⟨by decide, streamSound_huffman _, ⟨rfl, rfl⟩, configLegal_two, rfl, rfl, rfl, rfl, by decide, rfl,
    slotsSound_huffman _, by unfold Represents; decide⟩
theorem witness_HuffmanInit_refused :
    ((huffman 2).heAt 2).pass = .pass2 ∧ ((huffman 3).heAt 3).pass ≠ .pass2 ∧
      (∀ cfg ∈ [({ mode := 3, noisy := 0, max := 0 } : LeafCfg), { mode := -1, noisy := 0, max := 0 },
        { mode := 0, noisy := 64, max := 0 }, { mode := 2, noisy := 1, max := 0 }, { mode := 2, noisy := 0, max := -1 }],
        ¬ConfigLegal cfg) ∧ ((huffman 3).a.toInt = 3) ∧
      ConfigLegal { mode := ({ huffman 2 with b := 0 } : State).a.toInt, noisy := 0,
                    max := ({ huffman 2 with b := 0 } : State).b.toInt } ∧
      (∃ p ∈ ((huffman 2).heAt 0).freq, ¬Represents { mode := 2, noisy := 0, max := 0 } p.1) ∧
      ((huffman 2).heAt 0).pass = .pass1 := by
  unfold ConfigLegal Represents; decide
theorem witness_HuffmanEncode :
    3 < (huffman 1).params.nSlots ∧ ((huffman 1).heAt 0).pass = .pass1 ∧ StreamSound (huffman 1) ∧ PortsSound (huffman 1) ∧
      SlotsSound (huffman 1) ∧ (∃ p ∈ ((huffman 1).heAt 0).freq, p.1 = (huffman 1).a.toInt) ∧
      (∀ p ∈ ((huffman (-5)).heAt 0).freq, p.1 ≠ (huffman (-5)).a.toInt) ∧
      ((huffman (-5)).heAt 0).freq.length < (huffman (-5)).params.slotSyms ∧ ((huffman 1).heAt 2).pass = .pass2 ∧
      (huffman 1).wclosed = false ∧
      ((huffman 1).heAt 2).codes.find? (fun p => p.1 = (huffman 1).a.toInt) = some ((huffman 1).a.toInt, [true]) ∧
      (∀ p ∈ ((huffman 2).heAt 2).codes, p.1 ≠ (huffman 2).a.toInt) ∧ ((huffman 1).heAt 3).pass = .done :=
  ⟨by decide, rfl, streamSound_huffman _, ⟨rfl, rfl⟩, slotsSound_huffman _, by decide, by decide, by decide, rfl, rfl,
    by decide, by decide, rfl⟩
theorem witness_HuffmanEncode_refused :
    (∀ s ∈ [{ huffman (-5) with params := { vectorParams with slotSyms := 2 } }], (s.heAt 0).pass = .pass1 ∧
      (∀ p ∈ (s.heAt 0).freq, p.1 ≠ s.a.toInt) ∧ (s.heAt 0).freq.length = s.params.slotSyms) ∧
      ∀ s ∈ [{ huffman 1 with wclosed := true }], (s.heAt 2).pass = .pass2 ∧ s.wclosed = true ∧
        ∃ p ∈ (s.heAt 2).codes, p.1 = s.a.toInt := by decide
theorem witness_HuffmanRead :
    0 < (huffman 2).params.nSlots ∧ StreamSound (huffman 2) ∧ PortsSound (huffman 2) ∧
      ConfigLegal { mode := (huffman 2).a.toInt, noisy := 0, max := (huffman 2).b.toInt } ∧
      TreeCode { mode := (huffman 2).a.toInt, noisy := 0, max := (huffman 2).b.toInt } (.node (.leaf 0) (.leaf 1))
        (serTree { mode := 2, noisy := 0, max := 1 } (.node (.leaf 0) (.leaf 1))) ∧
      leafCount (.node (.leaf 0) (.leaf 1)) ≤ (huffman 2).params.slotSyms ∧
      InputHolds (huffman 2) (true :: serTree { mode := 2, noisy := 0, max := 1 } (.node (.leaf 0) (.leaf 1))) ∧
      InputHolds { huffman 2 with src := [0x00] } [false] :=
  ⟨by decide, streamSound_huffman _, ⟨rfl, rfl⟩, configLegal_two,
    .node _ _ _ _ (.leaf _ _ (leafBits_code configLegal_two (by unfold Represents; decide) (by decide) (by decide)))
      (.leaf _ _ (leafBits_code configLegal_two (by unfold Represents; decide) (by decide) (by decide))),
    by decide, inputHolds_of _ _ (by decide), inputHolds_of _ _ (by decide)⟩
theorem witness_HuffmanRead_refused :
    ¬ConfigLegal { mode := (huffman 3).a.toInt, noisy := 0, max := (huffman 3).b.toInt } ∧
      (∀ s ∈ [{ huffman 2 with params := { vectorParams with slotSyms := 1 } }],
        s.params.slotSyms < leafCount (.node (.leaf 0) (.leaf 1)) ∧ 0 < s.params.nSlots ∧ PortsSound s ∧
          InputHolds s (true :: serTree { mode := 2, noisy := 0, max := 1 } (.node (.leaf 0) (.leaf 1)))) := by
  refine ⟨by unfold ConfigLegal; decide, fun s hs => ?_⟩
  obtain rfl := List.mem_singleton.mp hs
  exact ⟨by decide, by decide, ⟨rfl, rfl⟩, inputHolds_of _ _ (by decide)⟩
theorem witness_HuffmanDecode :
    0 < (huffman 2).params.nSlots ∧ (huffman 2).hdAt 0 = .ready (.node (.leaf 0) (.leaf 1)) ∧
      LeafPath (.node (.leaf 0) (.leaf 1)) [true] 1 ∧ StreamSound (huffman 2) ∧ PortsSound (huffman 2) ∧
      InputHolds (huffman 2) [true] ∧ (huffman 2).hdAt 3 = .idle ∧ (huffman 2).hdAt 1 = .empty :=
  ⟨by decide, rfl, .one _ _ _ _ (.leaf 1), streamSound_huffman _, ⟨rfl, rfl⟩, inputHolds_of _ _ (by decide), rfl, rfl⟩

end Sys2Proof.Tests
end

section
/-! The state invariants (10_state.md): what the reset values and a command's end say of the state, the values every
command but SRESET keeps, and the invariants of STATUS and of the coder slots over a step. -/

namespace Sys2Proof

open Sys2Proof.Machine Sys2Proof.Config

/-! ### The reset values -/

/-- STATUS reads 0 only where every field of it is 0 (10_state.md R43). -/
theorem status_word_eq_zero {st : Status} (h : st.word = 0) :
    st.busy = false ∧ st.fault = false ∧ st.err = 0 ∧ st.errOp = 0 := by
  obtain ⟨busy, fault, err, errOp⟩ := st
  have hsum : (errOp.toNat * 65536 + err.toNat * 256 + fault.toNat * 2 + busy.toNat) % 2 ^ 64 = 0 := by
    simpa [Status.word] using congrArg BitVec.toNat h
  have hbusy := Bool.toNat_lt busy
  have hfault := Bool.toNat_lt fault
  refine ⟨?_, ?_, ?_, ?_⟩
  · exact Bool.toNat_eq_zero.mp (show busy.toNat = 0 by omega)
  · exact Bool.toNat_eq_zero.mp (show fault.toNat = 0 by omega)
  · exact BitVec.eq_of_toNat_eq (by simp; omega)
  · exact BitVec.eq_of_toNat_eq (by simp; omega)

/-- A state without an error keeps the STATUS invariant. -/
theorem engineInv_of_noFault {t : State} (hf : t.status.fault = false) (he : t.status.err = 0)
    (ho : t.status.errOp = 0) : EngineInv t :=
  ⟨fun _ => ⟨he, ho⟩, fun h => by simp [hf] at h, fun h => by simp [hf] at h⟩

theorem AtResetValues.engineInv {t : State} (h : AtResetValues t) : EngineInv t := by
  obtain ⟨-, hfault, herr, hop⟩ := status_word_eq_zero h.status
  exact engineInv_of_noFault hfault herr hop

theorem AtResetValues.storesInv {t : State} (h : AtResetValues t) (harr : t.memWf = true) : StoresInv t :=
  ⟨harr, by simp [h.ce], by simp [h.cd], by simp [h.he], by simp [h.hd]⟩

theorem AtResetValues.streamSound {t : State} (h : AtResetValues t) : StreamSound t := by
  constructor <;> simp [h.committed, h.wbits, h.pulled, h.rposCount, ceil8]

theorem AtResetValues.arithSound {t : State} (h : AtResetValues t) : ArithSound t := by
  constructor <;> intro hm <;> simp [h.ae, h.ad] at hm

theorem ceSound_empty (n : Nat) {pass : Pass} (hp : pass ≠ .pass2) :
    CeSound n { pass := pass, freq := [], syms := [], cum := [] } := by
  simp [CeSound, SortedArray, hp]

theorem heSound_empty (n : Nat) (pass : Pass) : HeSound n { pass := pass, freq := [], codes := [] } := by
  simp [HeSound]

theorem AtResetValues.slotsSound {t : State} (h : AtResetValues t) : SlotsSound t where
  ce st hst := by
    rw [h.ce] at hst; rw [List.eq_of_mem_replicate hst]; exact ceSound_empty _ (by decide)
  cd st hst := by
    rw [h.cd] at hst; rw [List.eq_of_mem_replicate hst]; exact trivial
  he st hst := by
    rw [h.he] at hst; rw [List.eq_of_mem_replicate hst]; exact heSound_empty _ _
  hd st hst := by
    rw [h.hd] at hst; rw [List.eq_of_mem_replicate hst]; exact trivial

/-- Settles O9: the reset state by its definition, R61 element by element. -/
theorem resetValues : Obligations.ResetValues :=
  fun p => ⟨atResetValues_initial p, rfl, rfl⟩

/-- Settles O18: each invariant follows from the reset values of R61. -/
theorem invariantsAtReset : Obligations.InvariantsAtReset := by
  refine ⟨fun p => ?_, rfl⟩
  have h := atResetValues_initial p
  exact ⟨h.engineInv, h.storesInv (memWf_initial p), fun _ => h.streamSound, fun _ => h.arithSound,
    fun _ => h.slotsSound⟩

/-! ### How a command ends -/

/-- A command but SRESET ends without error in the state its steps left, raises before it changed anything, or raises
late. -/
theorem exec_cases {i : Instr} {s t : State} (hi : i ≠ .sreset) (h : exec i s = .next t) :
    (∃ s1 k q, (commandOf i).body s = .ok s1 ∧ t = ((s1.settle k q).endBusy).drawn) ∨
      (∃ e info, t = (s.takeError i.opcode e info).drawn) ∨ ∃ e, LateFacts s (commandOf i) e t := by
  rw [exec_commandOf i hi] at h
  rcases runCommand_cases (commandOf i) s with ⟨e, -, -, -, hr⟩ | ⟨e, hr, -⟩ | ⟨s1, hb, -, hr⟩ <;>
    (rw [hr] at h; cases h)
  · exact .inr (.inl ⟨e.code, e.info, by rw [commandOf_op]⟩)
  · exact .inr (.inr ⟨e, lateFacts _ _ _⟩)
  · exact .inl ⟨s1, _, _, hb, rfl⟩

/-- All that a command but SRESET can change: not the operands, the parameters or the host's side. -/
def CommandFrame (s t : State) : Prop :=
  t = { s with
    r := t.r, status := t.status, errInfo := t.errInfo, wbits := t.wbits, wclosed := t.wclosed, sink := t.sink
    committed := t.committed, rpos := t.rpos, pulled := t.pulled, ae := t.ae, ad := t.ad, ce := t.ce, cd := t.cd
    he := t.he, hd := t.hd, arr := t.arr, draws := t.draws }

/-- Every outcome of a command but SRESET keeps the frame. -/
theorem exec_frame {i : Instr} {s t : State} (hi : i ≠ .sreset) (h : exec i s = .next t) : CommandFrame s t := by
  rcases exec_cases hi h with ⟨s1, k, q, hb, rfl⟩ | ⟨e, info, rfl⟩ | ⟨e, hl⟩
  · have hs1 := (body_frame hb).1
    rw [hs1]; rfl
  · rfl
  · unfold CommandFrame
    rw [hl.eq]

/-- STATUS after a command but SRESET: BUSY is clear, and it is otherwise as before or names an error. -/
theorem exec_status {i : Instr} {s t : State} (hi : i ≠ .sreset) (h : exec i s = .next t) :
    t.status = { s.status with busy := false } ∨ ∃ e, t.status = errorStatus i.opcode e := by
  rcases exec_cases hi h with ⟨s1, k, q, hb, rfl⟩ | ⟨e, info, rfl⟩ | ⟨e, hl⟩
  · have hs1 : s1.status = s.status := by rw [(body_frame hb).1]
    exact .inl (by simp [hs1])
  · exact .inr ⟨e, rfl⟩
  · exact .inr ⟨e.code, by rw [hl.eq, commandOf_op]⟩

/-- Settles O20: the operands and the host's side are in the frame of every outcome. -/
theorem operandsKept : Obligations.OperandsKept := by
  intro i s t hi h
  have hf := exec_frame hi h
  unfold CommandFrame at hf
  rw [hf]
  exact ⟨rfl, rfl, rfl, rfl, rfl, rfl, rfl, rfl, rfl, rfl⟩

/-! ### The STATUS invariant -/

/-- A state that has just taken an error keeps the STATUS invariant (60_exceptions.md R402). -/
theorem engineInv_of_errorStatus {t : State} {op : Nat} {e : ErrCode} (h : t.status = errorStatus op e) :
    EngineInv t :=
  ⟨fun hf => by simp [h, errorStatus] at hf, fun _ => ⟨e, by rw [h]; rfl⟩, fun _ hb => by simp [h, errorStatus] at hb⟩

/-- The STATUS invariant speaks of STATUS and CMD only. -/
theorem EngineInv.congr {s t : State} (h : EngineInv s) (hs : t.status = s.status) (hc : t.cmd = s.cmd) :
    EngineInv t :=
  ⟨by rw [hs]; exact h.noError, by rw [hs]; exact h.errorCode, by rw [hs, hc]; exact h.onlySreset⟩

/-- Clearing BUSY keeps the STATUS invariant. -/
theorem EngineInv.endBusy {s t : State} (h : EngineInv s) (hs : t.status = { s.status with busy := false }) :
    EngineInv t :=
  ⟨by rw [hs]; exact h.noError, by rw [hs]; exact h.errorCode, fun _ hb => by simp [hs] at hb⟩

/-- The engine's step keeps the STATUS invariant. -/
theorem engineStep_engineInv {s t : State} (hs : EngineInv s) (h : engineStep s = .next t) : EngineInv t := by
  rcases engine_cases h with rfl | rfl | ⟨i, hi, -, he⟩
  · exact engineInv_of_errorStatus rfl
  · exact (atResetValues_resetBlock s s.arr).engineInv
  · rcases exec_status hi he with hst | ⟨e, hst⟩
    · exact hs.endBusy hst
    · exact engineInv_of_errorStatus hst

/-- Settles O13, by what a step can do: only a command's end, a reset and a CMD write change STATUS, and in FAULT only
the word of SRESET is taken (60_exceptions.md R404). -/
theorem engineInvKept : Obligations.EngineInvKept := by
  intro s t hs h
  cases step_cases h with
  | engine _ _ he => exact engineStep_engineInv hs he
  | reset s' _ => exact (atResetValues_resetBlock s' []).engineInv
  | command rest w _ taken => exact ⟨hs.noError, hs.errorCode, fun hf _ => taken hf⟩
  | idle => exact hs
  | read | ignored | operand | array | source | sink => exact hs.congr rfl rfl

/-! ### The coder slots -/

section Slots

variable {s s1 : State} {k : Nat}

theorem SlotsSound.setCe (h : SlotsSound s) {v : CeSlot} (hv : CeSound s.params.slotSyms v) :
    SlotsSound (s.setCe k v) :=
  ⟨fun st hst => (List.mem_or_eq_of_mem_set hst).elim (h.ce st) fun he => he ▸ hv, h.cd, h.he, h.hd⟩

theorem SlotsSound.setCd (h : SlotsSound s) {v : CdSlot} (hv : CdSound s.params.slotSyms v) :
    SlotsSound (s.setCd k v) :=
  ⟨h.ce, fun st hst => (List.mem_or_eq_of_mem_set hst).elim (h.cd st) fun he => he ▸ hv, h.he, h.hd⟩

theorem SlotsSound.setHe (h : SlotsSound s) {v : HeSlot} (hv : HeSound s.params.slotSyms v) :
    SlotsSound (s.setHe k v) :=
  ⟨h.ce, h.cd, fun st hst => (List.mem_or_eq_of_mem_set hst).elim (h.he st) fun he => he ▸ hv, h.hd⟩

theorem SlotsSound.setHd (h : SlotsSound s) {v : HdSlot} (hv : HdSound s.params.slotSyms v) :
    SlotsSound (s.setHd k v) :=
  ⟨h.ce, h.cd, h.he, fun st hst => (List.mem_or_eq_of_mem_set hst).elim (h.hd st) fun he => he ▸ hv⟩

/-- The slots of a state are all that `SlotsSound` speaks of, with SLOT_SYMS. -/
theorem SlotsSound.congr (h : SlotsSound s) (hp : s1.params = s.params) (hce : s1.ce = s.ce) (hcd : s1.cd = s.cd)
    (hhe : s1.he = s.he) (hhd : s1.hd = s.hd) : SlotsSound s1 :=
  ⟨by rw [hce, hp]; exact h.ce, by rw [hcd, hp]; exact h.cd, by rw [hhe, hp]; exact h.he, by rw [hhd, hp]; exact h.hd⟩

theorem SlotsSound.emit (h : SlotsSound s) (bits : List Bool) : SlotsSound (s.emit bits) :=
  h.congr rfl rfl rfl rfl rfl

theorem SlotsSound.setRpos (h : SlotsSound s) (p : Nat) : SlotsSound (s.setRpos p) := h.congr rfl rfl rfl rfl rfl

/-- `CE[k]` is within its limits, for a `k` above the slots too. -/
theorem SlotsSound.ceAt (h : SlotsSound s) (k : Nat) : CeSound s.params.slotSyms (s.ceAt k) := by
  unfold State.ceAt
  rw [List.getD_eq_getElem?_getD]
  cases hk : s.ce[k]? with
  | none => exact ceSound_empty _ (by decide)
  | some st => exact h.ce st (List.mem_of_getElem? hk)

/-- `HE[k]` is within its limits, for a `k` above the slots too. -/
theorem SlotsSound.heAt (h : SlotsSound s) (k : Nat) : HeSound s.params.slotSyms (s.heAt k) := by
  unfold State.heAt
  rw [List.getD_eq_getElem?_getD]
  cases hk : s.he[k]? with
  | none => exact heSound_empty _ _
  | some st => exact h.he st (List.mem_of_getElem? hk)

/-- A pass without tables asks nothing of them. -/
theorem CeSound.withPass {n : Nat} {st : CeSlot} (h : CeSound n st) {p : Pass} (hp : p ≠ .pass2) :
    CeSound n { st with pass := p } := by
  obtain ⟨hkeys, hlen, hcount, -⟩ := h
  exact ⟨hkeys, hlen, hcount, fun hp2 => absurd hp2 hp⟩

/-- The tables of a pass-2 init are made of sound counts (43_arithmetic.md R301). -/
theorem CeSound.pass2 {n : Nat} {st : CeSlot} (h : CeSound n st) :
    CeSound n { st with syms := st.keys, cum := st.sums, pass := .pass2 } := by
  obtain ⟨hkeys, hlen, hcount, -⟩ := h
  refine ⟨hkeys, hlen, hcount, fun _ => ⟨hkeys, ?_, ?_⟩⟩
  · simp [sums_eq_cumulative, cumulative_length, CeSlot.keys]
  · rw [sums_eq_cumulative]; exact cumulative_sorted hcount

/-- Counting a symbol of the domain keeps the slot within its limits, where it was seen or there is room for it
(43_arithmetic.md R302). -/
theorem CeSound.freqAdd {n x : Nat} {st : CeSlot} (h : CeSound n st) (hp : st.pass = .pass1) (hx : x ≤ lmax)
    (hroom : x ∈ st.keys ∨ st.freq.length ≠ n) : CeSound n { st with freq := freqAdd x st.freq } := by
  obtain ⟨⟨hrise, hmax⟩, hlen, hcount, -⟩ := h
  obtain ⟨hrise', -, hmem, hlen', hcount'⟩ := freqAdd_spec x hrise
  refine ⟨⟨hrise', fun y hy => ?_⟩, ?_, hcount' hcount, fun hp2 => ?_⟩
  · rcases (hmem y).mp hy with rfl | hy
    · exact hx
    · exact hmax y hy
  · change (Machine.freqAdd x st.freq).length ≤ n
    rw [hlen']
    split_ifs with hseen
    · exact hlen
    · have := hroom.resolve_left hseen
      omega
  · simp [hp] at hp2

/-- A symbol counted for the first time goes to the end of ORDER, a seen one keeps its place (44_huffman.md R357). -/
theorem huffAdd_order (x : Int) (freq : List (Int × Nat)) :
    (huffAdd x freq).map Prod.fst =
      if x ∈ freq.map Prod.fst then freq.map Prod.fst else freq.map Prod.fst ++ [x] := by
  induction freq with
  | nil => rfl
  | cons p rest ih =>
    obtain ⟨y, c⟩ := p
    by_cases hy : y = x
    · simp [huffAdd, hy]
    · simp only [huffAdd, if_neg hy, List.map_cons, ih, List.mem_cons, Ne.symm hy, false_or]
      split_ifs <;> rfl

/-- Counting a symbol lowers no count. -/
theorem mem_huffAdd {x : Int} {freq : List (Int × Nat)} {p : Int × Nat} (hp : p ∈ huffAdd x freq) :
    p = (x, 1) ∨ ∃ q ∈ freq, p.1 = q.1 ∧ q.2 ≤ p.2 := by
  induction freq with
  | nil => exact .inl (List.mem_singleton.mp hp)
  | cons q rest ih =>
    obtain ⟨y, c⟩ := q
    rw [Machine.huffAdd] at hp
    split_ifs at hp <;> rcases List.mem_cons.mp hp with rfl | hp
    · exact .inr ⟨(y, c), by simp, rfl, Nat.le_succ c⟩
    · exact .inr ⟨p, by simp [hp], rfl, le_rfl⟩
    · exact .inr ⟨(y, c), by simp, rfl, le_rfl⟩
    · rcases ih hp with h | ⟨q, hq, hqp⟩
      · exact .inl h
      · exact .inr ⟨q, by simp [hq], hqp⟩

/-- Counting an s64 symbol keeps the slot within its limits, where it was seen or there is room for it
(44_huffman.md R357). -/
theorem HeSound.huffAdd {n : Nat} {x : Int} {st : HeSlot} (h : HeSound n st) (hx : -2 ^ 63 ≤ x ∧ x ≤ (lmax : Int))
    (hroom : x ∈ st.freq.map Prod.fst ∨ st.freq.length ≠ n) : HeSound n { st with freq := huffAdd x st.freq } := by
  obtain ⟨hnodup, hlen, hcount, hrange⟩ := h
  have horder := huffAdd_order x st.freq
  refine ⟨?_, ?_, fun p hp => ?_, fun p hp => ?_⟩
  · dsimp only
    rw [horder]
    split_ifs with hseen
    · exact hnodup
    · simpa using hnodup.concat hseen
  · have hlength := congrArg List.length horder
    split_ifs at hlength with hseen <;> simp only [List.length_map, List.length_append, List.length_singleton] at hlength
    · exact hlength.trans_le hlen
    · have := hroom.resolve_left hseen
      exact hlength.trans_le (by omega)
  · rcases mem_huffAdd hp with rfl | ⟨q, hq, -, hle⟩
    · exact le_rfl
    · exact (hcount q hq).trans hle
  · rcases mem_huffAdd hp with rfl | ⟨q, hq, he, -⟩
    · exact hx
    · rw [he]; exact hrange q hq

/-- `A` as `s64` is in the range of `s64`. -/
theorem opA_range (s : State) : -2 ^ 63 ≤ s.opA ∧ s.opA ≤ (lmax : Int) := by
  have hlo := BitVec.le_toInt s.a
  have hhi := BitVec.toInt_lt (x := s.a)
  unfold State.opA lmax
  omega

theorem bodyCeInit_slotsSound (h : SlotsSound s) (hb : bodyCeInit k s = .ok s1) : SlotsSound s1 := by
  obtain ⟨_, _, hb⟩ := bind_ok hb
  dsimp only at hb
  split at hb
  case h_1 | h_2 => cases hb; exact h.setCe (ceSound_empty _ (by decide))
  case h_3 =>
    obtain ⟨_, _, hb⟩ := bind_ok hb
    obtain ⟨_, _, hb⟩ := bind_ok hb
    obtain ⟨_, _, hb⟩ := bind_ok hb
    cases hb; exact (h.emit _).setCe (h.ceAt k).pass2
  case h_4 => cases hb

/-- `AEEncode` writes no slot. -/
theorem aeEncode_slotsSound (h : SlotsSound s) {tab : List Int} {x : Int} (hb : aeEncode s tab x = .ok s1) :
    SlotsSound s1 := by
  obtain ⟨_, _, hb⟩ := bind_ok hb
  obtain ⟨_, _, hb⟩ := bind_ok hb
  obtain ⟨_, _, hb⟩ := bind_ok hb
  obtain ⟨_, _, hb⟩ := bind_ok hb
  split at hb
  · cases hb
  · cases hb; exact h.congr rfl rfl rfl rfl rfl

theorem bodyCeEnc_slotsSound (h : SlotsSound s) (hb : bodyCeEnc k s = .ok s1) : SlotsSound s1 := by
  obtain ⟨_, _, hb⟩ := bind_ok hb
  dsimp only at hb
  split at hb
  case h_1 hpass =>
    obtain ⟨_, _, hb⟩ := bind_ok hb
    obtain ⟨_, hroom, hb⟩ := bind_ok hb
    cases hb
    refine h.setCe ((h.ceAt k).freqAdd hpass ?_ (by simpa using require_ok.1 hroom))
    have := (opA_range s).2
    omega
  case h_2 =>
    obtain ⟨_, _, hb⟩ := bind_ok hb
    split_ifs at hb
    · exact aeEncode_slotsSound h hb
    · cases hb; exact h
  case h_3 | h_4 => cases hb

theorem bodyCeFin_slotsSound (h : SlotsSound s) (hb : bodyCeFin k s = .ok s1) : SlotsSound s1 := by
  obtain ⟨_, _, hb⟩ := bind_ok hb
  obtain ⟨_, _, hb⟩ := bind_ok hb
  cases hb; exact h.setCe ((h.ceAt k).withPass (by decide))

/-- Where `CD.INIT` raises nothing, the slot holds the two lists it decoded, of a length within SLOT_SYMS
(43_arithmetic.md R304). -/
theorem bodyCdInit_ok (hb : bodyCdInit k s = .ok s1) :
    ∃ n cum syms p p1 p2, n ≤ s.params.slotSyms ∧ (2 ≤ n → decUsaBody s.source n p = .ok (cum, p1)) ∧
      decUsaBody s.source n p1 = .ok (syms, p2) ∧ s1 = (s.setRpos p2).setCd k (.ready syms cum) := by
  obtain ⟨_, _, hb⟩ := bind_ok hb
  obtain ⟨_, _, hb⟩ := bind_ok hb
  obtain ⟨⟨n, p⟩, _, hb⟩ := bind_ok hb
  obtain ⟨_, hn, hb⟩ := bind_ok hb
  have hn : n ≤ s.params.slotSyms := by simpa using require_ok.1 hn
  dsimp only at hb
  split_ifs at hb with h2
  all_goals
    obtain ⟨⟨cum, p1⟩, hcum, hb⟩ := bind_ok hb
    obtain ⟨_, _, hb⟩ := bind_ok hb
    obtain ⟨⟨syms, p2⟩, hsyms, hb⟩ := bind_ok hb
    cases hb
  · exact ⟨n, cum, syms, p, p1, p2, hn, fun _ => hcum, hsyms, rfl⟩
  · exact ⟨n, cum, syms, p, p1, p2, hn, fun h => absurd h h2, hsyms, rfl⟩

/-- A decoded list is a valid sorted array (42_sorted_array.md R262). -/
theorem bodyCdInit_slotsSound (h : SlotsSound s) (hb : bodyCdInit k s = .ok s1) : SlotsSound s1 := by
  obtain ⟨n, cum, syms, p, p1, p2, hn, hcum, hsyms, rfl⟩ := bodyCdInit_ok hb
  obtain ⟨hlen, hsorted⟩ := decUsaBody_sorted hsyms
  refine (h.setRpos _).setCd ⟨hsorted, hlen.trans_le hn, fun h2 => ?_⟩
  obtain ⟨hclen, hcsorted⟩ := decUsaBody_sorted (hcum (h2.trans_eq hlen))
  exact ⟨hcsorted, hclen.trans hlen.symm⟩

/-- `ADDecode` writes no slot. -/
theorem adDecode_slotsSound (h : SlotsSound s) {tab : List Int} {x : Nat} (hb : adDecode s tab = .ok (x, s1)) :
    SlotsSound s1 := by
  obtain ⟨ad, p, rfl, -⟩ := adDecode_frame hb
  exact h.congr rfl rfl rfl rfl rfl

theorem bodyCdDec_slotsSound (h : SlotsSound s) (hb : bodyCdDec k s = .ok s1) : SlotsSound s1 := by
  obtain ⟨_, _, hb⟩ := bind_ok hb
  split at hb
  · split_ifs at hb
    · cases hb; exact h.congr rfl rfl rfl rfl rfl
    · obtain ⟨⟨_, _⟩, hd, hb⟩ := bind_ok hb
      cases hb; exact (adDecode_slotsSound h hd).congr rfl rfl rfl rfl rfl
  · cases hb
  · cases hb

theorem bodyHeInit_slotsSound {n : Nat} (h : SlotsSound s) (hb : bodyHeInit n k s = .ok s1) : SlotsSound s1 := by
  obtain ⟨_, _, hb⟩ := bind_ok hb
  obtain ⟨_, _, hb⟩ := bind_ok hb
  obtain ⟨_, _, hb⟩ := bind_ok hb
  split_ifs at hb
  · obtain ⟨_, _, hb⟩ := bind_ok hb
    obtain ⟨_, _, hb⟩ := bind_ok hb
    cases hb; exact (h.emit _).setHe (h.heAt k)
  · cases hb; exact h.setHe (heSound_empty _ _)

theorem bodyHeEnc_slotsSound (h : SlotsSound s) (hb : bodyHeEnc k s = .ok s1) : SlotsSound s1 := by
  obtain ⟨_, _, hb⟩ := bind_ok hb
  dsimp only at hb
  split at hb
  case h_1 =>
    obtain ⟨_, hroom, hb⟩ := bind_ok hb
    cases hb
    exact h.setHe ((h.heAt k).huffAdd (opA_range s) (by simpa using require_ok.1 hroom))
  case h_2 =>
    split at hb
    · cases hb
    · obtain ⟨_, _, hb⟩ := bind_ok hb
      cases hb; exact h.emit _
  case h_3 | h_4 => cases hb

theorem bodyHeFin_slotsSound (h : SlotsSound s) (hb : bodyHeFin k s = .ok s1) : SlotsSound s1 := by
  obtain ⟨_, _, hb⟩ := bind_ok hb
  obtain ⟨_, _, hb⟩ := bind_ok hb
  cases hb; exact h.setHe (h.heAt k)

/-- `ReadTree` counts the leaves against SLOT_SYMS (44_huffman.md R359). -/
theorem bodyHdInit_slotsSound {n : Nat} (h : SlotsSound s) (hb : bodyHdInit n k s = .ok s1) : SlotsSound s1 := by
  obtain ⟨_, _, hb⟩ := bind_ok hb
  obtain ⟨_, _, hb⟩ := bind_ok hb
  obtain ⟨⟨_, _⟩, _, hb⟩ := bind_ok hb
  dsimp only at hb
  split_ifs at hb
  · obtain ⟨⟨t, _, leaves, _⟩, ht, hb⟩ := bind_ok hb
    obtain ⟨hcount, hle⟩ := readTree_ok _ _ _ _ _ _ _ _ ht
    cases hb
    exact (h.setRpos _).setHd (show leafCount t ≤ s.params.slotSyms by omega)
  · cases hb; exact (h.setRpos _).setHd trivial

theorem bodyHdDec_slotsSound (h : SlotsSound s) (hb : bodyHdDec k s = .ok s1) : SlotsSound s1 := by
  obtain ⟨_, _, hb⟩ := bind_ok hb
  split at hb
  · obtain ⟨⟨_, _⟩, _, hb⟩ := bind_ok hb
    cases hb; exact h.congr rfl rfl rfl rfl rfl
  · cases hb
  · cases hb

/-- The steps of every command that raise nothing keep the slots within their limits. -/
theorem body_slotsSound {i : Instr} (h : SlotsSound s) (hb : (commandOf i).body s = .ok s1) : SlotsSound s1 := by
  cases i
  case sreset => cases hb; exact h
  case ceInit slot => exact bodyCeInit_slotsSound h hb
  case ceEnc slot => exact bodyCeEnc_slotsSound h hb
  case ceFin slot => exact bodyCeFin_slotsSound h hb
  case cdInit slot => exact bodyCdInit_slotsSound h hb
  case cdDec slot => exact bodyCdDec_slotsSound h hb
  case heInit n slot => exact bodyHeInit_slotsSound h hb
  case heEnc slot => exact bodyHeEnc_slotsSound h hb
  case heFin slot => exact bodyHeFin_slotsSound h hb
  case hdInit n slot => exact bodyHdInit_slotsSound h hb
  case hdDec slot => exact bodyHdDec_slotsSound h hb
  case aeEnc =>
    obtain ⟨_, _, hb⟩ := bind_ok hb
    obtain ⟨_, _, hb⟩ := bind_ok hb
    obtain ⟨_, _, hb⟩ := bind_ok hb
    exact aeEncode_slotsSound h hb
  case aeFin =>
    obtain ⟨_, _, hb⟩ := bind_ok (show bodyAeFin s = _ from hb)
    split_ifs at hb
    · obtain ⟨_, _, hb⟩ := bind_ok hb
      cases hb; exact h.congr rfl rfl rfl rfl rfl
    · cases hb; exact h.congr rfl rfl rfl rfl rfl
  case adDec =>
    obtain ⟨_, _, hb⟩ := bind_ok hb
    obtain ⟨_, _, hb⟩ := bind_ok hb
    obtain ⟨⟨_, _⟩, hd, hb⟩ := bind_ok hb
    cases hb; exact (adDecode_slotsSound h hd).congr rfl rfl rfl rfl rfl
  case usaD | usanD =>
    (repeat' (obtain ⟨_, _, hb⟩ := bind_ok hb))
    cases hb
    rw [memWriteList_eq]
    exact h.congr rfl rfl rfl rfl rfl
  -- every other command ends in updates of which none is of a slot
  all_goals
    (repeat' (obtain ⟨_, _, hb⟩ := bind_ok hb))
    cases hb
    exact h.congr rfl rfl rfl rfl rfl

end Slots

/-- A command but SRESET keeps the slot invariant: an error ends in FAULT. -/
theorem exec_slotsInv {i : Instr} {s t : State} (hi : i ≠ .sreset) (hs : SlotsInv s) (h : exec i s = .next t) :
    SlotsInv t := by
  intro hf
  rcases exec_cases hi h with ⟨s1, k, q, hb, rfl⟩ | ⟨e, info, rfl⟩ | ⟨e, hl⟩
  · have hst : s1.status = s.status := by rw [(body_frame hb).1]
    have hs1 := body_slotsSound (hs (by simpa [hst] using hf)) hb
    exact hs1.congr rfl rfl rfl rfl rfl
  · simp at hf
  · rw [hl.eq] at hf
    simp [errorStatus] at hf

/-- The engine's step keeps the slot invariant. -/
theorem engineStep_slotsInv {s t : State} (hs : SlotsInv s) (h : engineStep s = .next t) : SlotsInv t := by
  rcases engine_cases h with rfl | rfl | ⟨i, hi, -, he⟩
  · exact fun hf => by simp at hf
  · exact fun _ => (atResetValues_resetBlock s s.arr).slotsSound
  · exact exec_slotsInv hi hs he

/-- Settles O17, by what a step can do: only a command's end and a reset change a slot. -/
theorem slotsInvKept : Obligations.SlotsInvKept := by
  intro s t hs h
  cases step_cases h with
  | engine _ _ he => exact engineStep_slotsInv hs he
  | reset s' _ => exact fun _ => (atResetValues_resetBlock s' []).slotsSound
  | idle => exact hs
  | read | ignored | command | operand | array | source | sink =>
    exact fun hf => (hs hf).congr rfl rfl rfl rfl rfl

end Sys2Proof
end

section
/-! The stores and the streams (20_memory.md R83, R85, 10_state.md R50): how a command can end, with its port counts and
its ARR window, and the invariants of the stores and of the two streams over a step. -/

namespace Sys2Proof

open Sys2Proof.Machine Sys2Proof.Config

/-! ### How a command ends -/

/-- What a command but SRESET issued in `s` can leave: the state its steps left with the ports settled, an error before
any change, or a late error whose ARR window is empty or inside ARR. -/
inductive CommandEnd (i : Instr) (s : State) : State → Prop
  | done (s1 : State) (body : (commandOf i).body s = .ok s1) :
      CommandEnd i s ((s1.settle (commitTarget (commandOf i) s s1.wbits.length)
        (pulledAfter (commandOf i) s s1.rpos)).endBusy).drawn
  | early (e : ErrCode) (info : Nat) : CommandEnd i s (s.takeError i.opcode e info).drawn
  | late (e : Raise) (t : State) (facts : LateFacts s (commandOf i) e t)
      (window : e.window.2 = 0 ∨ e.window.1 + e.window.2 ≤ s.params.arrWords) : CommandEnd i s t

/-- The ARR window of a late error is empty or inside ARR. -/
theorem lateWindow_inside {i : Instr} {s : State} {w : Nat × Nat}
    (h : (∃ e', (commandOf i).body s = .error e' ∧ w = e'.window) ∨
      ∃ s1, (commandOf i).body s = .ok s1 ∧ w = (commandOf i).window s1) :
    w.2 = 0 ∨ w.1 + w.2 ≤ s.params.arrWords := by
  rcases late_window h with h0 | ⟨-, -, -, hin⟩ | ⟨-, hA, hB, hin, rfl⟩
  · exact .inl h0
  · exact .inr hin
  · exact .inr (by dsimp only; omega)

/-- Every outcome of a command but SRESET is one of `CommandEnd`. -/
theorem exec_commandEnd {i : Instr} {s t : State} (hi : i ≠ .sreset) (h : exec i s = .next t) : CommandEnd i s t := by
  rw [exec_commandOf i hi] at h
  rcases runCommand_cases (commandOf i) s with ⟨e, -, -, -, hr⟩ | ⟨e, hr, hw⟩ | ⟨s1, hb, -, hr⟩ <;>
    (rw [hr] at h; cases h)
  · rw [commandOf_op]; exact .early e.code e.info
  · refine .late e _ (lateFacts _ _ _) (lateWindow_inside (i := i) ?_)
    rcases hw with ⟨e', he, hwin, -⟩ | ⟨s1, hs, hwin, -⟩
    · exact .inl ⟨e', he, hwin⟩
    · exact .inr ⟨s1, hs, hwin⟩
  · exact .done s1 hb

/-- A late error ends in FAULT. -/
theorem lateFacts_fault {s t : State} {c : Command} {e : Raise} (h : LateFacts s c e t) : t.status.fault = true := by
  rw [h.eq]; rfl

/-! ### The stores -/

section Stores

variable {s s1 : State} {k : Nat}

/-- The stores and the parameters are all that `StoresInv` speaks of. -/
theorem StoresInv.congr (h : StoresInv s) (hp : s1.params = s.params) (harr : s1.arr = s.arr) (hce : s1.ce = s.ce)
    (hcd : s1.cd = s.cd) (hhe : s1.he = s.he) (hhd : s1.hd = s.hd) : StoresInv s1 :=
  ⟨by rw [State.memWf, harr, hp]; exact h.arr, by rw [hce, hp]; exact h.ce, by rw [hcd, hp]; exact h.cd,
    by rw [hhe, hp]; exact h.he, by rw [hhd, hp]; exact h.hd⟩

theorem StoresInv.emit (h : StoresInv s) (bits : List Bool) : StoresInv (s.emit bits) :=
  h.congr rfl rfl rfl rfl rfl rfl

theorem StoresInv.setRpos (h : StoresInv s) (p : Nat) : StoresInv (s.setRpos p) := h.congr rfl rfl rfl rfl rfl rfl

theorem StoresInv.setR (h : StoresInv s) (v : Word) : StoresInv (s.setR v) := h.congr rfl rfl rfl rfl rfl rfl

/-! Writing a slot changes no slot count. -/

theorem StoresInv.setCe (h : StoresInv s) (v : CeSlot) : StoresInv (s.setCe k v) :=
  ⟨h.arr, List.length_set.trans h.ce, h.cd, h.he, h.hd⟩

theorem StoresInv.setCd (h : StoresInv s) (v : CdSlot) : StoresInv (s.setCd k v) :=
  ⟨h.arr, h.ce, List.length_set.trans h.cd, h.he, h.hd⟩

theorem StoresInv.setHe (h : StoresInv s) (v : HeSlot) : StoresInv (s.setHe k v) :=
  ⟨h.arr, h.ce, h.cd, List.length_set.trans h.he, h.hd⟩

theorem StoresInv.setHd (h : StoresInv s) (v : HdSlot) : StoresInv (s.setHd k v) :=
  ⟨h.arr, h.ce, h.cd, h.he, List.length_set.trans h.hd⟩

/-- Words written inside ARR keep its canonical form. -/
theorem StoresInv.memWriteList (h : StoresInv s) {i : Nat} {vs : List Word} (hi : i + vs.length ≤ s.params.arrWords) :
    StoresInv (s.memWriteList i vs) := by
  have hwf := memWf_memWriteList vs hi h.arr
  rw [memWriteList_eq] at hwf ⊢
  exact ⟨hwf, h.ce, h.cd, h.he, h.hd⟩

/-- `AEEncode` writes no store. -/
theorem aeEncode_storesInv (h : StoresInv s) {tab : List Int} {x : Int} (hb : aeEncode s tab x = .ok s1) :
    StoresInv s1 := by
  obtain ⟨_, _, hb⟩ := bind_ok hb
  obtain ⟨_, _, hb⟩ := bind_ok hb
  obtain ⟨_, _, hb⟩ := bind_ok hb
  obtain ⟨_, _, hb⟩ := bind_ok hb
  split at hb
  · cases hb
  · cases hb; exact h.congr rfl rfl rfl rfl rfl rfl

/-- `ADDecode` writes no store. -/
theorem adDecode_storesInv (h : StoresInv s) {tab : List Int} {x : Nat} (hb : adDecode s tab = .ok (x, s1)) :
    StoresInv s1 := by
  obtain ⟨ad, p, rfl, -⟩ := adDecode_frame hb
  exact h.congr rfl rfl rfl rfl rfl rfl

theorem bodyCeInit_storesInv (h : StoresInv s) (hb : bodyCeInit k s = .ok s1) : StoresInv s1 := by
  obtain ⟨_, _, hb⟩ := bind_ok hb
  dsimp only at hb
  split at hb
  case h_1 | h_2 => cases hb; exact h.setCe _
  case h_3 =>
    obtain ⟨_, _, hb⟩ := bind_ok hb
    obtain ⟨_, _, hb⟩ := bind_ok hb
    obtain ⟨_, _, hb⟩ := bind_ok hb
    cases hb; exact (h.emit _).setCe _
  case h_4 => cases hb

theorem bodyCeEnc_storesInv (h : StoresInv s) (hb : bodyCeEnc k s = .ok s1) : StoresInv s1 := by
  obtain ⟨_, _, hb⟩ := bind_ok hb
  dsimp only at hb
  split at hb
  case h_1 =>
    obtain ⟨_, _, hb⟩ := bind_ok hb
    obtain ⟨_, _, hb⟩ := bind_ok hb
    cases hb; exact h.setCe _
  case h_2 =>
    obtain ⟨_, _, hb⟩ := bind_ok hb
    split_ifs at hb
    · exact aeEncode_storesInv h hb
    · cases hb; exact h
  case h_3 | h_4 => cases hb

theorem bodyCdDec_storesInv (h : StoresInv s) (hb : bodyCdDec k s = .ok s1) : StoresInv s1 := by
  obtain ⟨_, _, hb⟩ := bind_ok hb
  split at hb
  · split_ifs at hb
    · cases hb; exact h.setR _
    · obtain ⟨⟨_, _⟩, hd, hb⟩ := bind_ok hb
      cases hb; exact (adDecode_storesInv h hd).setR _
  · cases hb
  · cases hb

theorem bodyHeInit_storesInv {n : Nat} (h : StoresInv s) (hb : bodyHeInit n k s = .ok s1) : StoresInv s1 := by
  obtain ⟨_, _, hb⟩ := bind_ok hb
  obtain ⟨_, _, hb⟩ := bind_ok hb
  obtain ⟨_, _, hb⟩ := bind_ok hb
  split_ifs at hb
  · obtain ⟨_, _, hb⟩ := bind_ok hb
    obtain ⟨_, _, hb⟩ := bind_ok hb
    cases hb; exact (h.emit _).setHe _
  · cases hb; exact h.setHe _

theorem bodyHeEnc_storesInv (h : StoresInv s) (hb : bodyHeEnc k s = .ok s1) : StoresInv s1 := by
  obtain ⟨_, _, hb⟩ := bind_ok hb
  dsimp only at hb
  split at hb
  case h_1 =>
    obtain ⟨_, _, hb⟩ := bind_ok hb
    cases hb; exact h.setHe _
  case h_2 =>
    split at hb
    · cases hb
    · obtain ⟨_, _, hb⟩ := bind_ok hb
      cases hb; exact h.emit _
  case h_3 | h_4 => cases hb

theorem bodyHdInit_storesInv {n : Nat} (h : StoresInv s) (hb : bodyHdInit n k s = .ok s1) : StoresInv s1 := by
  obtain ⟨_, _, hb⟩ := bind_ok hb
  obtain ⟨_, _, hb⟩ := bind_ok hb
  obtain ⟨⟨_, _⟩, _, hb⟩ := bind_ok hb
  dsimp only at hb
  split_ifs at hb
  · obtain ⟨⟨_, _, _, _⟩, _, hb⟩ := bind_ok hb
    cases hb; exact (h.setRpos _).setHd _
  · cases hb; exact (h.setRpos _).setHd _

/-- `USA.D` writes the words of a list as long as the size it checked against ARR (42_sorted_array.md R264). -/
theorem bodyUsaD_storesInv (h : StoresInv s) (hb : bodyUsaD s = .ok s1) : StoresInv s1 := by
  obtain ⟨_, _, hb⟩ := bind_ok hb
  obtain ⟨⟨n, _⟩, _, hb⟩ := bind_ok hb
  obtain ⟨_, hroom, hb⟩ := bind_ok hb
  obtain ⟨⟨xs, _⟩, hxs, hb⟩ := bind_ok hb
  have hroom : s.opA.toNat + n ≤ s.params.arrWords := by simpa using require_ok.1 hroom
  obtain ⟨hlen, -⟩ := decUsaBody_sorted (inWindow_ok.1 hxs)
  cases hb
  exact ((h.memWriteList (by simpa [hlen] using hroom)).setRpos _).setR _

/-- `USAN.D` writes the words of a list as long as its window (42_sorted_array.md R266). -/
theorem bodyUsanD_storesInv (h : StoresInv s) (hb : bodyUsanD s = .ok s1) : StoresInv s1 := by
  obtain ⟨_, hwin, hb⟩ := bind_ok hb
  obtain ⟨⟨xs, _⟩, hxs, hb⟩ := bind_ok hb
  obtain ⟨hA, hB, hin⟩ := (windowOk_iff s).1 (require_ok.1 hwin)
  obtain ⟨hlen, -⟩ := decUsaBody_sorted (inWindow_ok.1 hxs)
  cases hb
  refine ((h.memWriteList ?_).setRpos _).setR _
  simp only [List.length_map, hlen, State.opA, State.opB]
  omega

/-- The steps of every command that raise nothing keep ARR in its form and the slot counts. -/
theorem body_storesInv {i : Instr} (h : StoresInv s) (hb : (commandOf i).body s = .ok s1) : StoresInv s1 := by
  cases i
  case sreset => cases hb; exact h
  case usaD => exact bodyUsaD_storesInv h hb
  case usanD => exact bodyUsanD_storesInv h hb
  case ceInit slot => exact bodyCeInit_storesInv h hb
  case ceEnc slot => exact bodyCeEnc_storesInv h hb
  case ceFin slot =>
    obtain ⟨_, _, hb⟩ := bind_ok hb
    obtain ⟨_, _, hb⟩ := bind_ok hb
    cases hb; exact h.setCe _
  case cdInit slot =>
    obtain ⟨_, _, _, _, _, _, _, _, _, rfl⟩ := bodyCdInit_ok hb
    exact (h.setRpos _).setCd _
  case cdDec slot => exact bodyCdDec_storesInv h hb
  case heInit n slot => exact bodyHeInit_storesInv h hb
  case heEnc slot => exact bodyHeEnc_storesInv h hb
  case heFin slot =>
    obtain ⟨_, _, hb⟩ := bind_ok hb
    obtain ⟨_, _, hb⟩ := bind_ok hb
    cases hb; exact h.setHe _
  case hdInit n slot => exact bodyHdInit_storesInv h hb
  case hdDec slot =>
    obtain ⟨_, _, hb⟩ := bind_ok (show bodyHdDec slot s = _ from hb)
    split at hb
    · obtain ⟨⟨_, _⟩, _, hb⟩ := bind_ok hb
      cases hb; exact (h.setRpos _).setR _
    · cases hb
    · cases hb
  case aeEnc =>
    obtain ⟨_, _, hb⟩ := bind_ok hb
    obtain ⟨_, _, hb⟩ := bind_ok hb
    obtain ⟨_, _, hb⟩ := bind_ok hb
    exact aeEncode_storesInv h hb
  case aeFin =>
    obtain ⟨_, _, hb⟩ := bind_ok (show bodyAeFin s = _ from hb)
    split_ifs at hb
    · obtain ⟨_, _, hb⟩ := bind_ok hb
      cases hb; exact h.congr rfl rfl rfl rfl rfl rfl
    · cases hb; exact h.congr rfl rfl rfl rfl rfl rfl
  case adDec =>
    obtain ⟨_, _, hb⟩ := bind_ok hb
    obtain ⟨_, _, hb⟩ := bind_ok hb
    obtain ⟨⟨_, _⟩, hd, hb⟩ := bind_ok hb
    cases hb; exact (adDecode_storesInv h hd).setR _
  -- every other command ends in updates of which none is of a store
  all_goals
    (repeat' (obtain ⟨_, _, hb⟩ := bind_ok hb))
    cases hb
    exact h.congr rfl rfl rfl rfl rfl rfl

/-- Free values in a window that is empty or inside ARR keep its canonical form. -/
theorem memWf_lateWindow {n : Nat} {w : Nat × Nat} (hw : w.2 = 0 ∨ w.1 + w.2 ≤ s.params.arrWords)
    (h : s.memWf = true) : (s.scrambleWindow n w.1 w.2).memWf = true := by
  rcases hw with h0 | hin
  · rw [h0]; exact h
  · exact memWf_scrambleWindow _ hin h

/-- A late error leaves ARR in its form and the slot counts. -/
theorem lateFacts_storesInv {c : Command} {e : Raise} {t : State} (hl : LateFacts s c e t)
    (hw : e.window.2 = 0 ∨ e.window.1 + e.window.2 ≤ s.params.arrWords) (h : StoresInv s) : StoresInv t := by
  have hp : t.params = s.params := by rw [hl.eq]
  have harr : t.arr = (s.scrambleWindow s.draws e.window.1 e.window.2).arr := by rw [hl.eq]
  have hwf := memWf_lateWindow (n := s.draws) hw h.arr
  rw [scrambleWindow_eq] at hwf
  exact ⟨by rw [State.memWf, harr, hp]; exact hwf, by rw [hl.lce, hp]; exact h.ce, by rw [hl.lcd, hp]; exact h.cd,
    by rw [hl.lhe, hp]; exact h.he, by rw [hl.lhd, hp]; exact h.hd⟩

end Stores

/-- The engine's step keeps the stores. -/
theorem engineStep_storesInv {s t : State} (hs : StoresInv s) (h : engineStep s = .next t) : StoresInv t := by
  rcases engine_cases h with rfl | rfl | ⟨i, hi, -, he⟩
  · exact hs.congr rfl rfl rfl rfl rfl rfl
  · exact (atResetValues_resetBlock s s.arr).storesInv hs.arr
  · cases exec_commandEnd hi he with
    | done s1 hb => exact (body_storesInv hs hb).congr rfl rfl rfl rfl rfl rfl
    | early => exact hs.congr rfl rfl rfl rfl rfl rfl
    | late _ _ hl hw => exact lateFacts_storesInv hl hw hs

/-- Settles O14, by what a step can do: the engine and a host write of ARR change a store, and a reset empties it. -/
theorem storesInvKept : Obligations.StoresInvKept := by
  intro s t hs h
  cases step_cases h with
  | engine _ _ he => exact engineStep_storesInv hs he
  | reset s' _ => exact (atResetValues_resetBlock s' []).storesInv (memWf_hardReset s')
  | array rest i v _ hi => exact ⟨arrWf_arrInsert hi hs.arr, hs.ce, hs.cd, hs.he, hs.hd⟩
  | idle => exact hs
  | read | ignored | command | operand | source | sink => exact hs.congr rfl rfl rfl rfl rfl rfl

/-! ### The streams -/

/-- The commit count after a command lies in the range of 20_memory.md R85, at a drain point too. -/
theorem commitTarget_allowed {s : State} {c : Command} {w : Nat} (h : 8 * s.committed ≤ w) :
    s.committed ≤ commitTarget c s w ∧ w / 8 ≤ commitTarget c s w + 7 ∧ 8 * commitTarget c s w ≤ w := by
  cases hd : c.drain with
  | false => exact commitTarget_range h hd
  | true => simp only [commitTarget, hd, if_true]; omega

/-- Only a command that pulls moves RPOS. -/
theorem body_rpos_of_pull_none {i : Instr} {s s1 : State} (hq : (commandOf i).pull = .none)
    (hb : (commandOf i).body s = .ok s1) : s1.rpos = s.rpos := by
  rcases commandOf_side i with hside | hside
  · obtain ⟨more, h1⟩ := body_writer hside hb
    rw [h1]
  · cases i <;> first | (cases hside; done) | (cases hq; done) | skip
    case adReset n =>
      obtain ⟨_, _, hb⟩ := bind_ok (show bodyAdReset n s = _ from hb)
      cases hb; rfl

/-- The pull count after the steps of a command lies in the bounds of 10_state.md R50. -/
theorem pulledAfter_allowed {i : Instr} {s s1 : State} (hs : StreamSound s) (hb : (commandOf i).body s = .ok s1) :
    PullAllowed s s1 (pulledAfter (commandOf i) s s1.rpos) := by
  cases hq : (commandOf i).pull with
  | none =>
    rw [PullAllowed, body_rpos_of_pull_none hq hb]
    simp only [pulledAfter, hq]
    exact ⟨le_rfl, hs.pulledConsumed, hs.pulledSource, hs.pulledAhead⟩
  | bits => exact pulledAfter_bits hs hq (body_frame hb).2.2
  | bytes => exact pulledAfter_bytes hs hq (body_bytes hq hb)

/-- The steps of a command emit bits, so WBITS still holds the bytes committed. -/
theorem body_committed_le {i : Instr} {s s1 : State} (hs : StreamSound s) (hb : (commandOf i).body s = .ok s1) :
    8 * s.committed ≤ s1.wbits.length := by
  obtain ⟨-, ⟨more, hmore⟩, -⟩ := body_frame hb
  rw [hmore, List.length_append]
  exact hs.sinkComplete.trans (Nat.le_add_right _ _)

/-- The streams and their counts are all that `StreamSound` speaks of. -/
theorem StreamSound.congr {s t : State} (h : StreamSound s) (hw : t.wbits = s.wbits) (hc : t.committed = s.committed)
    (hr : t.rpos = s.rpos) (hsrc : t.src = s.src) (hp : t.pulled = s.pulled) : StreamSound t :=
  ⟨by rw [hw, hc]; exact h.sinkComplete, by rw [hw, hc]; exact h.sinkClose,
    by rw [hr, hsrc, hp]; exact h.pulledConsumed, by rw [hsrc, hp]; exact h.pulledSource,
    by rw [hr, hp]; exact h.pulledAhead⟩

/-- A command that ends without error leaves the counts within their bounds. -/
theorem body_streamSound {i : Instr} {s s1 : State} (hs : StreamSound s) (hb : (commandOf i).body s = .ok s1) :
    StreamSound (s1.settle (commitTarget (commandOf i) s s1.wbits.length) (pulledAfter (commandOf i) s s1.rpos)) := by
  obtain ⟨-, hclose, hcomplete⟩ := commitTarget_allowed (c := commandOf i) (body_committed_le hs hb)
  obtain ⟨-, hconsumed, hsource, hahead⟩ := pulledAfter_allowed hs hb
  have hsrc : s1.src = s.src := by rw [(body_frame hb).1]
  exact ⟨hcomplete, hclose, by simpa [hsrc] using hconsumed, by simpa [hsrc] using hsource, hahead⟩

/-- A command but SRESET keeps the stream invariant: an error ends in FAULT. -/
theorem exec_streamInv {i : Instr} {s t : State} (hi : i ≠ .sreset) (hs : StreamInv s) (h : exec i s = .next t) :
    StreamInv t := by
  intro hf
  cases exec_commandEnd hi h with
  | done s1 hb =>
    have hst : s1.status = s.status := by rw [(body_frame hb).1]
    exact (body_streamSound (hs (by simpa [hst] using hf)) hb).congr rfl rfl rfl rfl rfl
  | early => simp at hf
  | late _ _ hl => simp [lateFacts_fault hl] at hf

/-- The engine's step keeps the stream invariant. -/
theorem engineStep_streamInv {s t : State} (hs : StreamInv s) (h : engineStep s = .next t) : StreamInv t := by
  rcases engine_cases h with rfl | rfl | ⟨i, hi, -, he⟩
  · exact fun hf => by simp at hf
  · exact fun _ => (atResetValues_resetBlock s s.arr).streamSound
  · exact exec_streamInv hi hs he

/-- A source bound where the reader holds no byte ahead keeps the bounds of the pull count. -/
theorem StreamSound.bindSource {s : State} (h : StreamSound s) (drained : s.rpos = 8 * s.pulled) (bytes : List Byte)
    (failAt : Option Nat) : StreamSound { s with src := s.src.take s.pulled ++ bytes, srcFail := failAt } := by
  obtain ⟨hcomplete, hclose, -, hsource, -⟩ := h
  refine ⟨hcomplete, hclose, ?_, ?_, ?_⟩ <;> simp [ceil8] <;> omega

/-- Settles O15, by what a step can do: the engine, a reset and the binding of a source change a count or a stream. -/
theorem streamInvKept : Obligations.StreamInvKept := by
  intro s t hs h
  cases step_cases h with
  | engine _ _ he => exact engineStep_streamInv hs he
  | reset s' _ => exact fun _ => (atResetValues_resetBlock s' []).streamSound
  | source rest bytes failAt _ drained =>
    exact fun hf => ((hs hf).bindSource drained bytes failAt).congr rfl rfl rfl rfl rfl
  | idle => exact hs
  | read | ignored | command | operand | array | sink => exact fun hf => (hs hf).congr rfl rfl rfl rfl rfl

/-- Settles O21: a command's end hands over the bytes up to its new commit count, and an error none or some of them. -/
theorem sinkInOrder : Obligations.SinkInOrder := by
  intro i s t hi hs h
  cases exec_commandEnd hi h with
  | done s1 hb =>
    obtain ⟨hs1, hmore, -⟩ := body_frame hb
    have hsink : s1.sink = s.sink := by rw [hs1]
    have hcomm : s1.committed = s.committed := by rw [hs1]
    exact ⟨hmore, (commitTarget_allowed (body_committed_le hs hb)).1, by simp [hsink, hcomm]⟩
  | early => exact ⟨⟨[], by simp⟩, le_rfl, by simp [outBytes]⟩
  | late _ _ hl => exact ⟨hl.more, hl.comm, hl.sink⟩

end Sys2Proof
end

section
/-! The host's side (20_memory.md R81 to R84, R94 to R96): the register map, the array memory as the host sees it, the
drain points, the binding of the ports and a port that fails. -/

namespace Sys2Proof

open Sys2Proof.Machine Sys2Proof.Config

/-! ### The register map -/

/-- A block that is not BUSY makes the host's next move. -/
theorem step_move {s : State} {m : HostMove} {rest : List HostMove} (hb : s.status.busy = false)
    (hm : s.moves = m :: rest) : step s = hostStep { s with moves := rest } m := by
  simp [step, blockStep, hb, idleStep, hm]

theorem hostStep_read {s : State} {off : Nat} (h8 : off % 8 = 0) : hostStep s (.read off) = .next (hostRead s off) :=
  if_pos h8

theorem hostStep_write {s : State} {off : Nat} {v : Word} (h8 : off % 8 = 0) :
    hostStep s (.write off v) = .next (regWrite s off v) := if_pos h8

/-- Word `i` of ARR stands at offset `0x1000 + 8 i`. -/
theorem arrIndex_word {s : State} {i : Nat} (hi : i < s.params.arrWords) : arrIndex s (0x1000 + 8 * i) = some i := by
  rw [arrIndex, if_pos (by omega)]
  congr 1; omega

/-- An offset below or above the window of ARR names no word. -/
theorem arrIndex_outside {s : State} {off : Nat} (h : off < 0x1000 ∨ 0x1000 + 8 * s.params.arrWords ≤ off) :
    arrIndex s off = none := if_neg (by omega)

/-- Above the registers a read returns a word of ARR, or 0. -/
theorem regRead_above {s : State} {off : Nat} (h : 0x048 ≤ off) :
    regRead s off = ((arrIndex s off).map s.memRead).getD 0 := by
  unfold regRead
  split
  case h_10 => cases arrIndex s off <;> rfl
  all_goals omega

/-- Above the operand registers a write stores a word of ARR, or is ignored. -/
theorem regWrite_above {s : State} {off : Nat} (v : Word) (h : 0x020 ≤ off) :
    regWrite s off v = ((arrIndex s off).map (s.memWrite · v)).getD s := by
  unfold regWrite
  split
  case h_5 => cases arrIndex s off <;> rfl
  all_goals omega

theorem regRead_word {s : State} {i : Nat} (hi : i < s.params.arrWords) :
    regRead s (0x1000 + 8 * i) = s.memRead i := by
  rw [regRead_above (by omega), arrIndex_word hi]; rfl

theorem regWrite_word {s : State} {i : Nat} (v : Word) (hi : i < s.params.arrWords) :
    regWrite s (0x1000 + 8 * i) v = s.memWrite i v := by
  rw [regWrite_above v (by omega), arrIndex_word hi]; rfl

theorem regRead_reserved {s : State} {off : Nat} (h : 0x048 ≤ off)
    (hout : off < 0x1000 ∨ 0x1000 + 8 * s.params.arrWords ≤ off) : regRead s off = 0 := by
  rw [regRead_above h, arrIndex_outside hout]; rfl

theorem regWrite_ignored {s : State} {off : Nat} (v : Word) (h : 0x020 ≤ off)
    (hout : off < 0x1000 ∨ 0x1000 + 8 * s.params.arrWords ≤ off) : regWrite s off v = s := by
  rw [regWrite_above v h, arrIndex_outside hout]; rfl

/-- Outside FAULT a write of CMD starts the command (30_encoding.md R120). -/
theorem cmdWrite_ready {s : State} (v : Word) (hf : s.status.fault = false) :
    cmdWrite s v = { s with cmd := v, status := { s.status with busy := true } } := by
  simp [cmdWrite, hf]

/-- Settles O7, offset by offset. -/
theorem registerMap : Obligations.RegisterMap := by
  intro s rest hb
  refine ⟨fun off h8 hm => ⟨regRead { s with moves := rest } off, ?_, ?_⟩, fun off w h8 hm => ?_⟩
  · rw [step_move hb hm, hostStep_read h8]; rfl
  · refine ⟨?_, ?_, ?_, ?_, ?_, ?_, ?_, ?_, ?_, fun h h' => regRead_reserved h (.inl h'), fun i hi h => ?_,
      fun h => regRead_reserved (by omega) (.inr h)⟩
    case refine_10 => rw [h]; exact regRead_word hi
    all_goals rintro rfl; rfl
  · rw [step_move hb hm, hostStep_write h8]
    refine ⟨fun h hf => ?_, ?_, ?_, ?_, fun i hi h => ?_, fun h => ?_⟩
    case refine_1 => rw [h]; exact congrArg _ (cmdWrite_ready (s := { s with moves := rest }) w hf)
    case refine_5 => rw [h]; exact congrArg _ (regWrite_word w hi)
    case refine_6 => rw [regWrite_ignored (s := { s with moves := rest }) w (by omega) (by dsimp only; omega)]
    all_goals rintro rfl; rfl

/-- Settles O8, by the laws of the array memory. -/
theorem arrWriteRead : Obligations.ArrWriteRead := by
  intro s rest i v hb hi hm
  refine ⟨State.memWrite { s with moves := rest } i v, ?_, rfl, ?_, fun j hj => ?_, fun hwf => ?_⟩
  · rw [step_move hb hm, hostStep_write (by omega)]; exact congrArg _ (regWrite_word v hi)
  · rw [memRead_memWrite, if_pos rfl]
  · rw [State.memWrite_arr, arrLookup_arrInsert, if_neg hj]
  · exact memWf_memWrite v hi hwf

/-! ### The bits of bytes (20_memory.md R87) -/

/-- The stream bits of bytes, bit 0 of each byte first. -/
def byteBits (bytes : List Byte) : List Bool := bytes.flatMap (fun b => (List.range 8).map (fun i => b.getLsbD i))

theorem byteBits_cons (b : Byte) (rest : List Byte) :
    byteBits (b :: rest) = (List.range 8).map (fun i => b.getLsbD i) ++ byteBits rest := rfl

theorem byteBits_length (bytes : List Byte) : (byteBits bytes).length = 8 * bytes.length := by
  induction bytes with
  | nil => rfl
  | cons b rest ih =>
    rw [byteBits_cons, List.length_append, ih, List.length_map, List.length_range, List.length_cons]
    ring

/-- Bit `8 j + i` of the stream is bit `i` of byte `j`. -/
theorem byteBits_getElem? (bytes : List Byte) {j i : Nat} (hj : j < bytes.length) (hi : i < 8) :
    (byteBits bytes)[8 * j + i]? = some (bytes[j].getLsbD i) := by
  induction bytes generalizing j with
  | nil => simp at hj
  | cons b rest ih =>
    rw [byteBits_cons]
    cases j with
    | zero => rw [List.getElem?_append_left (by simpa using hi)]; simp [hi]
    | succ j =>
      rw [List.getElem?_append_right (by simp; omega), List.getElem_cons_succ, ← ih (by simpa using hj)]
      congr 1; simp; omega

/-- The stream bits determine the bytes. -/
theorem byteBits_injective {xs ys : List Byte} (h : byteBits xs = byteBits ys) : xs = ys := by
  have hlen : xs.length = ys.length := by
    have := congrArg List.length h
    rw [byteBits_length, byteBits_length] at this
    omega
  refine List.ext_getElem hlen fun j hx hy => BitVec.eq_of_getLsbD_eq fun i hi => ?_
  have hbit := byteBits_getElem? xs hx hi
  rw [h, byteBits_getElem? ys hy hi] at hbit
  exact (Option.some.inj hbit).symm

/-! ### The drain points and the binding of the ports -/

/-- A drain point that ends without error leaves the sink with every bit of WBITS (20_memory.md R94). -/
theorem exec_drained {i : Instr} {s t : State} (hi : i ≠ .sreset) (hd : (commandOf i).drain = true)
    (h : exec i s = .next t) (hf : t.status.fault = false) : t.wbits.length = 8 * t.committed := by
  cases exec_commandEnd hi h with
  | done s1 hb =>
    have h8 := body_drain hd hb
    simp only [State.drawn_wbits, State.endBusy_wbits, State.settle_wbits, State.drawn_committed,
      State.endBusy_committed, State.settle_committed, commitTarget, hd, if_true]
    omega
  | early => simp at hf
  | late _ _ hl => simp [lateFacts_fault hl] at hf

/-- `TakeByte` takes a byte of the source only (40_bitio.md R173). -/
theorem takeByte_inside {src : Source} {e : ErrCode} {k : Nat} {x : Byte × Nat} (h : takeByte src e k = .ok x) :
    ceil8 k < src.bytes.length := by
  obtain ⟨k1, hk1, h⟩ := bind_ok h
  have hpos := rAlign_pos hk1
  split_ifs at h
  omega

/-- `R.SYNC` takes the 8 bytes from the next byte boundary on, which lie in the source. -/
theorem syncLoop_bytes {src : Source} : ∀ (n v k : Nat) (x : Nat × Nat), 0 < n → syncLoop src n v k = .ok x →
    x.2 = 8 * (ceil8 k + n) ∧ ceil8 k + n ≤ src.bytes.length
  | 1, _, _, _, _, h => by
    obtain ⟨⟨b, k1⟩, hbyte, hend⟩ := bind_ok h
    cases hend
    exact ⟨takeByte_pos hbyte, takeByte_inside hbyte⟩
  | n + 2, v, k, x, _, h => by
    obtain ⟨⟨b, k1⟩, hbyte, hrest⟩ := bind_ok h
    have hpos := takeByte_pos hbyte
    have hnext : ceil8 k1 = ceil8 k + 1 := by unfold ceil8 at *; omega
    obtain ⟨hend, hin⟩ := syncLoop_bytes (n + 1) _ _ x (Nat.succ_pos n) hrest
    rw [hnext] at hend hin
    exact ⟨by omega, by omega⟩

/-- Where `R.SYNC` ends without error, no byte is pulled ahead: the accumulator held at most 7 bytes, and the marker has
8 (20_memory.md R94). -/
theorem exec_rSync_drained {s t : State} (hs : StreamSound s) (h : exec .rSync s = .next t)
    (hf : t.status.fault = false) : t.rpos = 8 * t.pulled := by
  cases exec_commandEnd (by decide) h with
  | done s1 hb =>
    obtain ⟨⟨v, p⟩, hloop, hb⟩ := bind_ok (show bodyRSync s = _ from hb)
    obtain ⟨_, _, hb⟩ := bind_ok hb
    cases hb
    obtain ⟨hpos, hin⟩ : p = 8 * (ceil8 s.rpos + 8) ∧ ceil8 s.rpos + 8 ≤ s.src.length :=
      syncLoop_bytes 8 0 s.rpos (v, p) (by norm_num) hloop
    have hahead := hs.pulledAhead
    simp only [pulledAfter, pullTarget, commandOf, State.drawn_rpos, State.endBusy_rpos, State.settle_rpos,
      State.setR_rpos, State.setRpos_rpos, State.drawn_pulled, State.endBusy_pulled, State.settle_pulled]
    unfold ceil8 at *
    omega
  | early => simp at hf
  | late _ _ hl => simp [lateFacts_fault hl] at hf

/-- The bits of a source bound where the reader holds no byte ahead are the next ones of the input stream
(40_bitio.md R180). -/
theorem inputHolds_bindSource {s : State} (bytes : List Byte) (failAt : Option Nat) (hr : s.rpos = 8 * s.pulled)
    (hp : s.pulled ≤ s.src.length) : InputHolds (bindSource s bytes failAt) (byteBits bytes) := by
  intro i hi
  have hlen := byteBits_length bytes
  have hj : i / 8 < bytes.length := by omega
  have htake : (s.src.take s.pulled).length = s.pulled := by simpa using hp
  have hbit : (byteBits bytes)[i]? = some (bytes[i / 8].getLsbD (i % 8)) := by
    rw [← byteBits_getElem? bytes hj (Nat.mod_lt i (by norm_num)), Nat.div_add_mod]
  have hbyte : (s.src.take s.pulled ++ bytes).getD (s.pulled + i / 8) 0 = bytes[i / 8] := by
    rw [List.getD_eq_getElem?_getD, List.getElem?_append_right (by omega), htake, Nat.add_sub_cancel_left,
      List.getElem?_eq_getElem hj, Option.getD_some]
  have hdiv : (s.rpos + i) / 8 = s.pulled + i / 8 := by omega
  have hmod : (s.rpos + i) % 8 = i % 8 := by omega
  rw [List.getElem?_eq_getElem hi] at hbit
  rw [Option.some.inj hbit]
  simp only [inputBit, bindSource, hdiv, hmod, hbyte]
  rw [if_pos (by rw [List.length_append, htake]; omega)]

/-- The move that binds a source is taken where the reader holds no byte ahead, and refused elsewhere (log 15). -/
theorem hostStep_bindSource (s : State) (bytes : List Byte) (failAt : Option Nat) :
    hostStep s (.bindSource bytes failAt) =
      if s.rpos = 8 * s.pulled then .next (bindSource s bytes failAt) else .refused .sourceHandedOverMidStream := by
  simp [hostStep, sourceDrained]

/-- The move that binds a sink is taken where the sink has every bit of WBITS, and refused elsewhere (log 15). -/
theorem hostStep_bindSink (s : State) (failAt : Option Nat) :
    hostStep s (.bindSink failAt) =
      if s.wbits.length = 8 * s.committed then .next (bindSink s failAt) else .refused .sinkHandedOverMidStream := by
  simp [hostStep, sinkDrained, State.wpos]

/-- Settles O60: a drain point commits to the byte boundary it leaves; the moves that bind a port test for it. -/
theorem portBinding : Obligations.PortBinding := by
  refine ⟨fun i s t hi _ _ h hf => ?_, fun s t _ hs h hf => exec_rSync_drained hs h hf,
    fun s rest failAt hb => ⟨fun bytes hm => ?_, fun hm => ?_⟩⟩
  · have hdrain : i ≠ .sreset ∧ (commandOf i).drain = true := by
      simp only [List.mem_cons, List.not_mem_nil, or_false] at hi
      rcases hi with rfl | rfl | rfl | rfl | rfl <;> exact ⟨by decide, rfl⟩
    exact exec_drained hdrain.1 hdrain.2 h hf
  · rw [step_move hb hm, hostStep_bindSource]
    refine ⟨fun hr hp => ⟨_, if_pos hr, rfl, ?_, rfl, inputHolds_bindSource bytes failAt hr hp⟩, fun hr => if_neg hr⟩
    simpa [bindSource] using hp
  · rw [step_move hb hm, hostStep_bindSink]
    exact ⟨fun hw => if_pos hw, fun hw => if_neg hw⟩

/-! ### A port that fails -/

/-- A drain point hands over every complete byte, so a sink that refuses one of them fails it (20_memory.md R96). -/
theorem sinkFailure_of_drain {c : Command} {s : State} {w p j : Nat} (hside : c.side = .writer) (hd : c.drain = true)
    (hf : s.sinkFail = some j) (hlo : s.committed ≤ j) (hhi : j < w / 8) :
    sinkFailure c s w p = some (drawIn (max s.wpos (8 * j + 8)) w (resourceInfo s.draws)) := by
  simp [sinkFailure, hf, hside, commitTarget, hd, hlo, hhi]

/-- A command whose steps end, and whose port fails, raises RESOURCE as a late error. -/
theorem runCommand_portFailure {c : Command} {s s1 : State} {info : Nat} (hb : c.body s = .ok s1)
    (hpf : portFailure c s s1.wpos s1.rpos = some info) :
    ∃ e : Raise, e.code = .resource ∧ e.info = info ∧ runCommand c s = .next (s.takeLate c e).drawn := by
  simp only [runCommand, hb, finish, hpf]
  exact ⟨_, rfl, rfl, rfl⟩

/-- `WAlign()` brings the writer to the next byte boundary (40_bitio.md R162). -/
theorem alignBits_eq_padBits (s : State) : alignBits s.wpos = padBits s := by
  unfold alignBits padBits State.wpos ceil8
  congr 1; omega

theorem length_padBits (s : State) : s.wbits.length + (padBits s).length = 8 * ceil8 s.wbits.length := by
  unfold padBits ceil8
  rw [List.length_replicate]; omega

theorem bodyWAlign_open {s : State} (ho : s.wclosed = false) : bodyWAlign s = .ok (s.emit (padBits s)) := by
  rw [bodyWAlign, checkOpen_open ho, alignBits_eq_padBits]; rfl

/-- A source that fails at the byte of the next bit, or before it, fails `TakeBit()` (40_bitio.md R170). -/
theorem takeBit_fails {s : State} {k j : Nat} (hf : s.srcFail = some j) (hj : j ≤ s.src.length) (hk : j ≤ k / 8) :
    takeBit s.source k = .error { code := .resource, info := k } := by
  have hfails : s.source.fails (k / 8) = true := by simp [Source.fails, State.source, hf, hj, hk]
  rw [takeBit, if_pos hfails]

/-- Settles O28: W.ALIGN hands over every complete byte, the refused one among them; R.BIT meets its failure at its
first act. -/
theorem portFailureRaises : Obligations.PortFailureRaises := by
  refine ⟨fun s j ho hs hf hlo hhi => ?_, fun s j hf hj hk => ?_⟩
  · have hlen : (s.emit (padBits s)).wpos = 8 * ceil8 s.wbits.length := by
      simpa [State.wpos] using length_padBits s
    have hpf := sinkFailure_of_drain (c := commandOf .wAlign) (w := 8 * ceil8 s.wbits.length) (p := s.rpos) rfl rfl hf
      hlo (by omega)
    obtain ⟨e, hcode, hinfo, hrun⟩ := runCommand_portFailure (c := commandOf .wAlign) (bodyWAlign_open ho)
      (by rw [hlen, portFailure, State.emit_rpos, hpf])
    have hfacts := lateFacts s (commandOf .wAlign) e
    have hraises := raisesLate_takeLate s (commandOf .wAlign) e
    rw [hcode, hinfo] at hraises
    have hrange : max s.wpos (8 * j + 8) ≤ 8 * ceil8 s.wbits.length :=
      max_le (by unfold State.wpos ceil8; omega) (by omega)
    obtain ⟨hge, hle⟩ := drawIn_le (resourceInfo s.draws) hrange
    exact ⟨_, _, hrun, hraises, (le_max_left _ _).trans hge, hle, hfacts.cap j hf hlo⟩
  · have hbody : bodyRBit s = .error { code := .resource, info := s.rpos } := by
      rw [bodyRBit, takeBit_fails hf hj hk]; rfl
    exact ⟨_, runCommand_early hbody rfl rfl, raises_early _ _ _ _⟩

end Sys2Proof
end

section
/-! The byte-level writes and reads (40_bitio.md R165 to R168, R176, R177, 41_scalar_codecs.md R235): the bytes emitted,
the bytes taken, and the bytes pulled (20_memory.md R86). -/

namespace Sys2Proof

open Sys2Proof.Machine Sys2Proof.Config

/-! ### Whole bytes written -/

/-- The bits of byte `i` of a word. -/
theorem natBits_wordByte (a : Word) (i : Nat) :
    natBits 8 (a.toNat / 256 ^ i % 256) = (List.range 8).map (fun j => a.getLsbD (8 * i + j)) := by
  refine List.map_congr_left fun j hj => ?_
  have hj : j < 8 := List.mem_range.mp hj
  rw [show 256 ^ i = 2 ^ (8 * i) by rw [pow_mul]; norm_num, show 256 = 2 ^ 8 by norm_num, Nat.testBit_mod_two_pow,
    Nat.testBit_div_two_pow, decide_eq_true hj, Bool.true_and, Nat.add_comm]
  rfl

/-- A sync block is the 8 bytes of a word, the most significant first (40_bitio.md R168). -/
theorem syncBits_word (a : Word) :
    syncBits a.toNat = (List.range 64).map (fun i => a.getLsbD (8 * (7 - i / 8) + i % 8)) := by
  have hrange : List.range 64 = (List.range 8).flatMap (fun k => (List.range 8).map (fun j => 8 * k + j)) := by decide
  have hbytes : [7, 6, 5, 4, 3, 2, 1, 0] = (List.range 8).map (fun k => 7 - k) := by decide
  rw [syncBits, hbytes, hrange, List.flatMap_map, List.map_flatMap]
  congr 1; funext k
  rw [natBits_wordByte, List.map_map]
  refine List.map_congr_left fun j hj => ?_
  have hj : j < 8 := List.mem_range.mp hj
  simp only [Function.comp_apply]
  congr 1; omega

/-- A drain point of the writer that emits the pad bits and then whole bytes ends without error over sound ports. -/
theorem runCommand_padded {c : Command} {s s1 : State} {bits : List Bool} (hp : PortsSound s) (hs : StreamSound s)
    (hd : c.drain = true) (hr : c.pull = .none) (h8 : bits.length % 8 = 0) (hb : c.body s = .ok s1)
    (hs1 : s1 = { s with wbits := s.wbits ++ (padBits s ++ bits), wclosed := s1.wclosed }) :
    ∃ t, runCommand c s = .next t ∧ EndsDrained s s1 t := by
  have hpad := length_padBits s
  have hw : s1.wbits.length = 8 * ceil8 s.wbits.length + bits.length := by
    rw [hs1, List.length_append, List.length_append]; omega
  refine runCommand_drained hp hs hb hd hr ?_ (by omega) (by rw [hs1]) (by rw [hs1]) (by rw [hs1]) (by rw [hs1])
  rw [hs1, List.length_append]
  exact Nat.le_add_right _ _

/-- Settles O26: each of the four emits the pad bits, then no, 8 or 64 bits. -/
theorem alignedWrites : Obligations.AlignedWrites := by
  intro s ho hs hp
  refine ⟨?_, ?_, ?_, ?_⟩
  · refine runCommand_padded (c := commandOf .wByte) (bits := (List.range 8).map fun i => s.a.getLsbD i) hp hs rfl rfl
      (by simp) ?_ rfl
    change bodyWByte s = _
    rw [bodyWByte, checkOpen_open ho, alignBits_eq_padBits]; rfl
  · refine runCommand_padded (c := commandOf .wAlign) (bits := []) hp hs rfl rfl rfl (bodyWAlign_open ho)
      (by rw [List.append_nil])
  · refine runCommand_padded (c := commandOf .wClose) (bits := []) hp hs rfl rfl rfl ?_ (by rw [List.append_nil])
    change bodyWClose s = _
    rw [bodyWClose, checkOpen_open ho, alignBits_eq_padBits]; rfl
  · refine runCommand_padded (c := commandOf .wSync)
      (bits := (List.range 64).map fun i => s.a.getLsbD (8 * (7 - i / 8) + i % 8)) hp hs rfl rfl (by simp) ?_ rfl
    change bodyWSync s = _
    rw [bodyWSync, checkOpen_open ho, alignBits_eq_padBits, syncBits_word]; rfl

/-! ### Whole bytes read -/

/-- Clear pad bits are skipped (40_bitio.md R172). -/
theorem rAlign_padClear {s : State} (hp : PortsSound s) (hc : PadClear s) :
    rAlign s.source s.rpos = .ok (8 * ceil8 s.rpos) := rAlign_clear hp.2 hc

/-- `TakeByte` after clear pad bits takes the byte at the boundary (40_bitio.md R173). -/
theorem takeByte_padClear {s : State} (hp : PortsSound s) (hc : PadClear s) (e : ErrCode) {b : Byte}
    (hb : s.src[ceil8 s.rpos]? = some b) : takeByte s.source e s.rpos = .ok (b, 8 * ceil8 s.rpos + 8) := by
  rw [← takeByte_aligned hp.2 e hb, takeByte, takeByte, rAlign_padClear hp hc, rAlign_aligned _ (by omega)]

/-- The bytes the source holds end inside it. -/
theorem sourceHolds_inside {s : State} {bytes : List Byte} (h : SourceHolds s bytes) (hne : bytes ≠ []) :
    ceil8 s.rpos + bytes.length ≤ s.src.length := by
  have hpos : 0 < bytes.length := List.length_pos_iff.mpr hne
  have hlast := (List.getElem?_eq_some_iff.mp (h (bytes.length - 1) (by omega))).1
  omega

/-- A byte-level read of `n` bytes after clear pad bits pulls those of them that were not pulled before, and no other
(20_memory.md R86). -/
theorem runCommand_readBytes {c : Command} {s : State} {v : Word} {n : Nat} (hp : PortsSound s) (hs : StreamSound s)
    (hd : c.drain = false) (hq : c.pull = .bytes) (hn : ceil8 s.rpos + n ≤ s.src.length)
    (hb : c.body s = .ok ((s.setRpos (8 * ceil8 s.rpos + 8 * n)).setR v)) :
    ∃ t, runCommand c s = .next t ∧ EndsRead s { s with r := v, rpos := 8 * ceil8 s.rpos + 8 * n } t ∧
      t.pulled = max s.pulled (ceil8 s.rpos + n) := by
  obtain ⟨t, ht, he⟩ := runCommand_read hp hs hb hd (.inr ⟨hq, Nat.le_add_right _ _⟩) rfl rfl rfl rfl rfl
  refine ⟨t, ht, he, ?_⟩
  have hsource := hs.pulledSource
  have hceil : ceil8 (8 * ceil8 s.rpos + 8 * n) = ceil8 s.rpos + n := by unfold ceil8; omega
  rw [runCommand_ok hp hb] at ht
  cases ht
  simp only [State.drawn_pulled, State.endBusy_pulled, State.settle_pulled, State.setR_rpos, State.setRpos_rpos,
    pulledAfter, pullTarget, hq, hceil]
  omega

/-- Settles O30: the re-alignment alone, and before one byte. -/
theorem readByteAndAlign : Obligations.ReadByteAndAlign := by
  intro s hs hp hc
  refine ⟨?_, fun b hb => ?_⟩
  · have hbody : bodyRAlign s = .ok (s.setRpos (8 * ceil8 s.rpos)) := by
      rw [bodyRAlign, rAlign_padClear hp hc]; rfl
    refine runCommand_read (c := commandOf .rAlign) hp hs hbody rfl (.inl ⟨rfl, ?_⟩) rfl rfl rfl rfl rfl
    change s.rpos ≤ 8 * ceil8 s.rpos
    unfold ceil8; omega
  · have hbody : bodyRByte s = .ok ((s.setRpos (8 * ceil8 s.rpos + 8 * 1)).setR (b.setWidth 64)) := by
      rw [bodyRByte, takeByte_padClear hp hc _ (hb 0 Nat.one_pos), ok_bind, ← BitVec.ofNat_toNat]; rfl
    exact runCommand_readBytes (c := commandOf .rByte) hp hs rfl rfl
      (sourceHolds_inside hb (List.cons_ne_nil _ _)) hbody

/-! ### Var-bytes -/

/-- `VBY.D` over the code of the zig-zag pattern of `v` returns `v` (41_scalar_codecs.md R235, R236 (c)). -/
theorem exec_vbyD_code {s : State} {v : Word} {bytes : List Byte} (hs : StreamSound s) (hp : PortsSound s)
    (hc : PadClear s) (hb : SourceHolds s bytes) (hcode : VarBytes (zigZagWord v).toNat bytes) :
    ∃ t, exec .vbyD s = .next t ∧ EndsRead s { s with r := v, rpos := 8 * ceil8 s.rpos + 8 * bytes.length } t ∧
      t.pulled = max s.pulled (ceil8 s.rpos + bytes.length) := by
  have hvalue : BitVec.ofInt 64 (unZigZag (zigZagWord v).toNat) = v := by
    rw [← zigZag_word, unZigZag_zigZag, BitVec.ofInt_toInt]
  have hbody : bodyVbyD s = .ok ((s.setRpos (8 * ceil8 s.rpos + 8 * bytes.length)).setR v) := by
    rw [bodyVbyD, rAlign_padClear hp hc, ok_bind, vbyLoop_code hp.2 (zigZagWord v).isLt hcode hb, ok_bind]
    simp only [hvalue]
  exact runCommand_readBytes (c := commandOf .vbyD) hp hs rfl rfl (sourceHolds_inside hb hcode.1) hbody

/-- The bytes an open VBY.E emits are the code of the zig-zag pattern of `A` (41_scalar_codecs.md R234). -/
theorem varBytes_of_exec_vbyE {e e' : State} {bytes : List Byte} (ho : e.wclosed = false) (hp : PortsSound e)
    (h : exec .vbyE e = .next e') (hw : e'.wbits = e.wbits ++ (padBits e ++ byteBits bytes)) :
    VarBytes (zigZagWord e.a).toNat bytes := by
  have hbody : (commandOf .vbyE).body e = .ok (e.emit (padBits e ++ vbyBits (zigZagWord e.a).toNat)) := by
    change bodyVbyE e = _
    rw [bodyVbyE, checkOpen_open ho, alignBits_eq_padBits, ← zigZag_word]; rfl
  rw [exec_commandOf _ (by decide), runCommand_ok hp hbody] at h
  cases h
  obtain ⟨code, hcode, hbits⟩ := vbyBits_code (zigZagWord e.a).isLt
  have hsame : byteBits code = byteBits bytes := by
    rw [byteBits, ← hbits]
    exact List.append_cancel_left (List.append_cancel_left hw)
  exact byteBits_injective hsame ▸ hcode

/-- A command that raises over sound ports raises its own error, before or after it changed anything. -/
theorem runCommand_raisesLate {c : Command} {s : State} {e : Raise} (hp : PortsSound s) (hb : c.body s = .error e) :
    ∃ t, runCommand c s = .next t ∧ RaisesLate t c.op e.code e.info := by
  by_cases hl : e.late = true ∨ e.info ≠ c.side.pos s
  · exact ⟨_, runCommand_late hp hb hl, raisesLate_takeLate _ _ _⟩
  · obtain ⟨hlate, hinfo⟩ := not_or.mp hl
    exact ⟨_, runCommand_early hb (by simpa using hlate) (not_not.mp hinfo), rfl, rfl⟩

/-- Flags set up to the end of the source, or up to the tenth byte, make VBY.D raise `TRUNCATION` after these bytes
(41_scalar_codecs.md R235). -/
theorem exec_vbyD_truncated {s : State} {bytes : List Byte} (hp : PortsSound s) (hc : PadClear s)
    (hb : SourceHolds s bytes) (hflag : ∀ b ∈ bytes, b.getLsbD 7 = true)
    (hend : bytes.length = 10 ∨ (bytes.length ≤ 9 ∧ s.src.length = ceil8 s.rpos + bytes.length)) :
    ∃ t, exec .vbyD s = .next t ∧ RaisesLate t 0x37 .truncation (8 * ceil8 s.rpos + 8 * bytes.length) := by
  have hloop := vbyLoop_truncated hp.2 bytes 11 0 0 (ceil8 s.rpos) hflag hb (by omega) (by simpa using hend)
  have hbody : (commandOf .vbyD).body s =
      .error { code := .truncation, info := 8 * ceil8 s.rpos + 8 * bytes.length } := by
    change bodyVbyD s = _
    rw [bodyVbyD, rAlign_padClear hp hc, ok_bind, show (0 : Nat) = 7 * 0 from rfl, hloop]; rfl
  exact runCommand_raisesLate hp hbody

/-- Settles O41: the code of a value comes back, VBY.E emits such a code, and a code without end raises. -/
theorem varBytesDecode : Obligations.VarBytesDecode := by
  refine ⟨fun s v bytes hs hp hc hb hcode => exec_vbyD_code hs hp hc hb hcode, ?_,
    fun s bytes hp hc hb hflag => ⟨?_, ?_⟩⟩
  · intro e e' s bytes ho _ hpe he hw hs hp hc hb
    obtain ⟨t, ht, hends, -⟩ := exec_vbyD_code hs hp hc hb (varBytes_of_exec_vbyE ho hpe he hw)
    exact ⟨t, ht, hends⟩
  · exact fun hle hend => exec_vbyD_truncated hp hc hb hflag (.inr ⟨hle, hend⟩)
  · intro hten
    have h := exec_vbyD_truncated hp hc hb hflag (.inl hten)
    rwa [hten] at h

end Sys2Proof
end

section
/-! Command words (30_encoding.md R120 to R129): the decoder inverts the encoder, exactly the words R124 calls illegal
are rejected, and a step of a BUSY block executes the command its word decodes to. -/

namespace Sys2Proof

open Sys2Proof.Machine Sys2Proof.Config

/-! ### The opcode map -/

/-- A row of R123 that reads neither field gives its command for fields that are 0. -/
theorem readsNone_fields {n slot : Nat} {i j : Instr} (h : readsNone n slot j = .ok i) (hn : j.nField = 0)
    (hs : j.slotField = 0) : j.opcode = i.opcode ∧ n = i.nField ∧ slot = i.slotField := by
  unfold readsNone at h
  split_ifs at h with h1 h2
  cases h
  exact ⟨rfl, (not_not.mp h1).trans hn.symm, (not_not.mp h2).trans hs.symm⟩

/-- A row of R123 that reads N gives its command for a SLOT that is 0. -/
theorem readsN_fields {n slot : Nat} {i j : Instr} (h : readsN slot j = .ok i) (hn : j.nField = n)
    (hs : j.slotField = 0) : j.opcode = i.opcode ∧ n = i.nField ∧ slot = i.slotField := by
  unfold readsN at h
  split_ifs at h with h1
  cases h
  exact ⟨rfl, hn.symm, (not_not.mp h1).trans hs.symm⟩

/-- A row of R123 that reads SLOT gives its command for an N that is 0. -/
theorem readsSlot_fields {n slot : Nat} {i j : Instr} (h : readsSlot n j = .ok i) (hn : j.nField = 0)
    (hs : j.slotField = slot) : j.opcode = i.opcode ∧ n = i.nField ∧ slot = i.slotField := by
  unfold readsSlot at h
  split_ifs at h with h1
  cases h
  exact ⟨rfl, (not_not.mp h1).trans hn.symm, hs.symm⟩

/-- The opcode map takes exactly the fields of a command to the command (30_encoding.md R123, R124). -/
theorem decodeOp_ok_iff {op n slot : Nat} {i : Instr} :
    decodeOp op n slot = .ok i ↔ op = i.opcode ∧ n = i.nField ∧ slot = i.slotField := by
  constructor
  · intro h
    unfold decodeOp at h
    split at h
    -- N only, SLOT only, both fields, no row, and neither field
    case h_3 | h_9 | h_15 | h_16 | h_17 | h_18 | h_25 | h_28 => exact readsN_fields h rfl rfl
    case h_30 | h_31 | h_32 | h_33 | h_34 | h_36 | h_37 | h_39 => exact readsSlot_fields h rfl rfl
    case h_35 | h_38 => cases h; exact ⟨rfl, rfl, rfl⟩
    case h_40 => cases h
    all_goals exact readsNone_fields h rfl rfl
  · rintro ⟨rfl, rfl, rfl⟩
    cases i <;> rfl

/-- An opcode of the table has a command for any values of the fields its row reads, with 0 in the others. -/
theorem decodeOp_table {op : Nat} (h : op ∈ tableOps) (n slot : Nat) :
    ∃ i, decodeOp op (if op ∈ countOps then n else 0) (if op ∈ slotOps then slot else 0) = .ok i := by
  revert op
  simp only [tableOps, List.cons_append, List.nil_append, List.forall_mem_cons, List.not_mem_nil, IsEmpty.forall_iff,
    implies_true, and_true]
  and_intros <;> exact ⟨_, rfl⟩

/-- The fields a command does not read are 0 (30_encoding.md R123, R124). -/
theorem fields_legal (i : Instr) : i.opcode ∈ tableOps ∧ (i.opcode ∉ countOps → i.nField = 0) ∧
    (i.opcode ∉ slotOps → i.slotField = 0) := by
  cases i <;> simp [Instr.opcode, Instr.nField, Instr.slotField, tableOps, countOps, slotOps]

/-- The opcode map accepts exactly the fields R124 does not call illegal. -/
theorem decodeOp_legal_iff {op n slot : Nat} :
    (∃ i, decodeOp op n slot = .ok i) ↔
      op ∈ tableOps ∧ (op ∉ countOps → n = 0) ∧ (op ∉ slotOps → slot = 0) := by
  constructor
  · rintro ⟨i, hi⟩
    obtain ⟨rfl, rfl, rfl⟩ := decodeOp_ok_iff.mp hi
    exact fields_legal i
  · rintro ⟨hop, hn, hs⟩
    have hn' : (if op ∈ countOps then n else 0) = n := ite_eq_left_iff.mpr fun h => (hn h).symm
    have hs' : (if op ∈ slotOps then slot else 0) = slot := ite_eq_left_iff.mpr fun h => (hs h).symm
    have h := decodeOp_table hop n slot
    rwa [hn', hs'] at h

/-! ### Words -/

/-- A word decodes to a command exactly where its fields are those of the command and its reserved bits are 0. -/
theorem decode_ok_iff {w : Word} {i : Instr} :
    decode w = .ok i ↔
      reservedField w = 0 ∧ opField w = i.opcode ∧ nFieldOf w = i.nField ∧ slotFieldOf w = i.slotField := by
  unfold decode
  split_ifs with h
  · exact ⟨fun h' => (nomatch h'), fun h' => absurd h'.1 h⟩
  · rw [decodeOp_ok_iff, and_iff_right (not_not.mp h)]

theorem opcode_lt (i : Instr) : i.opcode < 256 := by cases i <;> simp [Instr.opcode]

/-- Settles O1: the word of a well-formed command has the command's fields. -/
theorem decodeOfEncode : Obligations.DecodeOfEncode := by
  intro i hi
  obtain ⟨hop, hn, hslot, hreserved⟩ := Laws.statement_of_opcode (opcode_lt i) hi
  exact decode_ok_iff.mpr ⟨hreserved, hop, hn, hslot⟩

/-- A word is the sum of its fields in their places (30_encoding.md R121). -/
theorem word_eq_fields (w : Word) :
    w.toNat = reservedField w * 16777216 + slotFieldOf w * 65536 + nFieldOf w * 256 + opField w := by
  unfold reservedField slotFieldOf nFieldOf opField
  omega

/-- Settles O2: the fields determine the word, and each of them has 8 bits. -/
theorem encodeOfDecode : Obligations.EncodeOfDecode := by
  intro w i h
  obtain ⟨hreserved, hop, hn, hslot⟩ := decode_ok_iff.mp h
  have hword := word_eq_fields w
  rw [hreserved, hop, hn, hslot, Nat.zero_mul, Nat.zero_add] at hword
  have hn8 : nFieldOf w < 256 := Nat.mod_lt _ (by norm_num)
  have hslot8 : slotFieldOf w < 256 := Nat.mod_lt _ (by norm_num)
  constructor
  · rw [encode, ← hword, BitVec.ofNat_toNat, BitVec.setWidth_eq]
  · simp [Instr.wellFormed, ← hn, ← hslot, hn8, hslot8]

/-! ### Illegal words -/

/-- The bit fields of R121 are 0 where their numbers are. -/
theorem extractLsb'_eq_zero_iff {w : Word} {start len : Nat} :
    w.extractLsb' start len = 0 ↔ w.toNat / 2 ^ start % 2 ^ len = 0 := by
  rw [← BitVec.toNat_inj, BitVec.extractLsb'_toNat, Nat.shiftRight_eq_div_pow]
  rfl

theorem toNat_extractLsb'_eq_opField (w : Word) : (w.extractLsb' 0 8).toNat = opField w := by
  rw [BitVec.extractLsb'_toNat]; rfl

/-- The legal words of R124 by the fields the decoder reads. -/
theorem legalWord_iff (w : Word) :
    LegalWord w ↔ reservedField w = 0 ∧ opField w ∈ tableOps ∧ (opField w ∉ countOps → nFieldOf w = 0) ∧
      (opField w ∉ slotOps → slotFieldOf w = 0) := by
  have hreserved : w.extractLsb' 24 40 = 0 ↔ reservedField w = 0 := by
    rw [extractLsb'_eq_zero_iff, reservedField]
    have := w.isLt
    omega
  have hn : w.extractLsb' 8 8 = 0 ↔ nFieldOf w = 0 := extractLsb'_eq_zero_iff
  have hslot : w.extractLsb' 16 8 = 0 ↔ slotFieldOf w = 0 := extractLsb'_eq_zero_iff
  rw [LegalWord, hreserved, hn, hslot, toNat_extractLsb'_eq_opField]

theorem legalWord_iff_decode (w : Word) : LegalWord w ↔ ∃ i, decode w = .ok i := by
  rw [legalWord_iff, ← decodeOp_legal_iff]
  simp only [decode_ok_iff, decodeOp_ok_iff, exists_and_left]

/-- Settles O3: the legal words are those that decode, and the engine raises for the others (30_encoding.md R124). -/
theorem illegalWords : Obligations.IllegalWords := by
  refine ⟨legalWord_iff_decode, fun s hs => ?_⟩
  rw [toNat_extractLsb'_eq_opField, engineStep]
  cases hd : decode s.cmd with
  | ok i => exact absurd ((legalWord_iff_decode s.cmd).mpr ⟨i, hd⟩) hs
  | error e => rfl

/-! ### Sample words -/

/-- Settles O4: the decoder is evaluated on each word. -/
theorem sampleWords : Obligations.SampleWords := by
  unfold Obligations.SampleWords
  decide

/-! ### Steps -/

theorem engineStep_decoded {s : State} {i : Instr} (hd : decode s.cmd = .ok i) : engineStep s = exec i s := by
  rw [engineStep, hd]

/-- A BUSY block executes its command, where the host's next move is neither the reset input nor a STATUS read. -/
theorem step_busy {s : State} (hb : s.status.busy = true) (hreset : s.moves.head? ≠ some .reset)
    (hpoll : s.moves.head? ≠ some (.read 0x028)) : step s = engineStep s := by
  rw [step, blockStep, if_pos hb, busyStep]
  split
  case h_1 rest hm => simp [hm] at hreset
  case h_2 off rest hm =>
    rw [if_neg]
    rintro ⟨rfl, -⟩
    simp [hm] at hpoll
  case h_3 => rfl

/-- A STATUS read of a BUSY block returns STATUS before the command ends, or waits for its end (log 3). -/
theorem step_poll {s : State} {rest : List HostMove} (hb : s.status.busy = true)
    (hm : s.moves = .read 0x028 :: rest) :
    step s = engineStep s ∨
      step s = .next { s with moves := rest, readData := s.status.word, draws := s.draws + 1 } := by
  rw [step, blockStep, if_pos hb, busyStep, hm]
  cases hp : pollLandsFirst s.draws with
  | false => exact .inl (if_neg (by simp))
  | true => exact .inr (if_pos ⟨rfl, rfl⟩)

/-- The 64 bits of a command word are the whole word. -/
theorem withFetchWord_toNat (s : State) (w : Word) : s.withFetchWord 64 w.toNat = acceptWord s w := by
  rw [State.withFetchWord, Nat.mod_eq_of_lt w.isLt, BitVec.ofNat_toNat, BitVec.setWidth_eq]

/-- Settles O5: the two kinds of a BUSY step, and an accepted word, which leaves no move before its execution. -/
theorem stepRunsCommand : Obligations.StepRunsCommand := by
  refine ⟨fun s i hb hd => ⟨fun hreset hpoll => ?_, fun rest hm => ?_⟩, fun s i hi => ?_⟩
  · rw [step_busy hb hreset hpoll, engineStep_decoded hd]
  · rw [← engineStep_decoded hd]
    exact step_poll hb hm
  · have hbusy := step_busy (s := acceptWord s (encode i)) rfl (by simp [acceptWord]) (by simp [acceptWord])
    rw [withFetchWord_toNat, hbusy, engineStep_decoded (s := acceptWord s (encode i)) (decodeOfEncode i hi)]
    rfl

end Sys2Proof
end

section
/-! The two sides (30_encoding.md R123, 60_exceptions.md R405): what the commands of one stream leave of the other on
every outcome, and which words of ARR a command can write. -/

namespace Sys2Proof

open Sys2Proof.Machine Sys2Proof.Config

/-! ### The side of a command -/

/-- A writer-side command reads no source byte and could write neither R nor a decoder. -/
theorem writerSide_writes {i : Instr} (hs : (commandOf i).side = .writer) (s : State) :
    (commandOf i).pull = .none ∧ ((commandOf i).writes s).r = false ∧ ((commandOf i).writes s).ad = {} ∧
      ((commandOf i).writes s).cd = none ∧ ((commandOf i).writes s).hd = none := by
  cases i <;> cases hs
  case ceEnc.refl slot => simp only [commandOf, ceEncWrites]; split <;> simp
  case heEnc.refl slot => simp only [commandOf, heEncWrites]; split <;> simp
  all_goals exact ⟨rfl, rfl, rfl, rfl, rfl⟩

/-- A reader-side command could write neither the writer's flag nor an encoder. -/
theorem readerSide_writes {i : Instr} (hs : (commandOf i).side = .reader) (s : State) :
    ((commandOf i).writes s).closed = false ∧ ((commandOf i).writes s).ae = {} ∧
      ((commandOf i).writes s).ce = none ∧ ((commandOf i).writes s).he = none := by
  cases i <;> cases hs
  case cdDec.refl slot => simp only [commandOf, cdDecWrites]; split <;> exact ⟨rfl, rfl, rfl, rfl⟩
  all_goals exact ⟨rfl, rfl, rfl, rfl⟩

/-! ### How a command ends, with what its late error carries -/

/-- The ARR window and the value of R of a late error are those of the command's own error, or of the state its steps
left where a port failed. -/
def Carried (i : Instr) (s : State) (e : Raise) : Prop :=
  (∃ e', (commandOf i).body s = .error e' ∧ e.window = e'.window ∧ (e.result = none ∨ e.result = e'.result)) ∨
    ∃ s1, (commandOf i).body s = .ok s1 ∧ e.window = (commandOf i).window s1 ∧ e.result = none

/-- No writer-side error carries a value of R. -/
theorem Carried.result {i : Instr} {s : State} {e : Raise} (h : Carried i s e) (hs : (commandOf i).side = .writer) :
    e.result = none := by
  rcases h with ⟨e', he', -, hnone | hsame⟩ | ⟨-, -, -, hnone⟩
  · exact hnone
  · exact hsame.trans (writer_result hs he')
  · exact hnone

/-- The window is empty, or that of USA.D or USAN.D. -/
theorem Carried.window {i : Instr} {s : State} {e : Raise} (h : Carried i s e) :
    e.window.2 = 0 ∨
      (i = .usaD ∧ 0 ≤ s.opA ∧ e.window.1 = s.opA.toNat ∧ e.window.1 + e.window.2 ≤ s.params.arrWords) ∨
      (i = .usanD ∧ 0 ≤ s.opA ∧ 0 ≤ s.opB ∧ s.opA + s.opB ≤ s.params.arrWords ∧
        e.window = (s.opA.toNat, s.opB.toNat)) := by
  refine late_window ?_
  rcases h with ⟨e', he', hw, -⟩ | ⟨s1, hs1, hw, -⟩
  · exact .inl ⟨e', he', hw⟩
  · exact .inr ⟨s1, hs1, hw⟩

/-- Every outcome of a command but SRESET: the ports settle after its steps, an error before any change, or a late
error that carries what `Carried` says. -/
theorem exec_carried {i : Instr} {s t : State} (hi : i ≠ .sreset) (h : exec i s = .next t) :
    (∃ s1 k, (commandOf i).body s = .ok s1 ∧
        t = ((s1.settle k (pulledAfter (commandOf i) s s1.rpos)).endBusy).drawn) ∨
      (∃ e info, t = (s.takeError i.opcode e info).drawn) ∨
      ∃ e, LateFacts s (commandOf i) e t ∧ Carried i s e := by
  rw [exec_commandOf i hi] at h
  rcases runCommand_cases (commandOf i) s with ⟨e, -, -, -, hr⟩ | ⟨e, hr, hc⟩ | ⟨s1, hb, -, hr⟩ <;>
    (rw [hr] at h; cases h)
  · exact .inr (.inl ⟨e.code, e.info, by rw [commandOf_op]⟩)
  · exact .inr (.inr ⟨e, lateFacts _ _ _, hc⟩)
  · exact .inl ⟨s1, _, hb, rfl⟩

/-! ### The writer's side and the reader's side -/

/-- A writer-side command leaves R, the reader and the decoders. -/
theorem exec_writerSide {i : Instr} {s t : State} (hi : i ≠ .sreset) (hs : (commandOf i).side = .writer)
    (h : exec i s = .next t) :
    t.r = s.r ∧ t.rpos = s.rpos ∧ t.pulled = s.pulled ∧ t.ad = s.ad ∧ t.cd = s.cd ∧ t.hd = s.hd := by
  obtain ⟨hpull, hr, had, hcd, hhd⟩ := writerSide_writes hs s
  rcases exec_carried hi h with ⟨s1, k, hb, rfl⟩ | ⟨e, info, rfl⟩ | ⟨e, hl, hc⟩
  · obtain ⟨more, hs1⟩ := body_writer hs hb
    rw [hs1]
    simp [pulledAfter, hpull]
  · simp
  · have had' : t.ad = s.ad := by rw [hl.ad, had, freedAd_none]
    exact ⟨hl.r hr (hc.result hs), hl.rpos hs, hl.pulled hpull, had', hl.cd hcd, hl.hd hhd⟩

/-- A reader-side command leaves the writer's bits and flag and the encoders. -/
theorem exec_readerSide {i : Instr} {s t : State} (hs : (commandOf i).side = .reader) (h : exec i s = .next t) :
    t.wbits = s.wbits ∧ t.wclosed = s.wclosed ∧ t.ae = s.ae ∧ t.ce = s.ce ∧ t.he = s.he := by
  have hi : i ≠ .sreset := by rintro rfl; cases hs
  obtain ⟨hclosed, hae, hce, hhe⟩ := readerSide_writes hs s
  rcases exec_carried hi h with ⟨s1, k, hb, rfl⟩ | ⟨e, info, rfl⟩ | ⟨e, hl, -⟩
  · obtain ⟨hs1, -⟩ := body_reader hs hb
    rw [hs1]
    simp
  · simp
  · have hae' : t.ae = s.ae := by rw [hl.ae, (lateWrites_eq (commandOf i) s e).2 hae, freedAe_none]
    exact ⟨hl.wbits hs, hl.wclosed hclosed, hae', hl.ce hce, hl.he hhe⟩

/-! ### Who writes ARR -/

/-- A reader-side body other than USA.D and USAN.D writes no word of ARR. -/
theorem body_reader_arr {i : Instr} {s s1 : State} (hs : (commandOf i).side = .reader) (h1 : i ≠ .usaD)
    (h2 : i ≠ .usanD) (hb : (commandOf i).body s = .ok s1) : s1.arr = s.arr := by
  cases i
  case usaD => exact absurd rfl h1
  case usanD => exact absurd rfl h2
  case adDec =>
    obtain ⟨_, _, hb⟩ := bind_ok hb
    obtain ⟨_, _, hb⟩ := bind_ok hb
    obtain ⟨⟨_, _⟩, hd, hb⟩ := bind_ok hb
    obtain ⟨ad, k, rfl, -⟩ := adDecode_frame hd
    cases hb; rfl
  case cdInit slot =>
    obtain ⟨_, _, _, _, _, _, _, _, _, rfl⟩ := bodyCdInit_ok hb
    rfl
  case cdDec slot =>
    obtain ⟨_, _, hb⟩ := bind_ok (show bodyCdDec slot s = _ from hb)
    split at hb
    · split_ifs at hb
      · cases hb; rfl
      · obtain ⟨⟨_, _⟩, hd, hb⟩ := bind_ok hb
        obtain ⟨ad, k, rfl, -⟩ := adDecode_frame hd
        cases hb; rfl
    · cases hb
    · cases hb
  case hdInit n slot =>
    obtain ⟨_, _, hb⟩ := bind_ok (show bodyHdInit n slot s = _ from hb)
    obtain ⟨_, _, hb⟩ := bind_ok hb
    obtain ⟨⟨_, _⟩, _, hb⟩ := bind_ok hb
    dsimp only at hb
    split_ifs at hb
    · obtain ⟨⟨_, _, _, _⟩, _, hb⟩ := bind_ok hb
      cases hb; rfl
    · cases hb; rfl
  case hdDec slot =>
    obtain ⟨_, _, hb⟩ := bind_ok (show bodyHdDec slot s = _ from hb)
    split at hb
    · obtain ⟨⟨_, _⟩, _, hb⟩ := bind_ok hb
      cases hb; rfl
    · cases hb
    · cases hb
  case rBit | rBits | rByte | rAlign | rSync | bndD | uvbD | svbD | vbyD | adReset =>
    (repeat' (obtain ⟨_, _, hb⟩ := bind_ok hb))
    cases hb; rfl
  all_goals cases hs

/-- Only USA.D and USAN.D write ARR, where they raise nothing. -/
theorem body_arr {i : Instr} {s s1 : State} (h1 : i ≠ .usaD) (h2 : i ≠ .usanD)
    (hb : (commandOf i).body s = .ok s1) : s1.arr = s.arr := by
  rcases commandOf_side i with hs | hs
  · obtain ⟨more, hs1⟩ := body_writer hs hb
    rw [hs1]
  · exact body_reader_arr hs h1 h2 hb

/-- The words of ARR after a late error. -/
theorem lateFacts_arr {s t : State} {c : Command} {e : Raise} (hl : LateFacts s c e t) :
    t.arr = (s.scrambleWindow s.draws e.window.1 e.window.2).arr := by rw [hl.eq]

/-- Only USA.D and USAN.D write ARR, on every outcome. -/
theorem exec_arr {i : Instr} {s t : State} (h1 : i ≠ .usaD) (h2 : i ≠ .usanD) (h : exec i s = .next t) :
    t.arr = s.arr := by
  by_cases hi : i = .sreset
  · subst hi; cases h; rfl
  rcases exec_carried hi h with ⟨s1, k, hb, rfl⟩ | ⟨e, info, rfl⟩ | ⟨e, hl, hc⟩
  · simpa using body_arr h1 h2 hb
  · simp
  · rw [lateFacts_arr hl]
    rcases hc.window with h0 | ⟨rfl, -⟩ | ⟨rfl, -⟩
    · rw [h0]; rfl
    · exact absurd rfl h1
    · exact absurd rfl h2

/-- Word `j` lies in the part of ARR the command could write: from `A` on, and for USAN.D below `A + B`. -/
def ArrWritable (i : Instr) (s : State) (j : Nat) : Prop :=
  s.opA ≤ j ∧ (i = .usanD → (j : Int) < s.opA + s.opB)

/-- `USA.D` writes from word `A` on (42_sorted_array.md R264). -/
theorem bodyUsaD_outside {s s1 : State} {j : Nat} (hj : ¬ArrWritable .usaD s j) (hb : bodyUsaD s = .ok s1) :
    arrLookup j s1.arr = arrLookup j s.arr := by
  have hj : ¬s.opA ≤ j := fun h => hj ⟨h, fun h' => nomatch h'⟩
  obtain ⟨_, _, hb⟩ := bind_ok hb
  obtain ⟨⟨n, _⟩, _, hb⟩ := bind_ok hb
  obtain ⟨_, _, hb⟩ := bind_ok hb
  obtain ⟨⟨xs, _⟩, _, hb⟩ := bind_ok hb
  cases hb
  rw [State.setR_arr, State.setRpos_arr, arrLookup_memWriteList, if_neg (by omega)]

/-- `USAN.D` writes the `B` words from word `A` on (42_sorted_array.md R266). -/
theorem bodyUsanD_outside {s s1 : State} {j : Nat} (hj : ¬ArrWritable .usanD s j) (hb : bodyUsanD s = .ok s1) :
    arrLookup j s1.arr = arrLookup j s.arr := by
  have hj : ¬(s.opA ≤ j ∧ (j : Int) < s.opA + s.opB) := fun h => hj ⟨h.1, fun _ => h.2⟩
  obtain ⟨_, hwin, hb⟩ := bind_ok hb
  obtain ⟨⟨xs, _⟩, hxs, hb⟩ := bind_ok hb
  obtain ⟨hA, hB, -⟩ : 0 ≤ s.opA ∧ 0 ≤ s.opB ∧ _ := (windowOk_iff s).1 (require_ok.1 hwin)
  obtain ⟨hlen, -⟩ := decUsaBody_sorted (inWindow_ok.1 hxs)
  cases hb
  rw [State.setR_arr, State.setRpos_arr, arrLookup_memWriteList, List.length_map, hlen, if_neg (by omega)]

/-- USA.D and USAN.D leave the words outside their windows, on every outcome. -/
theorem exec_arr_outside {i : Instr} {s t : State} {j : Nat} (hi : i = .usaD ∨ i = .usanD) (hj : ¬ArrWritable i s j)
    (h : exec i s = .next t) : arrLookup j t.arr = arrLookup j s.arr := by
  have hne : i ≠ .sreset := by rintro rfl; simp at hi
  rcases exec_carried hne h with ⟨s1, k, hb, rfl⟩ | ⟨e, info, rfl⟩ | ⟨e, hl, hc⟩
  · rcases hi with rfl | rfl
    · exact bodyUsaD_outside (s1 := s1) hj hb
    · exact bodyUsanD_outside (s1 := s1) hj hb
  · simp
  · rw [lateFacts_arr hl]
    refine arrLookup_scrambleWindow _ _ _ _ _ ?_
    rcases hc.window with h0 | ⟨rfl, hA, hfirst, -⟩ | ⟨rfl, hA, hB, -, hwin⟩
    · omega
    · have : ¬s.opA ≤ j := fun h => hj ⟨h, fun h' => nomatch h'⟩
      omega
    · have : ¬(s.opA ≤ j ∧ (j : Int) < s.opA + s.opB) := fun h => hj ⟨h.1, fun _ => h.2⟩
      rw [hwin]
      dsimp only
      omega

/-- Settles O22: each side by what its commands could write, ARR by the windows of the two commands that write it. -/
theorem sidesSeparate : Obligations.SidesSeparate := by
  intro i s t h
  refine ⟨fun hop => ?_, fun hop => ?_, fun h1 h2 => exec_arr h1 h2 h, fun hi j hj => ?_, fun hi j hj => ?_⟩
  · have hside : i ≠ .sreset ∧ i ≠ .usaD ∧ i ≠ .usanD ∧ (commandOf i).side = .writer := by
      cases i <;> simp [Instr.opcode, commandOf] at hop ⊢
    obtain ⟨hi, h1, h2, hs⟩ := hside
    obtain ⟨hr, hrpos, hpulled, had, hcd, hhd⟩ := exec_writerSide hi hs h
    exact ⟨hr, hrpos, hpulled, had, hcd, hhd, exec_arr h1 h2 h⟩
  · have hs : (commandOf i).side = .reader := by
      cases i <;> simp [Instr.opcode, commandOf] at hop ⊢
    exact exec_readerSide hs h
  · exact exec_arr_outside (.inl hi) (fun hin => absurd hin.1 (not_le.mpr hj)) h
  · refine exec_arr_outside (.inr hi) (fun hin => ?_) h
    have hlo : s.a.toInt ≤ j := hin.1
    have hhi : (j : Int) < s.a.toInt + s.b.toInt := hin.2 hi
    omega

end Sys2Proof
end

section
/-! The argument checks on the fields of the word (30_encoding.md R125, 60_exceptions.md R403): a SLOT or an N out of
its range raises `INVALID_ARGUMENT` and changes nothing else. -/

namespace Sys2Proof

open Sys2Proof.Machine Sys2Proof.Config

/-- A command whose steps raise at their stream's position, before any write, changes nothing else
(60_exceptions.md R405). -/
theorem exec_raises {i : Instr} {s : State} {e : ErrCode} (hi : i ≠ .sreset)
    (hb : (commandOf i).body s = .error { code := e, info := (commandOf i).side.pos s }) :
    ∃ t, exec i s = .next t ∧ Raises s t i.opcode e ((commandOf i).side.pos s) := by
  rw [exec_commandOf i hi, runCommand_early hb rfl rfl, commandOf_op]
  exact ⟨_, rfl, raises_early _ _ _ _⟩

/-- A slot out of range raises at the position of the side. -/
theorem checkSlot_error {s : State} {side : Side} {slot : Nat} (h : s.params.nSlots ≤ slot) :
    checkSlot s side slot = .error { code := .invalidArgument, info := side.pos s } := by
  simp [checkSlot, Nat.not_lt.mpr h]

/-- Every command that reads SLOT checks it first (60_exceptions.md R403). -/
theorem body_checkSlot {i : Instr} (hop : i.opcode ∈ slotOps) (s : State) :
    ∃ f, (commandOf i).body s = checkSlot s (commandOf i).side i.slotField >>= f := by
  cases i
  case ceInit | ceEnc | ceFin | heInit | heEnc | heFin => exact ⟨_, rfl⟩
  case cdInit | cdDec | hdInit | hdDec => exact ⟨_, rfl⟩
  all_goals simp [Instr.opcode, slotOps] at hop

/-- The stream of a command that reads SLOT (60_exceptions.md R406). -/
theorem slotOps_pos {i : Instr} (hop : i.opcode ∈ slotOps) (s : State) :
    (commandOf i).side.pos s = if i.opcode ∈ [0x68, 0x69, 0x78, 0x79] then s.rpos else s.wbits.length := by
  cases i
  case ceInit | ceEnc | ceFin | heInit | heEnc | heFin => rfl
  case cdInit | cdDec | hdInit | hdDec => rfl
  all_goals simp [Instr.opcode, slotOps] at hop

/-! ### The count N -/

theorem bodyRBits_range {n : Nat} (h : 64 < n) (s : State) :
    bodyRBits n s = .error { code := .invalidArgument, info := s.rpos } := by
  rw [bodyRBits, decide_eq_false (by omega)]; rfl

theorem encUVarBits_range {noisy : Nat} (h : 63 < noisy) (v : Int) (w : Nat) :
    encUVarBits v noisy w = .error { code := .invalidArgument, info := w } := by
  rw [encUVarBits, decide_eq_false (by omega)]; rfl

theorem encSVarBits_range {noisy : Nat} (h : 63 < noisy) (v : Int) (w : Nat) :
    encSVarBits v noisy w = .error { code := .invalidArgument, info := w } := by
  rw [encSVarBits, decide_eq_false (by omega)]; rfl

theorem decUVarBits_range {noisy : Nat} (h : 63 < noisy) (src : Source) (k : Nat) :
    decUVarBits src noisy k = .error { code := .invalidArgument, info := k } := by
  rw [decUVarBits, decide_eq_false (by omega)]; rfl

theorem decSVarBits_range {noisy : Nat} (h : 63 < noisy) (src : Source) (k : Nat) :
    decSVarBits src noisy k = .error { code := .invalidArgument, info := k } := by
  rw [decSVarBits, decide_eq_false (by omega)]; rfl

/-- A width outside 2 to 62 is refused by both resets of the arithmetic coder (43_arithmetic.md R293, R296). -/
theorem widthCheck_false {n : Nat} (h : n < 2 ∨ 62 < n) : (decide (2 ≤ n) && decide (n ≤ 62)) = false := by
  rw [Bool.and_eq_false_iff, decide_eq_false_iff_not, decide_eq_false_iff_not]
  omega

/-- Settles O33: each command makes the check first, but for the writer's closed check of the two encoders. -/
theorem fieldOutOfRange : Obligations.FieldOutOfRange := by
  refine ⟨fun s i hop h => ?_, fun s n =>
    ⟨fun h => ?_, fun h ho => ⟨?_, ?_⟩, fun h => ⟨?_, ?_⟩, fun h => ⟨?_, ?_⟩⟩⟩
  · rw [← slotOps_pos hop s]
    obtain ⟨rest, hbody⟩ := body_checkSlot hop s
    refine exec_raises (by rintro rfl; simp [Instr.opcode, slotOps] at hop) ?_
    rw [hbody, checkSlot_error h, error_bind]
  · exact exec_raises (i := .rBits n) (by simp) (bodyRBits_range h s)
  · refine exec_raises (i := .uvbE n) (by simp) ?_
    change bodyUvbE n s = _
    rw [bodyUvbE, checkOpen_open ho, ok_bind, encUVarBits_range h]; rfl
  · refine exec_raises (i := .svbE n) (by simp) ?_
    change bodySvbE n s = _
    rw [bodySvbE, checkOpen_open ho, ok_bind, encSVarBits_range h]; rfl
  · refine exec_raises (i := .uvbD n) (by simp) ?_
    change bodyUvbD n s = _
    rw [bodyUvbD, decUVarBits_range h]; rfl
  · refine exec_raises (i := .svbD n) (by simp) ?_
    change bodySvbD n s = _
    rw [bodySvbD, decSVarBits_range h]; rfl
  · refine exec_raises (i := .aeReset n) (by simp) ?_
    change bodyAeReset n s = _
    rw [bodyAeReset, widthCheck_false h]; rfl
  · refine exec_raises (i := .adReset n) (by simp) ?_
    change bodyAdReset n s = _
    rw [bodyAdReset, widthCheck_false h]; rfl

end Sys2Proof
end

section
/-! The accumulators (40_bitio.md R179): a command does the same whatever bytes the sink has and the reader has
pulled. -/

namespace Sys2Proof

open Sys2Proof.Machine Sys2Proof.Config

/-! ### Two states that differ in the accumulators only -/

/-- What `SameButHidden` lets differ: the bytes the sink has, with their count, and the bytes pulled. -/
structure Hidden where
  sink : List Byte
  committed : Nat
  pulled : Nat

/-- The same state with other accumulators. -/
def withHidden (h : Hidden) (s : State) : State :=
  { s with sink := h.sink, committed := h.committed, pulled := h.pulled }

theorem sameButHidden_iff {s s' : State} : SameButHidden s s' ↔ ∃ h, s' = withHidden h s :=
  ⟨fun hs => ⟨⟨s'.sink, s'.committed, s'.pulled⟩, hs⟩, by rintro ⟨h, rfl⟩; rfl⟩

theorem withHidden_memWriteList (h : Hidden) (vs : List Word) (s : State) (i : Nat) :
    (withHidden h s).memWriteList i vs = withHidden h (s.memWriteList i vs) := by
  induction vs generalizing s i with
  | nil => rfl
  | cons v vs ih => exact ih (s.memWrite i v) (i + 1)

theorem withHidden_scrambleWindow (h : Hidden) (m : Nat) (s : State) (n i : Nat) :
    (withHidden h s).scrambleWindow n i m = withHidden h (s.scrambleWindow n i m) := by
  induction m generalizing s i with
  | zero => rfl
  | succ m ih => exact ih (s.memWrite i (lateArr i n)) (i + 1)

theorem withHidden_scrambleStream (h : Hidden) (s : State) (n : Nat) (side : Side) (moved : Bool) :
    (withHidden h s).scrambleStream n side moved = withHidden h (s.scrambleStream n side moved) := by
  cases moved <;> cases side <;> rfl

/-! ### Two runs of the steps of a command -/

/-- The second run raises what the first one raises, and else answers `g` of its answer. -/
def Follows {α β : Type} (g : α → β) (x : Except Raise α) (y : Except Raise β) : Prop := y = x.map g

section Follows

variable {α β γ δ : Type}

theorem Follows.ok {g : α → β} (a : α) : Follows g (.ok a) (.ok (g a)) := rfl

theorem Follows.err {g : α → β} (e : Raise) : Follows g (.error e) (.error e) := rfl

/-- A step that the accumulators do not enter. -/
theorem Follows.same (x : Except Raise α) : Follows id x x := by cases x <;> rfl

theorem Follows.bind {g : α → β} {g' : γ → δ} {x : Except Raise α} {y : Except Raise β} {f : α → Except Raise γ}
    {f' : β → Except Raise δ} (hx : Follows g x y) (hf : ∀ a, Follows g' (f a) (f' (g a))) :
    Follows g' (x >>= f) (y >>= f') := by
  cases x <;> cases hx
  · rfl
  · exact hf _

/-- After a step that the accumulators do not enter, the two runs go on from one answer. -/
theorem Follows.next {g : γ → δ} {x : Except Raise α} {f : α → Except Raise γ} {f' : α → Except Raise δ}
    (hf : ∀ a, Follows g (f a) (f' a)) : Follows g (x >>= f) (x >>= f') :=
  (Follows.same x).bind hf

theorem Follows.ite {g : α → β} {c : Prop} [Decidable c] {x x' : Except Raise α} {y y' : Except Raise β}
    (h : Follows g x y) (h' : Follows g x' y') : Follows g (if c then x else x') (if c then y else y') := by
  split_ifs
  · exact h
  · exact h'

theorem Follows.resourceLate {g : α → β} {x : Except Raise α} {y : Except Raise β} (hx : Follows g x y) :
    Follows g (resourceLate x) (resourceLate y) := by
  cases x <;> cases hx <;> rfl

end Follows

/-! ### The steps of the commands -/

section Steps

variable (h : Hidden) (s : State)

@[simp] theorem withHidden_params : (withHidden h s).params = s.params := rfl
@[simp] theorem withHidden_ae : (withHidden h s).ae = s.ae := rfl
@[simp] theorem withHidden_opA : (withHidden h s).opA = s.opA := rfl
@[simp] theorem withHidden_ceAt (slot : Nat) : (withHidden h s).ceAt slot = s.ceAt slot := rfl
@[simp] theorem withHidden_cdAt (slot : Nat) : (withHidden h s).cdAt slot = s.cdAt slot := rfl
@[simp] theorem withHidden_heAt (slot : Nat) : (withHidden h s).heAt slot = s.heAt slot := rfl
@[simp] theorem withHidden_hdAt (slot : Nat) : (withHidden h s).hdAt slot = s.hdAt slot := rfl

theorem aeEncode_follows (tab : List Int) (x : Int) :
    Follows (withHidden h) (aeEncode s tab x) (aeEncode (withHidden h s) tab x) := by
  refine .next fun _ => .next fun _ => .next fun _ => .next fun _ => ?_
  rw [withHidden_params, withHidden_ae]
  cases encUpdate s.params.ufMax s.ae (cumLow tab x.toNat).toNat (cumHigh tab x.toNat).toNat (tabTotal tab).toNat with
  | error n => exact .err _
  | ok r => exact .ok _

theorem adDecode_follows (tab : List Int) :
    Follows (Prod.map id (withHidden h)) (adDecode s tab) (adDecode (withHidden h s) tab) :=
  .next fun _ => .next fun _ => .resourceLate (.next fun _ => .next fun _ => .ok _)

theorem bodyCeInit_follows (slot : Nat) :
    Follows (withHidden h) (bodyCeInit slot s) (bodyCeInit slot (withHidden h s)) := by
  refine .next fun _ => ?_
  dsimp only
  rw [withHidden_ceAt]
  cases (s.ceAt slot).pass with
  | idle | done => exact .ok _
  | pass1 => exact .next fun _ => .next fun _ => .next fun _ => .ok _
  | pass2 => exact .err _

theorem bodyCeEnc_follows (slot : Nat) :
    Follows (withHidden h) (bodyCeEnc slot s) (bodyCeEnc slot (withHidden h s)) := by
  refine .next fun _ => ?_
  dsimp only
  rw [withHidden_ceAt]
  cases (s.ceAt slot).pass with
  | idle | done => exact .err _
  | pass1 => exact .next fun _ => .next fun _ => .ok _
  | pass2 => exact .next fun _ => .ite (aeEncode_follows h s _ _) (.ok _)

theorem bodyCdInit_follows (slot : Nat) :
    Follows (withHidden h) (bodyCdInit slot s) (bodyCdInit slot (withHidden h s)) := by
  refine .next fun _ => .next fun _ => .next fun _ => .next fun _ => .ite (.next fun _ => ?_) (.next fun _ => ?_)
  all_goals exact .next fun _ => .next fun _ => .ok _

theorem bodyCdDec_follows (slot : Nat) :
    Follows (withHidden h) (bodyCdDec slot s) (bodyCdDec slot (withHidden h s)) := by
  refine .next fun _ => ?_
  rw [withHidden_cdAt]
  cases s.cdAt slot with
  | idle => exact .err _
  | ready syms cum =>
    cases syms with
    | nil => exact .err _
    | cons x rest => exact .ite (.ok _) ((adDecode_follows h s _).bind fun _ => .ok _)

theorem bodyHeInit_follows (n slot : Nat) :
    Follows (withHidden h) (bodyHeInit n slot s) (bodyHeInit n slot (withHidden h s)) :=
  .next fun _ => .next fun _ => .next fun _ => .ite (.next fun _ => .next fun _ => .ok _) (.ok _)

theorem bodyHeEnc_follows (slot : Nat) :
    Follows (withHidden h) (bodyHeEnc slot s) (bodyHeEnc slot (withHidden h s)) := by
  refine .next fun _ => ?_
  dsimp only
  rw [withHidden_heAt, withHidden_opA]
  cases (s.heAt slot).pass with
  | idle | done => exact .err _
  | pass1 => exact .next fun _ => .ok _
  | pass2 =>
    cases codeOf s.opA (s.heAt slot).codes with
    | none => exact .err _
    | some code => exact .next fun _ => .ok _

theorem bodyHdInit_follows (n slot : Nat) :
    Follows (withHidden h) (bodyHdInit n slot s) (bodyHdInit n slot (withHidden h s)) :=
  .next fun _ => .next fun _ => .next fun _ => .ite (.next fun _ => .ok _) (.ok _)

theorem bodyHdDec_follows (slot : Nat) :
    Follows (withHidden h) (bodyHdDec slot s) (bodyHdDec slot (withHidden h s)) := by
  refine .next fun _ => ?_
  rw [withHidden_hdAt]
  cases s.hdAt slot with
  | idle | empty => exact .err _
  | ready t => exact .next fun _ => .ok _

/-- The words a decoder writes to ARR go to the same indices in both runs. -/
theorem memWriteList_follows (vs : List Word) (i p : Nat) (r : Word) :
    Follows (withHidden h) (.ok (((s.memWriteList i vs).setRpos p).setR r))
      (.ok ((((withHidden h s).memWriteList i vs).setRpos p).setR r)) := by
  rw [withHidden_memWriteList]
  exact .ok _

/-- The steps of a command make the same checks, take the same bits and write the same values, whatever the
accumulators hold (40_bitio.md R179). -/
theorem body_follows (i : Instr) :
    Follows (withHidden h) ((commandOf i).body s) ((commandOf i).body (withHidden h s)) := by
  cases i
  case sreset => exact .ok _
  case wBit | wByte | wAlign | wClose | wSync | vbyE => exact .next fun _ => .ok _
  case wBits | bndE | uvbE | svbE => exact .next fun _ => .next fun _ => .ok _
  case rBit | rByte | rAlign | bndD | uvbD | svbD => exact .next fun _ => .ok _
  case rBits | rSync | vbyD => exact .next fun _ => .next fun _ => .ok _
  case usaE | usanE => exact .next fun _ => .ok _
  case usaD => exact .next fun _ => .next fun _ => .next fun _ => .next fun _ => memWriteList_follows h s _ _ _ _
  case usanD => exact .next fun _ => .next fun _ => memWriteList_follows h s _ _ _ _
  case aeReset | adReset => exact .next fun _ => .ok _
  case aeEnc => exact .next fun _ => .next fun _ => .next fun _ => aeEncode_follows h s _ _
  case aeFin => exact .next fun _ => .ite (.next fun _ => .ok _) (.ok _)
  case adDec => exact .next fun _ => .next fun _ => (adDecode_follows h s _).bind fun _ => .ok _
  case ceInit slot => exact bodyCeInit_follows h s slot
  case ceEnc slot => exact bodyCeEnc_follows h s slot
  case ceFin | heFin => exact .next fun _ => .next fun _ => .ok _
  case cdInit slot => exact bodyCdInit_follows h s slot
  case cdDec slot => exact bodyCdDec_follows h s slot
  case heInit n slot => exact bodyHeInit_follows h s n slot
  case heEnc slot => exact bodyHeEnc_follows h s slot
  case hdInit n slot => exact bodyHdInit_follows h s n slot
  case hdDec slot => exact bodyHdDec_follows h s slot

end Steps

/-! ### The end of a command -/

/-- A command that settles the ports, in whatever way, leaves states that differ in the accumulators only. -/
theorem sameButHidden_settle (h : Hidden) (s : State) (k q k' q' : Nat) :
    SameButHidden (s.settle k q) ((withHidden h s).settle k' q') := rfl

theorem SameButHidden.endBusy {s s' : State} (hs : SameButHidden s s') : SameButHidden s.endBusy s'.endBusy := by
  obtain ⟨h, rfl⟩ := sameButHidden_iff.1 hs; rfl

theorem SameButHidden.drawn {s s' : State} (hs : SameButHidden s s') : SameButHidden s.drawn s'.drawn := by
  obtain ⟨h, rfl⟩ := sameButHidden_iff.1 hs; rfl

theorem SameButHidden.takeError {s s' : State} (hs : SameButHidden s s') (op : Nat) (e : ErrCode) (info : Nat) :
    SameButHidden (s.takeError op e info) (s'.takeError op e info) := by
  obtain ⟨h, rfl⟩ := sameButHidden_iff.1 hs; rfl

/-- What a command could write does not depend on the accumulators. -/
theorem lateWrites_withHidden (i : Instr) (h : Hidden) (s : State) (e : Raise) :
    lateWrites (commandOf i) (withHidden h s) e = lateWrites (commandOf i) s e := by
  have hw : (commandOf i).writes (withHidden h s) = (commandOf i).writes s := by cases i <;> rfl
  simp only [lateWrites, hw]

/-- A late error frees the same elements, with the same free values (60_exceptions.md R405). -/
theorem takeLate_sameButHidden (i : Instr) (h : Hidden) (s : State) (e : Raise) :
    SameButHidden (s.takeLate (commandOf i) e) ((withHidden h s).takeLate (commandOf i) e) := by
  have hmoved : e.moved (commandOf i).side (withHidden h s) = e.moved (commandOf i).side s := by
    cases (commandOf i).side <;> rfl
  have hfreed : ∀ (u : State) (w : Writes), (withHidden h u).scramble s.draws w = withHidden h (u.scramble s.draws w) :=
    fun _ _ => rfl
  have hdraws : (withHidden h s).draws = s.draws := rfl
  unfold State.takeLate
  simp only [hmoved, lateWrites_withHidden, hdraws, withHidden_scrambleStream, hfreed, withHidden_scrambleWindow]
  cases e.result with
  | none => exact SameButHidden.takeError (sameButHidden_settle h _ _ _ _ _) _ _ _
  | some v => exact SameButHidden.takeError (sameButHidden_settle h (State.setR _ v) _ _ _ _) _ _ _

/-- Settles O23: the steps of the second run follow those of the first, and sound ports end both in one way. -/
theorem accumulatorsTransparent : Obligations.AccumulatorsTransparent := by
  intro i s s' t t' hi hp hs ht ht'
  obtain ⟨h, rfl⟩ := sameButHidden_iff.1 hs
  have hp' : PortsSound (withHidden h s) := hp
  have hbody : (commandOf i).body (withHidden h s) = _ := body_follows h s i
  rw [exec_commandOf i hi] at ht ht'
  cases hb : (commandOf i).body s with
  | ok s1 =>
    rw [hb] at hbody
    rw [runCommand_ok hp hb] at ht
    rw [runCommand_ok hp' hbody] at ht'
    cases ht; cases ht'
    exact (sameButHidden_settle h s1 _ _ _ _).endBusy.drawn
  | error e =>
    rw [hb] at hbody
    have hpos : (commandOf i).side.pos (withHidden h s) = (commandOf i).side.pos s := by
      cases (commandOf i).side <;> rfl
    by_cases hl : e.late = true ∨ e.info ≠ (commandOf i).side.pos s
    · rw [runCommand_late hp hb hl] at ht
      rw [runCommand_late hp' hbody (by rwa [hpos])] at ht'
      cases ht; cases ht'
      exact (takeLate_sameButHidden i h s e).drawn
    · obtain ⟨hlate, hinfo⟩ := not_or.mp hl
      rw [runCommand_early hb (by simpa using hlate) (not_not.mp hinfo)] at ht
      rw [runCommand_early hbody (by simpa using hlate) (by rw [hpos]; exact not_not.mp hinfo)] at ht'
      cases ht; cases ht'
      exact (hs.takeError _ _ _).drawn

end Sys2Proof
end

section
/-! The bit-stream commands (40_bitio.md R160 to R178): the bits written and read, the sync marker, a closed writer, and
the errors of the reader with the position each reports. -/

namespace Sys2Proof

open Sys2Proof.Machine Sys2Proof.Config

/-! ### The writer -/

/-- The commands whose pseudocode opens with `WCheckOpen()` (40_bitio.md R160). -/
def openCheckedOps : List Nat := [0x10, 0x11, 0x12, 0x13, 0x14, 0x15, 0x30, 0x32, 0x34, 0x36, 0x40, 0x42]

/-- Their steps raise where the check does, with its error. -/
theorem body_closed {i : Instr} {s : State} (hop : i.opcode ∈ openCheckedOps) (hc : s.wclosed = true) :
    (commandOf i).body s = .error { code := .invalidState, info := s.wbits.length } := by
  have hcheck := checkOpen_closed hc
  cases i
  case wBit | wByte | wAlign | wClose | wSync | vbyE => exact congrArg (· >>= _) hcheck
  case wBits | bndE | uvbE | svbE => exact congrArg (· >>= _) hcheck
  case usaE | usanE => exact congrArg (fun x : Except Raise Unit => (x >>= _) >>= _) hcheck
  all_goals simp [Instr.opcode, openCheckedOps] at hop

/-- They are commands of the writer. -/
theorem side_of_openChecked {i : Instr} (hop : i.opcode ∈ openCheckedOps) :
    i ≠ .sreset ∧ (commandOf i).side = .writer := by
  cases i <;> simp [Instr.opcode, openCheckedOps, commandOf] at hop ⊢

/-- Settles O27: the check comes first. -/
theorem closedWriterRefuses : Obligations.ClosedWriterRefuses := by
  intro s i hc hop
  obtain ⟨hi, hside⟩ := side_of_openChecked hop
  have hpos : (commandOf i).side.pos s = s.wbits.length := by rw [hside]; rfl
  have h := exec_raises (s := s) (e := .invalidState) hi (by rw [hpos]; exact body_closed hop hc)
  rwa [hpos] at h

/-- A command of the writer that is no drain point and emits `bits` ends without error over sound ports. -/
theorem runCommand_emit {c : Command} {s : State} {bits : List Bool} (hp : PortsSound s) (hs : StreamSound s)
    (hd : c.drain = false) (hr : c.pull = .none) (hb : c.body s = .ok (s.emit bits)) :
    ∃ t, runCommand c s = .next t ∧ EndsUnread s { s with wbits := s.wbits ++ bits } t :=
  runCommand_unread hp hs hb hd hr (by simp) rfl rfl rfl rfl

/-- Settles O24: one bit of `A`, or the closed writer of R160. -/
theorem writeBit : Obligations.WriteBit := by
  refine ⟨rfl, fun s => ⟨fun ho hs hp => ?_, fun hc => closedWriterRefuses s .wBit hc (by decide)⟩⟩
  refine runCommand_emit (c := commandOf .wBit) hp hs rfl rfl ?_
  change bodyWBit s = _
  rw [bodyWBit, checkOpen_open ho, ok_bind]

theorem bodyWBits_open {n : Nat} {s : State} (ho : s.wclosed = false) (hn : n ≤ 64) :
    bodyWBits n s = .ok (s.emit ((List.range n).map fun i => s.a.getLsbD i)) := by
  rw [bodyWBits, checkOpen_open ho, ok_bind, decide_eq_true hn]; rfl

theorem bodyWBits_range {n : Nat} {s : State} (ho : s.wclosed = false) (hn : 64 < n) :
    bodyWBits n s = .error { code := .invalidArgument, info := s.wbits.length } := by
  rw [bodyWBits, checkOpen_open ho, ok_bind, decide_eq_false (by omega)]; rfl

/-- Settles O25: the low bits of `A`, the closed writer of R160, or a count above 64. -/
theorem writeBits : Obligations.WriteBits := by
  refine fun s n => ⟨fun hn => ?_, fun ho hn hs hp => ?_, fun hc => ?_, fun ho hn => ?_⟩
  · simp only [encode, Instr.slotField, Instr.nField, Instr.opcode, BitVec.toNat_ofNat]
    omega
  · exact runCommand_emit (c := commandOf (.wBits n)) hp hs rfl rfl (bodyWBits_open ho hn)
  · exact closedWriterRefuses s (.wBits n) hc (by simp [Instr.opcode])
  · exact exec_raises (i := .wBits n) (by simp) (bodyWBits_range ho hn)

/-! ### Bits read -/

/-- Bit `i` of the integer of a bit string is its bit `i`. -/
theorem testBit_bitsNat (bits : List Bool) (i : Nat) : (bitsNat bits).testBit i = bits.getD i false := by
  induction bits generalizing i with
  | nil => simp [bitsNat]
  | cons b bits ih =>
    have hbit : bitsNat (b :: bits) = Nat.bit b (bitsNat bits) := by
      rw [bitsNat, Nat.bit_val, Nat.add_comm]
    cases i with
    | zero => rw [hbit, Nat.testBit_bit_zero]; rfl
    | succ i => rw [hbit, Nat.testBit_bit_succ, ih]; rfl

/-- A register takes a string of at most 64 bits as it is. -/
theorem getLsbD_bitsNat {bits : List Bool} (h : bits.length ≤ 64) (i : Nat) :
    (BitVec.ofNat 64 (bitsNat bits)).getLsbD i = bits.getD i false := by
  rw [BitVec.getLsbD_ofNat, testBit_bitsNat]
  by_cases hi : i < 64
  · rw [decide_eq_true hi, Bool.true_and]
  · rw [decide_eq_false hi, Bool.false_and, List.getD_eq_default _ _ (by omega)]

/-- Settles O29: one bit, and up to 64 of them. -/
theorem readBits : Obligations.ReadBits := by
  refine ⟨fun s b hs hp hin => ?_, fun s n bits hn hlen hs hp hin => ?_⟩
  · have hbody : bodyRBit s = .ok ((s.setRpos (s.rpos + 1)).setR (BitVec.ofNat 64 b.toNat)) := by
      rw [bodyRBit, takeBit_some (k := s.rpos) hp.2 (hin 0 Nat.one_pos)]; rfl
    exact runCommand_read (c := commandOf .rBit) hp hs hbody rfl (.inl ⟨rfl, Nat.le_succ _⟩) rfl rfl rfl rfl rfl
  · subst hlen
    have hbody : bodyRBits bits.length s =
        .ok ((s.setRpos (s.rpos + bits.length)).setR (BitVec.ofNat 64 (bitsNat bits))) := by
      rw [bodyRBits, decide_eq_true hn, require_true, ok_bind, takeBits_of_holds hp.2 bits hin]; rfl
    obtain ⟨t, ht, hends⟩ := runCommand_read (c := commandOf (.rBits bits.length)) hp hs hbody rfl
      (.inl ⟨rfl, Nat.le_add_right _ _⟩) rfl rfl rfl rfl rfl
    exact ⟨t, _, ht, hends, getLsbD_bitsNat hn⟩

/-! ### The sync marker (40_bitio.md R178) -/

/-- Byte `n` of an integer, below the bytes above it. -/
theorem div_pow_succ_mul_add (m n : Nat) : m / 256 ^ (n + 1) * 256 + m / 256 ^ n % 256 = m / 256 ^ n := by
  rw [pow_succ, ← Nat.div_div_eq_div_mul]
  exact Nat.div_add_mod' _ _

/-- With the bytes of `m` above the last `n` read, the loop reads the last `n`, the most significant first. -/
theorem syncLoop_bytes_of {s : State} {m : Word} (hf : s.srcFail = none) : ∀ (n j : Nat),
    (∀ i < n, s.src[j + i]? = some (m.extractLsb' (8 * (n - 1 - i)) 8)) →
    syncLoop s.source n (m.toNat / 256 ^ n) (8 * j) = .ok (m.toNat, 8 * j + 8 * n)
  | 0, j, _ => by simp [syncLoop]
  | n + 1, j, hb => by
    have hbyte : (m.extractLsb' (8 * n) 8).toNat = m.toNat / 256 ^ n % 256 := by
      rw [BitVec.extractLsb'_toNat, Nat.shiftRight_eq_div_pow, pow_mul]; rfl
    have hnext : ∀ i < n, s.src[j + 1 + i]? = some (m.extractLsb' (8 * (n - 1 - i)) 8) := by
      intro i hi
      have h := hb (i + 1) (by omega)
      rwa [show j + (i + 1) = j + 1 + i by omega, show n + 1 - 1 - (i + 1) = n - 1 - i by omega] at h
    have hfirst : s.src[j]? = some (m.extractLsb' (8 * n) 8) := hb 0 n.succ_pos
    rw [syncLoop, takeByte_aligned hf _ hfirst, ok_bind]
    dsimp only
    rw [hbyte, div_pow_succ_mul_add, ← Nat.mul_succ,
      syncLoop_bytes_of hf n (j + 1) hnext]
    congr 2; ring

/-- The loop after clear pad bits is the loop at the boundary. -/
theorem syncLoop_padClear {s : State} (hp : PortsSound s) (hc : PadClear s) (n v : Nat) :
    syncLoop s.source (n + 1) v s.rpos = syncLoop s.source (n + 1) v (8 * ceil8 s.rpos) := by
  rw [syncLoop, syncLoop, takeByte, takeByte, rAlign_padClear hp hc, rAlign_aligned _ (by omega)]

/-- `R.SYNC` reads the 8 bytes of the marker. -/
theorem syncLoop_marker {s : State} {m : Word} (hp : PortsSound s) (hc : PadClear s)
    (hb : SourceHolds s ((List.range 8).map fun i => m.extractLsb' (8 * (7 - i)) 8)) :
    syncLoop s.source 8 0 s.rpos = .ok (m.toNat, 8 * ceil8 s.rpos + 64) := by
  have htop : m.toNat / 256 ^ 8 = 0 := Nat.div_eq_of_lt m.isLt
  rw [syncLoop_padClear hp hc, ← htop]
  refine syncLoop_bytes_of hp.2 8 (ceil8 s.rpos) fun i hi => ?_
  rw [hb i (by simpa using hi), List.getElem_map, List.getElem_range]

/-- Settles O31: the marker read is compared with `A`; the 8 bytes are more than the accumulator held. -/
theorem readSync : Obligations.ReadSync := by
  intro s m hs hp hc hb
  have hloop := syncLoop_marker hp hc hb
  refine ⟨fun hm => ?_, fun hm => ?_⟩
  · have hbody : (commandOf .rSync).body s = .ok ((s.setRpos (8 * ceil8 s.rpos + 8 * 8)).setR m) := by
      change bodyRSync s = _
      rw [bodyRSync, hloop, ok_bind]
      dsimp only
      rw [BitVec.ofNat_toNat, BitVec.setWidth_eq, hm, beq_self_eq_true]; rfl
    have hin : ceil8 s.rpos + 8 ≤ s.src.length := by
      simpa using sourceHolds_inside hb (by simp)
    obtain ⟨t, ht, ⟨k, q, hk, -, hend⟩, hpulled⟩ := runCommand_readBytes hp hs rfl rfl hin hbody
    have hq : q = ceil8 s.rpos + 8 := by
      have hahead := hs.pulledAhead
      have hqt : t.pulled = q := by rw [hend]; rfl
      rw [← hqt, hpulled]
      unfold ceil8; omega
    exact ⟨t, k, ht, hk, by rw [hend, hq]⟩
  · have hbody : (commandOf .rSync).body s =
        .error { code := .syncMismatch, info := 8 * ceil8 s.rpos + 64, result := some m } := by
      change bodyRSync s = _
      rw [bodyRSync, hloop, ok_bind]
      dsimp only
      rw [BitVec.ofNat_toNat, BitVec.setWidth_eq, beq_false_of_ne hm]; rfl
    have hmoved : 8 * ceil8 s.rpos + 64 ≠ (commandOf .rSync).side.pos s := by
      change 8 * ceil8 s.rpos + 64 ≠ s.rpos
      unfold ceil8; omega
    exact ⟨_, runCommand_late hp hbody (.inr hmoved), raisesLate_takeLate _ _ _, (lateFacts s _ _).r' m rfl⟩

/-! ### The errors of the reader -/

/-- `R.BYTE` and `R.SYNC` raise what their first `TakeByte` raises. -/
theorem body_takeByte_error {i : Instr} {s : State} {e : Raise} (hi : i = .rByte ∨ i = .rSync)
    (he : takeByte s.source .endOfStream s.rpos = .error e) : (commandOf i).body s = .error e := by
  rcases hi with rfl | rfl
  · exact congrArg (· >>= _) he
  · exact congrArg (fun x : Except Raise (Byte × Nat) => (x >>= _) >>= _) he

/-- The commands whose first act is `RAlign()` raise what it raises (40_bitio.md R172, 41_scalar_codecs.md R235). -/
theorem body_rAlign_error {i : Instr} {s : State} {e : Raise} (hi : i = .rAlign ∨ i = .rByte ∨ i = .rSync ∨ i = .vbyD)
    (he : rAlign s.source s.rpos = .error e) : (commandOf i).body s = .error e := by
  have hbyte : takeByte s.source .endOfStream s.rpos = .error e := by rw [takeByte, he, error_bind]
  rcases hi with rfl | rfl | rfl | rfl
  · exact congrArg (· >>= _) he
  · exact body_takeByte_error (.inl rfl) hbyte
  · exact body_takeByte_error (.inr rfl) hbyte
  · exact congrArg (· >>= _) he

/-- A pad bit that is 1 makes them raise `REALIGNMENT` at the position after it. -/
theorem exec_realignment {i : Instr} {s : State} {n : Nat} (hi : i = .rAlign ∨ i = .rByte ∨ i = .rSync ∨ i = .vbyD)
    (hp : PortsSound s) (hn : s.rpos + n < 8 * ceil8 s.rpos) (hin : InputHolds s (List.replicate n false ++ [true])) :
    ∃ t, exec i s = .next t ∧ RaisesLate t i.opcode .realignment (s.rpos + n + 1) := by
  have hne : i ≠ .sreset := by rcases hi with rfl | rfl | rfl | rfl <;> simp
  rw [exec_commandOf i hne, ← commandOf_op]
  exact runCommand_raisesLate hp (body_rAlign_error hi (rAlign_set hp.2 hn hin))

section NoBit

variable {s : State} {n : Nat} {e : Raise}

/-! With no bit left the first `TakeBit()` raises. -/

theorem takeBits_first_error (hn : 1 ≤ n) (he : takeBit s.source s.rpos = .error e) :
    takeBits s.source n s.rpos = .error e := by
  obtain ⟨n, rfl⟩ := Nat.exists_eq_add_of_le' hn
  rw [takeBits, he, error_bind]

theorem prefixLoop_first_error (fuel range base : Nat) (he : takeBit s.source s.rpos = .error e) :
    prefixLoop s.source (fuel + 1) range base s.rpos = .error e := by
  rw [prefixLoop, he, error_bind]

theorem decUVarBits_first_error (hn : n ≤ 63) (he : takeBit s.source s.rpos = .error e) :
    decUVarBits s.source n s.rpos = .error e := by
  rw [decUVarBits, decide_eq_true hn, require_true, ok_bind]
  rcases Nat.eq_zero_or_pos n with rfl | h0
  · rw [takeBits, ok_bind]
    exact congrArg (· >>= _) (prefixLoop_first_error 63 0 0 he)
  · rw [takeBits_first_error h0 he, error_bind]

theorem decSVarBits_first_error (hn : n ≤ 63) (he : takeBit s.source s.rpos = .error e) :
    decSVarBits s.source n s.rpos = .error e := by
  rw [decSVarBits, decide_eq_true hn, require_true, ok_bind, he, error_bind]

end NoBit

/-- At a byte boundary with no byte left, `TakeByte` raises its own error (40_bitio.md R173). -/
theorem takeByte_end {s : State} (hf : s.srcFail = none) (h8 : s.rpos % 8 = 0) (hend : 8 * s.src.length ≤ s.rpos)
    (e : ErrCode) : takeByte s.source e s.rpos = .error { code := e, info := s.rpos } := by
  rw [takeByte, rAlign_aligned _ h8, ok_bind]
  simp only [Source.fails, State.source, hf]
  rw [if_neg (by simp), if_pos (by omega)]

/-- Settles O32: a pad bit that is 1, no bit left, no byte left. -/
theorem readerErrors : Obligations.ReaderErrors := by
  refine fun s hp => ⟨fun n hn hin => ⟨?_, ?_, ?_, ?_⟩, fun hnone => ?_, fun h8 hend => ?_⟩
  · exact exec_realignment (i := .rAlign) (by simp) hp hn hin
  · exact exec_realignment (i := .rByte) (by simp) hp hn hin
  · exact exec_realignment (i := .rSync) (by simp) hp hn hin
  · exact exec_realignment (i := .vbyD) (by simp) hp hn hin
  · have he := takeBit_none hp.2 hnone
    refine ⟨exec_raises (i := .rBit) (by simp) ?_, fun n h1 hn => exec_raises (i := .rBits n) (by simp) ?_,
      fun n hn => exec_raises (i := .uvbD n) (by simp) ?_, fun n hn => exec_raises (i := .svbD n) (by simp) ?_⟩
    · exact congrArg (· >>= _) he
    · change bodyRBits n s = _
      rw [bodyRBits, decide_eq_true hn, require_true, ok_bind, takeBits_first_error h1 he]; rfl
    · exact congrArg (· >>= _) (decUVarBits_first_error hn he)
    · exact congrArg (· >>= _) (decSVarBits_first_error hn he)
  · have hbyte := takeByte_end hp.2 h8 hend
    refine ⟨exec_raises (by simp) (body_takeByte_error (.inl rfl) (hbyte .endOfStream)),
      exec_raises (by simp) (body_takeByte_error (.inr rfl) (hbyte .endOfStream)),
      exec_raises (i := .vbyD) (by simp) ?_⟩
    change bodyVbyD s = _
    rw [bodyVbyD, rAlign_aligned _ h8, ok_bind, vbyLoop, if_neg (by norm_num), hbyte]; rfl

end Sys2Proof
end

section
/-! The scalar codecs (41_scalar_codecs.md R220 to R236): the bounded code, the var-bits codes with the overflows of their
decoders, the sign fold, and VBY.E. -/

namespace Sys2Proof

open Sys2Proof.Machine Sys2Proof.Config

/-! ### How a scalar read ends -/

/-- A bit-level read that moves on to position `p` and writes R ends without error over sound ports. -/
theorem runCommand_readTo {c : Command} {s : State} {v : Word} {p : Nat} (hp : PortsSound s) (hs : StreamSound s)
    (hd : c.drain = false) (hq : c.pull = .bits) (hle : s.rpos ≤ p) (hb : c.body s = .ok ((s.setRpos p).setR v)) :
    ∃ t, runCommand c s = .next t ∧ EndsRead s { s with r := v, rpos := p } t :=
  runCommand_read hp hs hb hd (.inl ⟨hq, hle⟩) rfl rfl rfl rfl rfl

/-! ### The bounded code -/

/-- A code for max `2^n - 1` has `n` bits (41_scalar_codecs.md R222). -/
theorem length_boundedBits_full {n v : Nat} (h : v ≤ 2 ^ n - 1) : (boundedBits (2 ^ n - 1) v).length = n := by
  have hpos : 0 < 2 ^ n := by positivity
  rw [boundedCode_unique (boundedBits_code h).1 (boundedCode_full (by omega)), natBits_length]

/-- Settles O34: the code is the one of R220, which the decoder takes whole. -/
theorem boundedLengthLaw : Obligations.BoundedLengthLaw := by
  refine ⟨fun max v h => boundedBits_code h,
    fun s max v h hp hin => decBoundedNat_code hp.2 h (boundedBits_code h).1 hin,
    fun n v h => length_boundedBits_full h, ?_⟩
  decide

theorem encBounded_inRange {max v : Nat} (h : v ≤ max) (w : Nat) :
    encBounded max v w = .ok (boundedBits max v) := by
  simp [encBounded, h]

theorem encBounded_outOfRange {max v : Int} (h : max < 0 ∨ v < 0 ∨ max < v) (w : Nat) :
    encBounded max v w = .error { code := .invalidArgument, info := w } := by
  have hcheck : (decide (0 ≤ max) && decide (0 ≤ v) && decide (v ≤ max)) = false := by
    simp only [Bool.and_eq_false_iff, decide_eq_false_iff_not]
    omega
  rw [encBounded, hcheck]; rfl

/-- Settles O35: the code of `B` with maximum `A`, or the refusal of R223. -/
theorem boundedEncode : Obligations.BoundedEncode := by
  refine fun s ho => ⟨fun max v ha hb h hs hp => ?_, fun h => exec_raises (i := .bndE) (by simp) ?_⟩
  · have hbody : bodyBndE s = .ok (s.emit (boundedBits max v)) := by
      rw [bodyBndE, checkOpen_open ho, ok_bind, State.opA, State.opB, ha, hb, encBounded_inRange h, ok_bind]
    obtain ⟨t, ht, hends⟩ := runCommand_emit (c := commandOf .bndE) hp hs rfl rfl hbody
    exact ⟨t, _, ht, (boundedBits_code h).1, hends⟩
  · change bodyBndE s = _
    rw [bodyBndE, checkOpen_open ho, ok_bind, State.opA, State.opB, encBounded_outOfRange h]; rfl

/-- `BND.D` ends with the value and the position of `DecBounded`. -/
theorem exec_bndD {s : State} {max v n : Nat} (hs : StreamSound s) (hp : PortsSound s) (ha : s.a.toInt = max)
    (hdec : decBoundedNat s.source max s.rpos = .ok (v, s.rpos + n)) :
    ∃ t, exec .bndD s = .next t ∧ EndsRead s { s with r := BitVec.ofNat 64 v, rpos := s.rpos + n } t := by
  refine runCommand_readTo (c := commandOf .bndD) hp hs rfl rfl (Nat.le_add_right _ _) ?_
  change bodyBndD s = _
  rw [bodyBndD, decBounded, State.opA, ha, decide_eq_true (Int.natCast_nonneg max), require_true, ok_bind,
    Int.toNat_natCast, hdec, ok_bind]

/-- Settles O36: the code of a value, any bits, and a negative maximum. -/
theorem boundedDecode : Obligations.BoundedDecode := by
  refine fun s => ⟨fun max v bits ha h hc hs hp hin => ?_, fun max bits ha hlen hs hp hin => ?_, fun h => ?_⟩
  · exact exec_bndD hs hp ha (decBoundedNat_code hp.2 h hc hin)
  · obtain ⟨v, n, hv, hn, hdec⟩ := decBoundedLoop_any hp.2 max (bitlen max) 0 0 s.rpos bits (Nat.zero_le _) hlen hin
    obtain ⟨t, ht, hends⟩ := exec_bndD hs hp ha hdec
    exact ⟨t, v, n, hv, hn.trans_eq hlen.symm, ht, hends⟩
  · refine exec_raises (i := .bndD) (by simp) ?_
    change bodyBndD s = _
    rw [bodyBndD, decBounded, State.opA, decide_eq_false (by omega)]; rfl

/-! ### The var-bits encoders -/

/-- A word that is not negative as `s64` is this value. -/
theorem toNat_toInt_of_nonneg {v : Word} (h : 0 ≤ v.toInt) : v.toInt.toNat = v.toNat := by
  have hcases := BitVec.toInt_eq_toNat_cond v
  have hlt := v.isLt
  split_ifs at hcases <;> omega

theorem encUVarBits_nonneg {v : Int} {noisy : Nat} (hn : noisy ≤ 63) (h : 0 ≤ v) (w : Nat) :
    encUVarBits v noisy w = .ok (uvarBits v.toNat noisy) := by
  simp [encUVarBits, hn, h]

theorem encUVarBits_neg {v : Int} (h : v < 0) (noisy w : Nat) :
    encUVarBits v noisy w = .error { code := .invalidArgument, info := w } := by
  rw [encUVarBits, decide_eq_false (p := 0 ≤ v) (by omega), Bool.and_false]; rfl

theorem encSVarBits_inRange {noisy : Nat} (hn : noisy ≤ 63) (v : Int) (w : Nat) :
    encSVarBits v noisy w = .ok (svarBits v noisy) := by
  rw [encSVarBits, decide_eq_true hn]; rfl

/-- Settles O37: the code of `A`, or the refusal of a negative `A`. -/
theorem varBitsEncode : Obligations.VarBitsEncode := by
  refine fun s n ho hn => ⟨fun h hs hp => ?_, fun h => exec_raises (i := .uvbE n) (by simp) ?_, fun hs hp => ?_⟩
  · have hbody : bodyUvbE n s = .ok (s.emit (uvarBits s.a.toNat n)) := by
      rw [bodyUvbE, checkOpen_open ho, ok_bind, State.opA, encUVarBits_nonneg hn h, ok_bind,
        toNat_toInt_of_nonneg h]
    obtain ⟨t, ht, hends⟩ := runCommand_emit (c := commandOf (.uvbE n)) hp hs rfl rfl hbody
    exact ⟨t, _, ht, uvarBits_code _ _, hends⟩
  · change bodyUvbE n s = _
    rw [bodyUvbE, checkOpen_open ho, ok_bind, State.opA, encUVarBits_neg h]; rfl
  · have hbody : bodySvbE n s = .ok (s.emit (svarBits s.a.toInt n)) := by
      rw [bodySvbE, checkOpen_open ho, ok_bind, encSVarBits_inRange hn, ok_bind, State.opA]
    obtain ⟨t, ht, hends⟩ := runCommand_emit (c := commandOf (.svbE n)) hp hs rfl rfl hbody
    exact ⟨t, _, ht, svarBits_code _ _, hends⟩

/-! ### The var-bits decoders -/

/-- A word as `s64` lies between `-2^63` and LMAX (00_scope.md R8). -/
theorem toInt_range (v : Word) : -2 ^ 63 ≤ v.toInt ∧ v.toInt ≤ (lmax : Int) := by
  have hlo := BitVec.le_toInt v
  have hhi := BitVec.toInt_lt (x := v)
  unfold lmax
  omega

/-- `UVB.D` over the code of `v` returns `v` (41_scalar_codecs.md R228, R236 (b)). -/
theorem exec_uvbD_code {s : State} {n : Nat} {v : Word} {bits : List Bool} (hn : n ≤ 63) (hs : StreamSound s)
    (hp : PortsSound s) (hin : InputHolds s bits) (h : 0 ≤ v.toInt) (hc : UVarCode v.toNat n bits) :
    ∃ t, exec (.uvbD n) s = .next t ∧ EndsRead s { s with r := v, rpos := s.rpos + bits.length } t := by
  have hle : v.toNat ≤ lmax := by
    have hnat := toNat_toInt_of_nonneg h
    have hmax := (toInt_range v).2
    omega
  refine runCommand_readTo (c := commandOf (.uvbD n)) hp hs rfl rfl (Nat.le_add_right _ _) ?_
  change bodyUvbD n s = _
  rw [bodyUvbD, decUVarBits_code hp.2 hn hle hc hin, ok_bind]
  simp only [BitVec.ofNat_toNat, BitVec.setWidth_eq]

/-- `SVB.D` over the code of `v` returns `v` (41_scalar_codecs.md R232, R236 (a)). -/
theorem exec_svbD_code {s : State} {n : Nat} {v : Word} {bits : List Bool} (hn : n ≤ 63) (hs : StreamSound s)
    (hp : PortsSound s) (hin : InputHolds s bits) (hc : SVarCode v.toInt n bits) :
    ∃ t, exec (.svbD n) s = .next t ∧ EndsRead s { s with r := v, rpos := s.rpos + bits.length } t := by
  refine runCommand_readTo (c := commandOf (.svbD n)) hp hs rfl rfl (Nat.le_add_right _ _) ?_
  change bodySvbD n s = _
  rw [bodySvbD, decSVarBits_code hp.2 hn (toInt_range v).1 (toInt_range v).2 hc hin, ok_bind]
  simp only [BitVec.ofInt_toInt]

/-- The bits a command emitted are those of WBITS after its old end. -/
theorem EndsUnread.emitted {s t : State} {bits : List Bool} (h : EndsUnread s { s with wbits := s.wbits ++ bits } t) :
    t.wbits.drop s.wbits.length = bits ∧ t.wbits.length - s.wbits.length = bits.length := by
  obtain ⟨k, -, rfl⟩ := h
  simp [ended]

/-- `SVB.D` raises what `DecUVarBits` raises after the sign bit. -/
theorem decSVarBits_error {s : State} {noisy k : Nat} {neg : Bool} {e : Raise} (hp : PortsSound s) (hn : noisy ≤ 63)
    (hsign : inputBit s k = some neg) (he : decUVarBits s.source noisy (k + 1) = .error e) :
    decSVarBits s.source noisy k = .error e := by
  rw [decSVarBits, decide_eq_true hn, require_true, ok_bind, takeBit_some hp.2 hsign, ok_bind]
  exact congrArg (· >>= _) he

/-- Bits on which `DecUVarBits` overflows make UVB.D raise `OVERFLOW`, and SVB.D after either sign. -/
theorem exec_varBits_overflow {s : State} {n : Nat} {bits : List Bool} (hn : n ≤ 63) (hp : PortsSound s)
    (hover : ∀ k, HoldsAt s k bits →
      decUVarBits s.source n k = .error { code := .overflow, info := k + bits.length }) :
    (InputHolds s bits →
      ∃ t, exec (.uvbD n) s = .next t ∧ RaisesLate t 0x33 .overflow (s.rpos + bits.length)) ∧
    ∀ neg : Bool, InputHolds s (neg :: bits) →
      ∃ t, exec (.svbD n) s = .next t ∧ RaisesLate t 0x35 .overflow (s.rpos + (bits.length + 1)) := by
  refine ⟨fun hin => ?_, fun neg hin => ?_⟩
  · have hbody : (commandOf (.uvbD n)).body s = .error { code := .overflow, info := s.rpos + bits.length } :=
      congrArg (· >>= _) (hover _ hin)
    exact runCommand_raisesLate hp hbody
  · obtain ⟨hsign, hrest⟩ := holdsAt_cons.mp hin
    have hdec := decSVarBits_error hp hn hsign (hover _ hrest)
    rw [Nat.add_assoc, Nat.add_comm 1] at hdec
    have hbody : (commandOf (.svbD n)).body s = .error { code := .overflow, info := s.rpos + (bits.length + 1) } :=
      congrArg (· >>= _) hdec
    exact runCommand_raisesLate hp hbody

/-- Settles O38: the code of a value comes back, the encoders emit such a code, and a 64th zero before the 1 or a high
part out of range overflows. -/
theorem varBitsDecode : Obligations.VarBitsDecode := by
  refine ⟨fun s n v bits hn hs hp hin => ⟨exec_uvbD_code hn hs hp hin, exec_svbD_code hn hs hp hin⟩,
    fun e e' s n hn ho hse hpe hs hp hin => ⟨fun h hexec => ?_, fun hexec => ?_⟩,
    fun s n low hn hl hp => ?_, fun s n high low code hn hl hp h64 hhi hc => ?_⟩
  · obtain ⟨t, bits, ht, hc, hends⟩ := (varBitsEncode e n ho hn).1 h hse hpe
    obtain rfl : e' = t := by injection hexec.symm.trans ht
    obtain ⟨hdrop, hlen⟩ := hends.emitted
    rw [hdrop] at hin
    rw [hlen]
    exact exec_uvbD_code hn hs hp hin h hc
  · obtain ⟨t, bits, ht, hc, hends⟩ := (varBitsEncode e n ho hn).2.2 hse hpe
    obtain rfl : e' = t := by injection hexec.symm.trans ht
    obtain ⟨hdrop, hlen⟩ := hends.emitted
    rw [hdrop] at hin
    rw [hlen]
    exact exec_svbD_code hn hs hp hin hc
  · have hlen : (low ++ List.replicate 64 false).length = n + 64 := by simp [hl]
    have h := exec_varBits_overflow hn hp (bits := low ++ List.replicate 64 false) fun k hh => by
      rw [hlen]; exact decUVarBits_zeros hp.2 hn hl hh
    rwa [hlen] at h
  · have hlen : (low ++ code).length = n + code.length := by simp [hl]
    have h := exec_varBits_overflow hn hp (bits := low ++ code) fun k hh => by
      rw [hlen]; exact decUVarBits_high hp.2 hn hl h64 hhi hc hh
    rwa [hlen] at h

/-! ### The sign fold and VBY.E -/

theorem zigZag_eq (v : Int) : (zigZag v : Int) = if 0 ≤ v then 2 * v else 2 * (-v - 1) + 1 := by
  rw [zigZag, foldMag_eq]
  split_ifs <;> omega

theorem unZigZag_eq (u : Nat) :
    unZigZag u = if u % 2 = 1 then -((u / 2 : Nat) : Int) - 1 else ((u / 2 : Nat) : Int) := by
  simp only [unZigZag, unfoldMag, beq_iff_eq]

theorem unZigZag_range {u : Nat} (h : u < 2 ^ 64) : -2 ^ 63 ≤ unZigZag u ∧ unZigZag u ≤ (lmax : Int) := by
  rw [unZigZag_eq]
  unfold lmax
  split_ifs <;> omega

/-- Settles O39: the fold and `UnZigZag` undo each other within their ranges. -/
theorem zigZagBijection : Obligations.ZigZagBijection :=
  ⟨zigZag_word, fun v hlo hhi => ⟨zigZag_eq v, zigZag_lt hlo hhi, unZigZag_zigZag v⟩,
    fun u hu => ⟨(unZigZag_range hu).1, (unZigZag_range hu).2, zigZag_unZigZag u, unZigZag_eq u⟩⟩

/-- Settles O40: the pad bits, then the bytes of the code. -/
theorem varBytesEncode : Obligations.VarBytesEncode := by
  intro s ho hs hp
  obtain ⟨bytes, hcode, hbits⟩ := vbyBits_code (zigZagWord s.a).isLt
  have hbody : bodyVbyE s = .ok (s.emit (padBits s ++ byteBits bytes)) := by
    rw [bodyVbyE, checkOpen_open ho, ok_bind, alignBits_eq_padBits, State.opA, zigZag_word, hbits, byteBits]
  have h8 : (byteBits bytes).length % 8 = 0 := by rw [byteBits_length]; omega
  obtain ⟨t, ht, hends⟩ := runCommand_padded (c := commandOf .vbyE) hp hs rfl rfl h8 hbody rfl
  exact ⟨t, bytes, ht, hcode, hends⟩

end Sys2Proof
end

section
/-! The sorted-array commands (42_sorted_array.md R260 to R267): the window the encoders read and their refusals, the
array the decoders write to ARR and the errors of its size and width. -/

namespace Sys2Proof

open Sys2Proof.Machine Sys2Proof.Config

/-! ### The operand of the encoders (42_sorted_array.md R263, R265) -/

/-- A valid sorted array is one of s64 words too. -/
theorem sortedWords_of_sortedArray {xs : List Nat} (h : SortedArray xs) : SortedWords (xs.map Int.ofNat) := by
  refine ⟨List.pairwise_map.mpr (h.1.imp Int.ofNat_lt.mpr), fun x hx => ?_⟩
  obtain ⟨n, -, rfl⟩ := List.mem_map.mp hx
  exact Int.natCast_nonneg n

/-- On an open writer the checks accept a valid array in the window, and read it. -/
theorem sortedOperand_holds {s : State} {off : Nat} {xs : List Nat} (ho : s.wclosed = false) (ha : s.a.toInt = off)
    (hb : s.b.toInt = xs.length) (hw : WindowHolds s off xs) (hx : SortedArray xs) : sortedOperand s = .ok xs := by
  have hwin : windowOk s s.opA s.opB = true := by
    rw [State.opA, State.opB, ha, hb]; exact windowOk_of_holds hw
  have hread : readWindow s s.opA.toNat s.opB.toNat = xs.map Int.ofNat := by
    rw [State.opA, State.opB, ha, hb]; exact readWindow_eq hw hx.2
  have hvalid : validSorted (xs.map Int.ofNat) = true := by
    rw [← hread, validSorted_iff]
    change SortedWords (readWindow s s.opA.toNat s.opB.toNat)
    rw [hread]
    exact sortedWords_of_sortedArray hx
  have hback : (xs.map Int.ofNat).map Int.toNat = xs := by
    rw [List.map_map]; exact List.map_id xs
  rw [sortedOperand, checkOpen_open ho, ok_bind, hwin, require_true, ok_bind, hread]
  dsimp only
  rw [hvalid, require_true, ok_bind, hback]

/-- On an open writer the checks refuse a window outside ARR and an array that is not valid. -/
theorem sortedOperand_refused {s : State} (ho : s.wclosed = false)
    (h : ¬WindowInside s ∨ ¬SortedWords (windowWords s)) :
    sortedOperand s = .error { code := .invalidArgument, info := s.wbits.length } := by
  rw [sortedOperand, checkOpen_open ho, ok_bind]
  by_cases hwin : WindowInside s
  · have hsort := h.resolve_left (not_not_intro hwin)
    rw [← validSorted_iff, Bool.not_eq_true] at hsort
    rw [(windowOk_iff s).mpr hwin, require_true, ok_bind]
    dsimp only
    rw [hsort]; rfl
  · rw [← windowOk_iff, Bool.not_eq_true] at hwin
    rw [hwin]; rfl

/-- Settles O42: the operand the checks accept is coded, and what they refuse is raised before the first bit. -/
theorem sortedArrayEncode : Obligations.SortedArrayEncode := by
  refine ⟨fun s off xs ho hs hp ha hb hw hx => ⟨?_, ?_⟩, fun s ho h => ⟨?_, ?_⟩⟩
  · have hbody : bodyUsaE s = .ok (s.emit (uvarBits xs.length 0 ++ usaBody xs)) := by
      rw [bodyUsaE, sortedOperand_holds ho ha hb hw hx, ok_bind]
    obtain ⟨t, ht, hends⟩ := runCommand_emit (c := commandOf .usaE) hp hs rfl rfl hbody
    exact ⟨t, _, _, ht, uvarBits_code _ _, usaBody_code hx, hends⟩
  · have hbody : bodyUsanE s = .ok (s.emit (usaBody xs)) := by
      rw [bodyUsanE, sortedOperand_holds ho ha hb hw hx, ok_bind]
    obtain ⟨t, ht, hends⟩ := runCommand_emit (c := commandOf .usanE) hp hs rfl rfl hbody
    exact ⟨t, _, ht, usaBody_code hx, hends⟩
  · exact exec_raises (i := .usaE) (by simp) (congrArg (· >>= _) (sortedOperand_refused ho h))
  · exact exec_raises (i := .usanE) (by simp) (congrArg (· >>= _) (sortedOperand_refused ho h))

/-! ### What the decoders leave -/

/-- The state the decoders leave when they decoded the array `r.1` up to position `r.2`: its words from word `off` of ARR
on, `v` in R. -/
def arrayRead (s : State) (off : Nat) (v : Word) (r : List Nat × Nat) : State :=
  ((s.memWriteList off (r.1.map (BitVec.ofNat 64))).setRpos r.2).setR v

/-- Only ARR, RPOS and R change. -/
theorem arrayRead_eq (s : State) (off : Nat) (v : Word) (xs : List Nat) (p : Nat) :
    arrayRead s off v (xs, p) =
      { s with arr := (s.memWriteList off (xs.map (BitVec.ofNat 64))).arr, r := v, rpos := p } := by
  rw [arrayRead, memWriteList_eq]; rfl

/-- The words of ARR are those of `xs` from word `off` on, and the old ones elsewhere. -/
def ArrayStored (s : State) (off : Nat) (xs : List Nat) (cells : List ArrCell) : Prop :=
  ∀ j, arrLookup j cells =
    if off ≤ j ∧ j < off + xs.length then some (BitVec.ofNat 64 (xs.getD (j - off) 0)) else arrLookup j s.arr

theorem arrayStored_memWriteList (s : State) (off : Nat) (xs : List Nat) :
    ArrayStored s off xs (s.memWriteList off (xs.map (BitVec.ofNat 64))).arr := by
  intro j
  rw [arrLookup_memWriteList, List.length_map, ← List.getD_map (f := BitVec.ofNat 64)]; rfl

/-- The check of USA.D accepts an offset inside ARR. -/
theorem offsetCheck_inside {s : State} {off : Nat} (h : off ≤ s.params.arrWords) :
    (decide ((0 : Int) ≤ off) && decide ((off : Int) ≤ s.params.arrWords)) = true := by
  simp [h]

/-- `USA.D` over the code of a size that fits decodes a body of this size (42_sorted_array.md R264). -/
theorem bodyUsaD_fits {s : State} {off n : Nat} {size : List Bool} (hp : PortsSound s) (ha : s.a.toInt = off)
    (hroom : off + n ≤ s.params.arrWords) (hn : n ≤ lmax) (hc : UVarCode n 0 size) (hin : InputHolds s size) :
    bodyUsaD s = (inWindow (off, n) (decUsaBody s.source n (s.rpos + size.length))).map
      (arrayRead s off (BitVec.ofNat 64 n)) := by
  rw [bodyUsaD, State.opA, ha, offsetCheck_inside (by omega), require_true, ok_bind,
    decUVarBits_code hp.2 (by omega) hn hc hin, ok_bind]
  dsimp only
  rw [Int.toNat_natCast, decide_eq_true hroom, require_true, ok_bind]
  cases inWindow (off, n) (decUsaBody s.source n (s.rpos + size.length)) <;> rfl

/-- `USAN.D` with its window inside ARR decodes a body of `B` elements (42_sorted_array.md R266). -/
theorem bodyUsanD_inside {s : State} {off n : Nat} (ha : s.a.toInt = off) (hb : s.b.toInt = n)
    (hroom : off + n ≤ s.params.arrWords) :
    bodyUsanD s = (inWindow (off, n) (decUsaBody s.source n s.rpos)).map (arrayRead s off s.b) := by
  have hwin : windowOk s (off : Int) (n : Int) = true := by
    simp [windowOk]; omega
  rw [bodyUsanD, State.opA, State.opB, ha, hb, hwin, require_true, ok_bind, Int.toNat_natCast, Int.toNat_natCast]
  cases inWindow (off, n) (decUsaBody s.source n s.rpos) <;> rfl

/-! ### How the decoders end -/

theorem UVarCode.length_pos {v noisy : Nat} {bits : List Bool} (h : UVarCode v noisy bits) : 0 < bits.length := by
  obtain ⟨k, -, -, rfl⟩ := h
  simp

/-- A width above 63, or one that allows fewer values than the size, fails the body after the code of the width
(42_sorted_array.md R262). -/
theorem decUsaBody_badWidth {s : State} {n w k : Nat} {e : ErrCode} {width : List Bool} (hp : PortsSound s)
    (hc : UVarCode w 0 width) (h64 : w + 1 < 2 ^ 64)
    (he : (e = .overflow ∧ 1 ≤ n ∧ 63 < w) ∨ (e = .uniquenessViolation ∧ w ≤ 63 ∧ 2 ^ w < n))
    (hh : HoldsAt s k width) : decUsaBody s.source n k = .error { code := e, info := k + width.length } := by
  rcases he with ⟨rfl, hn, hw⟩ | ⟨rfl, hw, hn⟩
  · exact decUsaBody_wide hp.2 hn hw h64 hc hh
  · exact decUsaBody_crowded hp.2 hw hn hc hh

/-- A command that raises after it took bits, over sound ports, leaves the words of ARR outside the window of its error. -/
theorem runCommand_raisesWindow {c : Command} {s : State} {e : Raise} (hp : PortsSound s) (hb : c.body s = .error e)
    (hmoved : e.info ≠ c.side.pos s) :
    ∃ t, runCommand c s = .next t ∧ RaisesLate t c.op e.code e.info ∧
      t.arr = (s.scrambleWindow s.draws e.window.1 e.window.2).arr :=
  ⟨_, runCommand_late hp hb (.inr hmoved), raisesLate_takeLate _ _ _, lateFacts_arr (lateFacts _ _ _)⟩

section BodyAt

variable {c : Command} {s : State} {off n k : Nat} {v : Word}

/-! A command of the reader whose last step decodes a body of `n` elements at position `k` into ARR from word `off` on. -/

/-- Over the code of a valid sorted array the command writes the array. -/
theorem runCommand_arrayRead {xs : List Nat} {body : List Bool} (hs : StreamSound s) (hp : PortsSound s)
    (hd : c.drain = false) (hq : c.pull = .bits) (hle : s.rpos ≤ k) (hx : SortedArray xs) (hc : BodyCode xs body)
    (hh : HoldsAt s k body)
    (hb : c.body s = (inWindow (off, xs.length) (decUsaBody s.source xs.length k)).map (arrayRead s off v)) :
    ∃ t cells, runCommand c s = .next t ∧ ArrayStored s off xs cells ∧
      EndsRead s { s with arr := cells, r := v, rpos := k + body.length } t := by
  rw [decUsaBody_code hp.2 hx hc hh] at hb
  have hbody : c.body s = .ok (arrayRead s off v (xs, k + body.length)) := hb
  rw [arrayRead_eq] at hbody
  obtain ⟨t, ht, hends⟩ := runCommand_read hp hs hbody hd (.inl ⟨hq, Nat.le_add_right_of_le hle⟩) rfl rfl rfl rfl rfl
  exact ⟨t, _, ht, arrayStored_memWriteList s off xs, hends⟩

/-- Over a width that does not fit the size the command raises after it, and leaves the words outside its window. -/
theorem runCommand_badWidth {w : Nat} {e : ErrCode} {width : List Bool} (hp : PortsSound s) (hside : c.side = .reader)
    (hle : s.rpos ≤ k) (hc : UVarCode w 0 width) (h64 : w + 1 < 2 ^ 64)
    (he : (e = .overflow ∧ 1 ≤ n ∧ 63 < w) ∨ (e = .uniquenessViolation ∧ w ≤ 63 ∧ 2 ^ w < n))
    (hh : HoldsAt s k width)
    (hb : c.body s = (inWindow (off, n) (decUsaBody s.source n k)).map (arrayRead s off v)) :
    ∃ t, runCommand c s = .next t ∧ RaisesLate t c.op e (k + width.length) ∧
      ∀ j, j < off ∨ off + n ≤ j → arrLookup j t.arr = arrLookup j s.arr := by
  rw [decUsaBody_badWidth hp hc h64 he hh] at hb
  have hbody : c.body s = .error { code := e, info := k + width.length, window := (off, n) } := hb
  have hmoved : k + width.length ≠ c.side.pos s := by
    have hpos := hc.length_pos
    rw [hside]
    change _ ≠ s.rpos
    omega
  obtain ⟨t, ht, hraise, harr⟩ := runCommand_raisesWindow hp hbody hmoved
  exact ⟨t, ht, hraise, fun j hj => by rw [harr, arrLookup_scrambleWindow _ _ _ _ _ hj]⟩

end BodyAt

/-- `USA.D` refuses an offset outside ARR (42_sorted_array.md R264). -/
theorem bodyUsaD_offset {s : State} (h : s.a.toInt < 0 ∨ (s.params.arrWords : Int) < s.a.toInt) :
    bodyUsaD s = .error { code := .invalidArgument, info := s.rpos } := by
  have hcheck : (decide (0 ≤ s.a.toInt) && decide (s.a.toInt ≤ s.params.arrWords)) = false := by
    simp only [Bool.and_eq_false_iff, decide_eq_false_iff_not]
    omega
  rw [bodyUsaD, State.opA, hcheck]; rfl

/-- `USAN.D` refuses a window outside ARR (42_sorted_array.md R266). -/
theorem bodyUsanD_outsideArr {s : State} (h : ¬WindowInside s) :
    bodyUsanD s = .error { code := .invalidArgument, info := s.rpos } := by
  rw [← windowOk_iff, Bool.not_eq_true] at h
  rw [bodyUsanD, h]; rfl

/-- `USA.D` refuses a size that does not fit after it read its code (42_sorted_array.md R264). -/
theorem bodyUsaD_capacity {s : State} {off n : Nat} {size : List Bool} (hp : PortsSound s) (ha : s.a.toInt = off)
    (hoff : off ≤ s.params.arrWords) (hn : n ≤ lmax) (hfull : s.params.arrWords < off + n) (hc : UVarCode n 0 size)
    (hin : InputHolds s size) : bodyUsaD s = .error { code := .capacity, info := s.rpos + size.length } := by
  rw [bodyUsaD, State.opA, ha, offsetCheck_inside hoff, require_true, ok_bind,
    decUVarBits_code hp.2 (by omega) hn hc hin, ok_bind]
  dsimp only
  rw [Int.toNat_natCast, decide_eq_false (by omega)]; rfl

/-- Settles O43: both decoders end as a body read into their window ends, after the checks and the size of USA.D. -/
theorem sortedArrayDecode : Obligations.SortedArrayDecode := by
  refine ⟨fun s off xs size body hs hp ha hroom hlen hx hcs hcb => ⟨fun hin => ?_, fun hin hb => ?_⟩,
    fun s => ⟨fun h => exec_raises (i := .usaD) (by simp) (bodyUsaD_offset h),
      fun h => exec_raises (i := .usanD) (by simp) (bodyUsanD_outsideArr h)⟩,
    fun s off n size hp ha hoff hn hfull hc hin => ?_,
    fun s off n w e size width hp ha hroom hn hcs hcw h64 he => ⟨fun hin => ?_, fun hin hb => ?_⟩⟩
  · obtain ⟨hsize, hbody⟩ := holdsAt_append.mp hin
    rw [List.length_append, ← Nat.add_assoc]
    exact runCommand_arrayRead (c := commandOf .usaD) hs hp rfl rfl (Nat.le_add_right _ _) hx hcb hbody
      (bodyUsaD_fits hp ha hroom hlen hcs hsize)
  · exact runCommand_arrayRead (c := commandOf .usanD) hs hp rfl rfl le_rfl hx hcb hin (bodyUsanD_inside ha hb hroom)
  · have hmoved : s.rpos + size.length ≠ (commandOf .usaD).side.pos s :=
      Nat.ne_of_gt (Nat.lt_add_of_pos_right hc.length_pos)
    exact runCommand_raisesWindow (c := commandOf .usaD) hp (bodyUsaD_capacity hp ha hoff hn hfull hc hin) hmoved
  · obtain ⟨hsize, hwidth⟩ := holdsAt_append.mp hin
    rw [List.length_append, ← Nat.add_assoc]
    exact runCommand_badWidth (c := commandOf .usaD) hp rfl (Nat.le_add_right _ _) hcw h64 he hwidth
      (bodyUsaD_fits hp ha hroom hn hcs hsize)
  · exact runCommand_badWidth (c := commandOf .usanD) hp rfl le_rfl hcw h64 he hin (bodyUsanD_inside ha hb hroom)

end Sys2Proof
end

section
/-! The invariant of the arithmetic coder (43_arithmetic.md R299, 10_state.md R51, R52): its encoder half and its decoder
half, each over the steps of every command, and then over a step of the block. -/

namespace Sys2Proof

open Sys2Proof.Machine Sys2Proof.Config

/-! ### The two halves of the invariant -/

/-- The encoder of an active pass (R299 (a)): its interval is sound and UF within the limit. -/
def EncSound (ufMax : Nat) (ae : ArithEnc) : Prop :=
  ae.mode = .active → IntervalSound ae.w ae.low ae.high ∧ ae.uf ≤ ufMax

/-- The decoder of an active pass (R299 (a), (b)): its interval is sound, and holds the code once that is filled; until
then it is the interval of the reset. -/
def DecSound (ad : ArithDec) : Prop :=
  ad.mode = .active → IntervalSound ad.w ad.low ad.high ∧
    (ad.filled = true → FilledIn ad ad.code) ∧ (ad.filled = false → ad.low = 0 ∧ ad.high = 2 ^ ad.w - 1)

/-- The invariant of the statements is the two halves. -/
theorem arithSound_iff (s : State) : ArithSound s ↔ EncSound s.params.ufMax s.ae ∧ DecSound s.ad :=
  ⟨fun h => ⟨h.enc, fun hm => ⟨h.dec hm, h.code hm, h.fresh hm⟩⟩,
    fun ⟨henc, hdec⟩ => ⟨henc, fun hm => (hdec hm).1, fun hm => (hdec hm).2.1, fun hm => (hdec hm).2.2⟩⟩

/-- The coder and UF_MAX are all that `ArithSound` speaks of. -/
theorem ArithSound.congr {s t : State} (h : ArithSound s) (hp : t.params = s.params) (hae : t.ae = s.ae)
    (had : t.ad = s.ad) : ArithSound t := by
  rw [arithSound_iff] at h ⊢
  rwa [hp, hae, had]

/-- The whole range of a legal width is a sound interval. -/
theorem intervalSound_full {n : Nat} (h2 : 2 ≤ n) (h62 : n ≤ 62) : IntervalSound n 0 (maskOf n) := by
  have hhalf : 2 ^ n = 2 * 2 ^ (n - 1) := by rw [← pow_succ', Nat.sub_add_cancel (by omega)]
  have hpos : 0 < 2 ^ (n - 1) := by positivity
  have hquarter : 0 < 2 ^ (n - 2) := by positivity
  unfold maskOf
  exact ⟨h2, h62, hpos, by omega, by omega, .inl hquarter⟩

/-- The width check of AE.RESET and AD.RESET (43_arithmetic.md R293, R296). -/
theorem widthCheck_iff (n : Nat) : (decide (2 ≤ n) && decide (n ≤ 62)) = true ↔ 2 ≤ n ∧ n ≤ 62 := by simp

section Halves

variable {s s1 : State} {k : Nat}

/-! ### The encoder half -/

/-- `AEEncode` keeps the encoder sound: the loops of R292 end in a sound interval, with UF checked. -/
theorem aeEncode_encSound {tab : List Int} {x : Int} (h : EncSound s.params.ufMax s.ae)
    (hb : aeEncode s tab x = .ok s1) : EncSound s.params.ufMax s1.ae := by
  obtain ⟨xs, sym, bits, l, u', u, -, -, -, -, -, -, hsound, hu, rfl⟩ := aeEncode_ok h hb
  exact fun _ => ⟨hsound, hu⟩

theorem bodyAeReset_encSound {n : Nat} (hb : bodyAeReset n s = .ok s1) : EncSound s.params.ufMax s1.ae := by
  obtain ⟨_, hn, hb⟩ := bind_ok hb
  obtain ⟨h2, h62⟩ := (widthCheck_iff n).mp (require_ok.1 hn)
  cases hb
  exact fun _ => ⟨intervalSound_full h2 h62, Nat.zero_le _⟩

theorem bodyAeEnc_encSound (h : EncSound s.params.ufMax s.ae) (hb : bodyAeEnc s = .ok s1) :
    EncSound s.params.ufMax s1.ae := by
  obtain ⟨_, _, hb⟩ := bind_ok hb
  obtain ⟨_, _, hb⟩ := bind_ok hb
  obtain ⟨_, _, hb⟩ := bind_ok hb
  exact aeEncode_encSound h hb

/-- `AE.FIN` leaves no active pass. -/
theorem bodyAeFin_encSound (hb : bodyAeFin s = .ok s1) : EncSound s.params.ufMax s1.ae := by
  obtain ⟨_, _, hb⟩ := bind_ok hb
  split_ifs at hb
  · obtain ⟨_, _, hb⟩ := bind_ok hb
    cases hb; exact fun hm => nomatch hm
  · cases hb; exact fun hm => nomatch hm

theorem bodyCeInit_ae (hb : bodyCeInit k s = .ok s1) : s1.ae = s.ae := by
  obtain ⟨_, _, hb⟩ := bind_ok hb
  dsimp only at hb
  split at hb
  case h_1 | h_2 => cases hb; rfl
  case h_3 =>
    obtain ⟨_, _, hb⟩ := bind_ok hb
    obtain ⟨_, _, hb⟩ := bind_ok hb
    obtain ⟨_, _, hb⟩ := bind_ok hb
    cases hb; rfl
  case h_4 => cases hb

theorem bodyCeEnc_encSound (h : EncSound s.params.ufMax s.ae) (hb : bodyCeEnc k s = .ok s1) :
    EncSound s.params.ufMax s1.ae := by
  obtain ⟨_, _, hb⟩ := bind_ok hb
  dsimp only at hb
  split at hb
  case h_1 =>
    obtain ⟨_, _, hb⟩ := bind_ok hb
    obtain ⟨_, _, hb⟩ := bind_ok hb
    cases hb; exact h
  case h_2 =>
    obtain ⟨_, _, hb⟩ := bind_ok hb
    split_ifs at hb
    · exact aeEncode_encSound h hb
    · cases hb; exact h
  case h_3 | h_4 => cases hb

theorem bodyHeInit_ae {n : Nat} (hb : bodyHeInit n k s = .ok s1) : s1.ae = s.ae := by
  obtain ⟨_, _, hb⟩ := bind_ok hb
  obtain ⟨_, _, hb⟩ := bind_ok hb
  obtain ⟨_, _, hb⟩ := bind_ok hb
  split_ifs at hb
  · obtain ⟨_, _, hb⟩ := bind_ok hb
    obtain ⟨_, _, hb⟩ := bind_ok hb
    cases hb; rfl
  · cases hb; rfl

theorem bodyHeEnc_ae (hb : bodyHeEnc k s = .ok s1) : s1.ae = s.ae := by
  obtain ⟨_, _, hb⟩ := bind_ok hb
  dsimp only at hb
  split at hb
  case h_1 =>
    obtain ⟨_, _, hb⟩ := bind_ok hb
    cases hb; rfl
  case h_2 =>
    split at hb
    · cases hb
    · obtain ⟨_, _, hb⟩ := bind_ok hb
      cases hb; rfl
  case h_3 | h_4 => cases hb

/-- The steps of every command that raise nothing keep the encoder sound. -/
theorem body_encSound {i : Instr} (h : EncSound s.params.ufMax s.ae) (hb : (commandOf i).body s = .ok s1) :
    EncSound s.params.ufMax s1.ae := by
  rcases commandOf_side i with hside | hside
  · cases i
    case aeReset n => exact bodyAeReset_encSound hb
    case aeEnc => exact bodyAeEnc_encSound h hb
    case aeFin => exact bodyAeFin_encSound hb
    case ceInit slot => rw [bodyCeInit_ae hb]; exact h
    case ceEnc slot => exact bodyCeEnc_encSound h hb
    case heInit n slot => rw [bodyHeInit_ae hb]; exact h
    case heEnc slot => rw [bodyHeEnc_ae hb]; exact h
    case sreset => cases hb; exact h
    case ceFin | heFin | wBit | wBits | wByte | wAlign | wClose | wSync | bndE | uvbE | svbE | vbyE | usaE | usanE =>
      (repeat' (obtain ⟨_, _, hb⟩ := bind_ok hb))
      cases hb; exact h
    all_goals cases hside
  · obtain ⟨hs1, -⟩ := body_reader hside hb
    rw [hs1]; exact h

/-! ### The decoder half -/

/-- `ADDecode` keeps the decoder sound: CODE stays inside the interval the loops of R292 leave. -/
theorem adDecode_decSound {tab : List Int} {x : Nat} (h : ArithSound s) (hb : adDecode s tab = .ok (x, s1)) :
    DecSound s1.ad := by
  obtain ⟨xs, ad, code, p, -, -, -, -, -, -, -, rfl, -, -, -, hfilled, hsound, hin, -⟩ := adDecode_ok h hb
  exact fun _ => ⟨hsound, fun _ => hin, fun hf => by simp [hfilled] at hf⟩

theorem bodyAdReset_decSound {n : Nat} (hb : bodyAdReset n s = .ok s1) : DecSound s1.ad := by
  obtain ⟨_, hn, hb⟩ := bind_ok hb
  obtain ⟨h2, h62⟩ := (widthCheck_iff n).mp (require_ok.1 hn)
  cases hb
  exact fun _ => ⟨intervalSound_full h2 h62, fun hf => (nomatch hf), fun _ => ⟨rfl, rfl⟩⟩

theorem bodyAdDec_decSound (h : ArithSound s) (hb : bodyAdDec s = .ok s1) : DecSound s1.ad := by
  obtain ⟨_, _, hb⟩ := bind_ok hb
  obtain ⟨_, _, hb⟩ := bind_ok hb
  obtain ⟨⟨_, _⟩, hd, hb⟩ := bind_ok hb
  have hd := adDecode_decSound h hd
  cases hb; exact hd

theorem bodyCdDec_decSound (h : ArithSound s) (hb : bodyCdDec k s = .ok s1) : DecSound s1.ad := by
  obtain ⟨_, _, hb⟩ := bind_ok hb
  split at hb
  · split_ifs at hb
    · cases hb; exact ((arithSound_iff s).mp h).2
    · obtain ⟨⟨_, _⟩, hd, hb⟩ := bind_ok hb
      have hd := adDecode_decSound h hd
      cases hb; exact hd
  · cases hb
  · cases hb

theorem bodyHdInit_ad {n : Nat} (hb : bodyHdInit n k s = .ok s1) : s1.ad = s.ad := by
  obtain ⟨_, _, hb⟩ := bind_ok hb
  obtain ⟨_, _, hb⟩ := bind_ok hb
  obtain ⟨⟨_, _⟩, _, hb⟩ := bind_ok hb
  dsimp only at hb
  split_ifs at hb
  · obtain ⟨⟨_, _, _, _⟩, _, hb⟩ := bind_ok hb
    cases hb; rfl
  · cases hb; rfl

theorem bodyHdDec_ad (hb : bodyHdDec k s = .ok s1) : s1.ad = s.ad := by
  obtain ⟨_, _, hb⟩ := bind_ok hb
  split at hb
  · obtain ⟨⟨_, _⟩, _, hb⟩ := bind_ok hb
    cases hb; rfl
  · cases hb
  · cases hb

/-- The steps of every command that raise nothing keep the decoder sound. -/
theorem body_decSound {i : Instr} (h : ArithSound s) (hb : (commandOf i).body s = .ok s1) : DecSound s1.ad := by
  have hdec := ((arithSound_iff s).mp h).2
  rcases commandOf_side i with hside | hside
  · obtain ⟨more, hs1⟩ := body_writer hside hb
    rw [hs1]; exact hdec
  · cases i
    case adReset n => exact bodyAdReset_decSound hb
    case adDec => exact bodyAdDec_decSound h hb
    case cdDec slot => exact bodyCdDec_decSound h hb
    case cdInit slot =>
      obtain ⟨_, _, _, _, _, _, _, _, _, rfl⟩ := bodyCdInit_ok hb
      exact hdec
    case hdInit n slot => rw [bodyHdInit_ad hb]; exact hdec
    case hdDec slot => rw [bodyHdDec_ad hb]; exact hdec
    case usaD | usanD =>
      (repeat' (obtain ⟨_, _, hb⟩ := bind_ok hb))
      cases hb
      rw [memWriteList_eq]
      exact hdec
    case rBit | rBits | rByte | rAlign | rSync | bndD | uvbD | svbD | vbyD =>
      (repeat' (obtain ⟨_, _, hb⟩ := bind_ok hb))
      cases hb; exact hdec
    all_goals cases hside

/-- The steps of every command that raise nothing keep the coder sound. -/
theorem body_arithSound {i : Instr} (h : ArithSound s) (hb : (commandOf i).body s = .ok s1) : ArithSound s1 := by
  have hp : s1.params = s.params := by rw [(body_frame hb).1]
  rw [arithSound_iff, hp]
  exact ⟨body_encSound ((arithSound_iff s).mp h).1 hb, body_decSound h hb⟩

end Halves

/-! ### Over a step -/

/-- A command but SRESET keeps the invariant of the coder: an error ends in FAULT. -/
theorem exec_arithInv {i : Instr} {s t : State} (hi : i ≠ .sreset) (hs : ArithInv s) (h : exec i s = .next t) :
    ArithInv t := by
  intro hf
  rcases exec_cases hi h with ⟨s1, k, q, hb, rfl⟩ | ⟨e, info, rfl⟩ | ⟨e, hl⟩
  · have hst : s1.status = s.status := by rw [(body_frame hb).1]
    have hs1 := body_arithSound (hs (by simpa [hst] using hf)) hb
    exact hs1.congr rfl rfl rfl
  · simp at hf
  · simp [lateFacts_fault hl] at hf

/-- The engine's step keeps the invariant of the coder. -/
theorem engineStep_arithInv {s t : State} (hs : ArithInv s) (h : engineStep s = .next t) : ArithInv t := by
  rcases engine_cases h with rfl | rfl | ⟨i, hi, -, he⟩
  · exact fun hf => by simp at hf
  · exact fun _ => (atResetValues_resetBlock s s.arr).arithSound
  · exact exec_arithInv hi hs he

/-- Settles O16, by what a step can do: only a command's end and a reset change the coder. -/
theorem arithInvKept : Obligations.ArithInvKept := by
  intro s t hs h
  cases step_cases h with
  | engine _ _ he => exact engineStep_arithInv hs he
  | reset s' _ => exact fun _ => (atResetValues_resetBlock s' []).arithSound
  | idle => exact hs
  | read | ignored | command | operand | array | source | sink => exact fun hf => (hs hf).congr rfl rfl rfl

end Sys2Proof
end

section
/-! The commands of the arithmetic coder (43_arithmetic.md R290 to R299): the checks of the encoder and of the decoder, how
each command ends, and the decoder that follows the encoder. -/

namespace Sys2Proof

open Sys2Proof.Machine Sys2Proof.Config

/-! ### The resets and the interval update -/

/-- Settles O44: a legal width passes the check, and the reset values are all that changes. -/
theorem arithmeticReset : Obligations.ArithmeticReset := by
  intro s n h2 h62 hs hp
  have hcheck := (widthCheck_iff n).mpr ⟨h2, h62⟩
  refine ⟨runCommand_unread (c := commandOf (.aeReset n)) hp hs ?_ rfl rfl le_rfl rfl rfl rfl rfl,
    runCommand_unread (c := commandOf (.adReset n)) hp hs ?_ rfl rfl le_rfl rfl rfl rfl rfl⟩
  · change bodyAeReset n s = _
    rw [bodyAeReset, hcheck]; rfl
  · change bodyAdReset n s = _
    rw [bodyAdReset, hcheck]; rfl

/-- Settles O45: the run of R292 is the one the update makes, with UF held to its limit. -/
theorem intervalUpdateEnds : Obligations.IntervalUpdateEnds := by
  intro ae tab sym ufMax hi hu hc
  obtain ⟨bits, l, h, u, hrun, hsound, hupdate⟩ := encUpdate_run hi hu hc
  refine ⟨bits, l, h, u, hrun, hsound, fun hle => ?_, fun hlt => ?_⟩
  · rw [hupdate, if_pos hle]
  · rw [hupdate, if_neg hlt.not_ge]

/-! ### The checks of the encoder (43_arithmetic.md R294) -/

section EncoderChecks

variable {s : State}

/-- Without an active pass, or on a closed writer, steps that open with these two checks raise `INVALID_STATE`. -/
theorem encoderChecks_refused {α : Type} (h : s.ae.mode ≠ .active ∨ s.wclosed = true) (f : Unit → Except Raise α) :
    (require (s.ae.mode == .active) { code := .invalidState, info := s.wpos } >>= fun _ => checkOpen s >>= f) =
      .error { code := .invalidState, info := s.wbits.length } := by
  by_cases hm : s.ae.mode = .active
  · have hc := h.resolve_left (not_not_intro hm)
    rw [hm, checkOpen_closed hc]; rfl
  · rw [beq_false_of_ne hm]; rfl

/-- With both they go on. -/
theorem encoderChecks_passed {α : Type} (hm : s.ae.mode = .active) (ho : s.wclosed = false)
    (f : Unit → Except Raise α) :
    (require (s.ae.mode == .active) { code := .invalidState, info := s.wpos } >>= fun _ => checkOpen s >>= f) = f () := by
  rw [hm, checkOpen_open ho]; rfl

theorem aeEncode_refused (h : s.ae.mode ≠ .active ∨ s.wclosed = true) (tab : List Int) (x : Int) :
    aeEncode s tab x = .error { code := .invalidState, info := s.wbits.length } :=
  encoderChecks_refused h _

/-- A table or a symbol that R291 rejects raises `INVALID_ARGUMENT`. -/
theorem aeEncode_rejected {tab : List Int} {x : Int} (hm : s.ae.mode = .active) (ho : s.wclosed = false)
    (h : ¬(checkTable s.ae.w tab = true ∧ checkSym tab x = true)) :
    aeEncode s tab x = .error { code := .invalidArgument, info := s.wbits.length } := by
  rw [aeEncode, encoderChecks_passed hm ho]
  by_cases htab : checkTable s.ae.w tab = true
  · have hsym : checkSym tab x = false := Bool.eq_false_iff.mpr fun hsym => h ⟨htab, hsym⟩
    rw [htab, hsym]; rfl
  · rw [Bool.eq_false_iff.mpr htab]; rfl

/-- `AE.ENC` with its window inside ARR is `AEEncode` of the words there. -/
theorem bodyAeEnc_inside (hw : windowOk s s.opA s.opB = true) : bodyAeEnc s = aeEncode s (windowWords s) s.opC := by
  by_cases h : s.ae.mode ≠ .active ∨ s.wclosed = true
  · rw [aeEncode_refused h]; exact encoderChecks_refused h _
  · obtain ⟨hm, ho⟩ : s.ae.mode = .active ∧ s.wclosed = false := by simpa using h
    rw [bodyAeEnc, encoderChecks_passed hm ho, hw]; rfl

theorem bodyAeEnc_outside (hm : s.ae.mode = .active) (ho : s.wclosed = false) (hw : ¬WindowInside s) :
    bodyAeEnc s = .error { code := .invalidArgument, info := s.wbits.length } := by
  rw [← windowOk_iff, Bool.not_eq_true] at hw
  rw [bodyAeEnc, encoderChecks_passed hm ho, hw]; rfl

end EncoderChecks

/-- A window that holds a valid table passes the window check, and its words are the table. -/
theorem windowWords_table {s : State} {off w : Nat} {tab : List Nat} (ha : s.a.toInt = off)
    (hb : s.b.toInt = tab.length) (hw : WindowHolds s off tab) (hv : TableValid w tab) :
    windowOk s s.opA s.opB = true ∧ windowWords s = tab.map Int.ofNat := by
  constructor
  · rw [State.opA, State.opB, ha, hb]; exact windowOk_of_holds hw
  · change readWindow s s.a.toInt.toNat s.b.toInt.toNat = _
    rw [ha, hb]; exact readWindow_eq hw (tableValid_le hv)

/-! ### `CAPACITY` (43_arithmetic.md R292, 60_exceptions.md R405) -/

/-- After `CAPACITY` AE_CODED is not free (vector A15 of 95_test_vectors.md). -/
theorem lateWrites_capacity {c : Command} {s : State} {e : Raise} (he : e.code = .capacity)
    (hw : (c.writes s).ae = aeStepWrites) : (lateWrites c s e).ae = { aeStepWrites with coded := false } := by
  rw [lateWrites, if_pos he, hw]

/-- A command that codes a symbol and meets the limit of UF after `n` bits leaves AE_STATE, AE_W and AE_CODED, the context
slots it could not write, and WBITS where `n` is 0. -/
theorem runCommand_capacity {c : Command} {s : State} {n : Nat} (hp : PortsSound s) (hside : c.side = .writer)
    (hw : (c.writes s).ae = aeStepWrites) (hce : (c.writes s).ce = none)
    (hb : c.body s = .error { code := .capacity, info := s.wbits.length + n, late := true }) :
    ∃ t, runCommand c s = .next t ∧ RaisesLate t c.op .capacity (s.wbits.length + n) ∧
      t.ae = { s.ae with low := t.ae.low, high := t.ae.high, uf := t.ae.uf } ∧ t.ce = s.ce ∧
      (n = 0 → t.wbits = s.wbits) := by
  have hfacts := lateFacts s c { code := .capacity, info := s.wbits.length + n, late := true }
  refine ⟨_, runCommand_late hp hb (.inl rfl), raisesLate_takeLate _ _ _, ?_, hfacts.ce hce, fun h0 => ?_⟩
  · rw [hfacts.ae, lateWrites_capacity rfl hw]; rfl
  · exact hfacts.wbits' hside (by rw [h0]; rfl)

/-- A command that codes a symbol with UF in its limit appends the bits of the run. -/
theorem runCommand_coded {c : Command} {s : State} {bits : List Bool} {ae : ArithEnc} (hp : PortsSound s)
    (hs : StreamSound s) (hd : c.drain = false) (hr : c.pull = .none) (hb : c.body s = .ok ((s.emit bits).setAe ae)) :
    ∃ t, runCommand c s = .next t ∧ EndsUnread s { s with wbits := s.wbits ++ bits, ae := ae } t :=
  runCommand_unread hp hs hb hd hr (by simp) rfl rfl rfl rfl

/-- `AE.ENC` of a codable symbol of the table in its window is `AEEncode` of it. -/
theorem bodyAeEnc_table {s : State} {off w sym : Nat} {tab : List Nat} (ha : s.a.toInt = off)
    (hb : s.b.toInt = tab.length) (hc : s.c.toInt = sym) (hw : WindowHolds s off tab) (hv : TableValid w tab) :
    bodyAeEnc s = aeEncode s (tab.map Int.ofNat) sym := by
  obtain ⟨hin, hwords⟩ := windowWords_table ha hb hw hv
  rw [bodyAeEnc_inside hin, hwords, State.opC, hc]

/-- Settles O46: the run of R292 decides between the end and `CAPACITY`; the checks come in the order of R294. -/
theorem arithmeticEncode : Obligations.ArithmeticEncode := by
  refine ⟨fun s off tab sym bits l h u ho hm ha hs hp hA hB hC hw hc hr => ?_, fun s => ⟨fun h => ?_, fun hm ho h => ?_⟩⟩
  · obtain ⟨hi, huf⟩ := ha.enc hm
    have hbody := (bodyAeEnc_table hA hB hC hw hc.1).trans (aeEncode_run hm ho hi huf hc hr)
    refine ⟨fun hu => ?_, fun hu => ?_⟩
    · rw [if_pos hu] at hbody
      exact runCommand_coded (c := commandOf .aeEnc) hp hs rfl rfl hbody
    · rw [if_neg hu.not_ge] at hbody
      obtain ⟨t, ht, hraise, hae, -, hbits⟩ := runCommand_capacity (c := commandOf .aeEnc) hp rfl rfl rfl hbody
      exact ⟨t, ht, hraise, hae, fun h0 => hbits (by rw [h0]; rfl)⟩
  · exact exec_raises (i := .aeEnc) (by simp) (encoderChecks_refused h _)
  · refine exec_raises (i := .aeEnc) (by simp) ?_
    by_cases hin : WindowInside s
    · refine (bodyAeEnc_inside ((windowOk_iff s).mpr hin)).trans (aeEncode_rejected hm ho fun ⟨htab, hsym⟩ => ?_)
      rcases h.resolve_left (not_not_intro hin) with hbad | hbad
      · exact hbad ((checkTable_words _ _).mp htab)
      · exact hbad ((checkSym_words _ _).mp hsym)
    · exact bodyAeEnc_outside hm ho hin

/-! ### The end of a pass (43_arithmetic.md R295) -/

/-- The encoder after `AE.FIN`. -/
def finishedEnc (ae : ArithEnc) : ArithEnc := { ae with uf := 0, mode := .finished }

theorem bodyAeFin_coded {s : State} (hm : s.ae.mode = .active) (hc : s.ae.coded = true) (ho : s.wclosed = false) :
    bodyAeFin s =
      .ok ((s.emit (true :: List.replicate (s.ae.uf + (s.ae.w - 1)) false)).setAe (finishedEnc s.ae)) := by
  rw [bodyAeFin, beq_iff_eq.mpr hm, require_true, ok_bind, if_pos hc, checkOpen_open ho, List.replicate_add]; rfl

theorem bodyAeFin_uncoded {s : State} (hm : s.ae.mode = .active) (hc : s.ae.coded = false) :
    bodyAeFin s = .ok (s.setAe (finishedEnc s.ae)) := by
  rw [bodyAeFin, beq_iff_eq.mpr hm, require_true, ok_bind, if_neg (by simp [hc])]; rfl

theorem bodyAeFin_refused {s : State} (h : s.ae.mode ≠ .active ∨ (s.ae.coded = true ∧ s.wclosed = true)) :
    bodyAeFin s = .error { code := .invalidState, info := s.wbits.length } := by
  by_cases hm : s.ae.mode = .active
  · obtain ⟨hcoded, hclosed⟩ := h.resolve_left (not_not_intro hm)
    rw [bodyAeFin, beq_iff_eq.mpr hm, require_true, ok_bind, if_pos hcoded, checkOpen_closed hclosed, error_bind]
  · rw [bodyAeFin, beq_false_of_ne hm]; rfl

/-- Settles O47: the closing bits of a pass that coded a symbol, none of one that did not, or the refusals. -/
theorem arithmeticFinish : Obligations.ArithmeticFinish := by
  refine fun s => ⟨fun hm hs hp => ⟨fun hc ho => ?_, fun hc => ?_⟩,
    fun h => exec_raises (i := .aeFin) (by simp) (bodyAeFin_refused h)⟩
  · exact runCommand_coded (c := commandOf .aeFin) hp hs rfl rfl (bodyAeFin_coded hm hc ho)
  · exact runCommand_unread (c := commandOf .aeFin) hp hs (bodyAeFin_uncoded hm hc) rfl rfl le_rfl rfl rfl rfl rfl

/-! ### The decoder (43_arithmetic.md R298) -/

section DecoderChecks

variable {s : State}

theorem adDecode_refused (h : s.ad.mode ≠ .active) (tab : List Int) :
    adDecode s tab = .error { code := .invalidState, info := s.rpos } := by
  rw [adDecode, beq_false_of_ne h]; rfl

theorem adDecode_rejected {tab : List Int} (hm : s.ad.mode = .active) (h : checkTable s.ad.w tab = false) :
    adDecode s tab = .error { code := .invalidArgument, info := s.rpos } := by
  rw [adDecode, beq_iff_eq.mpr hm, require_true, ok_bind, h]; rfl

theorem bodyAdDec_refused (h : s.ad.mode ≠ .active) :
    bodyAdDec s = .error { code := .invalidState, info := s.rpos } := by
  rw [bodyAdDec, beq_false_of_ne h]; rfl

/-- The state after a decoded index: the symbol `f` gives for it in R. -/
def symbolRead (f : Nat → Nat) (r : Nat × State) : State := r.2.setR (BitVec.ofNat 64 (f r.1))

/-- In an active pass `AD.DEC` with its window inside ARR is `ADDecode` of the words there. -/
theorem bodyAdDec_inside (hm : s.ad.mode = .active) (hw : windowOk s s.opA s.opB = true) :
    bodyAdDec s = (adDecode s (windowWords s)).map (symbolRead id) := by
  rw [bodyAdDec, beq_iff_eq.mpr hm, require_true, ok_bind, hw, require_true, ok_bind]
  change adDecode s (windowWords s) >>= _ = _
  cases adDecode s (windowWords s) <;> rfl

theorem bodyAdDec_outside (hm : s.ad.mode = .active) (hw : ¬WindowInside s) :
    bodyAdDec s = .error { code := .invalidArgument, info := s.rpos } := by
  rw [← windowOk_iff, Bool.not_eq_true] at hw
  rw [bodyAdDec, beq_iff_eq.mpr hm, require_true, ok_bind, hw]; rfl

end DecoderChecks

/-- A command that decodes over the bits `ADDecode` takes next ends with the symbol, the decoder and the position it
leaves. -/
theorem runCommand_decoded {c : Command} {s : State} {tab : List Nat} {bits : List Bool} {sym : Nat} {ad : ArithDec}
    {f : Nat → Nat} (hd : c.drain = false) (hq : c.pull = .bits) (hm : s.ad.mode = .active) (ha : ArithSound s)
    (hs : StreamSound s) (hp : PortsSound s) (hv : TableValid s.ad.w tab) (hr : DecoderRun s.ad tab bits sym ad)
    (hin : InputHolds s bits) (hb : c.body s = (adDecode s (tab.map Int.ofNat)).map (symbolRead f)) :
    ∃ t, runCommand c s = .next t ∧
      EndsRead s { s with r := BitVec.ofNat 64 (f sym), ad := ad, rpos := s.rpos + bits.length } t := by
  rw [adDecode_run hp.2 hm ha hv hr hin] at hb
  have hbody : c.body s =
      .ok (((s.setAd ad).setRpos (s.rpos + bits.length)).setR (BitVec.ofNat 64 (f sym))) := hb
  exact runCommand_read hp hs hbody hd (.inl ⟨hq, Nat.le_add_right _ _⟩) rfl rfl rfl rfl rfl

/-- Settles O48: `ADDecode` over the words of the window, after the checks of R298. -/
theorem arithmeticDecode : Obligations.ArithmeticDecode := by
  refine ⟨fun s off tab bits sym ad hm ha hs hp hA hB hw hv hr hin => ?_, fun s => ⟨fun h => ?_, fun hm h => ?_⟩⟩
  · obtain ⟨hok, hwords⟩ := windowWords_table hA hB hw hv
    refine runCommand_decoded (c := commandOf .adDec) (f := id) rfl rfl hm ha hs hp hv hr hin ?_
    rw [← hwords]; exact bodyAdDec_inside hm hok
  · exact exec_raises (i := .adDec) (by simp) (bodyAdDec_refused h)
  · refine exec_raises (i := .adDec) (by simp) ?_
    by_cases hin : WindowInside s
    · have hbad := h.resolve_left (not_not_intro hin)
      rw [← checkTable_words, Bool.not_eq_true] at hbad
      change bodyAdDec s = _
      rw [bodyAdDec_inside hm ((windowOk_iff s).mpr hin), adDecode_rejected hm hbad]; rfl
    · exact bodyAdDec_outside hm hin

/-! ### The decoder follows the encoder (43_arithmetic.md R299 (c)) -/

/-- A command that ends outside FAULT ends in the state its steps left, with the ports settled. -/
theorem exec_noFault {i : Instr} {s t : State} (hi : i ≠ .sreset) (h : exec i s = .next t)
    (hf : t.status.fault = false) :
    ∃ s1 k q, (commandOf i).body s = .ok s1 ∧ t = ((s1.settle k q).endBusy).drawn := by
  rcases exec_cases hi h with hdone | ⟨e, info, rfl⟩ | ⟨e, hl⟩
  · exact hdone
  · simp at hf
  · simp [lateFacts_fault hl] at hf

/-- The code lies in the part of the interval that the symbol narrows it to. -/
def InPart (low high : Nat) (tab : List Nat) (sym code : Nat) : Prop :=
  newLow low high (symLow tab sym) (tab.getLastD 0) ≤ code ∧ code ≤ newHigh low high (symHigh tab sym) (tab.getLastD 0)

/-- Then the search of R298 finds the symbol. -/
theorem symbolAt_of_inPart {w low high code sym : Nat} {tab : List Nat} (hi : IntervalSound w low high)
    (hlow : low ≤ code) (hc : Codable w tab sym) (hin : InPart low high tab sym code) :
    symbolAt (tab.map Int.ofNat) (((code - low + 1) * tab.getLastD 0 - 1) / (high - low + 1)) = sym := by
  obtain ⟨hv, hs, hlt⟩ := hc
  have hwide : tab.getLastD 0 ≤ symHigh tab sym * (high - low + 1) :=
    (hv.2.2.2.trans (budget_le_range hi)).trans (Nat.le_mul_of_pos_left _ (by omega))
  obtain ⟨hge, hle⟩ := value_iff (clo := symLow tab sym) hlow hv.2.2.1 hwide
  exact symbolAt_eq hv.2.1 hs (hge.mpr hin.1) (hle.mpr hin.2)

/-- AE.ENC that ends without error has run the loops of R292 for the symbol of `C`. -/
theorem exec_aeEnc_noFault {s t : State} {off sym w : Nat} {tab : List Nat} (ha : ArithSound s) (hA : s.a.toInt = off)
    (hB : s.b.toInt = tab.length) (hC : s.c.toInt = sym) (hw : WindowHolds s off tab) (hv : TableValid w tab)
    (hex : exec .aeEnc s = .next t) (hf : t.status.fault = false) :
    ∃ bits u, EncoderRun s.ae tab sym bits t.ae.low t.ae.high u := by
  obtain ⟨s1, k, q, hbody, rfl⟩ := exec_noFault (by simp) hex hf
  have hcode := (bodyAeEnc_table hA hB hC hw hv).symm.trans hbody
  obtain ⟨xs, sym', bits, l, h, u, -, -, htab, hsym, -, hrun, -, -, rfl⟩ := aeEncode_ok ha.enc hcode
  obtain rfl := List.map_injective_iff.mpr Int.ofNat_injective htab
  obtain rfl : sym = sym' := Int.ofNat_injective hsym
  exact ⟨bits, u, hrun⟩

/-- AD.DEC of a filled decoder that ends without error returns a symbol whose part holds the code, and has run the
encoder's loops for it. -/
theorem exec_adDec_noFault {s t : State} {off w : Nat} {tab : List Nat} (ha : ArithSound s) (hm : s.ad.mode = .active)
    (hfilled : s.ad.filled = true) (hA : s.a.toInt = off) (hB : s.b.toInt = tab.length) (hw : WindowHolds s off tab)
    (hv : TableValid w tab) (hex : exec .adDec s = .next t) (hf : t.status.fault = false) :
    ∃ i, t.r = BitVec.ofNat 64 i ∧ Codable s.ad.w tab i ∧ InPart s.ad.low s.ad.high tab i s.ad.code ∧
      ∀ ae : ArithEnc, ae.w = s.ad.w → ae.low = s.ad.low → ae.high = s.ad.high →
        ∃ bits u, EncoderRun ae tab i bits t.ad.low t.ad.high u := by
  obtain ⟨s1, k, q, hbody, rfl⟩ := exec_noFault (by simp) hex hf
  obtain ⟨hok, hwords⟩ := windowWords_table hA hB hw hv
  replace hbody := (bodyAdDec_inside hm hok).symm.trans hbody
  rw [hwords] at hbody
  cases hdec : adDecode s (tab.map Int.ofNat) with
  | error e => rw [hdec] at hbody; cases hbody
  | ok r =>
    rw [hdec] at hbody
    cases hbody
    obtain ⟨i, s2⟩ := r
    obtain ⟨xs, ad, code, p, -, htab, hc, hcode, -, hge, hle, rfl, -, -, -, -, -, -, hloops⟩ := adDecode_ok ha hdec
    obtain rfl := List.map_injective_iff.mpr Int.ofNat_injective htab
    obtain rfl := hcode hfilled
    refine ⟨i, rfl, hc, ⟨hge, hle⟩, fun ae hw hlow hhigh => ?_⟩
    obtain ⟨bits, l1, h1, u1, u, hshift, hunder⟩ := hloops ae.uf
    rw [← hw, ← hlow, ← hhigh] at hshift
    rw [← hw] at hunder
    exact ⟨bits, u, l1, h1, u1, hshift, hunder⟩

/-- Settles O49: the code lies in one symbol's part only, and the loops of the decoder are those of the encoder, which
have one outcome. -/
theorem decoderFollowsEncoder : Obligations.DecoderFollowsEncoder := by
  intro s t u v off off' tab sym hs hu _ _ _ hm hfilled hw hlow hhigh hA hB hwin hA' hB' hwin' hc hC hge hle _ _ hexE hexD
    hfE hfD
  obtain ⟨bits, uf, hrun⟩ := exec_aeEnc_noFault hs hA hB hC hwin hc.1 hexE hfE
  obtain ⟨i, hr, hci, hin, hloops⟩ := exec_adDec_noFault hu hm hfilled hA' hB' hwin' hc.1 hexD hfD
  obtain ⟨bits', uf', hrun'⟩ := hloops s.ae hw hlow hhigh
  rw [hlow, hhigh] at hge hle
  rw [hw] at hc
  have hcode := (hu.code hm hfilled).1
  obtain rfl : i = sym :=
    (symbolAt_of_inPart (hu.dec hm) hcode hci hin).symm.trans (symbolAt_of_inPart (hu.dec hm) hcode hc ⟨hge, hle⟩)
  obtain ⟨-, hl, hh, -⟩ := encoderRun_det hrun' hrun
  exact ⟨hr, hl, hh⟩

end Sys2Proof
end

section
/-! The commands of the context coder (43_arithmetic.md R300 to R305), with HE.FIN (44_huffman.md R358): the two inits, the
counting pass, the coding pass, the end of a pass, and the decoder's table. -/

namespace Sys2Proof

open Sys2Proof.Machine Sys2Proof.Config

/-! ### CE.INIT (43_arithmetic.md R301) -/

section CeInit

variable {s : State} {slot : Nat}

theorem bodyCeInit_start (hslot : slot < s.params.nSlots)
    (h : (s.ceAt slot).pass = .idle ∨ (s.ceAt slot).pass = .done) :
    bodyCeInit slot s = .ok (s.setCe slot { pass := .pass1, freq := [], syms := [], cum := [] }) := by
  rw [bodyCeInit, checkSlot_ok hslot, ok_bind]
  rcases h with h | h <;> (dsimp only; rw [h])

theorem bodyCeInit_pass2 (hslot : slot < s.params.nSlots) (h : (s.ceAt slot).pass = .pass2) :
    bodyCeInit slot s = .error { code := .invalidState, info := s.wbits.length } := by
  rw [bodyCeInit, checkSlot_ok hslot, ok_bind]
  dsimp only; rw [h]; rfl

/-- The total of the counts within the budget of R290, or no total to check. -/
def BudgetMet (s : State) (slot : Nat) : Prop :=
  (s.ceAt slot).freq.length < 2 ∨ (cumulative (s.ceAt slot).freq).getLastD 0 ≤ budget s.ae.w

/-- The budget check of CE.INIT. -/
theorem budgetCheck_iff :
    (decide ((s.ceAt slot).keys.length < 2) || decide ((s.ceAt slot).sums.getLastD 0 ≤ maxTotal s.ae.w)) = true ↔
      BudgetMet s slot := by
  rw [sums_eq_cumulative, CeSlot.keys, List.length_map, Bool.or_eq_true, decide_eq_true_eq, decide_eq_true_eq]; rfl

/-- CE.INIT in pass 1 after the slot check: the encoder, the writer and the budget are checked, then the table goes out. -/
theorem bodyCeInit_pass1 (hslot : slot < s.params.nSlots) (h : (s.ceAt slot).pass = .pass1) :
    bodyCeInit slot s =
      (require (s.ae.mode != .idle) { code := .invalidState, info := s.wpos } >>= fun _ => checkOpen s >>= fun _ =>
        require (decide ((s.ceAt slot).keys.length < 2) || decide ((s.ceAt slot).sums.getLastD 0 ≤ maxTotal s.ae.w))
          { code := .invalidArgument, info := s.wpos } >>= fun _ =>
        .ok ((s.emit (contextTable (s.ceAt slot).keys (s.ceAt slot).sums)).setCe slot
          { s.ceAt slot with syms := (s.ceAt slot).keys, cum := (s.ceAt slot).sums, pass := .pass2 })) := by
  rw [bodyCeInit, checkSlot_ok hslot, ok_bind]
  dsimp only; rw [h]

theorem bodyCeInit_table (hslot : slot < s.params.nSlots) (h : (s.ceAt slot).pass = .pass1) (hm : s.ae.mode ≠ .idle)
    (ho : s.wclosed = false) (hb : BudgetMet s slot) :
    bodyCeInit slot s =
      .ok ((s.emit (contextTable (s.ceAt slot).keys (cumulative (s.ceAt slot).freq))).setCe slot
        { pass := .pass2
          freq := (s.ceAt slot).freq
          syms := (s.ceAt slot).keys
          cum := cumulative (s.ceAt slot).freq }) := by
  rw [bodyCeInit_pass1 hslot h, bne_iff_ne.mpr hm, checkOpen_open ho, budgetCheck_iff.mpr hb, sums_eq_cumulative]; rfl

theorem bodyCeInit_noCoder (hslot : slot < s.params.nSlots) (h : (s.ceAt slot).pass = .pass1)
    (hm : s.ae.mode = .idle ∨ s.wclosed = true) :
    bodyCeInit slot s = .error { code := .invalidState, info := s.wbits.length } := by
  rw [bodyCeInit_pass1 hslot h]
  by_cases hidle : s.ae.mode = .idle
  · rw [hidle]; rfl
  · rw [bne_iff_ne.mpr hidle, checkOpen_closed (hm.resolve_left hidle)]; rfl

theorem bodyCeInit_overBudget (hslot : slot < s.params.nSlots) (h : (s.ceAt slot).pass = .pass1)
    (hm : s.ae.mode ≠ .idle) (ho : s.wclosed = false) (hb : ¬BudgetMet s slot) :
    bodyCeInit slot s = .error { code := .invalidArgument, info := s.wbits.length } := by
  rw [← budgetCheck_iff, Bool.not_eq_true] at hb
  rw [bodyCeInit_pass1 hslot h, bne_iff_ne.mpr hm, checkOpen_open ho, hb]; rfl

/-- Rising counts whose last is within the budget are a valid sorted array. -/
theorem sortedArray_of_budget {w : Nat} {cum : List Nat} (hrise : cum.Pairwise (· < ·))
    (hlast : cum.getLastD 0 ≤ budget w) : SortedArray cum := by
  refine ⟨hrise, fun x hx => ?_⟩
  calc x ≤ cum.getLastD 0 := le_getLastD hrise x hx
    _ ≤ budget w := hlast
    _ ≤ lmax / 2 ^ w := min_le_left _ _
    _ ≤ lmax := Nat.div_le_self _ _

/-- The table CE.INIT emits for a slot within its limits is the one of R301. -/
theorem contextTable_of_budget (h : SlotsSound s) (hb : BudgetMet s slot) :
    ContextCode (s.ceAt slot).keys (cumulative (s.ceAt slot).freq)
      (contextTable (s.ceAt slot).keys (cumulative (s.ceAt slot).freq)) := by
  obtain ⟨hkeys, -, hcount, -⟩ := h.ceAt slot
  refine contextTable_code hkeys fun h2 => ?_
  have h2 : 2 ≤ (s.ceAt slot).freq.length := by simpa [CeSlot.keys] using h2
  exact sortedArray_of_budget (cumulative_sorted hcount) (hb.resolve_left h2.not_gt)

end CeInit

/-- Settles O50: the first init empties the slot, the second writes its table; the checks come in the order of R301. -/
theorem contextInit : Obligations.ContextInit := by
  refine fun s slot hslot => ⟨fun hs hp h => ?_, fun hs hp hsl h hm ho hb => ?_, fun h => ?_, fun h hm ho h2 hover => ?_⟩
  · exact runCommand_unread (c := commandOf (.ceInit slot)) hp hs (bodyCeInit_start hslot h) rfl rfl le_rfl rfl rfl rfl rfl
  · obtain ⟨t, ht, hends⟩ := runCommand_unread (c := commandOf (.ceInit slot)) hp hs (bodyCeInit_table hslot h hm ho hb)
      rfl rfl (by simp) rfl rfl rfl rfl
    exact ⟨t, _, ht, contextTable_of_budget hsl hb, hends⟩
  · refine exec_raises (i := .ceInit slot) (by simp) ?_
    rcases h with h | ⟨h, hm⟩
    · exact bodyCeInit_pass2 hslot h
    · exact bodyCeInit_noCoder hslot h hm
  · refine exec_raises (i := .ceInit slot) (by simp) (bodyCeInit_overBudget hslot h hm ho ?_)
    exact not_or.mpr ⟨h2.not_gt, hover.not_ge⟩

/-! ### CE.ENC (43_arithmetic.md R302) -/

section CeEnc

variable {s : State} {slot : Nat}

theorem bodyCeEnc_noPass (hslot : slot < s.params.nSlots)
    (h : (s.ceAt slot).pass = .idle ∨ (s.ceAt slot).pass = .done) :
    bodyCeEnc slot s = .error { code := .invalidState, info := s.wbits.length } := by
  rw [bodyCeEnc, checkSlot_ok hslot, ok_bind]
  rcases h with h | h <;> (dsimp only; rw [h]; rfl)

/-- CE.ENC in pass 1 after the slot check. -/
theorem bodyCeEnc_pass1 (hslot : slot < s.params.nSlots) (h : (s.ceAt slot).pass = .pass1) :
    bodyCeEnc slot s =
      (require (decide (0 ≤ s.opA)) { code := .invalidArgument, info := s.wpos } >>= fun _ =>
        require ((s.ceAt slot).keys.contains s.opA.toNat || (s.ceAt slot).freq.length != s.params.slotSyms)
          { code := .capacity, info := s.wpos } >>= fun _ =>
        .ok (s.setCe slot { s.ceAt slot with freq := freqAdd s.opA.toNat (s.ceAt slot).freq })) := by
  rw [bodyCeEnc, checkSlot_ok hslot, ok_bind]
  dsimp only; rw [h]

/-- The room check of CE.ENC for symbol `x`. -/
theorem roomCheck_iff (x : Nat) :
    ((s.ceAt slot).keys.contains x || (s.ceAt slot).freq.length != s.params.slotSyms) = true ↔
      x ∈ (s.ceAt slot).freq.map Prod.fst ∨ (s.ceAt slot).freq.length ≠ s.params.slotSyms := by
  simp [CeSlot.keys]

theorem bodyCeEnc_counted {x : Nat} (hslot : slot < s.params.nSlots) (h : (s.ceAt slot).pass = .pass1)
    (ha : s.a.toInt = x)
    (hroom : x ∈ (s.ceAt slot).freq.map Prod.fst ∨ (s.ceAt slot).freq.length ≠ s.params.slotSyms) :
    bodyCeEnc slot s = .ok (s.setCe slot { s.ceAt slot with freq := freqAdd x (s.ceAt slot).freq }) := by
  rw [bodyCeEnc_pass1 hslot h, State.opA, ha, decide_eq_true (Int.natCast_nonneg x), Int.toNat_natCast,
    (roomCheck_iff x).mpr hroom]; rfl

theorem bodyCeEnc_full {x : Nat} (hslot : slot < s.params.nSlots) (h : (s.ceAt slot).pass = .pass1)
    (ha : s.a.toInt = x) (hnew : x ∉ (s.ceAt slot).freq.map Prod.fst)
    (hfull : (s.ceAt slot).freq.length = s.params.slotSyms) :
    bodyCeEnc slot s = .error { code := .capacity, info := s.wbits.length } := by
  have hroom := mt (roomCheck_iff x).mp (not_or.mpr ⟨hnew, not_not_intro hfull⟩)
  rw [Bool.not_eq_true] at hroom
  rw [bodyCeEnc_pass1 hslot h, State.opA, ha, decide_eq_true (Int.natCast_nonneg x), Int.toNat_natCast, hroom]; rfl

theorem bodyCeEnc_negative (hslot : slot < s.params.nSlots) (h : (s.ceAt slot).pass = .pass1) (ha : s.a.toInt < 0) :
    bodyCeEnc slot s = .error { code := .invalidArgument, info := s.wbits.length } := by
  rw [bodyCeEnc_pass1 hslot h, State.opA, decide_eq_false ha.not_ge]; rfl

end CeEnc

/-- Settles O51: `freqAdd` counts the symbol, where the checks of R302 let it. -/
theorem contextCount : Obligations.ContextCount := by
  refine ⟨fun s slot x hslot hs hp hsl h ha => ⟨fun hroom => ?_, fun hnew hfull => ?_⟩,
    fun s slot hslot => ⟨fun h hneg => ?_, fun h => ?_⟩⟩
  · obtain ⟨⟨hrise, -⟩, -⟩ := hsl.ceAt slot
    obtain ⟨hrise', hcounts, -⟩ := freqAdd_spec x hrise
    obtain ⟨t, ht, hends⟩ := runCommand_unread (c := commandOf (.ceEnc slot)) hp hs
      (bodyCeEnc_counted hslot h ha (hroom.imp_right Nat.ne_of_lt)) rfl rfl le_rfl rfl rfl rfl rfl
    exact ⟨t, _, ht, hrise', hcounts, hends⟩
  · exact exec_raises (i := .ceEnc slot) (by simp) (bodyCeEnc_full hslot h ha hnew hfull)
  · exact exec_raises (i := .ceEnc slot) (by simp) (bodyCeEnc_negative hslot h hneg)
  · exact exec_raises (i := .ceEnc slot) (by simp) (bodyCeEnc_noPass hslot h)

section CeEncPass2

variable {s : State} {slot : Nat}

/-- The symbol of `A` is in the table of the slot. -/
def InTable (s : State) (slot : Nat) : Prop := 0 ≤ s.a.toInt ∧ s.a.toNat ∈ (s.ceAt slot).syms

/-- CE.ENC in pass 2 after the slot check. -/
theorem bodyCeEnc_pass2 (hslot : slot < s.params.nSlots) (h : (s.ceAt slot).pass = .pass2) :
    bodyCeEnc slot s =
      (require (decide (0 ≤ s.opA) && (s.ceAt slot).syms.contains s.opA.toNat)
          { code := .symbolNotSeen, info := s.wpos } >>= fun _ =>
        if 2 ≤ (s.ceAt slot).syms.length then
          aeEncode s ((s.ceAt slot).cum.map Int.ofNat) ((s.ceAt slot).syms.idxOf s.opA.toNat)
        else .ok s) := by
  rw [bodyCeEnc, checkSlot_ok hslot, ok_bind]
  dsimp only; rw [h]

/-- The table check of CE.ENC. -/
theorem tableCheck_iff :
    (decide (0 ≤ s.opA) && (s.ceAt slot).syms.contains s.opA.toNat) = true ↔ InTable s slot := by
  rw [Bool.and_eq_true, decide_eq_true_eq, List.contains_iff_mem]
  exact and_congr_right fun ha => by rw [State.opA, toNat_toInt_of_nonneg ha]

theorem bodyCeEnc_notSeen (hslot : slot < s.params.nSlots) (h : (s.ceAt slot).pass = .pass2) (hin : ¬InTable s slot) :
    bodyCeEnc slot s = .error { code := .symbolNotSeen, info := s.wbits.length } := by
  rw [← tableCheck_iff, Bool.not_eq_true] at hin
  rw [bodyCeEnc_pass2 hslot h, hin]; rfl

/-- The one symbol of a table needs no bit. -/
theorem bodyCeEnc_one (hslot : slot < s.params.nSlots) (h : (s.ceAt slot).pass = .pass2) (hin : InTable s slot)
    (h1 : ¬2 ≤ (s.ceAt slot).syms.length) : bodyCeEnc slot s = .ok s := by
  rw [bodyCeEnc_pass2 hslot h, tableCheck_iff.mpr hin, require_true, ok_bind, if_neg h1]

theorem bodyCeEnc_many (hslot : slot < s.params.nSlots) (h : (s.ceAt slot).pass = .pass2) (hin : InTable s slot)
    (h2 : 2 ≤ (s.ceAt slot).syms.length) :
    bodyCeEnc slot s = aeEncode s ((s.ceAt slot).cum.map Int.ofNat) ((s.ceAt slot).syms.idxOf s.a.toNat) := by
  rw [bodyCeEnc_pass2 hslot h, tableCheck_iff.mpr hin, require_true, ok_bind, if_pos h2, State.opA,
    toNat_toInt_of_nonneg hin.1]

/-- In pass 2 CE.ENC could write no slot; for two symbols or more it could write what `AEEncode` does. -/
theorem ceEncWrites_pass2 (h : (s.ceAt slot).pass = .pass2) (h2 : 2 ≤ (s.ceAt slot).syms.length) :
    ceEncWrites slot s = { ae := aeStepWrites } := by
  rw [ceEncWrites, h]; dsimp only; rw [if_pos h2]

/-- The place of a symbol in a sound table. -/
theorem idxOf_syms {sym : Nat} (hsl : SlotsSound s) (h : (s.ceAt slot).pass = .pass2)
    (hsym : (s.ceAt slot).syms[sym]? = some s.a.toNat) : (s.ceAt slot).syms.idxOf s.a.toNat = sym := by
  obtain ⟨-, -, -, htables⟩ := hsl.ceAt slot
  obtain ⟨⟨hrise, -⟩, -, -⟩ := htables h
  obtain ⟨hlt, hget⟩ := List.getElem?_eq_some_iff.mp hsym
  rw [← hget]
  have hnodup : (s.ceAt slot).syms.Nodup := hrise.imp Nat.ne_of_lt
  exact hnodup.idxOf_getElem sym hlt

end CeEncPass2

/-- The check of R291 on a table of counts. -/
theorem tableCheck_ofNat (w : Nat) (tab : List Nat) : checkTable w (tab.map Int.ofNat) = true ↔ TableValid w tab := by
  refine (checkTable_iff _ _).trans ⟨fun ⟨xs, hxs, hv⟩ => ?_, fun hv => ⟨tab, rfl, hv⟩⟩
  rwa [List.map_injective_iff.mpr Int.ofNat_injective hxs]

/-- The checks of R291 on a table of counts and the index of a symbol. -/
theorem codableChecks_iff (w : Nat) (tab : List Nat) (sym : Nat) :
    (checkTable w (tab.map Int.ofNat) = true ∧ checkSym (tab.map Int.ofNat) sym = true) ↔ Codable w tab sym := by
  refine and_congr (tableCheck_ofNat w tab) ((checkSym_iff _ _).trans ⟨fun ⟨i, hi, hs⟩ => ?_, fun hs => ⟨sym, rfl, hs⟩⟩)
  rwa [Int.ofNat_injective hi]

/-- Settles O52: a symbol of a table of two or more goes through `AEEncode`, after the check that it was seen. -/
theorem contextEncode : Obligations.ContextEncode := by
  refine fun s slot hslot h => ⟨fun sym bits l hi u ho hm ha hs hp hsl h2 hA hsym hc hr hu => ?_, fun hs hp hA h1 => ?_,
    fun hbad => ?_, fun hA hmem h2 hbad => ?_, fun sym hA hsym h2 hm ho hsl => ?_⟩
  · have hin : InTable s slot := ⟨hA, List.mem_of_getElem? hsym⟩
    obtain ⟨hsound, huf⟩ := ha.enc hm
    have hbody := bodyCeEnc_many hslot h hin h2
    rw [idxOf_syms hsl h hsym, aeEncode_run hm ho hsound huf hc hr, if_pos hu] at hbody
    exact runCommand_coded (c := commandOf (.ceEnc slot)) hp hs rfl rfl hbody
  · have hin : InTable s slot := ⟨hA, by simp [h1]⟩
    exact runCommand_unread (c := commandOf (.ceEnc slot)) hp hs (bodyCeEnc_one hslot h hin (by simp [h1])) rfl rfl le_rfl
      rfl rfl rfl rfl
  · refine exec_raises (i := .ceEnc slot) (by simp) (bodyCeEnc_notSeen hslot h fun ⟨hA, hmem⟩ => ?_)
    exact hbad.elim hA.not_gt fun hout => hout hmem
  · exact exec_raises (i := .ceEnc slot) (by simp)
      ((bodyCeEnc_many hslot h ⟨hA, hmem⟩ h2).trans (aeEncode_refused hbad _ _))
  · have hbody := bodyCeEnc_many hslot h ⟨hA, List.mem_of_getElem? hsym⟩ h2
    rw [idxOf_syms hsl h hsym] at hbody
    refine ⟨fun hc => ?_, fun bits l hi u ha hp hc hr hu => ?_⟩
    · exact exec_raises (i := .ceEnc slot) (by simp)
        (hbody.trans (aeEncode_rejected hm ho (mt (codableChecks_iff _ _ _).mp hc)))
    · obtain ⟨hsound, huf⟩ := ha.enc hm
      rw [aeEncode_run hm ho hsound huf hc hr, if_neg hu.not_ge] at hbody
      have hwrites := ceEncWrites_pass2 h h2
      obtain ⟨t, ht, hraise, hae, hce, hbits⟩ := runCommand_capacity (c := commandOf (.ceEnc slot)) hp rfl
        (congrArg Writes.ae hwrites) (congrArg Writes.ce hwrites) hbody
      exact ⟨t, ht, hraise, hae, hce, fun h0 => hbits (by rw [h0]; rfl)⟩

/-! ### CE.FIN and HE.FIN (43_arithmetic.md R303, 44_huffman.md R358) -/

section Finish

variable {s : State} {slot : Nat}

theorem bodyCeFin_pass2 (hslot : slot < s.params.nSlots) (h : (s.ceAt slot).pass = .pass2) :
    bodyCeFin slot s = .ok (s.setCe slot { s.ceAt slot with pass := .done }) := by
  rw [bodyCeFin, checkSlot_ok hslot, ok_bind, beq_iff_eq.mpr h, require_true, ok_bind]

theorem bodyCeFin_refused (hslot : slot < s.params.nSlots) (h : (s.ceAt slot).pass ≠ .pass2) :
    bodyCeFin slot s = .error { code := .invalidState, info := s.wbits.length } := by
  rw [bodyCeFin, checkSlot_ok hslot, ok_bind, beq_false_of_ne h]; rfl

theorem bodyHeFin_pass2 (hslot : slot < s.params.nSlots) (h : (s.heAt slot).pass = .pass2) :
    bodyHeFin slot s = .ok (s.setHe slot { s.heAt slot with pass := .done }) := by
  rw [bodyHeFin, checkSlot_ok hslot, ok_bind, beq_iff_eq.mpr h, require_true, ok_bind]

theorem bodyHeFin_refused (hslot : slot < s.params.nSlots) (h : (s.heAt slot).pass ≠ .pass2) :
    bodyHeFin slot s = .error { code := .invalidState, info := s.wbits.length } := by
  rw [bodyHeFin, checkSlot_ok hslot, ok_bind, beq_false_of_ne h]; rfl

end Finish

/-- Settles O53: both finish commands check the pass and change nothing but it. -/
theorem slotFinish : Obligations.SlotFinish := by
  refine fun s slot hslot => ⟨fun hs hp h => ?_, fun h => ?_, fun hs hp h => ?_, fun h => ?_⟩
  · exact runCommand_unread (c := commandOf (.ceFin slot)) hp hs (bodyCeFin_pass2 hslot h) rfl rfl le_rfl rfl rfl rfl rfl
  · exact exec_raises (i := .ceFin slot) (by simp) (bodyCeFin_refused hslot h)
  · exact runCommand_unread (c := commandOf (.heFin slot)) hp hs (bodyHeFin_pass2 hslot h) rfl rfl le_rfl rfl rfl rfl rfl
  · exact exec_raises (i := .heFin slot) (by simp) (bodyHeFin_refused hslot h)

end Sys2Proof
end

section
/-! The context decoder (43_arithmetic.md R304, R305): the table CD.INIT reads back, with the errors of its size, its counts
and its width, and the symbol CD.DEC returns. -/

namespace Sys2Proof

open Sys2Proof.Machine Sys2Proof.Config

/-! ### CD.INIT (43_arithmetic.md R304) -/

section CdInit

variable {s : State} {slot n : Nat} {size : List Bool}

theorem bodyCdInit_idle (hslot : slot < s.params.nSlots) (h : s.ad.mode = .idle) :
    bodyCdInit slot s = .error { code := .invalidState, info := s.rpos } := by
  rw [bodyCdInit, checkSlot_ok hslot, ok_bind, h]; rfl

/-- The counts of a table of `n` symbols at position `k`: none for fewer than two. -/
def readCounts (src : Source) (n k : Nat) : Except Raise (List Nat × Nat) :=
  if 2 ≤ n then decUsaBody src n k else .ok ([], k)

/-- The rest of CD.INIT after the counts: the budget check and the symbols. -/
def readSymbols (s : State) (slot n : Nat) (counts : List Nat × Nat) : Except Raise State := do
  require (decide (n < 2) || decide (counts.1.getLastD 0 ≤ maxTotal s.ad.w))
    { code := .precisionBudget, info := counts.2 }
  let (syms, k) ← decUsaBody s.source n counts.2
  .ok ((s.setRpos k).setCd slot (.ready syms counts.1))

/-- CD.INIT over the code of a size: the size check, the counts, the rest. -/
theorem bodyCdInit_size (hslot : slot < s.params.nSlots) (hm : s.ad.mode ≠ .idle) (hp : PortsSound s) (hn : n ≤ lmax)
    (hc : UVarCode n 0 size) (hin : InputHolds s size) :
    bodyCdInit slot s =
      (require (decide (n ≤ s.params.slotSyms)) { code := .capacity, info := s.rpos + size.length } >>= fun _ =>
        readCounts s.source n (s.rpos + size.length) >>= readSymbols s slot n) := by
  rw [bodyCdInit, checkSlot_ok hslot, ok_bind, bne_iff_ne.mpr hm, require_true, ok_bind,
    decUVarBits_code hp.2 (by omega) hn hc hin, ok_bind]
  rw [readCounts]
  dsimp only
  split_ifs <;> rfl

theorem bodyCdInit_capacity (hslot : slot < s.params.nSlots) (hm : s.ad.mode ≠ .idle) (hp : PortsSound s)
    (hn : n ≤ lmax) (hc : UVarCode n 0 size) (hin : InputHolds s size) (hfull : s.params.slotSyms < n) :
    bodyCdInit slot s = .error { code := .capacity, info := s.rpos + size.length } := by
  rw [bodyCdInit_size hslot hm hp hn hc hin, decide_eq_false hfull.not_ge]; rfl

theorem bodyCdInit_fits (hslot : slot < s.params.nSlots) (hm : s.ad.mode ≠ .idle) (hp : PortsSound s) (hn : n ≤ lmax)
    (hc : UVarCode n 0 size) (hin : InputHolds s size) (hroom : n ≤ s.params.slotSyms) :
    bodyCdInit slot s = (readCounts s.source n (s.rpos + size.length) >>= readSymbols s slot n) := by
  rw [bodyCdInit_size hslot hm hp hn hc hin, decide_eq_true hroom]; rfl

/-- The counts of a table as CE.INIT writes them. -/
def CountsFor (w n : Nat) (cum : List Nat) : Prop :=
  if 2 ≤ n then SortedArray cum ∧ cum.length = n ∧ cum.getLastD 0 ≤ budget w else cum = []

/-- Over the code of a table's counts CD.INIT reads them. -/
theorem readCounts_code {w k : Nat} {cum : List Nat} {table : List Bool} (hp : PortsSound s) (hcum : CountsFor w n cum)
    (hc : if 2 ≤ n then BodyCode cum table else table = []) (hh : HoldsAt s k table) :
    readCounts s.source n k = .ok (cum, k + table.length) := by
  unfold CountsFor at hcum
  unfold readCounts
  split_ifs at hcum hc ⊢
  · obtain ⟨hsorted, rfl, -⟩ := hcum
    exact decUsaBody_code hp.2 hsorted hc hh
  · rw [hcum, hc]; rfl

/-- Such counts pass the budget check. -/
theorem budgetCheck_countsFor {cum : List Nat} (h : CountsFor s.ad.w n cum) :
    (decide (n < 2) || decide (cum.getLastD 0 ≤ maxTotal s.ad.w)) = true := by
  unfold CountsFor at h
  rw [Bool.or_eq_true, decide_eq_true_eq, decide_eq_true_eq]
  split_ifs at h with h2
  · exact .inr h.2.2
  · exact .inl (not_le.mp h2)

/-- CD.INIT over the code of a table reads the table. -/
theorem bodyCdInit_code {syms cum : List Nat} {bits : List Bool} (hslot : slot < s.params.nSlots)
    (hm : s.ad.mode ≠ .idle) (hp : PortsSound s) (hsyms : SortedArray syms) (hroom : syms.length ≤ s.params.slotSyms)
    (hlen : syms.length ≤ lmax) (hcum : CountsFor s.ad.w syms.length cum) (hc : ContextCode syms cum bits)
    (hin : InputHolds s bits) :
    bodyCdInit slot s = .ok ((s.setRpos (s.rpos + bits.length)).setCd slot (.ready syms cum)) := by
  obtain ⟨size, table, body, hsize, htable, hbody, rfl⟩ := hc
  obtain ⟨hin1, hin23⟩ := holdsAt_append.mp hin
  obtain ⟨hin2, hin3⟩ := holdsAt_append.mp hin23
  rw [bodyCdInit_fits hslot hm hp hlen hsize hin1 hroom, readCounts_code hp hcum htable hin2, ok_bind, readSymbols,
    budgetCheck_countsFor hcum, require_true, ok_bind, decUsaBody_code hp.2 hsyms hbody hin3, List.length_append,
    List.length_append, ← Nat.add_assoc, ← Nat.add_assoc]
  rfl

theorem bodyCdInit_overBudget {cum : List Nat} {table : List Bool} (hslot : slot < s.params.nSlots)
    (hm : s.ad.mode ≠ .idle) (hp : PortsSound s) (hn : cum.length ≤ lmax) (hc : UVarCode cum.length 0 size)
    (h2 : 2 ≤ cum.length) (hroom : cum.length ≤ s.params.slotSyms) (hsorted : SortedArray cum)
    (hover : budget s.ad.w < cum.getLastD 0) (ht : BodyCode cum table) (hin : InputHolds s (size ++ table)) :
    bodyCdInit slot s = .error { code := .precisionBudget, info := s.rpos + (size ++ table).length } := by
  obtain ⟨hin1, hin2⟩ := holdsAt_append.mp hin
  have hcheck : (decide (cum.length < 2) || decide (cum.getLastD 0 ≤ maxTotal s.ad.w)) = false := by
    rw [Bool.or_eq_false_iff, decide_eq_false_iff_not, decide_eq_false_iff_not]
    exact ⟨h2.not_gt, hover.not_ge⟩
  rw [bodyCdInit_fits hslot hm hp hn hc hin1 hroom, readCounts, if_pos h2, decUsaBody_code hp.2 hsorted ht hin2, ok_bind,
    readSymbols, hcheck, List.length_append, ← Nat.add_assoc]
  rfl

theorem bodyCdInit_crowded {w : Nat} {width : List Bool} (hslot : slot < s.params.nSlots) (hm : s.ad.mode ≠ .idle)
    (hp : PortsSound s) (hn : n ≤ lmax) (hc : UVarCode n 0 size) (h2 : 2 ≤ n) (hroom : n ≤ s.params.slotSyms)
    (hw : w ≤ 63) (hmany : 2 ^ w < n) (hcw : UVarCode w 0 width) (hin : InputHolds s (size ++ width)) :
    bodyCdInit slot s = .error { code := .uniquenessViolation, info := s.rpos + (size ++ width).length } := by
  obtain ⟨hin1, hin2⟩ := holdsAt_append.mp hin
  rw [bodyCdInit_fits hslot hm hp hn hc hin1 hroom, readCounts, if_pos h2, decUsaBody_crowded hp.2 hw hmany hcw hin2,
    error_bind, List.length_append, ← Nat.add_assoc]

end CdInit

/-- Settles O54: the size, the counts and the symbols in turn, each with the error of its own check. -/
theorem contextRead : Obligations.ContextRead := by
  refine fun s slot hslot => ⟨fun syms cum bits hm hs hp hsyms hroom hlen hcum hc hin => ?_, fun hm => ?_,
    fun n size hm hp hn hc => ⟨fun hfull hin => ?_, fun cum table h2 hroom hsorted hlen hover ht hin => ?_,
      fun w width h2 hroom hw hmany hcw hin => ?_⟩⟩
  · exact runCommand_read (c := commandOf (.cdInit slot)) hp hs
      (bodyCdInit_code hslot hm hp hsyms hroom hlen hcum hc hin) rfl (.inl ⟨rfl, Nat.le_add_right _ _⟩) rfl rfl rfl rfl rfl
  · exact exec_raises (i := .cdInit slot) (by simp) (bodyCdInit_idle hslot hm)
  · exact runCommand_raisesLate (c := commandOf (.cdInit slot)) hp (bodyCdInit_capacity hslot hm hp hn hc hin hfull)
  · subst hlen
    exact runCommand_raisesLate (c := commandOf (.cdInit slot)) hp
      (bodyCdInit_overBudget hslot hm hp hn hc h2 hroom hsorted hover ht hin)
  · exact runCommand_raisesLate (c := commandOf (.cdInit slot)) hp
      (bodyCdInit_crowded hslot hm hp hn hc h2 hroom hw hmany hcw hin)

/-! ### CD.DEC (43_arithmetic.md R305) -/

section CdDec

variable {s : State} {slot : Nat} {syms cum : List Nat}

theorem bodyCdDec_one {x : Nat} (hslot : slot < s.params.nSlots) (h : s.cdAt slot = .ready [x] cum) :
    bodyCdDec slot s = .ok (s.setR (BitVec.ofNat 64 x)) := by
  rw [bodyCdDec, checkSlot_ok hslot, ok_bind, h]; rfl

theorem bodyCdDec_noTable (hslot : slot < s.params.nSlots)
    (h : s.cdAt slot = .idle ∨ ∃ cum, s.cdAt slot = .ready [] cum) :
    bodyCdDec slot s = .error { code := .invalidState, info := s.rpos } := by
  rw [bodyCdDec, checkSlot_ok hslot, ok_bind]
  rcases h with h | ⟨cum, h⟩ <;> rw [h]

/-- A table of two or more symbols goes through `ADDecode` over its counts. -/
theorem bodyCdDec_many (hslot : slot < s.params.nSlots) (h : s.cdAt slot = .ready syms cum) (h2 : 2 ≤ syms.length) :
    bodyCdDec slot s = (adDecode s (cum.map Int.ofNat)).map (symbolRead fun i => syms.getD i 0) := by
  obtain ⟨x, y, rest, rfl⟩ : ∃ x y rest, syms = x :: y :: rest := by
    match syms, h2 with
    | x :: y :: rest, _ => exact ⟨x, y, rest, rfl⟩
  rw [bodyCdDec, checkSlot_ok hslot, ok_bind, h]
  dsimp only
  rw [if_neg (List.cons_ne_nil y rest)]
  cases adDecode s (cum.map Int.ofNat) <;> rfl

end CdDec

/-- Settles O55: the one symbol, or the one at the index `ADDecode` finds, or the refusals of R298. -/
theorem contextDecode : Obligations.ContextDecode := by
  refine fun s slot hslot => ⟨fun x cum hs hp h => ?_, fun syms cum bits sym x ad h h2 hm ha hs hp hv hr hin hsym => ?_,
    fun h => ?_, fun syms cum h h2 => ⟨fun hm => ?_, fun hm hv => ?_⟩⟩
  · exact runCommand_read (c := commandOf (.cdDec slot)) hp hs (bodyCdDec_one hslot h) rfl (.inl ⟨rfl, le_rfl⟩) rfl rfl rfl
      rfl rfl
  · have hx : syms.getD sym 0 = x := by rw [List.getD_eq_getElem?_getD, hsym]; rfl
    rw [← hx]
    exact runCommand_decoded (c := commandOf (.cdDec slot)) (f := fun i => syms.getD i 0) rfl rfl hm ha hs hp hv hr hin
      (bodyCdDec_many hslot h h2)
  · exact exec_raises (i := .cdDec slot) (by simp) (bodyCdDec_noTable hslot h)
  · refine exec_raises (i := .cdDec slot) (by simp) ((bodyCdDec_many hslot h h2).trans ?_)
    rw [adDecode_refused hm]; rfl
  · have hbad : checkTable s.ad.w (cum.map Int.ofNat) = false :=
      Bool.eq_false_iff.mpr (mt (tableCheck_ofNat _ _).mp hv)
    refine exec_raises (i := .cdDec slot) (by simp) ((bodyCdDec_many hslot h h2).trans ?_)
    rw [adDecode_rejected hm hbad]; rfl

end Sys2Proof
end

section
/-! The Huffman coder (44_huffman.md R350 to R361): the two inits and the passes of the encoder, the tree HD.INIT reads back,
and the descent of HD.DEC. -/

namespace Sys2Proof

open Sys2Proof.Machine Sys2Proof.Config

/-! ### HE.INIT (44_huffman.md R356) -/

section HeInit

variable {s : State} {n slot : Nat}

theorem bodyHeInit_pass2 (hslot : slot < s.params.nSlots) (h : (s.heAt slot).pass = .pass2) :
    bodyHeInit n slot s = .error { code := .invalidState, info := s.wbits.length } := by
  rw [bodyHeInit, checkSlot_ok hslot, ok_bind]
  dsimp only; rw [h]; rfl

theorem bodyHeInit_illegal (hslot : slot < s.params.nSlots) (h : (s.heAt slot).pass ≠ .pass2)
    (hc : ¬ConfigLegal (s.leafCfg n)) :
    bodyHeInit n slot s = .error { code := .invalidArgument, info := s.wbits.length } := by
  rw [← valid_iff, Bool.not_eq_true] at hc
  rw [bodyHeInit, checkSlot_ok hslot, ok_bind]
  dsimp only; rw [bne_iff_ne.mpr h, hc]; rfl

/-- HE.INIT outside pass 2, after the check of the configuration: in pass 1 the writer and the symbols are checked, then the
tree goes out; else pass 1 starts. -/
theorem bodyHeInit_legal (hslot : slot < s.params.nSlots) (h : (s.heAt slot).pass ≠ .pass2)
    (hc : ConfigLegal (s.leafCfg n)) :
    bodyHeInit n slot s =
      if (s.heAt slot).pass = .pass1 then
        checkOpen s >>= fun _ =>
          require ((s.heAt slot).freq.all fun p => leafOk (s.leafCfg n) p.1)
            { code := .invalidArgument, info := s.wpos } >>= fun _ =>
          .ok ((s.emit (treeBits (s.leafCfg n) (s.heAt slot).freq)).setHe slot
            { s.heAt slot with codes := treeCodes (s.heAt slot).freq, pass := .pass2 })
      else .ok (s.setHe slot { pass := .pass1, freq := [], codes := [] }) := by
  rw [bodyHeInit, checkSlot_ok hslot, ok_bind]
  dsimp only; rw [bne_iff_ne.mpr h, (valid_iff _).mpr hc]; rfl

theorem bodyHeInit_start (hslot : slot < s.params.nSlots) (hc : ConfigLegal (s.leafCfg n))
    (h : (s.heAt slot).pass = .idle ∨ (s.heAt slot).pass = .done) :
    bodyHeInit n slot s = .ok (s.setHe slot { pass := .pass1, freq := [], codes := [] }) := by
  rcases h with h | h <;> rw [bodyHeInit_legal hslot (by simp [h]) hc, if_neg (by simp [h])]

/-- The symbol check of HE.INIT. -/
theorem leavesCheck_iff {cfg : LeafCfg} {freq : List (Int × Nat)} :
    (freq.all fun p => leafOk cfg p.1) = true ↔ ∀ p ∈ freq, Represents cfg p.1 := by
  simp only [List.all_eq_true, leafOk_iff]

theorem bodyHeInit_tree (hslot : slot < s.params.nSlots) (hc : ConfigLegal (s.leafCfg n))
    (h : (s.heAt slot).pass = .pass1) (ho : s.wclosed = false)
    (hr : ∀ p ∈ (s.heAt slot).freq, Represents (s.leafCfg n) p.1) :
    bodyHeInit n slot s =
      .ok ((s.emit (treeBits (s.leafCfg n) (s.heAt slot).freq)).setHe slot
        { pass := .pass2, freq := (s.heAt slot).freq, codes := treeCodes (s.heAt slot).freq }) := by
  rw [bodyHeInit_legal hslot (by simp [h]) hc, if_pos h, checkOpen_open ho, leavesCheck_iff.mpr hr]; rfl

theorem bodyHeInit_closed (hslot : slot < s.params.nSlots) (hc : ConfigLegal (s.leafCfg n))
    (h : (s.heAt slot).pass = .pass1) (hclosed : s.wclosed = true) :
    bodyHeInit n slot s = .error { code := .invalidState, info := s.wbits.length } := by
  rw [bodyHeInit_legal hslot (by simp [h]) hc, if_pos h, checkOpen_closed hclosed]; rfl

theorem bodyHeInit_unrepresented (hslot : slot < s.params.nSlots) (hc : ConfigLegal (s.leafCfg n))
    (h : (s.heAt slot).pass = .pass1) (ho : s.wclosed = false)
    (hr : ¬∀ p ∈ (s.heAt slot).freq, Represents (s.leafCfg n) p.1) :
    bodyHeInit n slot s = .error { code := .invalidArgument, info := s.wbits.length } := by
  rw [← leavesCheck_iff, Bool.not_eq_true] at hr
  rw [bodyHeInit_legal hslot (by simp [h]) hc, if_pos h, checkOpen_open ho, hr]; rfl

/-- The serialized tree of a sound slot's counts is the code of R355 for `BuildTree`'s tree: its leaves are the symbols
counted, which the configuration represents. -/
theorem treeCode_buildTree {cfg : LeafCfg} {k : Nat} {st : HeSlot} (hc : ConfigLegal cfg) (hst : HeSound k st)
    (hne : st.freq ≠ []) (hr : ∀ p ∈ st.freq, Represents cfg p.1) :
    TreeCode cfg (buildTree st.freq) (serTree cfg (buildTree st.freq)) := by
  obtain ⟨-, -, -, hrange⟩ := hst
  exact serTree_code hc (buildTree_leaves hne fun p hp => ⟨hr p hp, hrange p hp⟩)

end HeInit

/-- Settles O56: pass 1 starts empty, the init after it emits the flag and `BuildTree`'s tree; the checks come in the order
of R356. -/
theorem huffmanInit : Obligations.HuffmanInit := by
  refine ⟨fun s n slot hslot hs hp hc => ⟨fun h => ?_, fun h ho hempty => ?_, fun h ho hne hsl hr => ?_⟩,
    fun s n slot hslot => ⟨fun h => ?_, fun h hc => ?_, fun h hc => ⟨fun hclosed => ?_, fun ho hbad => ?_⟩⟩⟩
  · exact runCommand_unread (c := commandOf (.heInit n slot)) hp hs (bodyHeInit_start hslot hc h) rfl rfl le_rfl rfl rfl rfl
      rfl
  · have hbody := bodyHeInit_tree hslot hc h ho (by simp [hempty])
    rw [hempty] at hbody
    exact runCommand_unread (c := commandOf (.heInit n slot)) hp hs hbody rfl rfl (by simp) rfl rfl rfl rfl
  · have hbody := bodyHeInit_tree hslot hc h ho hr
    rw [treeBits, if_neg hne, treeCodes, if_neg hne] at hbody
    obtain ⟨t, ht, hends⟩ := runCommand_unread (c := commandOf (.heInit n slot)) hp hs hbody rfl rfl (by simp) rfl rfl rfl
      rfl
    exact ⟨t, _, _, ht, buildTree_builds hne, treeCode_buildTree hc (hsl.heAt slot) hne hr, hends⟩
  · exact exec_raises (i := .heInit n slot) (by simp) (bodyHeInit_pass2 hslot h)
  · exact exec_raises (i := .heInit n slot) (by simp) (bodyHeInit_illegal hslot h hc)
  · exact exec_raises (i := .heInit n slot) (by simp) (bodyHeInit_closed hslot hc h hclosed)
  · refine exec_raises (i := .heInit n slot) (by simp) (bodyHeInit_unrepresented hslot hc h ho fun hr => ?_)
    obtain ⟨p, hp, hnot⟩ := hbad
    exact hnot (hr p hp)

/-! ### HE.ENC (44_huffman.md R357) -/

/-- A symbol seen before keeps its place and has its count raised by 1. -/
theorem huffAdd_seen {x : Int} {freq : List (Int × Nat)} (hnodup : (freq.map Prod.fst).Nodup)
    (hseen : ∃ p ∈ freq, p.1 = x) :
    huffAdd x freq = freq.map fun p => if p.1 = x then (p.1, p.2 + 1) else p := by
  induction freq with
  | nil => simp at hseen
  | cons q rest ih =>
    obtain ⟨y, c⟩ := q
    rw [List.map_cons, List.nodup_cons] at hnodup
    obtain ⟨hhead, hrest⟩ := hnodup
    by_cases hy : y = x
    · have hkept : rest.map (fun p => if p.1 = x then (p.1, p.2 + 1) else p) = rest :=
        (List.map_congr_left fun p hp => if_neg fun he => hhead (List.mem_map.mpr ⟨p, hp, he.trans hy.symm⟩)).trans
          (List.map_id rest)
      rw [huffAdd, if_pos hy, List.map_cons, if_pos hy, hkept]
    · have hseen' : ∃ p ∈ rest, p.1 = x := by simpa [hy] using hseen
      rw [huffAdd, if_neg hy, List.map_cons, if_neg hy, ih hrest hseen']

/-- A new symbol goes to the end of the order with count 1. -/
theorem huffAdd_new {x : Int} {freq : List (Int × Nat)} (hnew : ∀ p ∈ freq, p.1 ≠ x) :
    huffAdd x freq = freq ++ [(x, 1)] := by
  induction freq with
  | nil => rfl
  | cons q rest ih =>
    obtain ⟨hq, hrest⟩ := List.forall_mem_cons.mp hnew
    rw [huffAdd, if_neg hq, ih hrest, List.cons_append]

/-- The code of a symbol is that of the first entry for it. -/
theorem codeOf_eq_find? (x : Int) (codes : List (Int × List Bool)) :
    codeOf x codes = (codes.find? fun p => p.1 = x).map Prod.snd := by
  induction codes with
  | nil => rfl
  | cons q rest ih =>
    obtain ⟨y, code⟩ := q
    by_cases hy : y = x
    · simp [codeOf, hy]
    · simp [codeOf, hy, ih]

theorem codeOf_eq_none_iff {x : Int} {codes : List (Int × List Bool)} :
    codeOf x codes = none ↔ ∀ p ∈ codes, p.1 ≠ x := by
  simp [codeOf_eq_find?]

section HeEnc

variable {s : State} {slot : Nat}

theorem bodyHeEnc_noPass (hslot : slot < s.params.nSlots)
    (h : (s.heAt slot).pass = .idle ∨ (s.heAt slot).pass = .done) :
    bodyHeEnc slot s = .error { code := .invalidState, info := s.wbits.length } := by
  rw [bodyHeEnc, checkSlot_ok hslot, ok_bind]
  rcases h with h | h <;> (dsimp only; rw [h]; rfl)

/-- HE.ENC in pass 1 after the slot check. -/
theorem bodyHeEnc_pass1 (hslot : slot < s.params.nSlots) (h : (s.heAt slot).pass = .pass1) :
    bodyHeEnc slot s =
      (require (((s.heAt slot).freq.map Prod.fst).contains s.opA || (s.heAt slot).freq.length != s.params.slotSyms)
          { code := .capacity, info := s.wpos } >>= fun _ =>
        .ok (s.setHe slot { s.heAt slot with freq := huffAdd s.opA (s.heAt slot).freq })) := by
  rw [bodyHeEnc, checkSlot_ok hslot, ok_bind]
  dsimp only; rw [h]

/-- The symbol of `A` is counted in the slot, or the slot has room for it. -/
def HasRoom (s : State) (slot : Nat) : Prop :=
  (∃ p ∈ (s.heAt slot).freq, p.1 = s.a.toInt) ∨ (s.heAt slot).freq.length ≠ s.params.slotSyms

/-- The room check of HE.ENC. -/
theorem hasRoomCheck_iff :
    (((s.heAt slot).freq.map Prod.fst).contains s.opA || (s.heAt slot).freq.length != s.params.slotSyms) = true ↔
      HasRoom s slot := by
  rw [Bool.or_eq_true, List.contains_iff_mem, List.mem_map, bne_iff_ne]; rfl

theorem bodyHeEnc_counted (hslot : slot < s.params.nSlots) (h : (s.heAt slot).pass = .pass1) (hroom : HasRoom s slot) :
    bodyHeEnc slot s = .ok (s.setHe slot { s.heAt slot with freq := huffAdd s.a.toInt (s.heAt slot).freq }) := by
  rw [bodyHeEnc_pass1 hslot h, hasRoomCheck_iff.mpr hroom]; rfl

theorem bodyHeEnc_full (hslot : slot < s.params.nSlots) (h : (s.heAt slot).pass = .pass1) (hroom : ¬HasRoom s slot) :
    bodyHeEnc slot s = .error { code := .capacity, info := s.wbits.length } := by
  rw [← hasRoomCheck_iff, Bool.not_eq_true] at hroom
  rw [bodyHeEnc_pass1 hslot h, hroom]; rfl

theorem bodyHeEnc_notSeen (hslot : slot < s.params.nSlots) (h : (s.heAt slot).pass = .pass2)
    (hnone : codeOf s.a.toInt (s.heAt slot).codes = none) :
    bodyHeEnc slot s = .error { code := .symbolNotSeen, info := s.wbits.length } := by
  rw [bodyHeEnc, checkSlot_ok hslot, ok_bind]
  dsimp only; rw [h]; dsimp only; rw [State.opA, hnone]; rfl

/-- HE.ENC in pass 2 for a symbol with a code: the writer is checked, then the code goes out. -/
theorem bodyHeEnc_pass2 {code : List Bool} (hslot : slot < s.params.nSlots) (h : (s.heAt slot).pass = .pass2)
    (hcode : codeOf s.a.toInt (s.heAt slot).codes = some code) :
    bodyHeEnc slot s = (checkOpen s >>= fun _ => .ok (s.emit code)) := by
  rw [bodyHeEnc, checkSlot_ok hslot, ok_bind]
  dsimp only; rw [h]; dsimp only; rw [State.opA, hcode]

end HeEnc

/-- Settles O57: `huffAdd` counts in pass 1, where the slot has room; `codeOf` finds the code in pass 2. -/
theorem huffmanEncode : Obligations.HuffmanEncode := by
  refine fun s slot hslot => ⟨fun h hs hp hsl hseen => ?_, fun h hs hp hnew hroom => ?_, fun code h ho hs hp hfind => ?_,
    fun h hnew hfull => ?_, fun h hclosed hseen => ?_, fun h hnone => ?_, fun h => ?_⟩
  · obtain ⟨hnodup, -⟩ := hsl.heAt slot
    rw [← huffAdd_seen hnodup hseen]
    exact runCommand_unread (c := commandOf (.heEnc slot)) hp hs (bodyHeEnc_counted hslot h (.inl hseen)) rfl rfl le_rfl rfl
      rfl rfl rfl
  · rw [← huffAdd_new hnew]
    exact runCommand_unread (c := commandOf (.heEnc slot)) hp hs (bodyHeEnc_counted hslot h (.inr hroom.ne)) rfl rfl le_rfl
      rfl rfl rfl rfl
  · have hcode : codeOf s.a.toInt (s.heAt slot).codes = some code := by rw [codeOf_eq_find?, hfind]; rfl
    refine runCommand_emit (c := commandOf (.heEnc slot)) hp hs rfl rfl ((bodyHeEnc_pass2 hslot h hcode).trans ?_)
    rw [checkOpen_open ho, ok_bind]
  · refine exec_raises (i := .heEnc slot) (by simp) (bodyHeEnc_full hslot h ?_)
    rintro (⟨p, hp, he⟩ | hroom)
    · exact hnew p hp he
    · exact hroom hfull
  · obtain ⟨p, hp, he⟩ := hseen
    obtain ⟨code, hcode⟩ := Option.ne_none_iff_exists'.mp fun hnone => codeOf_eq_none_iff.mp hnone p hp he
    refine exec_raises (i := .heEnc slot) (by simp) ((bodyHeEnc_pass2 hslot h hcode).trans ?_)
    rw [checkOpen_closed hclosed]; rfl
  · exact exec_raises (i := .heEnc slot) (by simp) (bodyHeEnc_notSeen hslot h (codeOf_eq_none_iff.mpr hnone))
  · exact exec_raises (i := .heEnc slot) (by simp) (bodyHeEnc_noPass hslot h)

/-! ### HD.INIT (44_huffman.md R359, R360) -/

section HdInit

variable {s : State} {n slot : Nat} {tree : HTree} {bits : List Bool}

theorem bodyHdInit_illegal (hslot : slot < s.params.nSlots) (hc : ¬ConfigLegal (s.leafCfg n)) :
    bodyHdInit n slot s = .error { code := .invalidArgument, info := s.rpos } := by
  rw [← valid_iff, Bool.not_eq_true] at hc
  rw [bodyHdInit, checkSlot_ok hslot, ok_bind, hc]; rfl

/-- HD.INIT after its checks and the flag: no tree, or the tree read from the next bit on. -/
theorem bodyHdInit_flag {f : Bool} (hslot : slot < s.params.nSlots) (hc : ConfigLegal (s.leafCfg n))
    (hp : PortsSound s) (hf : inputBit s s.rpos = some f) :
    bodyHdInit n slot s =
      if f then
        readTree s.source (s.leafCfg n) s.params.slotSyms s.params.slotSyms 0 0 (s.rpos + 1) >>= fun r =>
          .ok ((s.setRpos r.2.2.2).setHd slot (.ready r.1))
      else .ok ((s.setRpos (s.rpos + 1)).setHd slot .empty) := by
  rw [bodyHdInit, checkSlot_ok hslot, ok_bind, (valid_iff _).mpr hc, require_true, ok_bind, takeBit_some hp.2 hf, ok_bind]

theorem bodyHdInit_empty (hslot : slot < s.params.nSlots) (hc : ConfigLegal (s.leafCfg n)) (hp : PortsSound s)
    (hin : InputHolds s [false]) :
    bodyHdInit n slot s = .ok ((s.setRpos (s.rpos + 1)).setHd slot .empty) := by
  obtain ⟨hf, -⟩ := holdsAt_cons.mp hin
  rw [bodyHdInit_flag hslot hc hp hf, if_neg Bool.false_ne_true]

/-- HD.INIT over the code of a tree that a slot holds reads the tree. -/
theorem bodyHdInit_code (hslot : slot < s.params.nSlots) (hc : ConfigLegal (s.leafCfg n)) (hp : PortsSound s)
    (ht : TreeCode (s.leafCfg n) tree bits) (hroom : leafCount tree ≤ s.params.slotSyms)
    (hin : InputHolds s (true :: bits)) :
    bodyHdInit n slot s = .ok ((s.setRpos (s.rpos + (bits.length + 1))).setHd slot (.ready tree)) := by
  obtain ⟨hf, htree⟩ := holdsAt_cons.mp hin
  rw [bodyHdInit_flag hslot hc hp hf, if_pos rfl,
    readTree_code hp.2 ht _ 0 0 _ hroom (by omega) (by omega) htree, ok_bind, Nat.add_assoc, Nat.add_comm 1]

/-- HD.INIT over the code of a larger tree raises inside it. -/
theorem bodyHdInit_capacity (hslot : slot < s.params.nSlots) (hc : ConfigLegal (s.leafCfg n)) (hp : PortsSound s)
    (ht : TreeCode (s.leafCfg n) tree bits) (hlarge : s.params.slotSyms < leafCount tree)
    (hin : InputHolds s (true :: bits)) :
    ∃ info, bodyHdInit n slot s = .error { code := .capacity, info := info } ∧ s.rpos < info ∧
      info ≤ s.rpos + (bits.length + 1) := by
  obtain ⟨hf, htree⟩ := holdsAt_cons.mp hin
  obtain ⟨info, hlo, hhi, hread⟩ := readTree_capacity hp.2 ht hlarge s.params.slotSyms 0 0 _ htree
  refine ⟨info, ?_, by omega, by omega⟩
  rw [bodyHdInit_flag hslot hc hp hf, if_pos rfl, hread, error_bind]

end HdInit

/-- Settles O58: the flag, then `ReadTree`, which takes exactly the code of a tree or raises `CAPACITY` inside it. -/
theorem huffmanRead : Obligations.HuffmanRead := by
  refine ⟨fun s n slot hslot hs hp hc => ⟨fun hin => ?_, fun tree bits ht hroom hin => ?_⟩, fun s n slot hslot hc => ?_,
    fun s n slot tree bits hslot hp hc ht hlarge hin => ?_⟩
  · exact runCommand_read (c := commandOf (.hdInit n slot)) hp hs (bodyHdInit_empty hslot hc hp hin) rfl
      (.inl ⟨rfl, Nat.le_add_right _ _⟩) rfl rfl rfl rfl rfl
  · exact runCommand_read (c := commandOf (.hdInit n slot)) hp hs (bodyHdInit_code hslot hc hp ht hroom hin) rfl
      (.inl ⟨rfl, Nat.le_add_right _ _⟩) rfl rfl rfl rfl rfl
  · exact exec_raises (i := .hdInit n slot) (by simp) (bodyHdInit_illegal hslot hc)
  · obtain ⟨info, hbody, hlo, hhi⟩ := bodyHdInit_capacity hslot hc hp ht hlarge hin
    obtain ⟨t, hrun, hraise⟩ := runCommand_raisesLate (c := commandOf (.hdInit n slot)) hp hbody
    exact ⟨t, info, hrun, hraise, hlo, hhi⟩

/-! ### HD.DEC (44_huffman.md R361) -/

section HdDec

variable {s : State} {slot : Nat}

theorem bodyHdDec_path {tree : HTree} {code : List Bool} {x : Int} (hslot : slot < s.params.nSlots)
    (h : s.hdAt slot = .ready tree) (hp : PortsSound s) (hpath : LeafPath tree code x) (hin : InputHolds s code) :
    bodyHdDec slot s = .ok ((s.setRpos (s.rpos + code.length)).setR (BitVec.ofInt 64 x)) := by
  rw [bodyHdDec, checkSlot_ok hslot, ok_bind, h]
  dsimp only; rw [descend_path hp.2 hpath _ hin, ok_bind]

theorem bodyHdDec_noTree (hslot : slot < s.params.nSlots) (h : s.hdAt slot = .idle ∨ s.hdAt slot = .empty) :
    bodyHdDec slot s = .error { code := .invalidState, info := s.rpos } := by
  rw [bodyHdDec, checkSlot_ok hslot, ok_bind]
  rcases h with h | h <;> rw [h]

end HdDec

/-- Settles O59: the codes are the paths, and the descent follows the path it finds in the stream. -/
theorem huffmanDecode : Obligations.HuffmanDecode := by
  refine ⟨mem_assignCodes, fun s slot hslot => ⟨fun tree code x h hpath hs hp hin => ?_, fun h => ?_⟩⟩
  · exact runCommand_readTo (c := commandOf (.hdDec slot)) hp hs rfl rfl (Nat.le_add_right _ _)
      (bodyHdDec_path hslot h hp hpath hin)
  · exact exec_raises (i := .hdDec slot) (by simp) (bodyHdDec_noTree hslot h)

end Sys2Proof
end

section
/-! Errors and SRESET (60_exceptions.md R400 to R409): how every command ends, the return from FAULT, and what the host
can do in FAULT. -/

namespace Sys2Proof

open Sys2Proof.Machine Sys2Proof.Config

/-! ### Every command ends (60_exceptions.md R402) -/

/-- An error leaves the engine in FAULT, as it clears BUSY (10_state.md R58). -/
theorem engineState_errorStatus {t : State} {op : Nat} {e : ErrCode} (h : t.status = errorStatus op e) :
    engineState t = .fault := by
  rw [engineState, h]; rfl

/-- Only an error writes ERR_INFO. -/
theorem exec_errInfo {i : Instr} {s t : State} (hi : i ≠ .sreset) (h : exec i s = .next t) :
    t.errInfo = s.errInfo ∨ ∃ e, t.status = errorStatus i.opcode e := by
  rcases exec_cases hi h with ⟨s1, k, q, hb, rfl⟩ | ⟨e, info, rfl⟩ | ⟨e, hl⟩
  · have hs1 : s1.errInfo = s.errInfo := by rw [(body_frame hb).1]
    exact .inl (by simp [hs1])
  · exact .inr ⟨e, rfl⟩
  · exact .inr ⟨e.code, by rw [hl.eq, commandOf_op]⟩

/-- Settles O19: a command that raises names itself in STATUS, and one that does not leaves STATUS and ERR_INFO. -/
theorem everyCommandEnds : Obligations.EveryCommandEnds := by
  intro i s hi
  obtain ⟨t, ht⟩ := exec_next i s
  have raised : (∃ e, t.status = errorStatus i.opcode e) →
      ∃ e, t.status = errorStatus i.opcode e ∧ engineState t = .fault :=
    fun ⟨e, he⟩ => ⟨e, he, engineState_errorStatus he⟩
  refine ⟨t, ht, ?_⟩
  rcases exec_status hi ht with hstatus | herror
  · exact (exec_errInfo hi ht).imp (⟨hstatus, ·⟩) raised
  · exact .inr (raised herror)

/-! ### SRESET (60_exceptions.md R409) -/

theorem exec_sreset (s : State) : exec .sreset s = .next (s.resetBlock s.arr) := rfl

theorem encode_sreset : encode .sreset = 0x01 := rfl

theorem decode_sreset : decode 0x01 = .ok .sreset := by
  rw [← encode_sreset]; exact decodeOfEncode .sreset rfl

/-- Both resets leave what is the host's (log 14): the source goes on at the first byte not pulled. -/
theorem resetBlock_hostSide (s : State) (cells : List ArrCell) :
    (s.resetBlock cells).sink = s.sink ∧ (s.resetBlock cells).src = s.src.drop s.pulled ∧
      (s.resetBlock cells).moves = s.moves ∧ (s.resetBlock cells).readData = s.readData ∧
      (s.resetBlock cells).draws = s.draws := ⟨rfl, rfl, rfl, rfl, rfl⟩

/-- Settles O10, by the reset values of the block's reset. -/
theorem sresetResets : Obligations.SresetResets :=
  ⟨encode_sreset, fun s => ⟨s.resetBlock s.arr, exec_sreset s, atResetValues_resetBlock s s.arr, rfl, rfl⟩⟩

/-- Settles O11: SRESET is the block's reset. -/
theorem sresetKeepsHostSide : Obligations.SresetKeepsHostSide := by
  intro s t h
  rw [exec_sreset] at h
  cases h
  exact resetBlock_hostSide s s.arr

/-! ### The host in FAULT (60_exceptions.md R404) -/

/-- In FAULT a write of CMD is ignored, but for the word of SRESET. -/
theorem cmdWrite_ignored {s : State} {v : Word} (hf : s.status.fault = true) (hv : v ≠ 0x01) : cmdWrite s v = s :=
  if_pos (by rw [Bool.and_eq_true, bne_iff_ne]; exact ⟨hf, hv⟩)

/-- The word of SRESET starts a command in FAULT too. -/
theorem cmdWrite_sreset (s : State) :
    cmdWrite s 0x01 = { s with cmd := 0x01, status := { s.status with busy := true } } := by
  simp [cmdWrite]

/-- A block that is not BUSY takes the host's write of CMD. -/
theorem step_cmdWrite {s : State} {rest : List HostMove} {v : Word} (hb : s.status.busy = false)
    (hm : s.moves = .write 0x000 v :: rest) : step s = .next (cmdWrite { s with moves := rest } v) := by
  rw [step_move hb hm, hostStep_write rfl]; rfl

/-- Settles O6: a CMD write by its value, and the read of STATUS. -/
theorem faultIgnoresCommands : Obligations.FaultIgnoresCommands := by
  intro s rest hf hb
  refine ⟨fun w hw hm => ?_, fun hm => ?_, fun hm => ?_⟩
  · rw [step_cmdWrite hb hm, cmdWrite_ignored (s := { s with moves := rest }) hf hw]
  · refine ⟨_, (step_cmdWrite hb hm).trans (congrArg _ (cmdWrite_sreset _)), rfl, ?_⟩
    exact engineStep_decoded decode_sreset
  · rw [step_move hb hm, hostStep_read rfl]; rfl

end Sys2Proof
end

section
/-! The reset input (70_reset_and_hazards.md R440): what its step leaves in a block that is not BUSY, and in one whose
command it abandons. -/

namespace Sys2Proof

open Sys2Proof.Machine Sys2Proof.Config

/-! ### What the reset input leaves -/

/-- The block `s` after the reset input, the host's moves `rest` still to come: ARR is unspecified again, and the sink
has received `more` (R440). -/
structure ResetInputDone (s : State) (rest : List HostMove) (more : List Byte) (t : State) : Prop where
  values : AtResetValues t
  arr : t.arr = []
  params : t.params = s.params
  moves : t.moves = rest
  sink : t.sink = s.sink ++ more

/-- The reset of a block that is not BUSY moves no byte. -/
theorem resetInputDone_hardReset (s : State) (rest : List HostMove) :
    ResetInputDone s rest [] ({ s with moves := rest } : State).hardReset :=
  ⟨atResetValues_resetBlock _ [], rfl, rfl, rfl, (List.append_nil s.sink).symm⟩

/-- The abandoned command, which would have left `t`, has moved an initial part of its bytes (I11). -/
theorem resetInputDone_abandon (s t : State) (rest : List HostMove) :
    ∃ more, ResetInputDone s rest more (abandon { s with moves := rest } t) :=
  ⟨_, atResetValues_resetBlock _ [], rfl, rfl, rfl, rfl⟩

/-! ### The step of the reset input -/

/-- A block that is not BUSY takes the reset input as the host's next move. -/
theorem step_reset_ready {s : State} {rest : List HostMove} (hb : s.status.busy = false)
    (hm : s.moves = .reset :: rest) : step s = .next ({ s with moves := rest } : State).hardReset := by
  rw [step_move hb hm, hostStep]

/-- A BUSY block takes the reset input at once and abandons its command: every command word answers a next state. -/
theorem step_reset_busy {s : State} {rest : List HostMove} (hb : s.status.busy = true)
    (hm : s.moves = .reset :: rest) : ∃ u, step s = .next (abandon { s with moves := rest } u) := by
  obtain ⟨u, hu⟩ := engine_next { s with moves := rest }
  refine ⟨u, ?_⟩
  rw [step, blockStep, if_pos hb, busyStep, hm]
  dsimp only
  rw [resetWhileBusy, hu]

/-- Settles O12: the reset input on a block that is not BUSY and on one that is, and SRESET by the block's reset. -/
theorem resetInput : Obligations.ResetInput := by
  refine ⟨fun s rest hm => ?_, fun s t h => ?_⟩
  · cases hb : s.status.busy with
    | false =>
      have hd := resetInputDone_hardReset s rest
      exact ⟨_, step_reset_ready hb hm, hd.values, hd.arr, hd.params, hd.moves, [], hd.sink, fun _ => rfl⟩
    | true =>
      obtain ⟨u, hstep⟩ := step_reset_busy hb hm
      obtain ⟨more, hd⟩ := resetInputDone_abandon s u rest
      exact ⟨_, hstep, hd.values, hd.arr, hd.params, hd.moves, more, hd.sink, nofun⟩
  · rw [exec_sreset] at h
    cases h
    exact ⟨atResetValues_resetBlock s s.arr, rfl⟩

end Sys2Proof
end
